-- ==== Sys2Proof/Word.lean ====
section
/-! DEFINITION. The numbers, indexes and operand records that the 6408's commands carry. -/

namespace Sys2Proof

/-- A character of the cabinet link, or a one-byte number of a frame (R193). -/
abbrev Byte := BitVec 8

/-- A two-byte number of a frame (R193). -/
abbrev Half := BitVec 16

/-- A four-byte number of a frame (R193). -/
abbrev Quad := BitVec 32

/-- A cabinet time: a 32-bit count of milliseconds that wraps (R1). -/
abbrev Time := BitVec 32

/-- A line L00 to L63. -/
abbrev LineNo := Fin 64

/-- A physical pair P00 to P71. -/
abbrev PairNo := Fin 72

/-- A binder B0 to B8. -/
abbrev BinderNo := Fin 9

/-- A tone detector D0 to D7. -/
abbrev DetectorNo := Fin 8

/-- A digit symbol by its code: 0 to 9, 10 for `*`, 11 for `#`, 12 to 15 for A to D (R2). -/
abbrev Symbol := Fin 16

/-- The status a sample reply carries on the sense port (R26): GOOD, SATURATED, or a status that the
port does not define for a reply. -/
inductive SampleStatus where
  | good
  | saturated
  | other
deriving DecidableEq, Repr

/-- A sample reply as the sense array sends it (R26). The values are as received, in range or not. -/
structure SampleReply where
  pair : Nat
  status : SampleStatus
  loopMa : Int
  tipV : Int
  ringV : Int
  longMa : Int
deriving DecidableEq, Repr

/-- A READING as the meter sends it (section 9.1). The values are as received, in range or not. -/
structure MeterReading where
  seq : Byte
  tipGround : Nat
  ringGround : Nat
  tipRing : Nat
  volts : Nat
deriving DecidableEq, Repr

/-- The nineteen fields of PROFILE_WRITE as the frame carries them (R193, in the order of R13). -/
structure ProfileArgs where
  seizeMa : Byte
  releaseMa : Byte
  glitch : Byte
  seizeMs : Half
  brkMinMs : Byte
  brkMaxMs : Byte
  flashMinMs : Half
  flashMaxMs : Half
  gapMs : Half
  gapLoMs : Half
  gapHiMs : Half
  learnSpanMs : Half
  periodLoMs : Byte
  periodHiMs : Byte
  firstMs : Half
  collectMs : Half
  methods : Byte
  recordMode : Byte
  settleMs : Half
deriving DecidableEq, Repr

/-- The fields of WINDOW_WRITE for W0 to W7 after the window number (R193). -/
structure WindowArgs where
  enabled : Byte
  patternLen : Byte
  positions : Vector Byte 8
  rule : Byte
  n : Byte
  cls : Byte
  urgent : Byte
  replPresent : Byte
  replLen : Byte
  symbols : Vector Byte 8
deriving DecidableEq, Repr

/-- WINDOW_WRITE names a window by a code and carries 25 bytes, or names DEFAULT and carries two (R193). -/
inductive WindowWriteArgs where
  | window (code : Byte) (fields : WindowArgs)
  | default (cls : Byte)
deriving DecidableEq, Repr

/-- The seven settings of WATCH_SET in the order of R133. -/
structure WatchArgs where
  suspectScore : Byte
  sustainMs : Half
  binderK : Byte
  holdMs : Quad
  mode : Byte
  guardMs : Quad
  pairs : BitVec 72
deriving DecidableEq, Repr

/-- The five writable settings of TEST_SET (R154). -/
structure TestSetArgs where
  attemptsMax : Byte
  quietFirstMs : Half
  quietRetryMs : Half
  rMinKohm : Half
  vTest : Byte
deriving DecidableEq, Repr

end Sys2Proof
end

