-- ==== Sys2Proof/Syntax.lean ====
section
/-! DEFINITION. The commands of the 6408: one constructor per row of spec/opcode_table.json. -/

namespace Sys2Proof

/-- The commands the part takes, in the order of the table. A request row stands for a good frame of
that request with the tag `tag` and the row's arguments as the frame carries them (log 4). -/
inductive Instr where
  /-- POWER_ON_RESET (R197); the operands are the levels of RATE1 and RATE0 (R185). -/
  | powerOnReset (rate1 rate0 : Bool)
  /-- RESET_PIN (R197); the operands are the levels of RATE1 and RATE0 (R185). -/
  | resetPin (rate1 rate0 : Bool)
  /-- PASS (R22). -/
  | pass
  /-- SAMPLE_REPLY (R25). -/
  | sampleReply (r : SampleReply)
  /-- SETTLE_EXPIRY (R20). -/
  | settleExpiry (line : LineNo)
  /-- SEIZE_EXPIRY (R40). -/
  | seizeExpiry (line : LineNo)
  /-- FIRST_DIGIT_EXPIRY (R42). -/
  | firstDigitExpiry (line : LineNo)
  /-- RELEASE: the expiry of the break timer (R51). -/
  | release (line : LineNo)
  /-- GAP_EXPIRY (R61). -/
  | gapExpiry (line : LineNo)
  /-- COLLECT_EXPIRY (R96). -/
  | collectExpiry (line : LineNo)
  /-- LEARN_EXPIRY (R72). -/
  | learnExpiry (line : LineNo)
  /-- TONE_ONSET (R83). -/
  | toneOnset (detector : DetectorNo) (symbol : Symbol)
  /-- TONE_OFFSET (R83). -/
  | toneOffset (detector : DetectorNo)
  /-- SUSTAIN_EXPIRY (R139). -/
  | sustainExpiry (pair : PairNo)
  /-- GUARD_EXPIRY (R141). -/
  | guardExpiry (pair : PairNo)
  /-- HOLD_EXPIRY (R149). -/
  | holdExpiry (binder : BinderNo)
  /-- QUIET_EXPIRY (R161). -/
  | quietExpiry
  /-- READING (R162). -/
  | reading (r : MeterReading)
  /-- READING_TIMEOUT (R164). -/
  | readingTimeout
  /-- CHARACTER_ERROR (R189). -/
  | characterError
  /-- CHARACTER_GAP (R189). -/
  | characterGap
  /-- BAD_FRAME (R188): the characters that followed the mark of a false frame. -/
  | badFrame (chars : List Byte)
  /-- GOOD_FRAME (R190): the type, tag and payload of a good frame. -/
  | goodFrame (type tag : Byte) (payload : List Byte)
  /-- FRAME_SENT (R178): the transmitter has sent the last byte of the frame in flight. -/
  | frameSent
  /-- LINE_ENABLE (R7). -/
  | lineEnable (tag : Byte) (lines : BitVec 64)
  /-- LINE_DISABLE (R8). -/
  | lineDisable (tag : Byte) (lines : BitVec 64)
  /-- LINE_MAP (R9). -/
  | lineMap (tag line pair profile : Byte)
  /-- LINE_SWAP (R10). -/
  | lineSwap (tag lineA lineB : Byte)
  /-- LINE_RESET (R11). -/
  | lineReset (tag line : Byte)
  /-- LINE_QUERY (R12). -/
  | lineQuery (tag line : Byte)
  /-- PROFILE_WRITE (R14). -/
  | profileWrite (tag profile : Byte) (fields : ProfileArgs)
  /-- PROFILE_READ (R15). -/
  | profileRead (tag profile : Byte)
  /-- SCAN_MODE (R24). -/
  | scanMode (tag mode : Byte)
  /-- DETECTOR_SERVICE with service OUT (R88). -/
  | detectorServiceOut (tag detector : Byte)
  /-- DETECTOR_SERVICE with service IN (R89). -/
  | detectorServiceIn (tag detector : Byte)
  /-- DETECTOR_QUERY (R90). -/
  | detectorQuery (tag : Byte)
  /-- WINDOW_WRITE (R100). -/
  | windowWrite (tag : Byte) (args : WindowWriteArgs)
  /-- WINDOW_READ (R101). -/
  | windowRead (tag window : Byte)
  /-- RECORD_TAKE (R122). -/
  | recordTake (tag selector line : Byte)
  /-- RECORD_LIST (R126). -/
  | recordList (tag : Byte)
  /-- OVERRUN_CLEAR (R127). -/
  | overrunClear (tag line : Byte)
  /-- FAULT_LIMITS (R132). -/
  | faultLimits (tag : Byte) (pairs : BitVec 72) (foreignV leakMa : Byte)
  /-- WATCH_SET (R133). -/
  | watchSet (tag : Byte) (args : WatchArgs)
  /-- PAIR_QUERY (R147). -/
  | pairQuery (tag pair : Byte)
  /-- TEST_ORDER (R167). -/
  | testOrder (tag pair kind : Byte)
  /-- TEST_CANCEL (R168). -/
  | testCancel (tag pair : Byte)
  /-- TEST_SET (R154). -/
  | testSet (tag : Byte) (args : TestSetArgs)
  /-- TEST_QUERY (R170). -/
  | testQuery (tag : Byte)
  /-- ROUTE_WRITE (R176). -/
  | routeWrite (tag kind cls : Byte)
  /-- NOTICE_ENABLE (R175). -/
  | noticeEnable (tag : Byte) (kinds : BitVec 8) (sources : BitVec 145)
  /-- NOTICE_DISABLE (R175). -/
  | noticeDisable (tag : Byte) (kinds : BitVec 8) (sources : BitVec 145)
  /-- NOTICE_POLL (R182). -/
  | noticePoll (tag : Byte)
  /-- IDENTIFY (R195). -/
  | identify (tag : Byte)
  /-- PART_RESET (R196). -/
  | partReset (tag : Byte)
  /-- UNKNOWN_REQUEST (R191): a request frame whose type names no request. -/
  | unknownRequest (type tag : Byte) (payload : List Byte)
  /-- RECEIVED_CHARACTER (R188). -/
  | receivedCharacter (c : Byte)
deriving DecidableEq, Repr

end Sys2Proof
end

