-- ==== Sys2Proof/Decode.lean ====
section
/-! DEFINITION. Commands spelled by words. -/

namespace Sys2Proof

/-- The command that a word of the opcode table spells: no row of the table gives bits, so no word spells
a command (log 27). The bytes of request frames are read in Machine/Operands.lean. -/
def decodeTableWord (_nbits _w : Nat) : Option Instr := none

end Sys2Proof
end

