-- ==== Sys2Proof/Config.lean ====
section
/-! DEFINITION. What is fixed for the part, and the values the manual leaves open. -/

namespace Sys2Proof.Config

/-- FREE VALUE (log 2). Which of several events due at the same moment is taken first, where the spec
says "either may be taken first". Applied to State's `raceCount`, a fresh number each time. -/
opaque raceChoice : Nat → Nat

/-- FREE VALUE (log 11). The level of the strap pin RATE1 that a PART_RESET finds: the straps may have been
changed on the board since the last reset (R185). Applied to State's `raceCount`. -/
opaque strapRate1 : Nat → Bool

/-- FREE VALUE (log 11). The level of the strap pin RATE0 that a PART_RESET finds (R185). -/
opaque strapRate0 : Nat → Bool

/-- The interval between the beginnings of two passes, 5 ms (R22). -/
def passMs : Nat := 5

/-- The bind settle, 20 ms (R84). -/
def bindSettleMs : Nat := 20

/-- The longest gap between two characters of a frame, 10 ms (R189). -/
def charGapMs : Nat := 10

/-- The cap of a seize time multiplied for a held binder, 4000 ms (R38). -/
def seizeCapMs : Nat := 4000

/-- The time allowed for each READING, 500 ms (R154). -/
def readingTimeoutMs : Nat := 500

/-- The tip–ring resistance below which a subscriber's loop is taken to be present, 3 kΩ (R154). -/
def loopLimitKohm : Nat := 3

/-- The number of slots of the Dial Record Store (R114). -/
def slotCount : Nat := 16

/-- The most digits a collection holds (R92). -/
def maxDigits : Nat := 24

/-- The most entries the test queue holds (R155). -/
def testQueueMax : Nat := 16

/-- The most frames the inbox holds (R190). -/
def inboxMax : Nat := 4

/-- The most replies the reply queue holds (R192). -/
def replyMax : Nat := 4

/-- The most bytes a payload holds (R186, R194). -/
def payloadMax : Nat := 250

/-- The most bodies NOTICE_POLL returns (R182). -/
def pollMax : Nat := 8

/-- The mark byte that begins every frame (R186). -/
def mark : Byte := 0xC3#8

/-- The identity IDENTIFY returns and STARTED carries: vendor 0x3D07, part 6408, revision 1, 64 lines,
72 pairs, 8 detectors, 16 slots (R195). -/
def identity : List Byte := [0x3D#8, 0x07#8, 0x19#8, 0x08#8, 1#8, 64#8, 72#8, 8#8, 16#8]

end Sys2Proof.Config
end

