-- ==== Sys2Proof/Machine/State.lean ====
section
/-! DEFINITION. The state of the 6408, block by block as section 2 of 00_scope.md lists the blocks, and
its value after reset. -/

namespace Sys2Proof.Machine

/-! ### Profiles (R13) -/

/-- Dialling methods a profile accepts (R13). -/
inductive Methods where
  | pulse
  | tone
  | both
deriving DecidableEq, Repr

/-- How a line's overrun flag is cleared (R124). -/
inductive RecordMode where
  | single
  | continuous
deriving DecidableEq, Repr

/-- A line profile: the nineteen fields of R13. Currents in mA, times in ms. -/
structure Profile where
  seizeMa : Nat
  releaseMa : Nat
  glitch : Nat
  seizeMs : Nat
  brkMinMs : Nat
  brkMaxMs : Nat
  flashMinMs : Nat
  flashMaxMs : Nat
  gapMs : Nat
  gapLoMs : Nat
  gapHiMs : Nat
  learnSpanMs : Nat
  periodLoMs : Nat
  periodHiMs : Nat
  firstMs : Nat
  collectMs : Nat
  methods : Methods
  recordMode : RecordMode
  settleMs : Nat
deriving DecidableEq, Repr

/-- The default column of R13, which every profile holds after reset. -/
def Profile.default : Profile where
  seizeMa := 12
  releaseMa := 7
  glitch := 2
  seizeMs := 60
  brkMinMs := 20
  brkMaxMs := 100
  flashMinMs := 150
  flashMaxMs := 600
  gapMs := 400
  gapLoMs := 250
  gapHiMs := 800
  learnSpanMs := 600
  periodLoMs := 80
  periodHiMs := 140
  firstMs := 15000
  collectMs := 5000
  methods := .both
  recordMode := .single
  settleMs := 250

/-! ### Collections and dial records (R92, R98, R104, R109) -/

/-- A digit's method (R2). -/
inductive DigitMethod where
  | pulse
  | tone
deriving DecidableEq, Repr

/-- A digit of a collection: a symbol and its method (R2, R92). -/
structure Digit where
  symbol : Symbol
  method : DigitMethod
deriving DecidableEq, Repr

/-- The set of marks of a collection or a dial record (R92). -/
structure Marks where
  mutilated : Bool
  badPulseCount : Bool
  learnOverflow : Bool
  rateOutOfRange : Bool
  toneInPulse : Bool
  detectorWait : Bool
deriving DecidableEq, Repr

/-- No mark (R93). -/
def Marks.none : Marks := ⟨false, false, false, false, false, false⟩

/-- A window's length rule: FIXED n, or OPEN (R98). -/
inductive WindowRule where
  | fixed (n : Nat)
  | openEnd
deriving DecidableEq, Repr

/-- A prefix window W0 to W7 (R98). A pattern position is a symbol, or ANY (none). -/
structure Window where
  enabled : Bool
  pattern : List (Option Symbol)
  rule : WindowRule
  cls : Fin 16
  urgent : Bool
  replacement : Option (List Symbol)
deriving DecidableEq, Repr

/-- A window after reset (R98). -/
def Window.initial : Window := ⟨false, [none], .openEnd, 0, false, none⟩

/-- The frozen copy of a window that a bound collection holds (R104). `index` is none for WD. -/
structure WindowSnap where
  index : Option (Fin 8)
  patternLen : Nat
  rule : WindowRule
  cls : Fin 16
  urgent : Bool
  replacement : Option (List Symbol)
deriving DecidableEq, Repr

/-- An open collection (R92). `bound` is none while the binding is UNDECIDED. -/
structure Collection where
  seizeTime : Time
  digits : List Digit
  bound : Option WindowSnap
  marks : Marks
  wait : Option Nat
deriving DecidableEq, Repr

/-- Why a collection closed (R107). -/
inductive Cause where
  | length
  | timeout
  | full
  | release
  | flash
deriving DecidableEq, Repr

/-- The window field of a dial record (R110). -/
inductive RecordWindow where
  | window (i : Fin 8)
  | default
  | unbound
deriving DecidableEq, Repr

/-- A dial record (R109). -/
structure DialRecord where
  line : LineNo
  pair : PairNo
  seizeTime : Time
  closeTime : Time
  cause : Cause
  window : RecordWindow
  cls : Fin 16
  urgent : Bool
  digits : List Digit
  routed : Option (List Symbol)
  learned : Option Nat
  marks : Marks
  wait : Option Nat
  storeWaited : Bool
deriving DecidableEq, Repr

/-! ### Line contexts (R3, R36, R66) -/

/-- The states of a line (R36). `opened` is the manual's OPEN. -/
inductive LineState where
  | disabled
  | settling
  | idle
  | seizing
  | seized
  | pulsing
  | collecting
  | held
  | opened
  | underTest
  | faulted
deriving DecidableEq, Repr

/-- The four steady off-hook states, which are also the return states of OPEN (R3, R41). -/
inductive OffHook where
  | seized
  | pulsing
  | collecting
  | held
deriving DecidableEq, Repr

/-- A line's rate-learning record (R66): t1 and the onsets counted in MEASURING and OVERFLOWED, the
learned period in DONE. -/
inductive Learning where
  | armed
  | measuring (t1 : Time) (onsets : Nat)
  | overflowed (t1 : Time) (onsets : Nat)
  | done (period : Nat)
  | failed
deriving DecidableEq, Repr

/-- A line's detector binding (R3, R76). -/
inductive Binding where
  | none
  | detector (d : DetectorNo)
  | queued
deriving DecidableEq, Repr

/-- A line context (R3). A timer is its expiry time, or none when stopped. -/
structure Line where
  pair : PairNo
  profile : Fin 8
  state : LineState
  returnState : Option OffHook
  breakTime : Option Time
  pulseCount : Option Nat
  snapshot : Option Profile
  settleTimer : Option Time
  seizeTimer : Option Time
  /-- The time the running seize timer counts from, which the HOOK notice will carry (R56; log 9). -/
  seizeFrom : Option Time
  breakTimer : Option Time
  gapTimer : Option Time
  firstDigitTimer : Option Time
  collectTimer : Option Time
  learnTimer : Option Time
  collection : Option Collection
  learning : Option Learning
  binding : Binding
  permanentLoop : Bool
  /-- Whether the line was FAULTED when it entered UNDER_TEST; present only there (R55). -/
  wasFaulted : Option Bool
deriving DecidableEq, Repr

/-- The context of line n after reset (R3, R4). -/
def Line.initial (n : LineNo) : Line where
  pair := ⟨n.val, by omega⟩
  profile := 0
  state := .disabled
  returnState := none
  breakTime := none
  pulseCount := none
  snapshot := none
  settleTimer := none
  seizeTimer := none
  seizeFrom := none
  breakTimer := none
  gapTimer := none
  firstDigitTimer := none
  collectTimer := none
  learnTimer := none
  collection := none
  learning := none
  binding := .none
  permanentLoop := false
  wasFaulted := none

/-! ### Scan Controller (R21) -/

/-- The scan mode (R24). -/
inductive ScanMode where
  | full
  | economy
deriving DecidableEq, Repr

/-- A loop class or a sample class (R30). `opened` is the manual's OPEN. -/
inductive LoopClass where
  | loop
  | opened
deriving DecidableEq, Repr

/-- A glitch run: candidate class, count, and the pass time of its first sample (R31). -/
structure GlitchRun where
  candidate : LoopClass
  count : Nat
  first : Time
deriving DecidableEq, Repr

/-- The scan record of a pair (R21). -/
structure ScanRec where
  loopClass : Option LoopClass
  sampleClass : Option LoopClass
  run : Option GlitchRun
  invalidRun : Nat
deriving DecidableEq, Repr

/-- A scan record after reset (R21). -/
def ScanRec.initial : ScanRec := ⟨none, none, none, 0⟩

/-- The message the part sends on the sense port: a sample request, which names one pair (section 2.2). -/
inductive SensePortMsg where
  | request (p : PairNo)
deriving DecidableEq, Repr

/-- The Scan Controller's state (R21, R22; log 23). -/
structure Scan where
  mode : ScanMode
  /-- The mode fixed for the pass in progress (R22 step 3). -/
  passMode : ScanMode
  phase : Fin 8
  /-- The cabinet time at which the next pass begins (R22). -/
  nextPass : Time
  /-- Whether a pass has begun since the last reset (R22 step 2). -/
  passBegun : Bool
  /-- For each pair with an unanswered request, the pass time of the request (R21). -/
  outstanding : Vector (Option Time) 72
  recs : Vector ScanRec 72
  /-- MODEL history (log 13): the messages sent on the sense port since the last reset, oldest first. -/
  sent : List SensePortMsg
deriving DecidableEq, Repr

/-- The Scan Controller after reset (R21). -/
def Scan.initial : Scan :=
  ⟨.full, .full, 0, 0#32, false, Vector.replicate 72 none, Vector.replicate 72 .initial, []⟩

/-! ### Tone Detector Pool (R76, R78) -/

/-- A detector's binding: the line, the bind time, and the pair at its crosspoint input (R76, R77). -/
structure Bound where
  line : LineNo
  bindTime : Time
  crosspoint : PairNo
deriving DecidableEq, Repr

/-- A tone detector (R76): in service or not, and free (none) or bound. -/
structure Detector where
  inService : Bool
  bound : Option Bound
deriving DecidableEq, Repr

/-- An entry of the detector queue (R78). -/
structure Waiter where
  line : LineNo
  queuedTime : Time
deriving DecidableEq, Repr

/-- The pool's state (R76, R78). -/
structure Pool where
  detectors : Vector Detector 8
  queue : List Waiter
deriving DecidableEq, Repr

/-- The pool after reset (R91). -/
def Pool.initial : Pool := ⟨Vector.replicate 8 ⟨true, none⟩, []⟩

/-! ### Prefix window table (R98, R99) -/

/-- The prefix window table: W0 to W7, and the class of WD. -/
structure WindowTable where
  table : Vector Window 8
  defaultClass : Fin 16
deriving DecidableEq, Repr

/-- The table after reset (R98, R99). -/
def WindowTable.initial : WindowTable := ⟨Vector.replicate 8 .initial, 0⟩

/-! ### Dial Record Store (R114, R115, R116) -/

/-- An occupied slot: the record and its rank (R114). -/
structure Slot where
  rank : Nat
  record : DialRecord
deriving DecidableEq, Repr

/-- The store's state: the slots, the pending list (head first), and the two flags of each line. -/
structure Store where
  slots : Vector (Option Slot) 16
  waiting : List DialRecord
  overrun : Vector Bool 64
  storeWait : Vector Bool 64
deriving DecidableEq, Repr

/-- The store after reset (R131). -/
def Store.initial : Store :=
  ⟨Vector.replicate 16 none, [], Vector.replicate 64 false, Vector.replicate 64 false⟩

/-! ### Tests (R143, R154, R155, R160) -/

/-- The kind of a test (R155). -/
inductive TestKind where
  | insulation
  | foreign
  | full
deriving DecidableEq, Repr

/-- The origin of a test as a result reports it (R134). -/
inductive TestOrigin where
  | watch
  | controller
deriving DecidableEq, Repr

/-- Who asked for a queued or running test; the tag is present only for CONTROLLER (R155). -/
inductive Asker where
  | watch
  | controller (tag : Byte)
deriving DecidableEq, Repr

/-- The verdict of an attempt, or the result of a test (R163). -/
inductive Verdict where
  | pass
  | fail
  | inconclusive
deriving DecidableEq, Repr

/-- Why a test was aborted (R165). -/
inductive AbortCause where
  | subscriber
  | busTimeout
  | cancelled
deriving DecidableEq, Repr

/-- The outcome of a test (R165): a result, or ABORTED with its cause. -/
inductive TestOutcome where
  | result (v : Verdict)
  | aborted (cause : AbortCause)
deriving DecidableEq, Repr

/-- A pair's last test result (R134). -/
structure LastTest where
  origin : TestOrigin
  kind : TestKind
  outcome : TestOutcome
  endTime : Time
deriving DecidableEq, Repr

/-- The four measurements of a reading: resistances in kΩ, foreign voltage in V (section 9.1). -/
structure Measured where
  tipGround : Nat
  ringGround : Nat
  tipRing : Nat
  volts : Nat
deriving DecidableEq, Repr

/-- The five writable test settings (R154). -/
structure TestSettings where
  attemptsMax : Nat
  quietFirstMs : Nat
  quietRetryMs : Nat
  rMinKohm : Nat
  vTest : Nat
deriving DecidableEq, Repr

/-- The default test settings (R154). -/
def TestSettings.default : TestSettings := ⟨3, 200, 100, 150, 25⟩

/-- The phase of a running attempt (R160). -/
inductive RunPhase where
  | quiet
  | reading
deriving DecidableEq, Repr

/-- The run record of the test on the bus (R160), with its timers and its outstanding READ (R152). -/
structure Run where
  pair : PairNo
  kind : TestKind
  asker : Asker
  settings : TestSettings
  attempt : Nat
  phase : RunPhase
  readings : Nat
  fails : Nat
  verdicts : List Verdict
  last : Option Measured
  quietTimer : Option Time
  readingTimer : Option Time
  outstanding : Option Byte
deriving DecidableEq, Repr

/-- An entry of the test queue (R155). -/
structure TestEntry where
  pair : PairNo
  kind : TestKind
  asker : Asker
deriving DecidableEq, Repr

/-- A pair's controller result (R166). -/
structure CtrlResult where
  tag : Byte
  kind : TestKind
  outcome : TestOutcome
  attempts : Nat
  last : Option Measured
  endTime : Time
deriving DecidableEq, Repr

/-- The messages the part sends on the test port (section 9.1). -/
inductive TestPortMsg where
  | connect (p : PairNo)
  | disconnect
  | read (seq : Byte)
deriving DecidableEq, Repr

/-- The Test Bus Controller's state (R153). The bus occupant is the pair of `run`. -/
structure TestBus where
  run : Option Run
  queue : List TestEntry
  /-- The test wanted set: a pair is in it with the kind it holds (R156). -/
  wanted : Vector (Option TestKind) 72
  settings : TestSettings
  readSeq : Byte
  results : Vector (Option CtrlResult) 72
  /-- MODEL history (log 13): the messages sent on the test port since the last reset, oldest first. -/
  sent : List TestPortMsg
deriving DecidableEq, Repr

/-- The Test Bus Controller after reset (R153); the DISCONNECT of R152 is the first message. -/
def TestBus.initial : TestBus :=
  ⟨none, [], Vector.replicate 72 none, .default, 0#8, Vector.replicate 72 none, [.disconnect]⟩

/-! ### Fault Watch (R132, R133, R134, R148) -/

/-- The fault state of a pair (R134). -/
inductive PairState where
  | clear
  | suspect
  | confirmed
  | recheck
deriving DecidableEq, Repr

/-- The fault record of a pair (R134). -/
structure FaultRec where
  foreign : Nat
  leak : Nat
  state : PairState
  senseLost : Bool
  sustainTimer : Option Time
  guardTimer : Option Time
  last : Option LastTest
deriving DecidableEq, Repr

/-- A fault record after reset (R134). -/
def FaultRec.initial : FaultRec := ⟨0, 0, .clear, false, none, none, none⟩

/-- The two limits of a pair (R132). -/
structure Limits where
  foreignV : Nat
  leakMa : Nat
deriving DecidableEq, Repr

/-- The limits after reset (R132). -/
def Limits.initial : Limits := ⟨40, 5⟩

/-- When BINDER notices are raised (R150). -/
inductive NoticeMode where
  | every
  | startStop
deriving DecidableEq, Repr

/-- The watch settings (R133); `watched` is a set of pairs. -/
structure WatchSettings where
  suspectScore : Nat
  sustainMs : Nat
  binderK : Nat
  holdMs : Nat
  mode : NoticeMode
  guardMs : Nat
  watched : BitVec 72
deriving DecidableEq, Repr

/-- The watch settings after reset (R133). -/
def WatchSettings.default : WatchSettings :=
  ⟨12, 2000, 3, 10000, .startStop, 60000, BitVec.allOnes 72⟩

/-- The record of a binder (R148). -/
structure Binder where
  count : Nat
  hold : Bool
  holdTimer : Option Time
deriving DecidableEq, Repr

/-- A binder's record after reset (R148). -/
def Binder.initial : Binder := ⟨0, false, none⟩

/-- The Fault Watch's state. -/
structure Watch where
  faults : Vector FaultRec 72
  limits : Vector Limits 72
  binders : Vector Binder 9
  settings : WatchSettings
deriving DecidableEq, Repr

/-- The Fault Watch after reset. -/
def Watch.initial : Watch :=
  ⟨Vector.replicate 72 .initial, Vector.replicate 72 .initial, Vector.replicate 9 .initial, .default⟩

/-! ### Notice Engine (R171, R172, R174, R176, R179) -/

/-- The notice kinds (R171), kind 0 to kind 7 in this order. -/
inductive Kind where
  | hook
  | flash
  | record
  | overrun
  | loopHeld
  | fault
  | binder
  | testDone
deriving DecidableEq, Repr

/-- The kind number of a kind (R171). -/
def Kind.num : Kind → Fin 8
  | .hook => 0
  | .flash => 1
  | .record => 2
  | .overrun => 3
  | .loopHeld => 4
  | .fault => 5
  | .binder => 6
  | .testDone => 7

/-- The source of a notice (R171). -/
inductive Source where
  | line (n : LineNo)
  | pair (p : PairNo)
  | binder (b : BinderNo)
deriving DecidableEq, Repr

/-- An entry of the pending set (R172); its source is given by its ring position. A kind that keeps no
count or no time holds none there. -/
structure NoticeEntry where
  pos : Fin 145
  kind : Kind
  count : Option Nat
  time : Option Time
deriving DecidableEq, Repr

/-- Whether the source at a ring position and a kind number form a notice point (R171): kinds 0 to 4
go with lines, 5 and 7 with pairs, 6 with binders. -/
def isNoticePoint (pos : Fin 145) (k : Fin 8) : Bool :=
  if pos.val < 64 then decide (k.val < 5)
  else if pos.val < 136 then decide (k.val = 5 ∨ k.val = 7)
  else decide (k.val = 6)

/-- The Notice Engine's state. `entries` is the pending set, in rising order of ring position and then
kind number; `enabled` is the enable set by ring position and kind number. -/
structure Notices where
  entries : List NoticeEntry
  enabled : Vector (Vector Bool 8) 145
  routes : Vector (Fin 4) 8
  cursors : Vector (Fin 145) 4
deriving DecidableEq, Repr

/-- The Notice Engine after reset (R183). -/
def Notices.initial : Notices :=
  ⟨[], Vector.ofFn fun pos => Vector.ofFn fun k => isNoticePoint pos k,
    #v[1, 1, 1, 0, 2, 0, 0, 2], Vector.replicate 4 0⟩

/-! ### Cabinet Link Port (R185, R186, R188, R190, R192, R197) -/

/-- A frame without its mark, length and CRC, which follow from it (R186). -/
structure Frame where
  type : Byte
  tag : Byte
  payload : List Byte
deriving DecidableEq, Repr

/-- The levels of the rate strap pins, high = true (R185). -/
structure Straps where
  rate1 : Bool
  rate0 : Bool
deriving DecidableEq, Repr

/-- The bit rate that the straps give, in bit/s: the table of R185. -/
def Straps.bitRate : Straps → Nat
  | ⟨false, false⟩ => 19200
  | ⟨false, true⟩ => 38400
  | ⟨true, false⟩ => 115200
  | ⟨true, true⟩ => 230400

/-- The cause a STARTED frame carries (R184). -/
inductive ResetCause where
  | power
  | pin
  | request
deriving DecidableEq, Repr

/-- The Cabinet Link Port's state. -/
structure Link where
  /-- The characters of the frame being collected, its mark first; empty in HUNT (R188). -/
  collected : List Byte
  /-- The arrival time of the last character taken in COLLECT (R189; log 15). -/
  lastChar : Time
  inbox : List Frame
  replies : List Frame
  /-- The STARTED frame not yet sent, by its cause (R184). -/
  started : Option ResetCause
  /-- The frame the transmitter is sending; none when it is idle (R178). -/
  inFlight : Option Frame
  /-- The levels of the strap pins that the last reset found (R185; log 11). -/
  straps : Straps
  /-- The bit rate in force until the next reset, in bit/s, as the last reset read it from the straps (R185). -/
  rate : Nat
  /-- PART_RESET has been executed and its reply is not yet sent (R196). -/
  resetOrdered : Bool
deriving DecidableEq, Repr

/-- The Cabinet Link Port after a reset with a given cause that reads given straps (R197). -/
def Link.initial (cause : ResetCause) (straps : Straps) : Link :=
  ⟨[], 0#32, [], [], some cause, none, straps, straps.bitRate, false⟩

/-! ### The whole part -/

/-- The state of the part. -/
structure State where
  /-- Cabinet time (R1). -/
  now : Time
  lines : Vector Line 64
  profiles : Vector Profile 8
  scan : Scan
  pool : Pool
  windows : WindowTable
  store : Store
  watch : Watch
  bus : TestBus
  notices : Notices
  link : Link
  /-- MODEL (log 2, 11): how many free values have been used: choices between simultaneous events, and
  strap levels found by a PART_RESET. -/
  raceCount : Nat
  /-- MODEL: the commands waiting to be taken, first in, first out. -/
  pending : List Instr
deriving DecidableEq, Repr

/-- The line contexts after reset (R3). -/
def initialLines : Vector Line 64 := Vector.ofFn Line.initial

/-- The part right after a power-on reset with both straps low, before the transmitter's first choice
(R197; log 11, 12). -/
def State.reset : State where
  now := 0#32
  lines := initialLines
  profiles := Vector.replicate 8 .default
  scan := .initial
  pool := .initial
  windows := .initial
  store := .initial
  watch := .initial
  bus := .initial
  notices := .initial
  link := .initial .power ⟨false, false⟩
  raceCount := 0
  pending := []

/-- Why a step stops with a fault. The spec gives the part no condition that stops it, so there is no
constructor and no command faults (log 24); safe, since nothing is hidden behind a fault. -/
inductive Fault : Type
deriving DecidableEq, Repr

/-- Why a step has no meaning. -/
inductive Refusal where
  /-- A row of the table without a meaning yet; raised by no arm of exec. Safe: it stops. -/
  | notModelled (mnemonic : String)
deriving DecidableEq, Repr

end Sys2Proof.Machine
end

