-- ==== Sys2Proof/Machine/Ops.lean ====
section
/-! DEFINITION. Cabinet time and timers, the named reads and writes of State, and the raise of a
notice. -/

namespace Sys2Proof.Machine

/-! ### Cabinet time (R1) -/

/-- `later a b`: cabinet time a is later than cabinet time b (R1). -/
def later (a b : Time) : Bool :=
  decide (1 ≤ (a - b).toNat ∧ (a - b).toNat ≤ 2 ^ 31 - 1)

/-- A timer set to expire at `e` is due at `now`: its expiry time is not later than cabinet time (R1). -/
def due (e now : Time) : Bool := !later e now

/-- A timer field is running and due (R1). -/
def timerDue (t : Option Time) (now : Time) : Bool :=
  match t with
  | some e => due e now
  | none => false

/-- The cabinet time `ms` milliseconds after `t`. -/
def after (t : Time) (ms : Nat) : Time := t + BitVec.ofNat 32 ms

/-- The duration from `a` to `b`, modulo 2^32 (R1). -/
def elapsed (a b : Time) : Nat := (b - a).toNat

/-! ### Lines and profiles -/

/-- The context of line n. -/
def State.line (s : State) (n : LineNo) : Line := s.lines[n]

/-- Replace the context of line n. -/
def State.setLine (s : State) (n : LineNo) (l : Line) : State := { s with lines := s.lines.set n l }

/-- Change the context of line n. -/
def State.modLine (s : State) (n : LineNo) (f : Line → Line) : State := s.setLine n (f (s.line n))

/-- The profile a line refers to, as it stands (R16). -/
def State.liveProfile (s : State) (n : LineNo) : Profile := s.profiles[(s.line n).profile]

/-- The values that govern a line: its snapshot when it has one, otherwise its live profile (R16, R17). -/
def State.profileOf (s : State) (n : LineNo) : Profile :=
  match (s.line n).snapshot with
  | some p => p
  | none => s.liveProfile n

/-- A line is enabled when its state is other than DISABLED (R3). -/
def Line.enabled (l : Line) : Bool := decide (l.state ≠ .disabled)

/-- The served line of a pair: the enabled line mapped to it (R4). -/
def State.served (s : State) (p : PairNo) : Option LineNo :=
  (List.finRange 64).find? fun n => decide ((s.line n).pair = p) && (s.line n).enabled

/-- Every line, in rising order. -/
def allLines : List LineNo := List.finRange 64

/-- Every pair, in rising order. -/
def allPairs : List PairNo := List.finRange 72

/-! ### Scan records, fault records, binders -/

/-- The scan record of a pair (R21). -/
def State.scanRec (s : State) (p : PairNo) : ScanRec := s.scan.recs[p]

/-- Replace the scan record of a pair. -/
def State.setScanRec (s : State) (p : PairNo) (r : ScanRec) : State :=
  { s with scan := { s.scan with recs := s.scan.recs.set p r } }

/-- The fault record of a pair (R134). -/
def State.fault (s : State) (p : PairNo) : FaultRec := s.watch.faults[p]

/-- Replace the fault record of a pair. -/
def State.setFault (s : State) (p : PairNo) (r : FaultRec) : State :=
  { s with watch := { s.watch with faults := s.watch.faults.set p r } }

/-- The binder of a pair: p div 8 (R4). -/
def binderOf (p : PairNo) : BinderNo := ⟨p.val / 8, by omega⟩

/-- The record of a binder (R148). -/
def State.binder (s : State) (b : BinderNo) : Binder := s.watch.binders[b]

/-- Replace the record of a binder. -/
def State.setBinder (s : State) (b : BinderNo) (r : Binder) : State :=
  { s with watch := { s.watch with binders := s.watch.binders.set b r } }

/-! ### Detectors -/

/-- A detector's fields (R76). -/
def State.detector (s : State) (d : DetectorNo) : Detector := s.pool.detectors[d]

/-- Replace a detector's fields. -/
def State.setDetector (s : State) (d : DetectorNo) (x : Detector) : State :=
  { s with pool := { s.pool with detectors := s.pool.detectors.set d x } }

/-- Replace the detector queue. -/
def State.setDetectorQueue (s : State) (q : List Waiter) : State :=
  { s with pool := { s.pool with queue := q } }

/-! ### The test bus -/

/-- The pair is the bus occupant (R153). -/
def State.onBus (s : State) (p : PairNo) : Bool :=
  match s.bus.run with
  | some r => decide (r.pair = p)
  | none => false

/-- Send a message on the test port (R152; log 13). -/
def State.sendTest (s : State) (m : TestPortMsg) : State :=
  { s with bus := { s.bus with sent := s.bus.sent ++ [m] } }

/-! ### The sense port -/

/-- Send a message on the sense port (R22; log 13). -/
def State.sendSense (s : State) (m : SensePortMsg) : State :=
  { s with scan := { s.scan with sent := s.scan.sent ++ [m] } }

/-! ### Raising a notice (R172, R174) -/

/-- The ring position of a source (R171). -/
def Source.pos : Source → Fin 145
  | .line n => ⟨n.val, by omega⟩
  | .pair p => ⟨64 + p.val, by omega⟩
  | .binder b => ⟨136 + b.val, by omega⟩

/-- The kinds whose entries keep a count (R172). -/
def Kind.keepsCount : Kind → Bool
  | .record => false
  | .fault => false
  | _ => true

/-- The place of a notice point in the order of the pending set. -/
def pointKey (pos : Fin 145) (k : Kind) : Nat := 8 * pos.val + k.num.val

/-- The place of an entry in the order of the pending set. -/
def NoticeEntry.key (e : NoticeEntry) : Nat := pointKey e.pos e.kind

/-- The entry a first raise creates (R172). -/
def freshEntry (pos : Fin 145) (k : Kind) (t : Option Time) : NoticeEntry :=
  ⟨pos, k, if k.keepsCount then some 1 else none, t⟩

/-- A further raise on an entry: its count rises, holding at 255, and its time is replaced (R172). -/
def NoticeEntry.again (e : NoticeEntry) (t : Option Time) : NoticeEntry :=
  { e with
    count := e.count.map fun c => min 255 (c + 1)
    time := match t with
      | some x => some x
      | none => e.time }

/-- Take a raise into the pending set, keeping its order (R172). -/
def addRaise (pos : Fin 145) (k : Kind) (t : Option Time) : List NoticeEntry → List NoticeEntry
  | [] => [freshEntry pos k t]
  | e :: es =>
    if e.key < pointKey pos k then e :: addRaise pos k t es
    else if e.key = pointKey pos k then e.again t :: es
    else freshEntry pos k t :: e :: es

/-- Raise a notice: kept when its notice point is enabled, lost otherwise (R172, R174). `t` is the
raise's time for the kinds that keep one. -/
def State.raise (s : State) (src : Source) (k : Kind) (t : Option Time) : State :=
  if s.notices.enabled[src.pos][k.num] then
    { s with notices := { s.notices with entries := addRaise src.pos k t s.notices.entries } }
  else s

end Sys2Proof.Machine
end

