-- ==== Sys2Proof/Machine/Flags.lean ====
section
/-! DEFINITION. The flags and conditions that rules read: the store flags, the marks, the hook, the
faulted and held conditions, and the kinds over threshold. -/

namespace Sys2Proof.Machine

/-! ### Store flags (R115) -/

/-- Set or clear a line's overrun flag (R115). -/
def State.setOverrun (s : State) (n : LineNo) (b : Bool) : State :=
  { s with store := { s.store with overrun := s.store.overrun.set n b } }

/-- Set or clear a line's store-wait flag (R115). -/
def State.setStoreWait (s : State) (n : LineNo) (b : Bool) : State :=
  { s with store := { s.store with storeWait := s.store.storeWait.set n b } }

/-- Either store flag of the line is set, which bars it from opening a collection (R120). -/
def State.barred (s : State) (n : LineNo) : Bool := s.store.overrun[n] || s.store.storeWait[n]

/-! ### Marks (R75, R92) -/

/-- Change the marks of a line's open collection, if it has one (R92). -/
def Line.mark (l : Line) (f : Marks → Marks) : Line :=
  { l with collection := l.collection.map fun c => { c with marks := f c.marks } }

/-- Add MUTILATED (R64). -/
def Line.markMutilated (l : Line) : Line := l.mark fun m => { m with mutilated := true }

/-- Add BAD_PULSE_COUNT (R61). -/
def Line.markBadPulseCount (l : Line) : Line := l.mark fun m => { m with badPulseCount := true }

/-- Add LEARN_OVERFLOW (R72). -/
def Line.markLearnOverflow (l : Line) : Line := l.mark fun m => { m with learnOverflow := true }

/-- Add RATE_OUT_OF_RANGE (R69). -/
def Line.markRateOutOfRange (l : Line) : Line := l.mark fun m => { m with rateOutOfRange := true }

/-- Add TONE_IN_PULSE (R85). -/
def Line.markToneInPulse (l : Line) : Line := l.mark fun m => { m with toneInPulse := true }

/-! ### The hook and the phase of an off-hook line (R36, R50) -/

/-- The steady off-hook state as a line state. -/
def OffHook.toState : OffHook → LineState
  | .seized => .seized
  | .pulsing => .pulsing
  | .collecting => .collecting
  | .held => .held

/-- A line in SEIZED, PULSING, COLLECTING, HELD or OPEN is off-hook (R36). -/
def LineState.offHook : LineState → Bool
  | .seized => true
  | .pulsing => true
  | .collecting => true
  | .held => true
  | .opened => true
  | _ => false

/-- The steady off-hook state the line is in, or, in OPEN, its return state (R41, R50). -/
def Line.phase (l : Line) : Option OffHook :=
  match l.state with
  | .seized => some .seized
  | .pulsing => some .pulsing
  | .collecting => some .collecting
  | .held => some .held
  | .opened => l.returnState
  | _ => none

/-- Take the line to a steady off-hook state; in OPEN the return state takes it instead (R50). -/
def Line.setPhase (l : Line) (ph : OffHook) : Line :=
  if l.state = .opened then { l with returnState := some ph } else { l with state := ph.toState }

/-- The line's open collection holds at least one digit. -/
def Line.hasDigit (l : Line) : Bool :=
  match l.collection with
  | some c => !c.digits.isEmpty
  | none => false

/-! ### Pairs and binders (R134, R148) -/

/-- A pair is faulted when its state is CONFIRMED or RECHECK or its sense-lost flag is set (R134). -/
def FaultRec.faulted (r : FaultRec) : Bool :=
  decide (r.state = .confirmed) || decide (r.state = .recheck) || r.senseLost

/-- A pair is in suspicion when its state is SUSPECT or CONFIRMED (R134). -/
def FaultRec.inSuspicion (r : FaultRec) : Bool :=
  decide (r.state = .suspect) || decide (r.state = .confirmed)

/-- The foreign score is at or above suspect_score (R142, R146). -/
def State.foreignOver (s : State) (p : PairNo) : Bool :=
  decide (s.watch.settings.suspectScore ≤ (s.fault p).foreign)

/-- The leak score is at or above suspect_score (R142, R146). -/
def State.leakOver (s : State) (p : PairNo) : Bool :=
  decide (s.watch.settings.suspectScore ≤ (s.fault p).leak)

/-- The binder of a pair is in hold (R148). -/
def State.inHold (s : State) (p : PairNo) : Bool := (s.binder (binderOf p)).hold

end Sys2Proof.Machine
end

