-- ==== Sys2Proof/Machine/Detectors.lean ====
section
/-! DEFINITION. The Tone Detector Pool (chapter 5): request, release, grant and service. -/

namespace Sys2Proof.Machine

/-- The lowest-numbered detector that is IN and free (R79). -/
def State.freeDetector (s : State) : Option DetectorNo :=
  (List.finRange 8).find? fun d => (s.detector d).inService && (s.detector d).bound.isNone

/-- Bind detector d to line n: bind time now, crosspoint input the line's pair (R77, R79). -/
def State.bindDetector (s : State) (d : DetectorNo) (n : LineNo) : State :=
  (s.setDetector d { s.detector d with bound := some ⟨n, s.now, (s.line n).pair⟩ }).modLine n
    fun l => { l with binding := .detector d }

/-- A line requests a detector (R79). -/
def State.requestDetector (s : State) (n : LineNo) : State :=
  match (s.line n).binding with
  | .none =>
    match s.freeDetector with
    | some d => s.bindDetector d n
    | none =>
      (s.setDetectorQueue (s.pool.queue ++ [⟨n, s.now⟩])).modLine n fun l => { l with binding := .queued }
  | _ => s

/-- Add a wait to a collection, with the mark DETECTOR_WAIT; the sum holds at 65535 ms (R82). -/
def Collection.addWait (c : Collection) (ms : Nat) : Collection :=
  { c with
    marks := { c.marks with detectorWait := true }
    wait := some (min 65535 (c.wait.getD 0 + ms)) }

/-- Grant detector d to the head of the detector queue, if a line waits (R82). -/
def State.grantHead (s : State) (d : DetectorNo) : State :=
  match s.pool.queue with
  | [] => s
  | w :: rest =>
    ((s.setDetectorQueue rest).bindDetector d w.line).modLine w.line fun l =>
      { l with collection := l.collection.map fun c => c.addWait (elapsed w.queuedTime s.now) }

/-- A line gives up its detector, which is offered to the queue head (R80), or its queue place (R81). -/
def State.dropDetector (s : State) (n : LineNo) : State :=
  match (s.line n).binding with
  | .none => s
  | .queued =>
    (s.setDetectorQueue (s.pool.queue.filter fun w => decide (w.line ≠ n))).modLine n
      fun l => { l with binding := .none }
  | .detector d =>
    let s := (s.setDetector d { s.detector d with bound := none }).modLine n
      fun l => { l with binding := .none }
    if (s.detector d).inService then s.grantHead d else s

/-- DETECTOR_SERVICE OUT (R87, R88). -/
def State.serviceOut (s : State) (d : DetectorNo) : State :=
  if (s.detector d).inService then
    match (s.detector d).bound with
    | none => s.setDetector d ⟨false, none⟩
    | some b =>
      let s := ((s.setDetector d ⟨false, none⟩).setDetectorQueue (⟨b.line, s.now⟩ :: s.pool.queue)).modLine
        b.line fun l => { l with binding := .queued }
      match s.freeDetector with
      | some d' => s.grantHead d'
      | none => s
  else s

/-- DETECTOR_SERVICE IN (R87, R89). -/
def State.serviceIn (s : State) (d : DetectorNo) : State :=
  if (s.detector d).inService then s else (s.setDetector d ⟨true, none⟩).grantHead d

end Sys2Proof.Machine
end

