-- ==== Sys2Proof/Machine/Records.lean ====
section
/-! DEFINITION. The Digit Classifier (chapter 6), closures, and the Dial Record Store (chapter 7). -/

namespace Sys2Proof.Machine

/-! ### Evaluation and binding (R102 to R104) -/

/-- How a window fits a digit list (R102). -/
inductive Fit where
  | fail
  | partialFit
  | hit
deriving DecidableEq, Repr

/-- A pattern position matches a digit: ANY matches any, a symbol its own whatever the method (R102). -/
def positionFits (x : Option Symbol) (d : Digit) : Bool :=
  match x with
  | none => true
  | some y => decide (y = d.symbol)

/-- Judge a pattern against a digit list (R102). -/
def judge (pattern : List (Option Symbol)) (digits : List Digit) : Fit :=
  if (List.zipWith positionFits pattern digits).all id then
    if digits.length < pattern.length then .partialFit else .hit
  else .fail

/-- The snapshot of window i (R104). -/
def Window.snap (w : Window) (i : Fin 8) : WindowSnap :=
  ⟨some i, w.pattern.length, w.rule, w.cls, w.urgent, w.replacement⟩

/-- The snapshot of WD: rule OPEN, WD's class, not urgent, no replacement (R99, R104). -/
def WindowTable.snapDefault (t : WindowTable) : WindowSnap :=
  ⟨none, 0, .openEnd, t.defaultClass, false, none⟩

/-- Evaluate an UNDECIDED collection's digits against the table; none leaves it UNDECIDED (R103). -/
def WindowTable.evaluate (t : WindowTable) (digits : List Digit) : Option WindowSnap :=
  match (List.finRange 8).find? fun i =>
      t.table[i].enabled && decide (judge t.table[i].pattern digits ≠ .fail) with
  | none => some t.snapDefault
  | some i =>
    match judge t.table[i].pattern digits with
    | .hit => some (t.table[i].snap i)
    | _ => none

/-! ### The dial record (R109 to R111) -/

/-- The routed digits of a record (R111). -/
def routedDigits (b : Option WindowSnap) (digits : List Digit) : Option (List Symbol) :=
  match b with
  | none => none
  | some w => w.replacement.map fun r => r ++ (digits.drop w.patternLen).map (·.symbol)

/-- The learned period of a line whose record is DONE (R74). -/
def Line.learnedPeriod (l : Line) : Option Nat :=
  match l.learning with
  | some (.done p) => some p
  | _ => none

/-- The dial record a closure builds (R109, R110, R111). -/
def State.buildRecord (s : State) (n : LineNo) (c : Collection) (cause : Cause) (t : Time) : DialRecord where
  line := n
  pair := (s.line n).pair
  seizeTime := c.seizeTime
  closeTime := t
  cause := cause
  window := match c.bound with
    | none => .unbound
    | some w => match w.index with
      | some i => .window i
      | none => .default
  cls := match c.bound with
    | none => s.windows.defaultClass
    | some w => w.cls
  urgent := match c.bound with
    | none => false
    | some w => w.urgent
  digits := c.digits
  routed := routedDigits c.bound c.digits
  learned := (s.line n).learnedPeriod
  marks := c.marks
  wait := c.wait
  storeWaited := false

/-! ### The store (R114 to R119) -/

/-- Every slot, in rising order. -/
def allSlots : List (Fin 16) := List.finRange 16

/-- The number of occupied slots (R114). -/
def Store.occupied (st : Store) : Nat := allSlots.countP fun i => st.slots[i].isSome

/-- The lowest-numbered empty slot (R114). -/
def Store.emptySlot (st : Store) : Option (Fin 16) := allSlots.find? fun i => st.slots[i].isNone

/-- Whether a slot holds a record of the line. -/
def Slot.holds (n : LineNo) : Option Slot → Bool
  | some sl => decide (sl.record.line = n)
  | none => false

/-- The line's stored count (R115). -/
def Store.storedCount (st : Store) (n : LineNo) : Nat := allSlots.countP fun i => Slot.holds n st.slots[i]

/-- Whether the pending list holds a record of the line (R115). -/
def Store.hasPending (st : Store) (n : LineNo) : Bool := st.waiting.any fun r => decide (r.line = n)

/-- Whether any stored record of the line is urgent (R128, R177). -/
def Store.urgentStored (st : Store) (n : LineNo) : Bool :=
  allSlots.any fun i => match st.slots[i] with
    | some sl => decide (sl.record.line = n) && sl.record.urgent
    | none => false

/-- Admit a record: lowest-numbered empty slot, next rank, RECORD raised (R114, R118). -/
def State.admitRecord (s : State) (r : DialRecord) : State :=
  match s.store.emptySlot with
  | none => s
  | some i =>
    ({ s with store := { s.store with
        slots := s.store.slots.set i (some ⟨s.store.occupied + 1, r⟩) } }).raise (.line r.line) .record none

/-- A closure arrival (R117, R118, R119). -/
def State.arrive (s : State) (r : DialRecord) : State :=
  if s.store.hasPending r.line || decide (2 ≤ s.store.storedCount r.line) then
    (s.setOverrun r.line true).raise (.line r.line) .overrun (some r.closeTime)
  else if s.store.emptySlot.isSome && s.store.waiting.isEmpty then s.admitRecord r
  else
    ({ s with store := { s.store with
        waiting := s.store.waiting ++ [{ r with storeWaited := true }] } }).setStoreWait r.line true

/-- Admit the head of the pending list into the slot a take freed (R123). -/
def State.admitWaiting (s : State) : State :=
  match s.store.waiting with
  | [] => s
  | r :: rest =>
    if s.store.emptySlot.isSome then
      (({ s with store := { s.store with waiting := rest } }).setStoreWait r.line false).admitRecord r
    else s

/-- The lowest-ranked slot whose record satisfies `q` (R121). -/
def Store.lowest (st : Store) (q : DialRecord → Bool) : Option (Fin 16) :=
  (List.range Config.slotCount).findSome? fun r =>
    allSlots.find? fun i => match st.slots[i] with
      | some sl => decide (sl.rank = r + 1) && q sl.record
      | none => false

/-- Remove the record of a slot and lower the ranks above it (R114). -/
def Store.remove (st : Store) (i : Fin 16) (rank : Nat) : Store :=
  { st with slots := Vector.ofFn fun j =>
      if j = i then none
      else st.slots[j].map fun sl => if rank < sl.rank then { sl with rank := sl.rank - 1 } else sl }

/-- A take of the record in slot i, after its reply is built (R122 steps 2 to 4, R124). -/
def State.takeSlot (s : State) (i : Fin 16) (sl : Slot) : State :=
  let s := { s with store := s.store.remove i sl.rank }
  let s := match (s.liveProfile sl.record.line).recordMode with
    | .single => s.setOverrun sl.record.line false
    | .continuous => s
  s.admitWaiting

/-! ### Closures and the acceptance of a digit (R95, R105, R108) -/

/-- Close the line's open collection (R108). -/
def State.closeCollection (s : State) (n : LineNo) (cause : Cause) (t : Time) : State :=
  match (s.line n).collection with
  | none => s
  | some c =>
    ((s.modLine n fun l => { l with collectTimer := none }).arrive (s.buildRecord n c cause t)).modLine n
      fun l => { l with collection := none }

/-- A collection bound to a snapshot of rule FIXED n has its count (R95 step 5, R105). -/
def lengthReached (b : Option WindowSnap) (count : Nat) : Bool :=
  match b with
  | some w => match w.rule with
    | .fixed n => decide (n ≤ count)
    | .openEnd => false
  | none => false

/-- The collection with a digit appended and, if it was UNDECIDED, evaluated (R95 steps 1 and 4). -/
def Collection.accept (c : Collection) (t : WindowTable) (d : Digit) : Collection :=
  let digits := c.digits ++ [d]
  { c with
    digits := digits
    bound := match c.bound with
      | some w => some w
      | none => t.evaluate digits }

/-- Accept a digit into the line's open collection, which may close it (R95). -/
def State.acceptDigit (s : State) (n : LineNo) (d : Digit) : State :=
  match (s.line n).collection with
  | none => s
  | some c =>
    let c' := c.accept s.windows d
    let s' := s.modLine n fun l =>
      { l with
        collection := some c'
        firstDigitTimer := none
        collectTimer := some (after s.now (s.profileOf n).collectMs) }
    if lengthReached c'.bound c'.digits.length then s'.closeCollection n .length s.now
    else if Config.maxDigits ≤ c'.digits.length then s'.closeCollection n .full s.now
    else s'

end Sys2Proof.Machine
end

