-- ==== Sys2Proof/Machine/Hook.lean ====
section
/-! DEFINITION. The Line Supervision Engine (chapters 1, 3 and 4): settling, seizure, breaks, pulse
digits, rate learning, release and faults, as operations on one line. -/

namespace Sys2Proof.Machine

/-! ### Rate learning and the pulse digit (R58 to R73) -/

/-- The glitch allowance, 5 × glitch ms (R36). -/
def Profile.glitchAllowance (p : Profile) : Nat := 5 * p.glitch

/-- The learned gap of a period: three times it, held within the profile's bounds (R70). -/
def learnedGap (p : Profile) (period : Nat) : Nat :=
  if 3 * period < p.gapLoMs then p.gapLoMs
  else if p.gapHiMs < 3 * period then p.gapHiMs
  else 3 * period

/-- The gap in force (R60). -/
def gapInForce (p : Profile) (r : Option Learning) : Nat :=
  match r with
  | some (.done period) => learnedGap p period
  | _ => p.gapMs

/-- The learning record at the end of a pulse digit (R73). -/
def Learning.digitEnd : Learning → Learning
  | .measuring _ _ => .armed
  | .overflowed _ _ => .failed
  | r => r

/-- Update a line's learning for the end of a digit, stopping the learn timer of a measurement (R73). -/
def Line.endDigitLearning (l : Line) : Line :=
  match l.learning with
  | some (.measuring _ _) => { l with learning := some .armed, learnTimer := none }
  | some r => { l with learning := some r.digitEnd }
  | none => l

/-- Discard the pulse digit in progress (R64). -/
def Line.discardPulse (l : Line) : Line :=
  ({ ({ l with gapTimer := none } : Line).endDigitLearning with pulseCount := none } : Line).markMutilated

/-- The learn timer expires: MEASURING becomes OVERFLOWED with the mark LEARN_OVERFLOW (R72). -/
def Line.learnOverflow (l : Line) : Line :=
  match l.learning with
  | some (.measuring t1 k) =>
    ({ l with learning := some (.overflowed t1 k), learnTimer := none } : Line).markLearnOverflow
  | _ => { l with learnTimer := none }

/-- Offer an onset to the rate-learning record (R67 to R71). `begins` says that the break begins a
digit; an overdue learn timer is taken at once (R68). -/
def Line.offerOnset (l : Line) (p : Profile) (now onset : Time) (begins : Bool) : Line :=
  match l.learning with
  | some .armed =>
    if begins then
      let e := after onset p.learnSpanMs
      let l := { l with learning := some (.measuring onset 1), learnTimer := some e }
      if due e now then l.learnOverflow else l
    else l
  | some (.measuring t1 k) =>
    if k + 1 = 5 then
      let period := elapsed t1 onset / 4
      if p.periodLoMs ≤ period ∧ period ≤ p.periodHiMs then
        { l with learning := some (.done period), learnTimer := none }
      else ({ l with learning := some .failed, learnTimer := none } : Line).markRateOutOfRange
    else { l with learning := some (.measuring t1 (k + 1)) }
  | some (.overflowed t1 k) =>
    if k + 1 = 5 then { l with learning := some .failed }
    else { l with learning := some (.overflowed t1 (k + 1)) }
  | _ => l

/-- The symbol of a pulse count (R61 step 2): 1 to 9 are themselves, 10 is the symbol 0, more is none. -/
def pulseSymbol (count : Nat) : Option Symbol :=
  if h : 1 ≤ count ∧ count ≤ 9 then some ⟨count, by omega⟩
  else if count = 10 then some 0
  else none

/-! ### Supervision and its end -/

/-- Stop every timer of a line. -/
def Line.stopTimers (l : Line) : Line :=
  { l with
    settleTimer := none
    seizeTimer := none
    seizeFrom := none
    breakTimer := none
    gapTimer := none
    firstDigitTimer := none
    collectTimer := none
    learnTimer := none }

/-- Remove what a line context holds only during a seizure: snapshot, return state and break time. -/
def Line.forgetCall (l : Line) : Line :=
  { l with snapshot := none, returnState := none, breakTime := none }

/-- Open a collection (R93). -/
def Collection.opened (seizeTime : Time) : Collection := ⟨seizeTime, [], none, .none, none⟩

/-- Request a detector if the snapshot's methods are TONE or BOTH (R79). -/
def State.requestIfTone (s : State) (n : LineNo) : State :=
  match (s.profileOf n).methods with
  | .pulse => s
  | _ => s.requestDetector n

/-- The seize timer expires, with expiry time `e` (R40). -/
def State.seizeLine (s : State) (n : LineNo) (e : Time) : State :=
  let s1 := s.raise (.line n) .hook (some ((s.line n).seizeFrom.getD e))
  if s.barred n then
    s1.modLine n fun l => { l with state := .held, seizeTimer := none, seizeFrom := none }
  else
    (s1.modLine n fun l =>
      { l with
        state := .seized
        seizeTimer := none
        seizeFrom := none
        collection := some (.opened e)
        firstDigitTimer := some (after e (s.profileOf n).firstMs)
        learning := some .armed }).requestIfTone n

/-- The seize time of a line entering SEIZING: four times seize_ms, capped, in a held binder (R38). -/
def State.seizeSpan (s : State) (n : LineNo) : Nat :=
  if s.inHold (s.line n).pair then min (4 * (s.liveProfile n).seizeMs) Config.seizeCapMs
  else (s.liveProfile n).seizeMs

/-- A line enters SEIZING with its seize timer counted from `base`; an expiry time already reached is
taken at once (R17, R20, R38). -/
def State.enterSeizing (s : State) (n : LineNo) (base : Time) : State :=
  let e := after base (s.seizeSpan n)
  let s' := s.modLine n fun l =>
    { l with
      state := .seizing
      snapshot := some (s.liveProfile n)
      seizeTimer := some e
      seizeFrom := some base }
  if due e s.now then s'.seizeLine n e else s'

/-- The settle timer expires, with expiry time `e` (R20). -/
def State.settleLine (s : State) (n : LineNo) (e : Time) : State :=
  let s := s.modLine n fun l => { l with settleTimer := none }
  if (s.fault (s.line n).pair).faulted then s.modLine n fun l => { l with state := .faulted }
  else if (s.scanRec (s.line n).pair).loopClass = some .loop then s.enterSeizing n e
  else s.modLine n fun l => { l with state := .idle }

/-- A line enters SETTLING (R18); with settle_ms 0 the expiry is taken at the moment of entry. -/
def State.enterSettling (s : State) (n : LineNo) : State :=
  let ms := (s.liveProfile n).settleMs
  let s' := s.modLine n fun l =>
    { l.forgetCall with
      state := .settling
      settleTimer := some (after s.now ms)
      wasFaulted := none }
  if ms = 0 then s'.settleLine n s.now else s'

/-- Discard a line's pulse digit if one is in progress (R58, R64). -/
def Line.discardAnyPulse (l : Line) : Line := if l.phase = some .pulsing then l.discardPulse else l

/-- The steps 1 to 5 of a release (R51), with the close time of a RELEASE closure (R112). -/
def State.endSupervision (s : State) (n : LineNo) (closeTime : Time) : State :=
  let s := s.modLine n .discardAnyPulse
  let s := if (s.line n).hasDigit then s.closeCollection n .release closeTime
    else s.modLine n fun l => { l with collection := none }
  let s := (s.modLine n .stopTimers).dropDetector n
  s.modLine n fun l => { l with learning := none, permanentLoop := false }

/-- The break timer expires, with expiry time `e`: a release (R51). -/
def State.releaseLine (s : State) (n : LineNo) (e : Time) : State :=
  let hookTime := (s.line n).breakTime.getD e
  ((s.endSupervision n e).raise (.line n) .hook (some hookTime)).modLine n
    fun l => { l.forgetCall with state := .idle }

/-- A fault reaches a line (R53). -/
def State.faultLine (s : State) (n : LineNo) : State :=
  match (s.line n).state with
  | .settling => s.modLine n fun l => { l.stopTimers.forgetCall with state := .faulted }
  | .seizing => s.modLine n fun l => { l.stopTimers.forgetCall with state := .faulted }
  | .idle => s.modLine n fun l => { l with state := .faulted }
  | .faulted => s
  | .underTest => s
  | .disabled => s
  | _ =>
    ((s.endSupervision n s.now).raise (.line n) .hook (some s.now)).modLine n
      fun l => { l.forgetCall with state := .faulted }

/-! ### Expiries of the first-digit, collect and gap timers -/

/-- The first-digit timer expires, with expiry time `e`: a permanent loop (R42, R50). -/
def State.permanentLoop (s : State) (n : LineNo) (e : Time) : State :=
  ((((s.modLine n fun l => { l with permanentLoop := true, firstDigitTimer := none }).raise
    (.line n) .loopHeld (some e)).modLine n fun l => { l with collection := none }).dropDetector n).modLine n
      (Line.setPhase · .held)

/-- The collect timer expires, with expiry time `e` (R50, R65, R96). -/
def State.collectTimeout (s : State) (n : LineNo) (e : Time) : State :=
  (((s.modLine n .discardAnyPulse).closeCollection n .timeout e).dropDetector n).modLine n
    (Line.setPhase · .held)

/-- The phase after a digit was offered or refused a symbol: HELD when the collection has closed,
COLLECTING when it holds a digit, SEIZED with a fresh first-digit timer when it is empty (R41, R61, R113). -/
def State.phaseAfterDigit (s : State) (n : LineNo) : State :=
  match (s.line n).collection with
  | none => (s.dropDetector n).modLine n (Line.setPhase · .held)
  | some c =>
    if c.digits.isEmpty then
      s.modLine n fun l =>
        { l.setPhase .seized with firstDigitTimer := some (after s.now (s.profileOf n).firstMs) }
    else s.modLine n (Line.setPhase · .collecting)

/-- The gap timer expires: the pulse digit in progress completes (R61). -/
def State.completePulse (s : State) (n : LineNo) : State :=
  let count := (s.line n).pulseCount.getD 0
  let s := s.modLine n fun l => { l.endDigitLearning with pulseCount := none, gapTimer := none }
  let s := match pulseSymbol count with
    | some x => s.acceptDigit n ⟨x, .pulse⟩
    | none => s.modLine n .markBadPulseCount
  s.phaseAfterDigit n

/-! ### Breaks (R43 to R49, R59) -/

/-- A loop broken opens a break on an off-hook line that leaves `from_`; an expiry time already reached
is a release at once (R43). -/
def State.openBreak (s : State) (n : LineNo) (from_ : OffHook) (stamp : Time) : State :=
  let p := s.profileOf n
  let e := after stamp (p.flashMaxMs + p.glitchAllowance)
  let s' := s.modLine n fun l =>
    { l with
      state := .opened
      returnState := some from_
      breakTime := some stamp
      breakTimer := some e }
  if due e s.now then s'.releaseLine n e else s'

/-- The break is over: the line is in `st`, with no return state, break time or break timer (R44). -/
def Line.endBreak (l : Line) (st : OffHook) : Line :=
  { l with state := st.toState, returnState := none, breakTime := none, breakTimer := none }

/-- A hit: the line is back in its return state (R45). -/
def State.hit (s : State) (n : LineNo) (rs : OffHook) : State := s.modLine n (Line.endBreak · rs)

/-- A pulse break with onset `onset` and make time `make` (R46, R59, R60). -/
def State.pulseBreak (s : State) (n : LineNo) (rs : OffHook) (onset make : Time) : State :=
  let p := s.profileOf n
  let l := s.line n
  let count := if rs = .pulsing then min 255 (l.pulseCount.getD 0 + 1) else 1
  let l := { l with
    pulseCount := some count
    firstDigitTimer := if rs = OffHook.seized then none else l.firstDigitTimer }
  let l := l.offerOnset p s.now onset (decide (rs ≠ OffHook.pulsing))
  let e := after make (gapInForce p l.learning + p.glitchAllowance)
  let s' := s.setLine n (({ l with gapTimer := some e } : Line).endBreak .pulsing)
  if due e s.now then s'.completePulse n else s'

/-- An invalid break whose make is stamped `make` (R47). -/
def State.invalidBreak (s : State) (n : LineNo) (rs : OffHook) (make : Time) : State :=
  if rs = .pulsing then
    let s := s.modLine n .discardPulse
    if (s.line n).hasDigit then s.modLine n (Line.endBreak · .collecting)
    else s.modLine n fun l =>
      { l.endBreak .seized with firstDigitTimer := some (after make (s.profileOf n).firstMs) }
  else s.hit n rs

/-- Raise FLASH with its flash time (R57). -/
def State.raiseFlash (s : State) (n : LineNo) (flash : Time) : State := s.raise (.line n) .flash (some flash)

/-- A flash on a line whose collection stays open and empty (R48, from SEIZED). -/
def State.flashFromSeized (s : State) (n : LineNo) (flash : Time) : State :=
  (s.raiseFlash n flash).modLine n fun l =>
    { l.endBreak .seized with firstDigitTimer := some (after flash (s.profileOf n).firstMs) }

/-- Open a collection at a flash: the line is SEIZED with a fresh first-digit timer (R48, R49, R93). -/
def State.openAtFlash (s : State) (n : LineNo) (flash : Time) : State :=
  s.modLine n fun l =>
    { l.endBreak .seized with
      collection := some (.opened flash)
      firstDigitTimer := some (after flash (s.profileOf n).firstMs) }

/-- A flash on a line with no collection open (R48, from HELD). -/
def State.flashFromHeld (s : State) (n : LineNo) (flash : Time) : State :=
  let s := s.raiseFlash n flash
  if s.barred n then s.hit n .held
  else
    ((s.openAtFlash n flash).modLine n fun l =>
      { l with learning := match l.learning with
          | some r => some r
          | none => some .armed }).requestIfTone n

/-- A flash with return state COLLECTING or PULSING (R49). -/
def State.flashFromDialling (s : State) (n : LineNo) (flash : Time) : State :=
  let s := s.modLine n .discardAnyPulse
  if (s.line n).hasDigit then
    let s := (s.closeCollection n .flash flash).raiseFlash n flash
    if s.barred n then (s.hit n .held).dropDetector n
    else s.openAtFlash n flash
  else s.flashFromSeized n flash

/-- A loop made ends the break of a line in OPEN (R44). -/
def State.classifyBreak (s : State) (n : LineNo) (rs : OffHook) (breakTime make : Time) : State :=
  let p := s.profileOf n
  let d := elapsed breakTime make
  if d < p.brkMinMs then s.hit n rs
  else if d ≤ p.brkMaxMs then
    if p.methods ≠ .tone ∧ rs ≠ .held then s.pulseBreak n rs breakTime make else s.hit n rs
  else if d < p.flashMinMs then s.invalidBreak n rs make
  else match rs with
    | .seized => s.flashFromSeized n make
    | .held => s.flashFromHeld n make
    | _ => s.flashFromDialling n make

/-! ### Qualified transitions (R37) -/

/-- A loop made stamped `stamp` reaches a line (R37). -/
def State.loopMade (s : State) (n : LineNo) (stamp : Time) : State :=
  match (s.line n).state with
  | .idle => s.enterSeizing n stamp
  | .opened =>
    match (s.line n).returnState, (s.line n).breakTime with
    | some rs, some b => s.classifyBreak n rs b stamp
    | _, _ => s
  | _ => s

/-- A loop broken stamped `stamp` reaches a line (R37, R39, R43). -/
def State.loopBroken (s : State) (n : LineNo) (stamp : Time) : State :=
  match (s.line n).state with
  | .seizing => s.modLine n fun l => { l.stopTimers.forgetCall with state := .idle }
  | .seized => s.openBreak n .seized stamp
  | .pulsing => s.openBreak n .pulsing stamp
  | .collecting => s.openBreak n .collecting stamp
  | .held => s.openBreak n .held stamp
  | _ => s

/-! ### Tone onsets at the line (R85) -/

/-- A delivered onset reaches its line (R85). -/
def State.toneAtLine (s : State) (n : LineNo) (x : Symbol) : State :=
  match (s.line n).state with
  | .seized => (s.acceptDigit n ⟨x, .tone⟩).phaseAfterDigit n
  | .collecting => (s.acceptDigit n ⟨x, .tone⟩).phaseAfterDigit n
  | .pulsing => s.modLine n .markToneInPulse
  | _ => s

/-- A detector's onset is taken by the pool (R83, R84). -/
def State.takeOnset (s : State) (d : DetectorNo) (x : Symbol) : State :=
  if (s.detector d).inService then
    match (s.detector d).bound with
    | none => s
    | some b => if elapsed b.bindTime s.now < Config.bindSettleMs then s else s.toneAtLine b.line x
  else s

end Sys2Proof.Machine
end

