-- ==== Sys2Proof/Machine/TestQueue.lean ====
section
/-! DEFINITION. The test queue and the test wanted set (chapter 9, sections 9.4 and 9.5). -/

namespace Sys2Proof.Machine

/-- Replace the test queue. -/
def State.setTestQueue (s : State) (q : List TestEntry) : State := { s with bus := { s.bus with queue := q } }

/-- Put a pair into the test wanted set with a kind, or take it out (R156, R157). -/
def State.setWanted (s : State) (p : PairNo) (k : Option TestKind) : State :=
  { s with bus := { s.bus with wanted := s.bus.wanted.set p k } }

/-- Merging two kinds: a kind that differs becomes FULL (R156, R167). -/
def TestKind.merge (a b : TestKind) : TestKind := if a = b then a else .full

/-- The pair has an entry in the test queue. -/
def TestBus.queued (b : TestBus) (p : PairNo) : Bool := b.queue.any fun e => decide (e.pair = p)

/-- The lowest-numbered pair of the test wanted set, with its kind (R157). -/
def TestBus.lowestWanted (b : TestBus) : Option (PairNo × TestKind) :=
  allPairs.findSome? fun p => b.wanted[p].map fun k => (p, k)

/-- An entry has left the queue: the lowest wanted pair, if any, is appended as a WATCH entry (R157). -/
def State.admitWanted (s : State) : State :=
  match s.bus.lowestWanted with
  | none => s
  | some (p, k) => (s.setWanted p none).setTestQueue (s.bus.queue ++ [⟨p, k, .watch⟩])

/-- Remove the first entry that satisfies `q` from the queue, and let a wanted pair in (R155, R157). -/
def State.removeEntry (s : State) (q : TestEntry → Bool) : State :=
  if s.bus.queue.any q then (s.setTestQueue (s.bus.queue.eraseP q)).admitWanted else s

/-- Place a want of the Fault Watch (R156). -/
def State.placeWant (s : State) (p : PairNo) (k : TestKind) : State :=
  if s.bus.queued p then
    s.setTestQueue (s.bus.queue.map fun e => if e.pair = p then { e with kind := e.kind.merge k } else e)
  else match s.bus.wanted[p] with
    | some k' => s.setWanted p (some (k'.merge k))
    | none =>
      if s.bus.queue.length < Config.testQueueMax then s.setTestQueue (s.bus.queue ++ [⟨p, k, .watch⟩])
      else s.setWanted p (some k)

/-- The kind wanted for a pair, from its scores (R142). -/
def State.wantedKind (s : State) (p : PairNo) : TestKind :=
  match s.foreignOver p, s.leakOver p with
  | true, false => .foreign
  | false, true => .insulation
  | _, _ => .full

/-- The Fault Watch raises a want, unless the pair is on the test bus (R142). -/
def State.want (s : State) (p : PairNo) : State :=
  if s.onBus p then s else s.placeWant p (s.wantedKind p)

/-- The Fault Watch withdraws its want, unless the pair is on the test bus (R139, R142, R157). The pair
leaves the wanted set before a removed entry admits another. -/
def State.withdraw (s : State) (p : PairNo) : State :=
  if s.onBus p then s
  else (s.setWanted p none).removeEntry fun e => decide (e.pair = p) && decide (e.asker = .watch)

/-- A queued entry is eligible (R158): its pair is unserved or its served line is in IDLE, FAULTED or
SETTLING, and its origin is CONTROLLER or its binder is not in hold. -/
def State.eligible (s : State) (e : TestEntry) : Bool :=
  (match s.served e.pair with
   | none => true
   | some n => match (s.line n).state with
     | .idle => true
     | .faulted => true
     | .settling => true
     | _ => false) &&
  (match e.asker with
   | .controller _ => true
   | .watch => !s.inHold e.pair)

end Sys2Proof.Machine
end

