-- ==== Sys2Proof/Machine/FaultWatch.lean ====
section
/-! DEFINITION. The Fault Watch (chapter 8): scoring, pair states, sense edges, test ends and binder
hold. A change of a pair takes its steps in the order of section 8.4. -/

namespace Sys2Proof.Machine

/-! ### Binders (R148 to R150) -/

/-- Raise a BINDER notice (R150). -/
def State.raiseBinder (s : State) (b : BinderNo) : State := s.raise (.binder b) .binder none

/-- A change of a binder's suspected count by one, with the hold that follows it and the BINDER raise
(R148, R149, R150). -/
def State.countChange (s : State) (b : BinderNo) (up : Bool) : State :=
  let r := s.binder b
  let w := s.watch.settings
  let count := if up then r.count + 1 else r.count - 1
  let told := r.hold && decide (w.mode = .every)
  if w.binderK ≤ count then
    let s' := s.setBinder b ⟨count, true, none⟩
    if !r.hold || told then s'.raiseBinder b else s'
  else
    let timer := if r.hold && r.holdTimer.isNone then some (after s.now w.holdMs) else r.holdTimer
    let s' := s.setBinder b ⟨count, r.hold, timer⟩
    if told then s'.raiseBinder b else s'

/-- The hold timer expires: the hold goes off and a BINDER notice is raised (R149). -/
def State.endHold (s : State) (b : BinderNo) : State :=
  (s.setBinder b { s.binder b with hold := false, holdTimer := none }).raiseBinder b

/-- Bring a binder into line with the settings after WATCH_SET (R149). -/
def State.alignBinder (s : State) (b : BinderNo) : State :=
  let r := s.binder b
  let w := s.watch.settings
  if w.binderK ≤ r.count then
    let s' := s.setBinder b { r with hold := true, holdTimer := none }
    if r.hold then s' else s'.raiseBinder b
  else if r.hold && r.holdTimer.isNone then
    s.setBinder b { r with holdTimer := some (after s.now w.holdMs) }
  else s

/-! ### The fault record (R134, R138) -/

/-- The sustain condition (R138). -/
def FaultRec.sustains (r : FaultRec) : Bool :=
  r.inSuspicion && decide (r.foreign = 0) && decide (r.leak = 0) && !r.senseLost

/-- The new record with its sustain timer following the sustain condition (R138). -/
def followSustain (now : Time) (sustainMs : Nat) (old new : FaultRec) : FaultRec :=
  if !new.sustains then { new with sustainTimer := none }
  else if !old.sustains || (decide (new.state = .confirmed) && decide (old.state ≠ .confirmed)) then
    { new with sustainTimer := some (after now sustainMs) }
  else new

/-- Steps 1 and 2 of a change of a pair (section 8.4): the record is changed, with its sustain timer,
and the binder's suspected count follows. -/
def State.changeFault (s : State) (p : PairNo) (new : FaultRec) : State :=
  let old := s.fault p
  let s' := s.setFault p (followSustain s.now s.watch.settings.sustainMs old new)
  if new.inSuspicion = old.inSuspicion then s' else s'.countChange (binderOf p) new.inSuspicion

/-- Pass a fault to the pair's served line (R144). -/
def State.passFault (s : State) (p : PairNo) : State :=
  match s.served p with
  | some n => s.faultLine n
  | none => s

/-- Release the pair's served line: in FAULTED it enters SETTLING (R144). -/
def State.releasePair (s : State) (p : PairNo) : State :=
  match s.served p with
  | some n => if (s.line n).state = .faulted then s.enterSettling n else s
  | none => s

/-- Raise a FAULT notice (R146). -/
def State.raiseFault (s : State) (p : PairNo) : State := s.raise (.pair p) .fault none

/-! ### Timers (R139, R141) -/

/-- The sustain timer expires (R139). -/
def State.sustainEnd (s : State) (p : PairNo) : State :=
  let r := { s.fault p with sustainTimer := none }
  match r.state with
  | .suspect => ((s.changeFault p { r with state := .clear }).raiseFault p).withdraw p
  | .confirmed => (((s.changeFault p { r with state := .recheck }).passFault p).raiseFault p).want p
  | _ => s.setFault p r

/-- With sustain_ms 0, a sustain timer just set expires at once (R138; log 18). -/
def State.sustainAtOnce (s : State) (p : PairNo) : State :=
  if s.watch.settings.sustainMs = 0 && timerDue (s.fault p).sustainTimer s.now then s.sustainEnd p else s

/-- The guard timer expires (R141). -/
def State.guardEnd (s : State) (p : PairNo) : State :=
  let s := s.setFault p { s.fault p with guardTimer := none }
  match (s.fault p).state with
  | .suspect => s.want p
  | .recheck => s.want p
  | _ => s

/-- With guard_ms 0, a guard timer just set expires at once (R141; log 18). -/
def State.guardAtOnce (s : State) (p : PairNo) : State :=
  if s.watch.settings.guardMs = 0 && timerDue (s.fault p).guardTimer s.now then s.guardEnd p else s

/-! ### Scoring (R135, R137, R140) -/

/-- A score after a sample: up by one holding at 63, or down by one holding at 0 (R135). -/
def scoreStep (score : Nat) (exceeds : Bool) : Nat := if exceeds then min 63 (score + 1) else score - 1

/-- The sample exceeds foreign: tip or ring voltage at or above foreign_v (R135). -/
def exceedsForeign (lim : Limits) (tipV ringV : Int) : Bool :=
  decide ((lim.foreignV : Int) ≤ tipV ∨ (lim.foreignV : Int) ≤ ringV)

/-- The sample exceeds leak: longitudinal current at or above leak_ma (R135). -/
def exceedsLeak (lim : Limits) (longMa : Int) : Bool := decide ((lim.leakMa : Int) ≤ longMa)

/-- A CLEAR pair enters SUSPECT (R137). -/
def State.enterSuspect (s : State) (p : PairNo) (r : FaultRec) : State :=
  let s := (s.changeFault p { r with state := .suspect }).raiseFault p
  if r.guardTimer.isNone then s.want p else s

/-- A RECHECK pair goes back to CONFIRMED (R140, R144). -/
def State.backToConfirmed (s : State) (p : PairNo) (r : FaultRec) : State :=
  (((s.changeFault p { r with state := .confirmed }).passFault p).raiseFault p).withdraw p

/-- Score a valid sample handed over for a pair (R135). -/
def State.score (s : State) (p : PairNo) (tipV ringV longMa : Int) : State :=
  if s.watch.settings.watched.getLsbD p.val then
    let lim := s.watch.limits[p]
    let old := s.fault p
    let r := { old with
      foreign := scoreStep old.foreign (exceedsForeign lim tipV ringV)
      leak := scoreStep old.leak (exceedsLeak lim longMa) }
    let w := s.watch.settings
    let reached := decide (w.suspectScore ≤ r.foreign ∨ w.suspectScore ≤ r.leak)
    match old.state, reached with
    | .clear, true => s.enterSuspect p r
    | .recheck, true => s.backToConfirmed p r
    | _, _ => (s.changeFault p r).sustainAtOnce p
  else s

/-! ### Sense edges (R145) -/

/-- Sense lost (R145). -/
def State.senseLost (s : State) (p : PairNo) : State :=
  ((s.changeFault p { s.fault p with senseLost := true }).passFault p).raiseFault p

/-- Sense regained (R145). -/
def State.senseRegained (s : State) (p : PairNo) : State :=
  let s := s.changeFault p { s.fault p with senseLost := false }
  let s := match (s.fault p).state with
    | .clear => s.releasePair p
    | .suspect => s.releasePair p
    | _ => s
  (s.raiseFault p).sustainAtOnce p

/-! ### Test ends (R143) -/

/-- What a test end does to a pair in a given state (the table of R143): the new state, whether the
scores are set to 0, and whether the guard is started. -/
def testEndEffect (st : PairState) (o : TestOutcome) : PairState × Bool × Bool :=
  match o, st with
  | .result .pass, .clear => (.clear, false, false)
  | .result .pass, _ => (.clear, true, true)
  | .result .fail, _ => (.confirmed, false, false)
  | .result .inconclusive, .suspect => (.suspect, false, true)
  | .result .inconclusive, .recheck => (.confirmed, false, false)
  | .result .inconclusive, st => (st, false, false)
  | .aborted _, .suspect => (.suspect, false, true)
  | .aborted _, .recheck => (.recheck, false, true)
  | .aborted _, st => (st, false, false)

/-- A test end reaches the Fault Watch (R143). -/
def State.testEnd (s : State) (p : PairNo) (t : LastTest) : State :=
  let old := s.fault p
  let (st, zero, guard) := testEndEffect old.state t.outcome
  let r := { old with
    state := st
    foreign := if zero then 0 else old.foreign
    leak := if zero then 0 else old.leak
    guardTimer := if guard then some (after s.now s.watch.settings.guardMs) else old.guardTimer
    last := some t }
  let s := s.changeFault p r
  let s := if st ≠ old.state ∧ st = .confirmed then s.passFault p else s
  let s := (s.raiseFault p).sustainAtOnce p
  if guard then s.guardAtOnce p else s

end Sys2Proof.Machine
end

