-- ==== Sys2Proof/Machine/TestBus.lean ====
section
/-! DEFINITION. The Test Bus Controller (chapter 9): the look at the queue and the claim, readings and
verdicts, the end of a test, and the orders and cancellations of the cabinet controller. -/

namespace Sys2Proof.Machine

/-- Replace the run record (R160). -/
def State.setRun (s : State) (r : Option Run) : State := { s with bus := { s.bus with run := r } }

/-! ### Look and claim (R159, R160) -/

/-- The run record a claim creates (R160 step 3), with its quiet timer (step 7). -/
def Run.start (e : TestEntry) (w : TestSettings) (now : Time) : Run where
  pair := e.pair
  kind := e.kind
  asker := e.asker
  settings := w
  attempt := 1
  phase := .quiet
  readings := 0
  fails := 0
  verdicts := []
  last := none
  quietTimer := some (after now w.quietFirstMs)
  readingTimer := none
  outstanding := none

/-- The served line of the claimed pair enters UNDER_TEST (R55, R160 step 4). -/
def State.claimLine (s : State) (n : LineNo) : State :=
  s.modLine n fun l =>
    { l with
      state := .underTest
      settleTimer := none
      wasFaulted := some (decide (l.state = .faulted)) }

/-- The claim of a test (R160). -/
def State.claim (s : State) (e : TestEntry) : State :=
  let s := s.removeEntry fun x => decide (x = e)
  let s := s.setRun (some (.start e s.bus.settings s.now))
  let s := match s.served e.pair with
    | some n => s.claimLine n
    | none => s
  let s := s.setScanRec e.pair { s.scanRec e.pair with run := none, sampleClass := none }
  s.sendTest (.connect e.pair)

/-- The Test Bus Controller looks at its queue: with the bus free, the first eligible entry's test is
claimed (R159). -/
def State.look (s : State) : State :=
  match s.bus.run with
  | some _ => s
  | none =>
    match s.bus.queue.find? s.eligible with
    | some e => s.claim e
    | none => s

/-! ### The end of a test (R165, R166) -/

/-- The origin of a test as a test end carries it. -/
def Asker.origin : Asker → TestOrigin
  | .watch => .watch
  | .controller _ => .controller

/-- Step 6 of R165 for one line: an enabled line of the pair leaves UNDER_TEST. -/
def State.leaveTest (s : State) (p : PairNo) (n : LineNo) : State :=
  if (s.line n).pair = p ∧ (s.line n).state = .underTest then
    if (s.fault p).faulted then s.modLine n fun l => { l with state := .faulted, wasFaulted := none }
    else s.enterSettling n
  else s

/-- Write the controller result of a CONTROLLER test and raise TEST_DONE (R166). -/
def State.writeResult (s : State) (r : Run) (o : TestOutcome) : State :=
  match r.asker with
  | .watch => s
  | .controller tag =>
    ({ s with bus := { s.bus with
        results := s.bus.results.set r.pair
          (some ⟨tag, r.kind, o, r.attempt, r.last, s.now⟩) } }).raise (.pair r.pair) .testDone none

/-- The end of a test with an outcome: the steps 1 to 6 of R165. The look of step 7 is made by the
command that ends the test (log 7). -/
def State.endTest (s : State) (r : Run) (o : TestOutcome) : State :=
  let s := s.setRun (some { r with quietTimer := none, readingTimer := none, outstanding := none })
  let s := s.sendTest .disconnect
  let s := s.testEnd r.pair ⟨r.asker.origin, r.kind, o, s.now⟩
  let s := s.writeResult r o
  let s := s.setRun none
  allLines.foldl (fun s n => s.leaveTest r.pair n) s

/-! ### Attempts and readings (R161 to R164) -/

/-- Send the next READ and set the reading timer (R152, R161). -/
def State.sendRead (s : State) (r : Run) : State :=
  let seq := s.bus.readSeq
  let s := s.setRun (some { r with
    phase := .reading
    quietTimer := none
    readingTimer := some (after s.now Config.readingTimeoutMs)
    outstanding := some seq })
  ({ s with bus := { s.bus with readSeq := seq + 1 } }).sendTest (.read seq)

/-- A reading fails for a kind under the run's settings (R162 step 2). -/
def readingFails (k : TestKind) (w : TestSettings) (m : Measured) : Bool :=
  (decide (k ≠ .foreign) && decide (min m.tipGround m.ringGround < w.rMinKohm)) ||
  (decide (k ≠ .insulation) && decide (w.vTest ≤ m.volts))

/-- The verdict of an attempt from its fail readings of four (R163). -/
def attemptVerdict (fails : Nat) : Verdict :=
  if 3 ≤ fails then .fail else if fails ≤ 1 then .pass else .inconclusive

/-- The fields of a READING lie within their ranges (section 9.1, R152). -/
def readingInRange (m : MeterReading) : Bool :=
  decide (m.tipGround ≤ 9999) && decide (m.ringGround ≤ 9999) && decide (m.tipRing ≤ 9999) &&
    decide (m.volts ≤ 200)

/-- The measurements of a READING (R162). -/
def readingMeasured (m : MeterReading) : Measured := ⟨m.tipGround, m.ringGround, m.tipRing, m.volts⟩

/-- The fourth reading of an attempt has been counted: the attempt's verdict (R163). -/
def State.endAttempt (s : State) (r : Run) : State :=
  let v := attemptVerdict r.fails
  let r := { r with verdicts := r.verdicts ++ [v] }
  if v = .inconclusive ∧ r.attempt < r.settings.attemptsMax then
    s.setRun (some { r with
      attempt := r.attempt + 1
      readings := 0
      fails := 0
      phase := .quiet
      quietTimer := some (after s.now r.settings.quietRetryMs) })
  else s.endTest r (.result v)

/-- A taken READING is judged (R162). -/
def State.judgeReading (s : State) (r : Run) (m : Measured) : State :=
  let r := { r with last := some m, readingTimer := none, outstanding := none }
  if m.tipRing < Config.loopLimitKohm then s.endTest r (.aborted .subscriber)
  else
    let r := { r with
      readings := r.readings + 1
      fails := if readingFails r.kind r.settings m then r.fails + 1 else r.fails }
    if r.readings < 4 then s.sendRead r else s.endAttempt r

/-- A READING arrives: taken when it answers the outstanding READ and is in range, discarded otherwise
(R152). -/
def State.takeReading (s : State) (m : MeterReading) : State :=
  match s.bus.run with
  | none => s
  | some r => if r.outstanding = some m.seq ∧ readingInRange m then s.judgeReading r (readingMeasured m) else s

/-! ### Orders and cancellations (R167, R168) -/

/-- Merge an order into the pair's queued entry (R167 case 2). -/
def TestEntry.order (e : TestEntry) (k : TestKind) (tag : Byte) : TestEntry :=
  { e with kind := e.kind.merge k, asker := .controller tag }

/-- An accepted order of a test with nothing queued for the pair joins the tail (R167 case 4); a
queued pair's entry is merged (case 2). -/
def State.orderTest (s : State) (p : PairNo) (k : TestKind) (tag : Byte) : State :=
  if s.bus.queued p then
    s.setTestQueue (s.bus.queue.map fun e => if e.pair = p then e.order k tag else e)
  else s.setTestQueue (s.bus.queue ++ [⟨p, k, .controller tag⟩])

end Sys2Proof.Machine
end

