-- ==== Sys2Proof/Machine/ScanPass.lean ====
section
/-! DEFINITION. The Scan Controller (chapter 2): samples, the glitch filter, the pass. -/

namespace Sys2Proof.Machine

/-! ### Invalid samples (R27) -/

/-- An invalid sample of a pair that the test bus does not discard (R27). -/
def State.invalidSample (s : State) (p : PairNo) : State :=
  let r := s.scanRec p
  if 16 ≤ r.invalidRun then s
  else if r.invalidRun = 15 then (s.setScanRec p ⟨none, none, none, 16⟩).senseLost p
  else s.setScanRec p { r with invalidRun := r.invalidRun + 1 }

/-- An invalid sample at the moment it is taken: discarded when its pair is on the test bus (R25). -/
def State.takeInvalid (s : State) (p : PairNo) : State := if s.onBus p then s else s.invalidSample p

/-! ### Loop judgment (R29 to R33) -/

/-- The sample class a current gives, with the pair's present sample class (R30). -/
def classify (p : Profile) (current : Int) (present : Option LoopClass) : Option LoopClass :=
  if (p.seizeMa : Int) ≤ current then some .loop
  else if current ≤ (p.releaseMa : Int) then some .opened
  else present

/-- The glitch run after a classified sample that differs from the loop class (R31). -/
def GlitchRun.advance (run : Option GlitchRun) (c : LoopClass) (passTime : Time) : GlitchRun :=
  match run with
  | some r => if r.candidate = c then { r with count := r.count + 1 } else ⟨c, 1, passTime⟩
  | none => ⟨c, 1, passTime⟩

/-- The loop class of a pair takes a new value; the transition, if any, is delivered to the served line
with its stamp (R32). -/
def State.qualify (s : State) (p : PairNo) (n : LineNo) (c : LoopClass) (stamp : Time) : State :=
  let old := (s.scanRec p).loopClass
  let s := s.setScanRec p { s.scanRec p with loopClass := some c, run := none }
  match old, c with
  | some .loop, .opened => s.loopBroken n stamp
  | none, .opened => s
  | some .loop, .loop => s
  | some .opened, .opened => s
  | _, .loop => s.loopMade n stamp

/-- The economy wake applies: a LOOP sample of an ECONOMY pass on a pair whose line is IDLE and whose
loop class is not LOOP (R33). -/
def State.wakes (s : State) (p : PairNo) (n : LineNo) (c : LoopClass) : Bool :=
  decide (s.scan.passMode = .economy) && decide ((s.line n).state = .idle) && decide (c = .loop) &&
    decide ((s.scanRec p).loopClass ≠ some .loop)

/-- A classified sample acts on the glitch run and the loop class (R31, R33). -/
def State.filterSample (s : State) (p : PairNo) (n : LineNo) (c : LoopClass) (passTime : Time) : State :=
  if s.wakes p n c then s.qualify p n c passTime
  else if (s.scanRec p).loopClass = some c then s.setScanRec p { s.scanRec p with run := none }
  else
    let run := GlitchRun.advance (s.scanRec p).run c passTime
    if (s.profileOf n).glitch + 1 ≤ run.count then s.qualify p n c run.first
    else s.setScanRec p { s.scanRec p with run := some run }

/-- Judge a valid sample for loop class under its served line's thresholds (R29, R30). -/
def State.judgeLoop (s : State) (p : PairNo) (n : LineNo) (current : Int) (passTime : Time) : State :=
  match classify (s.profileOf n) current (s.scanRec p).sampleClass with
  | none => s
  | some c => (s.setScanRec p { s.scanRec p with sampleClass := some c }).filterSample p n c passTime

/-- A valid sample of a pair that the test bus does not discard: sense regained, loop judgment, scoring
(R26, R28, R35). -/
def State.validSample (s : State) (p : PairNo) (r : SampleReply) (passTime : Time) : State :=
  let lost := decide ((s.scanRec p).invalidRun = 16)
  let s := s.setScanRec p { s.scanRec p with invalidRun := 0 }
  let s := if lost then s.senseRegained p else s
  if (s.fault p).senseLost then s
  else
    let s := match s.served p with
      | some n => s.judgeLoop p n r.loopMa passTime
      | none => s
    s.score p r.tipV r.ringV r.longMa

/-- The measurements of a reply lie within the ranges of R26. -/
def sampleInRange (r : SampleReply) : Bool :=
  decide (0 ≤ r.loopMa ∧ r.loopMa ≤ 120) && decide (-200 ≤ r.tipV ∧ r.tipV ≤ 200) &&
    decide (-200 ≤ r.ringV ∧ r.ringV ≤ 200) && decide (0 ≤ r.longMa ∧ r.longMa ≤ 50)

/-- A reply is a valid sample: GOOD, with every measurement in range (R26). -/
def sampleValid (r : SampleReply) : Bool := decide (r.status = .good) && sampleInRange r

/-- Write the outstanding field of a pair (R21). -/
def State.setOutstanding (s : State) (p : PairNo) (t : Option Time) : State :=
  { s with scan := { s.scan with outstanding := s.scan.outstanding.set p t } }

/-- A sample reply arrives: taken when its pair is outstanding, discarded otherwise (R25). -/
def State.takeReply (s : State) (r : SampleReply) : State :=
  if h : r.pair < 72 then
    let p : PairNo := ⟨r.pair, h⟩
    match s.scan.outstanding[p] with
    | none => s
    | some passTime =>
      let s := s.setOutstanding p none
      if s.onBus p then s
      else if sampleValid r then s.validSample p r passTime
      else s.invalidSample p
  else s

/-! ### The pass (R22, R23) -/

/-- Record the unanswered request of one pair as NO_RESPONSE (R22 step 1). -/
def State.noResponse (s : State) (p : PairNo) : State :=
  match s.scan.outstanding[p] with
  | none => s
  | some _ => (s.setOutstanding p none).takeInvalid p

/-- A pass in a mode and a phase includes the pair (R23). -/
def State.included (s : State) (mode : ScanMode) (phase : Fin 8) (p : PairNo) : Bool :=
  match mode with
  | .full => true
  | .economy =>
    (match s.served p with
     | some n => match (s.line n).state with
       | .idle => false
       | .faulted => false
       | _ => true
     | none => false) || decide (phase.val = p.val % 8)

/-- A sample request is sent for a pair, which joins the outstanding list with the pass time (R22 step 4). -/
def State.requestSample (passTime : Time) (s : State) (p : PairNo) : State :=
  (s.sendSense (.request p)).setOutstanding p (some passTime)

/-- The settings of the pass that begins, with the outstanding list emptied (R22 steps 1 to 3). -/
def Scan.nextSettings (x : Scan) : Scan :=
  { x with
    passMode := x.mode
    phase := if x.passBegun then x.phase + 1 else x.phase
    passBegun := true
    nextPass := after x.nextPass Config.passMs
    outstanding := Vector.replicate 72 none }

/-- The pairs that the pass in progress includes, in ascending order (R22 step 3, R23). -/
def State.includedPairs (s : State) : List PairNo := allPairs.filter (s.included s.scan.passMode s.scan.phase)

/-- The beginning of a pass (R22): the unanswered requests are recorded, the settings of the pass are fixed,
and a request is sent for each included pair in ascending order. -/
def State.beginPass (s : State) : State :=
  let s := allPairs.foldl (fun s p => s.noResponse p) s
  let passTime := s.scan.nextPass
  let s := { s with scan := s.scan.nextSettings }
  s.includedPairs.foldl (State.requestSample passTime) s

/-! ### Changes of the served line of a pair (R5, R34) -/

/-- The scan record of a pair whose loop class starts again (R34). -/
def ScanRec.restart (r : ScanRec) : ScanRec := { r with loopClass := none, sampleClass := none, run := none }

/-- Every pair whose served line differs between `before` and `s` loses its loop class, sample class and
glitch run in `s` (R34). -/
def State.rescope (before s : State) : State :=
  let recs := Vector.ofFn fun p : PairNo =>
    if before.served p = s.served p then s.scanRec p else (s.scanRec p).restart
  { s with scan := { s.scan with recs := recs } }

end Sys2Proof.Machine
end

