-- ==== Sys2Proof/Machine/Operands.lean ====
section
/-! DEFINITION. The wire forms: numbers, sets, codes, the requests and their payloads, the checks of
arguments, and replies (R191 to R194 and the tables of section 11.7). -/

namespace Sys2Proof.Machine

/-! ### Numbers and sets (R193) -/

/-- One byte of a number within 0 to 255. -/
def byte (n : Nat) : Byte := BitVec.ofNat 8 n

/-- Two bytes, high byte first. -/
def bytes2 (n : Nat) : List Byte := [byte (n / 256), byte n]

/-- Four bytes, high byte first. -/
def bytes4 (n : Nat) : List Byte := [byte (n / 16777216), byte (n / 65536), byte (n / 256), byte n]

/-- Yes and no are 1 and 0. -/
def yesNo (b : Bool) : Byte := if b then 1#8 else 0#8

/-- The number that two bytes carry, high byte first. -/
def half (hi lo : Byte) : Half := hi ++ lo

/-- The number that four bytes carry, high byte first. -/
def quad (a b c d : Byte) : Quad := (a ++ b) ++ (c ++ d)

/-- The two bytes of a 16-bit number, high byte first. -/
def halfBytes (x : Half) : List Byte := [x.extractLsb' 8 8, x.extractLsb' 0 8]

/-- The four bytes of a 32-bit number, high byte first. -/
def quadBytes (x : Quad) : List Byte :=
  [x.extractLsb' 24 8, x.extractLsb' 16 8, x.extractLsb' 8 8, x.extractLsb' 0 8]

/-- `n` bytes of a number, low byte first: item i of a set is bit (i mod 8) of byte (i div 8). -/
def setBytes : Nat → Nat → List Byte
  | 0, _ => []
  | n + 1, v => byte v :: setBytes n (v / 256)

/-- The number whose bytes, low byte first, these are. -/
def setValue : List Byte → Nat
  | [] => 0
  | b :: bs => b.toNat + 256 * setValue bs

/-- An optional value of a fixed number of bytes: presence, then the value or zeros. -/
def optional (size : Nat) (v : Option (List Byte)) : List Byte :=
  match v with
  | some bs => 1#8 :: bs
  | none => 0#8 :: List.replicate size 0#8

/-- A timer in a reply: absent when stopped, its expiry time when running. -/
def timerBytes (t : Option Time) : List Byte := optional 4 (t.map fun e => bytes4 e.toNat)

/-- A list of entries behind its count, cut after the last whole entry that fits a payload of which
`used` bytes are taken by everything but the count and the entries (R194). -/
def cutList (used size : Nat) (entries : List (List Byte)) : List Byte :=
  byte entries.length :: (entries.take ((Config.payloadMax - used - 1) / size)).flatten

/-! ### Enumeration codes (section 11.7) -/

/-- Line state codes. -/
def LineState.code : LineState → Byte
  | .disabled => 0#8
  | .settling => 1#8
  | .idle => 2#8
  | .seizing => 3#8
  | .seized => 4#8
  | .pulsing => 5#8
  | .collecting => 6#8
  | .held => 7#8
  | .opened => 8#8
  | .underTest => 9#8
  | .faulted => 10#8

/-- Methods codes. -/
def Methods.code : Methods → Byte
  | .pulse => 0#8
  | .tone => 1#8
  | .both => 2#8

/-- Record mode codes. -/
def RecordMode.code : RecordMode → Byte
  | .single => 0#8
  | .continuous => 1#8

/-- Closure cause codes. -/
def Cause.code : Cause → Byte
  | .length => 0#8
  | .timeout => 1#8
  | .full => 2#8
  | .release => 3#8
  | .flash => 4#8

/-- The window code of a record: 0 to 7, 8 DEFAULT, 9 UNBOUND. -/
def RecordWindow.code : RecordWindow → Byte
  | .window i => byte i.val
  | .default => 8#8
  | .unbound => 9#8

/-- Pair state codes. -/
def PairState.code : PairState → Byte
  | .clear => 0#8
  | .suspect => 1#8
  | .confirmed => 2#8
  | .recheck => 3#8

/-- Binder notice mode codes. -/
def NoticeMode.code : NoticeMode → Byte
  | .every => 0#8
  | .startStop => 1#8

/-- Test kind codes. -/
def TestKind.code : TestKind → Byte
  | .insulation => 0#8
  | .foreign => 1#8
  | .full => 2#8

/-- Origin codes. -/
def TestOrigin.code : TestOrigin → Byte
  | .watch => 0#8
  | .controller => 1#8

/-- Test phase codes. -/
def RunPhase.code : RunPhase → Byte
  | .quiet => 0#8
  | .reading => 1#8

/-- Result codes. -/
def Verdict.code : Verdict → Byte
  | .pass => 0#8
  | .fail => 1#8
  | .inconclusive => 2#8

/-- Abort cause codes; 0 is none. -/
def AbortCause.code : AbortCause → Byte
  | .subscriber => 1#8
  | .busTimeout => 2#8
  | .cancelled => 3#8

/-- An outcome and its abort cause, one byte each. -/
def TestOutcome.bytes : TestOutcome → List Byte
  | .result v => [v.code, 0#8]
  | .aborted c => [3#8, c.code]

/-- Reset cause codes. -/
def ResetCause.code : ResetCause → Byte
  | .power => 0#8
  | .pin => 1#8
  | .request => 2#8

/-- A digit with its method: symbol in bits 0 to 3, method in bit 4 (R193). -/
def Digit.code (d : Digit) : Byte :=
  byte (d.symbol.val + match d.method with
    | .pulse => 0
    | .tone => 16)

/-- The six marks as bits 0 to 5 (section 11.7). -/
def Marks.code (m : Marks) : Byte :=
  byte (m.mutilated.toNat + 2 * m.badPulseCount.toNat + 4 * m.learnOverflow.toNat +
    8 * m.rateOutOfRange.toNat + 16 * m.toneInPulse.toNat + 32 * m.detectorWait.toNat)

/-- The kind with a kind number (R171). -/
def Kind.ofNum : Fin 8 → Kind
  | 0 => .hook
  | 1 => .flash
  | 2 => .record
  | 3 => .overrun
  | 4 => .loopHeld
  | 5 => .fault
  | 6 => .binder
  | 7 => .testDone

/-! ### Statuses and replies (R192) -/

/-- The reply statuses (R192). -/
inductive Status where
  | done
  | queued
  | full
  | badArg
  | badState
  | conflict
  | inTest
  | empty
  | notFound
  | unknown
deriving DecidableEq, Repr

/-- The code of a status (R192). -/
def Status.code : Status → Byte
  | .done => 0#8
  | .queued => 1#8
  | .full => 2#8
  | .badArg => 3#8
  | .badState => 4#8
  | .conflict => 5#8
  | .inTest => 6#8
  | .empty => 7#8
  | .notFound => 8#8
  | .unknown => 9#8

/-- What an execution answers: a status, and the reply fields of a DONE reply. -/
structure Reply where
  status : Status
  fields : List Byte
deriving DecidableEq, Repr

/-- A reply of the status alone. -/
def Reply.of (st : Status) : Reply := ⟨st, []⟩

/-- A reply's payload: the status, with the fields after it only when it is DONE (R192). -/
def Reply.payload (r : Reply) : List Byte :=
  match r.status with
  | .done => r.status.code :: r.fields
  | st => [st.code]

/-- The frame of a reply to a request of a type and tag (R186, R192). -/
def Reply.frame (r : Reply) (type tag : Byte) : Frame := ⟨type + 0x80#8, tag, r.payload⟩

/-! ### Requests and their payloads (section 11.6) -/

/-- A request, decoded: its name and its arguments as the frame carries them. -/
inductive Request where
  | lineEnable (lines : BitVec 64)
  | lineDisable (lines : BitVec 64)
  | lineMap (line pair profile : Byte)
  | lineSwap (lineA lineB : Byte)
  | lineReset (line : Byte)
  | lineQuery (line : Byte)
  | profileWrite (profile : Byte) (fields : ProfileArgs)
  | profileRead (profile : Byte)
  | scanMode (mode : Byte)
  | detectorService (detector service : Byte)
  | detectorQuery
  | windowWrite (args : WindowWriteArgs)
  | windowRead (window : Byte)
  | recordTake (selector line : Byte)
  | recordList
  | overrunClear (line : Byte)
  | faultLimits (pairs : BitVec 72) (foreignV leakMa : Byte)
  | watchSet (args : WatchArgs)
  | pairQuery (pair : Byte)
  | testOrder (pair kind : Byte)
  | testCancel (pair : Byte)
  | testSet (args : TestSetArgs)
  | testQuery
  | routeWrite (kind cls : Byte)
  | noticeEnable (kinds : BitVec 8) (sources : BitVec 145)
  | noticeDisable (kinds : BitVec 8) (sources : BitVec 145)
  | noticePoll
  | identify
  | partReset
deriving DecidableEq, Repr

/-- The type byte of a request (section 11.6). -/
def Request.type : Request → Byte
  | .lineEnable _ => 0x01#8
  | .lineDisable _ => 0x02#8
  | .lineMap _ _ _ => 0x03#8
  | .lineSwap _ _ => 0x04#8
  | .lineReset _ => 0x05#8
  | .lineQuery _ => 0x06#8
  | .profileWrite _ _ => 0x07#8
  | .profileRead _ => 0x08#8
  | .scanMode _ => 0x09#8
  | .detectorService _ _ => 0x0A#8
  | .detectorQuery => 0x0B#8
  | .windowWrite _ => 0x0C#8
  | .windowRead _ => 0x0D#8
  | .recordTake _ _ => 0x0E#8
  | .recordList => 0x0F#8
  | .overrunClear _ => 0x10#8
  | .faultLimits _ _ _ => 0x11#8
  | .watchSet _ => 0x12#8
  | .pairQuery _ => 0x13#8
  | .testOrder _ _ => 0x14#8
  | .testCancel _ => 0x15#8
  | .testSet _ => 0x16#8
  | .testQuery => 0x17#8
  | .routeWrite _ _ => 0x18#8
  | .noticeEnable _ _ => 0x19#8
  | .noticeDisable _ _ => 0x1A#8
  | .noticePoll => 0x1B#8
  | .identify => 0x1C#8
  | .partReset => 0x1D#8

/-- The nineteen fields of PROFILE_WRITE on the wire: 29 bytes (R193). -/
def profileBytes (a : ProfileArgs) : List Byte :=
  [a.seizeMa, a.releaseMa, a.glitch] ++ halfBytes a.seizeMs ++ [a.brkMinMs, a.brkMaxMs] ++
  halfBytes a.flashMinMs ++ halfBytes a.flashMaxMs ++ halfBytes a.gapMs ++ halfBytes a.gapLoMs ++
  halfBytes a.gapHiMs ++ halfBytes a.learnSpanMs ++ [a.periodLoMs, a.periodHiMs] ++
  halfBytes a.firstMs ++ halfBytes a.collectMs ++ [a.methods, a.recordMode] ++ halfBytes a.settleMs

/-- WINDOW_WRITE on the wire: 25 bytes, or the code DEFAULT and the class (R193). -/
def windowBytes : WindowWriteArgs → List Byte
  | .window code a =>
    [code, a.enabled, a.patternLen] ++ a.positions.toList ++ [a.rule, a.n, a.cls, a.urgent] ++
      [a.replPresent, a.replLen] ++ a.symbols.toList
  | .default cls => [8#8, cls]

/-- WATCH_SET on the wire: 22 bytes. -/
def watchBytes (a : WatchArgs) : List Byte :=
  [a.suspectScore] ++ halfBytes a.sustainMs ++ [a.binderK] ++ quadBytes a.holdMs ++ [a.mode] ++
    quadBytes a.guardMs ++ setBytes 9 a.pairs.toNat

/-- TEST_SET on the wire: 8 bytes. -/
def testSetBytes (a : TestSetArgs) : List Byte :=
  [a.attemptsMax] ++ halfBytes a.quietFirstMs ++ halfBytes a.quietRetryMs ++ halfBytes a.rMinKohm ++
    [a.vTest]

/-- The payload of a request: its arguments in the order of its chapter's table (R193). -/
def Request.payload : Request → List Byte
  | .lineEnable lines => setBytes 8 lines.toNat
  | .lineDisable lines => setBytes 8 lines.toNat
  | .lineMap line pair profile => [line, pair, profile]
  | .lineSwap a b => [a, b]
  | .lineReset line => [line]
  | .lineQuery line => [line]
  | .profileWrite profile fields => profile :: profileBytes fields
  | .profileRead profile => [profile]
  | .scanMode mode => [mode]
  | .detectorService detector service => [detector, service]
  | .detectorQuery => []
  | .windowWrite args => windowBytes args
  | .windowRead window => [window]
  | .recordTake selector line => [selector, line]
  | .recordList => []
  | .overrunClear line => [line]
  | .faultLimits pairs foreignV leakMa => setBytes 9 pairs.toNat ++ [foreignV, leakMa]
  | .watchSet args => watchBytes args
  | .pairQuery pair => [pair]
  | .testOrder pair kind => [pair, kind]
  | .testCancel pair => [pair]
  | .testSet args => testSetBytes args
  | .testQuery => []
  | .routeWrite kind cls => [kind, cls]
  | .noticeEnable kinds sources => kinds :: setBytes 19 sources.toNat
  | .noticeDisable kinds sources => kinds :: setBytes 19 sources.toNat
  | .noticePoll => []
  | .identify => []
  | .partReset => []

/-- The frame of a request with a tag. -/
def Request.frame (r : Request) (tag : Byte) : Frame := ⟨r.type, tag, r.payload⟩

/-- Read the nineteen fields of PROFILE_WRITE. -/
def parseProfile : List Byte → Option ProfileArgs
  | [a, b, c, d0, d1, e, f, g0, g1, h0, h1, i0, i1, j0, j1, k0, k1, l0, l1, m, n, o0, o1, p0, p1, q, r, s0, s1] =>
    some ⟨a, b, c, half d0 d1, e, f, half g0 g1, half h0 h1, half i0 i1, half j0 j1, half k0 k1,
      half l0 l1, m, n, half o0 o1, half p0 p1, q, r, half s0 s1⟩
  | _ => none

/-- Read WINDOW_WRITE: two bytes for DEFAULT, 25 for any other window code (R191, R193). -/
def parseWindow : List Byte → Option WindowWriteArgs
  | [code, cls] => if code = 8#8 then some (.default cls) else none
  | [code, en, len, p0, p1, p2, p3, p4, p5, p6, p7, rule, n, cls, urgent, present, rlen,
      r0, r1, r2, r3, r4, r5, r6, r7] =>
    if code = 8#8 then none
    else some (.window code ⟨en, len, #v[p0, p1, p2, p3, p4, p5, p6, p7], rule, n, cls, urgent, present,
      rlen, #v[r0, r1, r2, r3, r4, r5, r6, r7]⟩)
  | _ => none

/-- Read WATCH_SET. -/
def parseWatch : List Byte → Option WatchArgs
  | a :: b0 :: b1 :: c :: d0 :: d1 :: d2 :: d3 :: e :: f0 :: f1 :: f2 :: f3 :: set =>
    if set.length = 9 then
      some ⟨a, half b0 b1, c, quad d0 d1 d2 d3, e, quad f0 f1 f2 f3, BitVec.ofNat 72 (setValue set)⟩
    else none
  | _ => none

/-- Read TEST_SET. -/
def parseTestSet : List Byte → Option TestSetArgs
  | [a, b0, b1, c0, c1, d0, d1, e] => some ⟨a, half b0 b1, half c0 c1, half d0 d1, e⟩
  | _ => none

/-- What a request frame says: a request, a wrong payload length, or no request (R191). -/
inductive Decoded where
  | request (r : Request)
  | badLength
  | unknown
deriving DecidableEq, Repr

/-- A parse that fails is a wrong payload length (R191 case 2). -/
def Decoded.ofOption : Option Request → Decoded
  | some r => .request r
  | none => .badLength

/-- Read a request with no argument. -/
def parseNone (r : Request) : List Byte → Option Request
  | [] => some r
  | _ => none

/-- Read a request of one byte. -/
def parse1 (f : Byte → Request) : List Byte → Option Request
  | [a] => some (f a)
  | _ => none

/-- Read a request of two bytes. -/
def parse2 (f : Byte → Byte → Request) : List Byte → Option Request
  | [a, b] => some (f a b)
  | _ => none

/-- Read a request of three bytes. -/
def parse3 (f : Byte → Byte → Byte → Request) : List Byte → Option Request
  | [a, b, c] => some (f a b c)
  | _ => none

/-- Read a line set (R193). -/
def parseLineSet (f : BitVec 64 → Request) (pl : List Byte) : Option Request :=
  if pl.length = 8 then some (f (BitVec.ofNat 64 (setValue pl))) else none

/-- Read FAULT_LIMITS. -/
def parseLimits (pl : List Byte) : Option Request :=
  match pl.drop 9 with
  | [v, ma] => some (.faultLimits (BitVec.ofNat 72 (setValue (pl.take 9))) v ma)
  | _ => none

/-- Read a kind set and a source set (R175). -/
def parsePoints (f : BitVec 8 → BitVec 145 → Request) : List Byte → Option Request
  | kinds :: set => if set.length = 19 then some (f kinds (BitVec.ofNat 145 (setValue set))) else none
  | _ => none

/-- Read a request frame by its type and payload (R191, section 11.6). -/
def decodeRequest (type : Byte) (pl : List Byte) : Decoded :=
  match type.toNat with
  | 0x01 => .ofOption (parseLineSet .lineEnable pl)
  | 0x02 => .ofOption (parseLineSet .lineDisable pl)
  | 0x03 => .ofOption (parse3 .lineMap pl)
  | 0x04 => .ofOption (parse2 .lineSwap pl)
  | 0x05 => .ofOption (parse1 .lineReset pl)
  | 0x06 => .ofOption (parse1 .lineQuery pl)
  | 0x07 => .ofOption (match pl with
      | profile :: rest => (parseProfile rest).map (.profileWrite profile)
      | [] => none)
  | 0x08 => .ofOption (parse1 .profileRead pl)
  | 0x09 => .ofOption (parse1 .scanMode pl)
  | 0x0A => .ofOption (parse2 .detectorService pl)
  | 0x0B => .ofOption (parseNone .detectorQuery pl)
  | 0x0C => .ofOption ((parseWindow pl).map .windowWrite)
  | 0x0D => .ofOption (parse1 .windowRead pl)
  | 0x0E => .ofOption (parse2 .recordTake pl)
  | 0x0F => .ofOption (parseNone .recordList pl)
  | 0x10 => .ofOption (parse1 .overrunClear pl)
  | 0x11 => .ofOption (parseLimits pl)
  | 0x12 => .ofOption ((parseWatch pl).map .watchSet)
  | 0x13 => .ofOption (parse1 .pairQuery pl)
  | 0x14 => .ofOption (parse2 .testOrder pl)
  | 0x15 => .ofOption (parse1 .testCancel pl)
  | 0x16 => .ofOption ((parseTestSet pl).map .testSet)
  | 0x17 => .ofOption (parseNone .testQuery pl)
  | 0x18 => .ofOption (parse2 .routeWrite pl)
  | 0x19 => .ofOption (parsePoints .noticeEnable pl)
  | 0x1A => .ofOption (parsePoints .noticeDisable pl)
  | 0x1B => .ofOption (parseNone .noticePoll pl)
  | 0x1C => .ofOption (parseNone .identify pl)
  | 0x1D => .ofOption (parseNone .partReset pl)
  | _ => .unknown

/-! ### Checks of arguments -/

/-- A line number 0 to 63 (R6). -/
def lineArg (b : Byte) : Option LineNo := if h : b.toNat < 64 then some ⟨b.toNat, h⟩ else none

/-- A pair number 0 to 71 (R6). -/
def pairArg (b : Byte) : Option PairNo := if h : b.toNat < 72 then some ⟨b.toNat, h⟩ else none

/-- A number 0 to 7: a profile (R6), a detector (R87), a window (R100) or a kind (R176). -/
def eightArg (b : Byte) : Option (Fin 8) := if h : b.toNat < 8 then some ⟨b.toNat, h⟩ else none

/-- A window class 0 to 15 (R100). -/
def classArg (b : Byte) : Option (Fin 16) := if h : b.toNat < 16 then some ⟨b.toNat, h⟩ else none

/-- A notice class 0 to 3 (R176). -/
def routeArg (b : Byte) : Option (Fin 4) := if h : b.toNat < 4 then some ⟨b.toNat, h⟩ else none

/-- A yes or no byte (R193; log 16). -/
def yesNoArg (b : Byte) : Option Bool := if b = 1#8 then some true else if b = 0#8 then some false else none

/-- A test kind code (R167). -/
def kindArg (b : Byte) : Option TestKind :=
  if b = 0#8 then some .insulation else if b = 1#8 then some .foreign else if b = 2#8 then some .full else none

/-- A scan mode code (R24). -/
def modeArg (b : Byte) : Option ScanMode :=
  if b = 0#8 then some .full else if b = 1#8 then some .economy else none

/-- A methods code (R13). -/
def methodsArg (b : Byte) : Option Methods :=
  if b = 0#8 then some .pulse else if b = 1#8 then some .tone else if b = 2#8 then some .both else none

/-- A record mode code (R13). -/
def recordModeArg (b : Byte) : Option RecordMode :=
  if b = 0#8 then some .single else if b = 1#8 then some .continuous else none

/-- A binder notice mode code (R133). -/
def noticeModeArg (b : Byte) : Option NoticeMode :=
  if b = 0#8 then some .every else if b = 1#8 then some .startStop else none

/-- `lo ≤ n ≤ hi`. -/
def within (lo hi n : Nat) : Bool := decide (lo ≤ n) && decide (n ≤ hi)

/-- The ranges and relations of R13 over a profile. -/
def Profile.ok (p : Profile) : Bool :=
  within 6 40 p.seizeMa && within 2 (p.seizeMa - 2) p.releaseMa && within 0 7 p.glitch &&
  within 20 1000 p.seizeMs && within 10 60 p.brkMinMs && within (p.brkMinMs + 10) 200 p.brkMaxMs &&
  within (p.brkMaxMs + 10) 1000 p.flashMinMs && within p.flashMinMs 1500 p.flashMaxMs &&
  within 100 1000 p.gapLoMs && within p.gapLoMs 1000 p.gapHiMs && within p.gapLoMs p.gapHiMs p.gapMs &&
  within 200 1200 p.learnSpanMs && decide (4 * p.periodHiMs ≤ p.learnSpanMs) &&
  within 50 p.periodHiMs p.periodLoMs && within p.periodLoMs 250 p.periodHiMs &&
  within 2000 60000 p.firstMs && within 1000 30000 p.collectMs && within 0 2000 p.settleMs

/-- The profile that PROFILE_WRITE's fields name, with the methods and record mode read. -/
def ProfileArgs.toProfile (a : ProfileArgs) (m : Methods) (r : RecordMode) : Profile where
  seizeMa := a.seizeMa.toNat
  releaseMa := a.releaseMa.toNat
  glitch := a.glitch.toNat
  seizeMs := a.seizeMs.toNat
  brkMinMs := a.brkMinMs.toNat
  brkMaxMs := a.brkMaxMs.toNat
  flashMinMs := a.flashMinMs.toNat
  flashMaxMs := a.flashMaxMs.toNat
  gapMs := a.gapMs.toNat
  gapLoMs := a.gapLoMs.toNat
  gapHiMs := a.gapHiMs.toNat
  learnSpanMs := a.learnSpanMs.toNat
  periodLoMs := a.periodLoMs.toNat
  periodHiMs := a.periodHiMs.toNat
  firstMs := a.firstMs.toNat
  collectMs := a.collectMs.toNat
  methods := m
  recordMode := r
  settleMs := a.settleMs.toNat

/-- The checks of PROFILE_WRITE (R14): the profile written, or none. -/
def profileArg (a : ProfileArgs) : Option Profile :=
  match methodsArg a.methods, recordModeArg a.recordMode with
  | some m, some r => if (ProfileArgs.toProfile a m r).ok then some (ProfileArgs.toProfile a m r) else none
  | _, _ => none

/-- A pattern position: a symbol code, or 16 for ANY (R193). -/
def positionArg (b : Byte) : Option (Option Symbol) :=
  if h : b.toNat < 16 then some (some ⟨b.toNat, h⟩) else if b.toNat = 16 then some none else none

/-- A symbol code 0 to 15. -/
def symbolArg (b : Byte) : Option Symbol := classArg b

/-- The pattern of WINDOW_WRITE: 1 to 8 positions, those beyond the length ignored (R100, R193). -/
def patternArg (a : WindowArgs) : Option (List (Option Symbol)) :=
  if within 1 8 a.patternLen.toNat then (a.positions.toList.take a.patternLen.toNat).mapM positionArg else none

/-- The rule of WINDOW_WRITE: FIXED n with the pattern length ≤ n ≤ 24, or OPEN (R100). -/
def ruleArg (a : WindowArgs) : Option WindowRule :=
  if a.rule = 0#8 then
    if within a.patternLen.toNat Config.maxDigits a.n.toNat then some (.fixed a.n.toNat) else none
  else if a.rule = 1#8 then some .openEnd
  else none

/-- The replacement of WINDOW_WRITE: absent, or 0 to 8 symbols (R100; log 16). -/
def replacementArg (a : WindowArgs) : Option (Option (List Symbol)) :=
  match yesNoArg a.replPresent with
  | none => none
  | some false => some none
  | some true =>
    if a.replLen.toNat ≤ 8 then ((a.symbols.toList.take a.replLen.toNat).mapM symbolArg).map some else none

/-- The checks of WINDOW_WRITE for W0 to W7 (R100): the window written, or none. -/
def windowArg (a : WindowArgs) : Option Window :=
  match yesNoArg a.enabled, patternArg a, ruleArg a, classArg a.cls, yesNoArg a.urgent, replacementArg a with
  | some en, some pat, some rule, some cls, some urgent, some repl => some ⟨en, pat, rule, cls, urgent, repl⟩
  | _, _, _, _, _, _ => none

/-- The checks of WATCH_SET (R133): the settings written, or none. -/
def watchArg (a : WatchArgs) : Option WatchSettings :=
  match noticeModeArg a.mode with
  | none => none
  | some mode =>
    if within 2 63 a.suspectScore.toNat && within 0 60000 a.sustainMs.toNat && within 2 8 a.binderK.toNat &&
        within 1000 600000 a.holdMs.toNat && within 0 600000 a.guardMs.toNat then
      some ⟨a.suspectScore.toNat, a.sustainMs.toNat, a.binderK.toNat, a.holdMs.toNat, mode,
        a.guardMs.toNat, a.pairs⟩
    else none

/-- The checks of TEST_SET (R154): the settings written, or none. -/
def testSetArg (a : TestSetArgs) : Option TestSettings :=
  if within 1 5 a.attemptsMax.toNat && within 50 2000 a.quietFirstMs.toNat &&
      within 20 2000 a.quietRetryMs.toNat && within 20 2000 a.rMinKohm.toNat && within 5 150 a.vTest.toNat then
    some ⟨a.attemptsMax.toNat, a.quietFirstMs.toNat, a.quietRetryMs.toNat, a.rMinKohm.toNat, a.vTest.toNat⟩
  else none

/-- The selector of RECORD_TAKE (R121); its line argument is read for LINE alone (R193). -/
inductive Selector where
  | oldest
  | line (n : LineNo)
  | urgentFirst
deriving DecidableEq, Repr

/-- The checks of RECORD_TAKE (R121). -/
def selectorArg (selector line : Byte) : Option Selector :=
  if selector = 0#8 then some .oldest
  else if selector = 1#8 then (lineArg line).map .line
  else if selector = 2#8 then some .urgentFirst
  else none

/-! ### Fields of replies and bodies (section 11.7) -/

/-- A profile's nineteen fields: 29 bytes (R193). -/
def Profile.bytes (p : Profile) : List Byte :=
  [byte p.seizeMa, byte p.releaseMa, byte p.glitch] ++ bytes2 p.seizeMs ++ [byte p.brkMinMs, byte p.brkMaxMs] ++
  bytes2 p.flashMinMs ++ bytes2 p.flashMaxMs ++ bytes2 p.gapMs ++ bytes2 p.gapLoMs ++ bytes2 p.gapHiMs ++
  bytes2 p.learnSpanMs ++ [byte p.periodLoMs, byte p.periodHiMs] ++ bytes2 p.firstMs ++ bytes2 p.collectMs ++
  [p.methods.code, p.recordMode.code] ++ bytes2 p.settleMs

/-- The first eight of a list of bytes, with zeros behind a shorter one. -/
def pad8 (bs : List Byte) : List Byte := (bs ++ List.replicate 8 0#8).take 8

/-- A pattern position on the wire: the symbol's code, or 16 for ANY. -/
def positionCode : Option Symbol → Byte
  | some x => byte x.val
  | none => 16#8

/-- A window's fields behind its code, as WINDOW_READ returns them: 24 bytes (R193). -/
def Window.bytes (w : Window) : List Byte :=
  [yesNo w.enabled, byte w.pattern.length] ++ pad8 (w.pattern.map positionCode) ++
  (match w.rule with
   | .fixed n => [0#8, byte n]
   | .openEnd => [1#8, 0#8]) ++
  [byte w.cls.val, yesNo w.urgent] ++
  (match w.replacement with
   | some r => [1#8, byte r.length] ++ pad8 (r.map fun x => byte x.val)
   | none => [0#8, 0#8] ++ pad8 [])

/-- The dial record's layout (section 11.7). -/
def DialRecord.bytes (r : DialRecord) : List Byte :=
  [byte r.line.val, byte r.pair.val] ++ bytes4 r.seizeTime.toNat ++ bytes4 r.closeTime.toNat ++
  [r.cause.code, r.window.code, byte r.cls.val, yesNo r.urgent, r.marks.code] ++
  [byte (r.learned.isSome.toNat + 2 * r.wait.isSome.toNat + 4 * r.routed.isSome.toNat + 8 * r.storeWaited.toNat)] ++
  [byte (r.learned.getD 0)] ++ bytes2 (r.wait.getD 0) ++
  [byte r.digits.length] ++ r.digits.map Digit.code ++
  [byte (r.routed.getD []).length] ++ (r.routed.getD []).map fun x => byte x.val

/-- The four measurements of a reading: 7 bytes. -/
def Measured.bytes (m : Measured) : List Byte :=
  bytes2 m.tipGround ++ bytes2 m.ringGround ++ bytes2 m.tipRing ++ [byte m.volts]

/-- A last test result: origin, kind, outcome, abort cause, end time, 8 bytes. -/
def LastTest.bytes (t : LastTest) : List Byte :=
  [t.origin.code, t.kind.code] ++ t.outcome.bytes ++ bytes4 t.endTime.toNat

/-- Test settings: 8 bytes. -/
def TestSettings.bytes (w : TestSettings) : List Byte :=
  [byte w.attemptsMax] ++ bytes2 w.quietFirstMs ++ bytes2 w.quietRetryMs ++ bytes2 w.rMinKohm ++ [byte w.vTest]

/-- Who asked for a test: the origin, then the tag as an optional value. -/
def Asker.bytes : Asker → List Byte
  | .watch => [0#8, 0#8, 0#8]
  | .controller tag => [1#8, 1#8, tag]

end Sys2Proof.Machine
end

