-- ==== Sys2Proof/Machine/Reports.lean ====
section
/-! DEFINITION. The Notice Engine's order and bodies (chapter 10): class in force, the choice of a class,
the bodies of section 11.7, the poll. -/

namespace Sys2Proof.Machine

/-! ### Bodies (R173 and the table of section 11.7) -/

/-- The line at a ring position, if a line stands there (R171). -/
def posLine (pos : Fin 145) : Option LineNo := if h : pos.val < 64 then some ⟨pos.val, h⟩ else none

/-- The pair at a ring position, if a pair stands there (R171). -/
def posPair (pos : Fin 145) : Option PairNo :=
  if h : 64 ≤ pos.val ∧ pos.val < 136 then some ⟨pos.val - 64, by omega⟩ else none

/-- The binder at a ring position, if a binder stands there (R171). -/
def posBinder (pos : Fin 145) : Option BinderNo :=
  if h : 136 ≤ pos.val then some ⟨pos.val - 136, by omega⟩ else none

/-- The count an entry reports. -/
def NoticeEntry.countByte (e : NoticeEntry) : Byte := byte (e.count.getD 0)

/-- The time an entry reports. -/
def NoticeEntry.timeBytes (e : NoticeEntry) : List Byte := bytes4 (e.time.getD 0#32).toNat

/-- The live fields of a FAULT body (R146). -/
def State.faultBody (s : State) (p : PairNo) : List Byte :=
  let r := s.fault p
  [byte p.val, r.state.code, byte ((s.foreignOver p).toNat + 2 * (s.leakOver p).toNat), yesNo r.senseLost] ++
    optional 8 (r.last.map LastTest.bytes)

/-- The pairs of a binder in suspicion, in ascending order (R150). -/
def State.suspects (s : State) (b : BinderNo) : List PairNo :=
  allPairs.filter fun p => decide (binderOf p = b) && (s.fault p).inSuspicion

/-- The body of a BINDER notice (R150). -/
def State.binderBody (s : State) (b : BinderNo) (e : NoticeEntry) : List Byte :=
  let r := s.binder b
  [byte b.val, yesNo r.hold, e.countByte, byte r.count] ++ (s.suspects b).map fun p => byte p.val

/-- The body of a TEST_DONE notice (R166); with no controller result its fields are 0 (log 26). -/
def State.testDoneBody (s : State) (p : PairNo) (e : NoticeEntry) : List Byte :=
  [byte p.val, e.countByte] ++
    match s.bus.results[p] with
    | some r => [r.tag, r.kind.code] ++ r.outcome.bytes ++ [byte r.attempts] ++ bytes4 r.endTime.toNat ++
        optional 7 (r.last.map Measured.bytes)
    | none => List.replicate 17 0#8

/-- The body of a line's notice (R56, R57, R128, R129). -/
def State.lineBody (s : State) (n : LineNo) (e : NoticeEntry) : List Byte :=
  match e.kind with
  | .hook => [byte n.val, yesNo (s.line n).state.offHook, e.countByte] ++ e.timeBytes
  | .flash => [byte n.val, e.countByte] ++ e.timeBytes
  | .record => [byte n.val, byte (s.store.storedCount n), yesNo (s.store.urgentStored n)]
  | .overrun => [byte n.val, e.countByte] ++ e.timeBytes ++ [yesNo s.store.overrun[n]]
  | .loopHeld => [byte n.val, e.countByte] ++ e.timeBytes ++ [yesNo (s.line n).permanentLoop]
  | .fault => []
  | .binder => []
  | .testDone => []

/-- The body of an entry, built from the state as it stands (R173). -/
def State.body (s : State) (e : NoticeEntry) : List Byte :=
  match posLine e.pos with
  | some n => s.lineBody n e
  | none =>
    match posPair e.pos with
    | some p => match e.kind with
      | .fault => s.faultBody p
      | .testDone => s.testDoneBody p e
      | _ => []
    | none => match posBinder e.pos with
      | some b => s.binderBody b e
      | none => []

/-! ### Class in force and choice (R176, R177, R179) -/

/-- A RECORD entry whose line has an urgent stored record is promoted to class 0 (R177). -/
def State.promoted (s : State) (e : NoticeEntry) : Bool :=
  decide (e.kind = .record) &&
    match posLine e.pos with
    | some n => s.store.urgentStored n
    | none => false

/-- The class in force of an entry (R176, R177). -/
def State.classOf (s : State) (e : NoticeEntry) : Fin 4 :=
  if s.promoted e then 0 else s.notices.routes[e.kind.num]

/-- The entry a search of the ring for a class stops at (R179): entries stand in ring order, and a
source's lower kind before its higher, so it is the first of the class at or after the cursor, or else
the first of the class. -/
def State.nextOfClass (s : State) (c : Fin 4) : Option NoticeEntry :=
  let es := s.notices.entries.filter fun e => decide (s.classOf e = c)
  match es.find? fun e => decide (s.notices.cursors[c].val ≤ e.pos.val) with
  | some e => some e
  | none => es.head?

/-- The ring position after a source, 144 wrapping to 0 (R179). -/
def posAfter (pos : Fin 145) : Fin 145 := pos + 1

/-- A chosen entry leaves the pending set and the cursor of its class moves past its source (R179, R180). -/
def State.takeEntry (s : State) (c : Fin 4) (e : NoticeEntry) : State :=
  { s with notices := { s.notices with
      entries := s.notices.entries.filter fun x => decide (x.key ≠ e.key)
      cursors := s.notices.cursors.set c (posAfter e.pos) } }

/-- The frame of a notice (R186): type 0x40 + kind number, tag 0. -/
def State.noticeFrame (s : State) (e : NoticeEntry) : Frame := ⟨byte (0x40 + e.kind.num.val), 0#8, s.body e⟩

/-- Up to `k` class-3 entries, taken one after another, each as its kind number and body (R182). -/
def State.poll : Nat → State → State × List (List Byte)
  | 0, s => (s, [])
  | k + 1, s =>
    match s.nextOfClass 3 with
    | none => (s, [])
    | some e =>
      let (s', rest) := State.poll k (s.takeEntry 3 e)
      (s', (byte e.kind.num.val :: s.body e) :: rest)

/-! ### The enable set (R175) -/

/-- The notice points of a kind set and a source set (R175). -/
def inPoints (kinds : BitVec 8) (sources : BitVec 145) (pos : Fin 145) (k : Fin 8) : Bool :=
  kinds.getLsbD k.val && sources.getLsbD pos.val && isNoticePoint pos k

/-- The enable set with the notice points added (R175). -/
def Notices.withPoints (x : Notices) (kinds : BitVec 8) (sources : BitVec 145) : Vector (Vector Bool 8) 145 :=
  Vector.ofFn fun pos => Vector.ofFn fun k => x.enabled[pos][k] || inPoints kinds sources pos k

/-- The enable set with the notice points removed (R175). -/
def Notices.withoutPoints (x : Notices) (kinds : BitVec 8) (sources : BitVec 145) : Vector (Vector Bool 8) 145 :=
  Vector.ofFn fun pos => Vector.ofFn fun k => x.enabled[pos][k] && !inPoints kinds sources pos k

/-- Add notice points to the enable set (R175). -/
def State.enablePoints (s : State) (kinds : BitVec 8) (sources : BitVec 145) : State :=
  { s with notices := { s.notices with enabled := s.notices.withPoints kinds sources } }

/-- Remove notice points from the enable set and drop their pending entries (R175). -/
def State.disablePoints (s : State) (kinds : BitVec 8) (sources : BitVec 145) : State :=
  { s with notices := { s.notices with
      enabled := s.notices.withoutPoints kinds sources
      entries := s.notices.entries.filter fun e => !inPoints kinds sources e.pos e.kind.num } }

end Sys2Proof.Machine
end

