-- ==== Sys2Proof/Machine/Requests.lean ====
section
/-! DEFINITION. What each request does at its owning block, with its reply: checks first, in the order of
its rule, then every change (R6, R191). -/

namespace Sys2Proof.Machine

/-- A refused request changes nothing; its reply is the status alone. -/
def refuse (st : Status) (s : State) : State × Reply := (s, .of st)

/-- An accepted request without reply fields. -/
def accept (s : State) : State × Reply := (s, .of .done)

/-! ### Lines (chapter 1) -/

/-- Enabling the set would map two enabled lines to one pair (R7). -/
def State.enableConflict (s : State) (lines : BitVec 64) : Bool :=
  allLines.any fun n => lines.getLsbD n.val && !(s.line n).enabled &&
    allLines.any fun m => decide (m ≠ n) && decide ((s.line m).pair = (s.line n).pair) &&
      ((s.line m).enabled || lines.getLsbD m.val)

/-- Enable one line of the set: a disabled line enters UNDER_TEST when its pair is on the bus, and
SETTLING otherwise, on a pair whose loop class starts again (R5, R7, R34). -/
def State.enableLine (s : State) (n : LineNo) : State :=
  if (s.line n).enabled then s
  else
    let p := (s.line n).pair
    let s := s.setScanRec p (s.scanRec p).restart
    if s.onBus p then s.modLine n fun l => { l with state := .underTest, wasFaulted := some false }
    else s.enterSettling n

/-- LINE_ENABLE (R7). -/
def runLineEnable (lines : BitVec 64) (s : State) : State × Reply :=
  if s.enableConflict lines then refuse .conflict s
  else accept ((allLines.foldl (fun s n => if lines.getLsbD n.val then s.enableLine n else s) s).look)

/-- Remove everything of a line's call: timers, collection, learning, snapshot, pulse count and the
permanent-loop flag (R8, R11). -/
def Line.clearCall (l : Line) : Line :=
  { l.stopTimers.forgetCall with
    collection := none
    learning := none
    pulseCount := none
    permanentLoop := false }

/-- Disable one line (R8). -/
def State.disableLine (s : State) (n : LineNo) : State :=
  if (s.line n).enabled then
    let p := (s.line n).pair
    let s := (s.modLine n .clearCall).dropDetector n
    let s := (s.modLine n fun l => { l with state := .disabled, wasFaulted := none }).setOverrun n false
    s.setScanRec p (s.scanRec p).restart
  else s

/-- LINE_DISABLE (R8). -/
def runLineDisable (lines : BitVec 64) (s : State) : State × Reply :=
  accept ((allLines.foldl (fun s n => if lines.getLsbD n.val then s.disableLine n else s) s).look)

/-- The states in which LINE_MAP and LINE_SWAP accept a line (R9, R10). -/
def LineState.mappable : LineState → Bool
  | .disabled => true
  | .idle => true
  | .faulted => true
  | _ => false

/-- An enabled line other than `a` and `b` is mapped to the pair (R9, R10). -/
def State.enabledOther (s : State) (p : PairNo) (a b : LineNo) : Bool :=
  allLines.any fun m => decide (m ≠ a) && decide (m ≠ b) && decide ((s.line m).pair = p) && (s.line m).enabled

/-- An enabled line settles (R9, R10, R11). -/
def State.settleIfEnabled (s : State) (n : LineNo) : State := if (s.line n).enabled then s.enterSettling n else s

/-- LINE_MAP, its arguments in range (R9). -/
def State.mapLine (s : State) (n : LineNo) (p : PairNo) (f : Fin 8) : State :=
  let s' := s.rescope (s.modLine n fun l => { l with pair := p, profile := f })
  (s'.settleIfEnabled n).look

/-- LINE_MAP (R6, R9). -/
def runLineMap (line pair profile : Byte) (s : State) : State × Reply :=
  match lineArg line, pairArg pair, eightArg profile with
  | some n, some p, some f =>
    if !(s.line n).state.mappable then refuse .badState s
    else if s.enabledOther p n n then refuse .conflict s
    else if s.onBus p || s.onBus (s.line n).pair then refuse .inTest s
    else accept (s.mapLine n p f)
  | _, _, _ => refuse .badArg s

/-- LINE_SWAP, accepted (R10). -/
def State.swapLines (s : State) (a b : LineNo) : State :=
  let pa := (s.line a).pair
  let pb := (s.line b).pair
  let s' := s.rescope ((s.modLine a fun l => { l with pair := pb }).modLine b fun l => { l with pair := pa })
  ((s'.settleIfEnabled a).settleIfEnabled b).look

/-- After the exchange a third enabled line would share a pair with an enabled one of the two (R10). -/
def State.swapConflict (s : State) (a b : LineNo) : Bool :=
  ((s.line a).enabled && s.enabledOther (s.line b).pair a b) ||
    ((s.line b).enabled && s.enabledOther (s.line a).pair a b)

/-- LINE_SWAP (R6, R10). -/
def runLineSwap (lineA lineB : Byte) (s : State) : State × Reply :=
  match lineArg lineA, lineArg lineB with
  | some a, some b =>
    if a = b then refuse .badArg s
    else if !((s.line a).state.mappable && (s.line b).state.mappable) then refuse .badState s
    else if s.swapConflict a b then refuse .conflict s
    else if s.onBus (s.line a).pair || s.onBus (s.line b).pair then refuse .inTest s
    else accept (s.swapLines a b)
  | _, _ => refuse .badArg s

/-- LINE_RESET at the Dial Record Store: the pending record, the store-wait flag and the overrun flag of
the line go (R11, R130). -/
def State.dropPending (s : State) (n : LineNo) : State :=
  (({ s with store := { s.store with
      waiting := s.store.waiting.filter fun r => decide (r.line ≠ n) } }).setStoreWait n false).setOverrun n false

/-- LINE_RESET, its argument in range (R11). -/
def State.resetLine (s : State) (n : LineNo) : State :=
  let s := ((s.modLine n .clearCall).dropDetector n).dropPending n
  match (s.line n).state with
  | .disabled => s
  | _ => if s.onBus (s.line n).pair then s.modLine n fun l => { l with state := .underTest } else s.enterSettling n

/-- LINE_RESET (R6, R11). -/
def runLineReset (line : Byte) (s : State) : State × Reply :=
  match lineArg line with
  | some n => accept (s.resetLine n).look
  | none => refuse .badArg s

/-- The return state as an optional enumerated value (R12). -/
def Line.returnBytes (l : Line) : List Byte :=
  match l.state, l.returnState with
  | .opened, some rs => [1#8, rs.toState.code]
  | _, _ => [0#8, 0#8]

/-- A line's position in the detector queue, 1 for the head (R78). -/
def Pool.position (p : Pool) (n : LineNo) : Nat := p.queue.findIdx (fun w => decide (w.line = n)) + 1

/-- The detector binding: none, the detector number, or queued with its position (R12, R193). -/
def State.bindingBytes (s : State) (n : LineNo) : List Byte :=
  match (s.line n).binding with
  | .none => [0#8, 0#8]
  | .detector d => [1#8, byte d.val]
  | .queued => [2#8, byte (s.pool.position n)]

/-- The reply fields of LINE_QUERY (R12). -/
def State.lineFields (s : State) (n : LineNo) : List Byte :=
  let l := s.line n
  let digits := match l.collection with
    | some c => c.digits
    | none => []
  [l.state.code] ++ l.returnBytes ++ [byte l.pair.val, byte l.profile.val] ++
  [yesNo l.permanentLoop, yesNo s.store.overrun[n], yesNo s.store.storeWait[n]] ++
  [byte (s.store.storedCount n), yesNo (s.store.hasPending n)] ++ s.bindingBytes n ++
  (byte digits.length :: digits.map Digit.code) ++ optional 1 (l.learnedPeriod.map fun p => [byte p])

/-- LINE_QUERY (R6, R12). -/
def runLineQuery (line : Byte) (s : State) : State × Reply :=
  match lineArg line with
  | some n => (s, ⟨.done, s.lineFields n⟩)
  | none => refuse .badArg s

/-- PROFILE_WRITE (R14). -/
def runProfileWrite (profile : Byte) (fields : ProfileArgs) (s : State) : State × Reply :=
  match eightArg profile, profileArg fields with
  | some f, some p => accept { s with profiles := s.profiles.set f p }
  | _, _ => refuse .badArg s

/-- PROFILE_READ (R15). -/
def runProfileRead (profile : Byte) (s : State) : State × Reply :=
  match eightArg profile with
  | some f => (s, ⟨.done, byte f.val :: s.profiles[f].bytes⟩)
  | none => refuse .badArg s

/-! ### Scan mode (chapter 2) -/

/-- SCAN_MODE (R24). -/
def runScanMode (mode : Byte) (s : State) : State × Reply :=
  match modeArg mode with
  | some m => accept { s with scan := { s.scan with mode := m } }
  | none => refuse .badArg s

/-! ### Detectors (chapter 5) -/

/-- DETECTOR_SERVICE (R87). -/
def runDetectorService (detector service : Byte) (s : State) : State × Reply :=
  match eightArg detector with
  | some d =>
    if service = 0#8 then accept (s.serviceIn d)
    else if service = 1#8 then accept (s.serviceOut d)
    else refuse .badArg s
  | none => refuse .badArg s

/-- A detector's entry in DETECTOR_QUERY: service, binding presence, line, crosspoint pair, bind time
(R90, R194). -/
def Detector.bytes (x : Detector) : List Byte :=
  yesNo (!x.inService) :: match x.bound with
    | some b => [1#8, byte b.line.val, byte b.crosspoint.val] ++ bytes4 b.bindTime.toNat
    | none => List.replicate 7 0#8

/-- DETECTOR_QUERY (R90, R194). -/
def runDetectorQuery (s : State) : State × Reply :=
  let fixed := (List.finRange 8).flatMap fun d => (s.detector d).bytes
  let queue := s.pool.queue.map fun w => byte w.line.val :: bytes4 w.queuedTime.toNat
  (s, ⟨.done, fixed ++ cutList (1 + fixed.length) 5 queue⟩)

/-! ### Windows (chapter 6) -/

/-- WINDOW_WRITE (R100). -/
def runWindowWrite (args : WindowWriteArgs) (s : State) : State × Reply :=
  match args with
  | .window code fields =>
    match eightArg code, windowArg fields with
    | some i, some w => accept { s with windows := { s.windows with table := s.windows.table.set i w } }
    | _, _ => refuse .badArg s
  | .default cls =>
    match classArg cls with
    | some c => accept { s with windows := { s.windows with defaultClass := c } }
    | none => refuse .badArg s

/-- WINDOW_READ (R101, R193). -/
def runWindowRead (window : Byte) (s : State) : State × Reply :=
  match eightArg window with
  | some i => (s, ⟨.done, byte i.val :: s.windows.table[i].bytes⟩)
  | none =>
    if window = 8#8 then (s, ⟨.done, [8#8, byte s.windows.defaultClass.val, 1#8, 0#8]⟩)
    else refuse .badArg s

/-! ### Records (chapter 7) -/

/-- The slot a selector chooses (R121). -/
def Store.choose (st : Store) (sel : Selector) : Option (Fin 16) :=
  match sel with
  | .oldest => st.lowest fun _ => true
  | .line n => st.lowest fun r => decide (r.line = n)
  | .urgentFirst =>
    match st.lowest fun r => r.urgent with
    | some i => some i
    | none => st.lowest fun _ => true

/-- RECORD_TAKE (R121, R122). -/
def runRecordTake (selector line : Byte) (s : State) : State × Reply :=
  match selectorArg selector line with
  | none => refuse .badArg s
  | some sel =>
    match s.store.choose sel with
    | none => refuse .empty s
    | some i =>
      match s.store.slots[i] with
      | none => refuse .empty s
      | some sl => (s.takeSlot i sl, ⟨.done, [byte i.val, byte sl.rank] ++ sl.record.bytes⟩)

/-- A record's summary: line, class, urgent, close time (R126). -/
def DialRecord.summary (r : DialRecord) : List Byte :=
  [byte r.line.val, byte r.cls.val, yesNo r.urgent] ++ bytes4 r.closeTime.toNat

/-- The occupied slots in ascending rank, each as slot, rank and summary (R126). -/
def Store.slotEntries (st : Store) : List (List Byte) :=
  (List.range Config.slotCount).flatMap fun r => allSlots.filterMap fun i => match st.slots[i] with
    | some sl => if sl.rank = r + 1 then some ([byte i.val, byte sl.rank] ++ sl.record.summary) else none
    | none => none

/-- RECORD_LIST (R126, R194). -/
def runRecordList (s : State) : State × Reply :=
  let entries := s.store.slotEntries
  let fixed := byte entries.length :: entries.flatten
  (s, ⟨.done, fixed ++ cutList (1 + fixed.length) 7 (s.store.waiting.map DialRecord.summary)⟩)

/-- OVERRUN_CLEAR (R127). -/
def runOverrunClear (line : Byte) (s : State) : State × Reply :=
  match lineArg line with
  | some n => accept (s.setOverrun n false)
  | none => refuse .badArg s

/-! ### Fault watch (chapter 8) -/

/-- Write both limits of every pair of a set (R132). -/
def State.writeLimits (s : State) (pairs : BitVec 72) (w : Limits) : State :=
  let limits := Vector.ofFn fun p : PairNo => if pairs.getLsbD p.val then w else s.watch.limits[p]
  { s with watch := { s.watch with limits := limits } }

/-- FAULT_LIMITS (R132). -/
def runFaultLimits (pairs : BitVec 72) (foreignV leakMa : Byte) (s : State) : State × Reply :=
  if within 5 150 foreignV.toNat && within 1 40 leakMa.toNat then
    accept (s.writeLimits pairs ⟨foreignV.toNat, leakMa.toNat⟩)
  else refuse .badArg s

/-- WATCH_SET (R133, R149): the settings are replaced; when binder_k changes, every binder is brought
into line. -/
def runWatchSet (args : WatchArgs) (s : State) : State × Reply :=
  match watchArg args with
  | none => refuse .badArg s
  | some w =>
    let s' := { s with watch := { s.watch with settings := w } }
    if w.binderK = s.watch.settings.binderK then accept s'
    else accept ((List.finRange 9).foldl (fun s b => s.alignBinder b) s')

/-- The reply fields of PAIR_QUERY (R147). -/
def State.pairFields (s : State) (p : PairNo) : List Byte :=
  let r := s.fault p
  let b := s.binder (binderOf p)
  let w := s.watch.settings
  [byte r.foreign, byte r.leak, r.state.code, yesNo r.senseLost] ++ timerBytes r.sustainTimer ++
  timerBytes r.guardTimer ++ optional 8 (r.last.map LastTest.bytes) ++
  [byte s.watch.limits[p].foreignV, byte s.watch.limits[p].leakMa] ++ [yesNo (w.watched.getLsbD p.val)] ++
  [byte (binderOf p).val, byte b.count, yesNo b.hold] ++ timerBytes b.holdTimer ++
  [byte w.suspectScore] ++ bytes2 w.sustainMs ++ [byte w.binderK] ++ bytes4 w.holdMs ++ [w.mode.code] ++
  bytes4 w.guardMs

/-- PAIR_QUERY (R147). -/
def runPairQuery (pair : Byte) (s : State) : State × Reply :=
  match pairArg pair with
  | some p => (s, ⟨.done, s.pairFields p⟩)
  | none => refuse .badArg s

/-! ### Tests (chapter 9) -/

/-- TEST_ORDER (R167). -/
def runTestOrder (tag pair kind : Byte) (s : State) : State × Reply :=
  match pairArg pair, kindArg kind with
  | some p, some k =>
    if s.onBus p then refuse .inTest s
    else if !s.bus.queued p && decide (Config.testQueueMax ≤ s.bus.queue.length) then refuse .full s
    else ((s.orderTest p k tag).look, .of .queued)
  | _, _ => refuse .badArg s

/-- TEST_CANCEL (R168). -/
def runTestCancel (pair : Byte) (s : State) : State × Reply :=
  match pairArg pair with
  | none => refuse .badArg s
  | some p =>
    match s.bus.run with
    | some r =>
      if r.pair = p then accept (s.endTest r (.aborted .cancelled)).look
      else if s.bus.queued p then accept (s.removeEntry fun e => decide (e.pair = p)).look
      else if s.bus.wanted[p].isSome then accept (s.setWanted p none)
      else refuse .notFound s
    | none =>
      if s.bus.queued p then accept (s.removeEntry fun e => decide (e.pair = p)).look
      else if s.bus.wanted[p].isSome then accept (s.setWanted p none)
      else refuse .notFound s

/-- TEST_SET (R154). -/
def runTestSet (args : TestSetArgs) (s : State) : State × Reply :=
  match testSetArg args with
  | some w => accept { s with bus := { s.bus with settings := w } }
  | none => refuse .badArg s

/-- The enabled lines mapped to a pair, each with whether it was FAULTED when it entered UNDER_TEST (R170). -/
def State.testedLines (s : State) (p : PairNo) : List (List Byte) :=
  (allLines.filter fun n => decide ((s.line n).pair = p) && (s.line n).enabled).map fun n =>
    [byte n.val, yesNo ((s.line n).wasFaulted.getD false)]

/-- The run record in TEST_QUERY (R170). -/
def State.runFields (s : State) (r : Run) : List Byte :=
  let lines := s.testedLines r.pair
  [byte r.pair.val, r.kind.code] ++ r.asker.bytes ++ [byte r.attempt, r.phase.code] ++
  [byte r.readings, byte r.fails] ++ (byte r.verdicts.length :: r.verdicts.map Verdict.code) ++
  optional 7 (r.last.map Measured.bytes) ++ r.settings.bytes ++ (byte lines.length :: lines.flatten)

/-- What TEST_QUERY says of the bus: the occupant as an optional pair, then the run record as an optional
value whose fixed bytes are 0 and whose lists are empty when no test runs (R170; log 17). -/
def State.occupantFields (s : State) : List Byte :=
  match s.bus.run with
  | some r => [1#8, byte r.pair.val, 1#8] ++ s.runFields r
  | none => [0#8, 0#8, 0#8] ++ List.replicate 27 0#8

/-- A queued entry in TEST_QUERY: pair, kind, origin, tag, eligible (R170). -/
def State.entryFields (s : State) (e : TestEntry) : List Byte :=
  [byte e.pair.val, e.kind.code] ++ e.asker.bytes ++ [yesNo (s.eligible e)]

/-- The test wanted set in ascending pair order (R170). -/
def TestBus.wantedEntries (b : TestBus) : List (List Byte) :=
  allPairs.filterMap fun p => b.wanted[p].map fun k => [byte p.val, k.code]

/-- TEST_QUERY (R170, R194). -/
def runTestQuery (s : State) : State × Reply :=
  let fixed := s.occupantFields ++ (byte s.bus.queue.length :: s.bus.queue.flatMap s.entryFields)
  let last := s.bus.settings.bytes
  (s, ⟨.done, fixed ++ cutList (1 + fixed.length + last.length) 2 s.bus.wantedEntries ++ last⟩)

/-! ### Notices (chapter 10) -/

/-- ROUTE_WRITE (R176). -/
def runRouteWrite (kind cls : Byte) (s : State) : State × Reply :=
  match eightArg kind, routeArg cls with
  | some k, some c => accept { s with notices := { s.notices with routes := s.notices.routes.set k c } }
  | _, _ => refuse .badArg s

/-- NOTICE_ENABLE (R175). -/
def runNoticeEnable (kinds : BitVec 8) (sources : BitVec 145) (s : State) : State × Reply :=
  accept (s.enablePoints kinds sources)

/-- NOTICE_DISABLE (R175). -/
def runNoticeDisable (kinds : BitVec 8) (sources : BitVec 145) (s : State) : State × Reply :=
  accept (s.disablePoints kinds sources)

/-- NOTICE_POLL (R182). -/
def runNoticePoll (s : State) : State × Reply :=
  let (s', bodies) := s.poll Config.pollMax
  (s', ⟨.done, byte bodies.length :: bodies.flatten⟩)

/-! ### The part (chapter 11) -/

/-- IDENTIFY (R195). -/
def runIdentify (s : State) : State × Reply := (s, ⟨.done, Config.identity⟩)

/-- PART_RESET (R196): the Cabinet Link Port executes no further request. -/
def runPartReset (s : State) : State × Reply := accept { s with link := { s.link with resetOrdered := true } }

/-- The execution of a request with its tag at its owning block (R191). -/
def runRequest (r : Request) (tag : Byte) (s : State) : State × Reply :=
  match r with
  | .lineEnable lines => runLineEnable lines s
  | .lineDisable lines => runLineDisable lines s
  | .lineMap line pair profile => runLineMap line pair profile s
  | .lineSwap a b => runLineSwap a b s
  | .lineReset line => runLineReset line s
  | .lineQuery line => runLineQuery line s
  | .profileWrite profile fields => runProfileWrite profile fields s
  | .profileRead profile => runProfileRead profile s
  | .scanMode mode => runScanMode mode s
  | .detectorService detector service => runDetectorService detector service s
  | .detectorQuery => runDetectorQuery s
  | .windowWrite args => runWindowWrite args s
  | .windowRead window => runWindowRead window s
  | .recordTake selector line => runRecordTake selector line s
  | .recordList => runRecordList s
  | .overrunClear line => runOverrunClear line s
  | .faultLimits pairs foreignV leakMa => runFaultLimits pairs foreignV leakMa s
  | .watchSet args => runWatchSet args s
  | .pairQuery pair => runPairQuery pair s
  | .testOrder pair kind => runTestOrder tag pair kind s
  | .testCancel pair => runTestCancel pair s
  | .testSet args => runTestSet args s
  | .testQuery => runTestQuery s
  | .routeWrite kind cls => runRouteWrite kind cls s
  | .noticeEnable kinds sources => runNoticeEnable kinds sources s
  | .noticeDisable kinds sources => runNoticeDisable kinds sources s
  | .noticePoll => runNoticePoll s
  | .identify => runIdentify s
  | .partReset => runPartReset s

end Sys2Proof.Machine
end

