-- ==== Sys2Proof/Machine/Link.lean ====
section
/-! DEFINITION. The Cabinet Link Port (chapter 11): the CRC and the bytes of a frame, the framer, the
inbox, the execution of requests, the transmitter's choice, and the resets of the part. -/

namespace Sys2Proof.Machine

/-! ### CRC and the bytes of a frame (R186, R187) -/

/-- One bit of the CRC: the register shifted left, with the polynomial when its top bit was set (R187). -/
def crcBit (r : BitVec 16) : BitVec 16 := if r.msb then (r <<< 1) ^^^ 0x1021#16 else r <<< 1

/-- One byte of the CRC, most significant bit first (R187). -/
def crcByte (r : BitVec 16) (b : Byte) : BitVec 16 :=
  crcBit (crcBit (crcBit (crcBit (crcBit (crcBit (crcBit (crcBit (r ^^^ (b ++ 0#8)))))))))

/-- The CRC of a sequence of bytes, from a register of 0xFFFF (R187). -/
def crc (bs : List Byte) : BitVec 16 := bs.foldl crcByte 0xFFFF#16

/-- The two CRC bytes, high byte first (R187). -/
def crcBytes (bs : List Byte) : List Byte := [(crc bs).extractLsb' 8 8, (crc bs).extractLsb' 0 8]

/-- The bytes the CRC of a frame covers: length, type, tag and payload (R186, R187). -/
def Frame.covered (f : Frame) : List Byte := byte (f.payload.length + 2) :: f.type :: f.tag :: f.payload

/-- The bytes of a frame on the link (R186). -/
def Frame.bytes (f : Frame) : List Byte := Config.mark :: (f.covered ++ crcBytes f.covered)

/-! ### The framer (R188) -/

/-- What the characters after a mark are: an incomplete frame, a frame discarded for its length or its
CRC, or a good frame with the characters behind it (R188). -/
inductive Taken where
  | incomplete
  | bad
  | good (f : Frame) (rest : List Byte)
deriving DecidableEq, Repr

/-- The body and CRC of a frame whose length byte is `len`, in `rest` (R188 steps 2 and 3). -/
def takeBody (len : Byte) (rest : List Byte) : Taken :=
  if rest.length < len.toNat + 2 then .incomplete
  else
    let body := rest.take len.toNat
    let tail := rest.drop len.toNat
    match body with
    | type :: tag :: payload =>
      if tail.take 2 = crcBytes (len :: body) then .good ⟨type, tag, payload⟩ (tail.drop 2) else .bad
    | _ => .bad

/-- Take a frame from the characters after its mark (R188). -/
def takeFrame : List Byte → Taken
  | [] => .incomplete
  | len :: rest => if len.toNat < 2 ∨ 252 < len.toNat then .bad else takeBody len rest

/-- Examine characters in HUNT, in order: the characters of a frame still being collected, its mark
first, and the good frames found (R188). `fuel` is at least the number of characters. -/
def examine : Nat → List Byte → List Byte × List Frame
  | 0, _ => ([], [])
  | _ + 1, [] => ([], [])
  | fuel + 1, c :: rest =>
    if c = Config.mark then
      match takeFrame rest with
      | .incomplete => (c :: rest, [])
      | .bad => examine fuel rest
      | .good f rest' =>
        let (collected, frames) := examine fuel rest'
        (collected, f :: frames)
    else examine fuel rest

/-- Examine a whole list of characters in HUNT. -/
def scanChars (cs : List Byte) : List Byte × List Frame := examine cs.length cs

/-- Replace the characters of the frame being collected (R188). -/
def State.setCollected (s : State) (cs : List Byte) : State :=
  { s with link := { s.link with collected := cs } }

/-! ### The transmitter's choice (R178, R184) -/

/-- The STARTED frame (R184, section 11.7). -/
def startedFrame (cause : ResetCause) : Frame := ⟨0x4F#8, 0#8, cause.code :: Config.identity⟩

/-- The transmitter starts a frame (R178). -/
def State.transmit (s : State) (f : Frame) : State := { s with link := { s.link with inFlight := some f } }

/-- The frame for an entry starts: its body is built and it leaves the pending set (R180). -/
def State.sendNotice (s : State) (c : Fin 4) (e : NoticeEntry) : State :=
  (s.takeEntry c e).transmit (s.noticeFrame e)

/-- The notice part of a choice: classes 0, 1 and 2 in order (R178). -/
def State.chooseNotice (s : State) : State :=
  match s.nextOfClass 0 with
  | some e => s.sendNotice 0 e
  | none => match s.nextOfClass 1 with
    | some e => s.sendNotice 1 e
    | none => match s.nextOfClass 2 with
      | some e => s.sendNotice 2 e
      | none => s

/-- The transmitter's choice; it is made only when the transmitter is idle (R178). -/
def State.choose (s : State) : State :=
  match s.link.inFlight with
  | some _ => s
  | none => match s.link.started with
    | some cause => { s with link := { s.link with started := none, inFlight := some (startedFrame cause) } }
    | none => match s.link.replies with
      | r :: rest => { s with link := { s.link with replies := rest, inFlight := some r } }
      | [] => s.chooseNotice

/-! ### Inbox and execution (R190, R191) -/

/-- A type 0x01 to 0x3F is a request (R186, R190). -/
def isRequestType (type : Byte) : Bool := decide (1 ≤ type.toNat) && decide (type.toNat ≤ 0x3F)

/-- A good frame is taken by its type (R190). -/
def State.deliver (s : State) (f : Frame) : State :=
  if isRequestType f.type && decide (s.link.inbox.length < Config.inboxMax) then
    { s with link := { s.link with inbox := s.link.inbox ++ [f] } }
  else s

/-- The execution of a request frame, with its reply (R191). -/
def State.perform (s : State) (f : Frame) : State × Reply :=
  match decodeRequest f.type f.payload with
  | .unknown => (s, .of .unknown)
  | .badLength => (s, .of .badArg)
  | .request r => runRequest r f.tag s

/-- A reply joins the reply queue (R192). -/
def State.pushReply (s : State) (f : Frame) : State :=
  { s with link := { s.link with replies := s.link.replies ++ [f] } }

/-- The execution of the request that left the inbox: its effect, and its reply at the tail (R191, R192). -/
def State.executeFrame (s : State) (f : Frame) : State :=
  (s.perform f).1.pushReply ((s.perform f).2.frame f.type f.tag)

/-- The reply queue has room and no PART_RESET has been executed (R191, R196). -/
def State.mayExecute (s : State) : Bool :=
  decide (s.link.replies.length < Config.replyMax) && !s.link.resetOrdered

/-- Execute requests from the head of the inbox while the reply queue has room, with a choice after each
(R178, R191; log 5). `fuel` is at least the number of frames in the inbox. -/
def State.pump : Nat → State → State
  | 0, s => s
  | fuel + 1, s =>
    match s.link.inbox with
    | [] => s
    | f :: rest =>
      if s.mayExecute then
        State.pump fuel (({ s with link := { s.link with inbox := rest } }).executeFrame f).choose
      else s

/-- Execute what can be executed, and make the transmitter's choice. -/
def State.serve (s : State) : State := (s.pump s.link.inbox.length).choose

/-- A PART_RESET reply with status DONE is being sent, so arriving characters are lost (R196; log 21). -/
def isResetReply (f : Frame) : Bool := decide (f.type = 0x9D#8) && decide (f.payload = [Status.done.code])

/-- The part hears nothing: the reply to an accepted PART_RESET is in flight (R196). -/
def State.deaf (s : State) : Bool :=
  match s.link.inFlight with
  | some f => isResetReply f
  | none => false

/-- A good frame is handed on (R190), and what it allows is executed. -/
def State.submit (s : State) (f : Frame) : State := (s.deliver f).serve

/-- A good frame has been found: the framer is in HUNT (R188) and the frame is handed on. The payload of
a good frame is at most 250 bytes (R186). -/
def State.receiveFrame (s : State) (f : Frame) : State :=
  if s.deaf || decide (Config.payloadMax < f.payload.length) then s
  else (s.setCollected []).submit f

/-- Characters are examined in HUNT: the frame still being collected stays, and the good frames found are
handed on in order (R188, R190). -/
def State.receiveChars (s : State) (cs : List Byte) : State :=
  (scanChars cs).2.foldl State.submit (s.setCollected (scanChars cs).1)

/-! ### Resets (R196, R197) -/

/-- The part after a reset with a cause that reads the given straps. The queue of commands and the race
counter are the model's own and stay (log 19). -/
def State.resetPart (s : State) (cause : ResetCause) (straps : Straps) : State :=
  { State.reset with
    link := .initial cause straps
    raceCount := s.raceCount
    pending := s.pending }

/-- A reset with cause REQUEST: the straps are read again, and their levels are free values, since the board may
have changed them since the last reset (R185, R196; log 11). -/
def State.requestReset (s : State) : State :=
  { s.resetPart .request ⟨Config.strapRate1 s.raceCount, Config.strapRate0 s.raceCount⟩ with
    raceCount := s.raceCount + 1 }

/-- The frame in flight has ended: an accepted PART_RESET's reply resets the part; after any other, the
transmitter is idle, chooses, and execution resumes (R178, R191, R196). -/
def State.frameEnd (s : State) (f : Frame) : State :=
  if isResetReply f then s.requestReset.choose
  else (({ s with link := { s.link with inFlight := none } }).choose).serve

end Sys2Proof.Machine
end

