-- ==== Sys2Proof/Machine/Commands.lean ====
section
/-! DEFINITION. The meanings of the request rows: each is the arrival of the good frame that carries the
request (R190; log 4), and the request runs as its rule states when its execution begins (R191). -/

namespace Sys2Proof.Machine

/-- A request arrives in a good frame (R190). -/
def arriveRequest (r : Request) (tag : Byte) (s : State) : Host.Outcome State Fault Refusal :=
  .next (s.receiveFrame (r.frame tag)).choose

/-- LINE_ENABLE (R7). -/
def execLineEnable (tag : Byte) (lines : BitVec 64) (s : State) : Host.Outcome State Fault Refusal :=
  arriveRequest (.lineEnable lines) tag s

/-- LINE_DISABLE (R8). -/
def execLineDisable (tag : Byte) (lines : BitVec 64) (s : State) : Host.Outcome State Fault Refusal :=
  arriveRequest (.lineDisable lines) tag s

/-- LINE_MAP (R9). -/
def execLineMap (tag line pair profile : Byte) (s : State) : Host.Outcome State Fault Refusal :=
  arriveRequest (.lineMap line pair profile) tag s

/-- LINE_SWAP (R10). -/
def execLineSwap (tag a b : Byte) (s : State) : Host.Outcome State Fault Refusal :=
  arriveRequest (.lineSwap a b) tag s

/-- LINE_RESET (R11). -/
def execLineReset (tag line : Byte) (s : State) : Host.Outcome State Fault Refusal :=
  arriveRequest (.lineReset line) tag s

/-- LINE_QUERY (R12). -/
def execLineQuery (tag line : Byte) (s : State) : Host.Outcome State Fault Refusal :=
  arriveRequest (.lineQuery line) tag s

/-- PROFILE_WRITE (R14). -/
def execProfileWrite (tag profile : Byte) (fields : ProfileArgs) (s : State) : Host.Outcome State Fault Refusal :=
  arriveRequest (.profileWrite profile fields) tag s

/-- PROFILE_READ (R15). -/
def execProfileRead (tag profile : Byte) (s : State) : Host.Outcome State Fault Refusal :=
  arriveRequest (.profileRead profile) tag s

/-- SCAN_MODE (R24). -/
def execScanMode (tag mode : Byte) (s : State) : Host.Outcome State Fault Refusal :=
  arriveRequest (.scanMode mode) tag s

/-- DETECTOR_SERVICE_OUT (R88). -/
def execDetectorServiceOut (tag detector : Byte) (s : State) : Host.Outcome State Fault Refusal :=
  arriveRequest (.detectorService detector 1#8) tag s

/-- DETECTOR_SERVICE_IN (R89). -/
def execDetectorServiceIn (tag detector : Byte) (s : State) : Host.Outcome State Fault Refusal :=
  arriveRequest (.detectorService detector 0#8) tag s

/-- DETECTOR_QUERY (R90). -/
def execDetectorQuery (tag : Byte) (s : State) : Host.Outcome State Fault Refusal :=
  arriveRequest .detectorQuery tag s

/-- WINDOW_WRITE (R100). -/
def execWindowWrite (tag : Byte) (args : WindowWriteArgs) (s : State) : Host.Outcome State Fault Refusal :=
  arriveRequest (.windowWrite args) tag s

/-- WINDOW_READ (R101). -/
def execWindowRead (tag window : Byte) (s : State) : Host.Outcome State Fault Refusal :=
  arriveRequest (.windowRead window) tag s

/-- RECORD_TAKE (R122). -/
def execRecordTake (tag selector line : Byte) (s : State) : Host.Outcome State Fault Refusal :=
  arriveRequest (.recordTake selector line) tag s

/-- RECORD_LIST (R126). -/
def execRecordList (tag : Byte) (s : State) : Host.Outcome State Fault Refusal :=
  arriveRequest .recordList tag s

/-- OVERRUN_CLEAR (R127). -/
def execOverrunClear (tag line : Byte) (s : State) : Host.Outcome State Fault Refusal :=
  arriveRequest (.overrunClear line) tag s

/-- FAULT_LIMITS (R132). -/
def execFaultLimits (tag : Byte) (pairs : BitVec 72) (foreignV leakMa : Byte) (s : State) : Host.Outcome State Fault Refusal :=
  arriveRequest (.faultLimits pairs foreignV leakMa) tag s

/-- WATCH_SET (R133). -/
def execWatchSet (tag : Byte) (args : WatchArgs) (s : State) : Host.Outcome State Fault Refusal :=
  arriveRequest (.watchSet args) tag s

/-- PAIR_QUERY (R147). -/
def execPairQuery (tag pair : Byte) (s : State) : Host.Outcome State Fault Refusal :=
  arriveRequest (.pairQuery pair) tag s

/-- TEST_ORDER (R167). -/
def execTestOrder (tag pair kind : Byte) (s : State) : Host.Outcome State Fault Refusal :=
  arriveRequest (.testOrder pair kind) tag s

/-- TEST_CANCEL (R168). -/
def execTestCancel (tag pair : Byte) (s : State) : Host.Outcome State Fault Refusal :=
  arriveRequest (.testCancel pair) tag s

/-- TEST_SET (R154). -/
def execTestSet (tag : Byte) (args : TestSetArgs) (s : State) : Host.Outcome State Fault Refusal :=
  arriveRequest (.testSet args) tag s

/-- TEST_QUERY (R170). -/
def execTestQuery (tag : Byte) (s : State) : Host.Outcome State Fault Refusal :=
  arriveRequest .testQuery tag s

/-- ROUTE_WRITE (R176). -/
def execRouteWrite (tag kind cls : Byte) (s : State) : Host.Outcome State Fault Refusal :=
  arriveRequest (.routeWrite kind cls) tag s

/-- NOTICE_ENABLE (R175). -/
def execNoticeEnable (tag : Byte) (kinds : BitVec 8) (sources : BitVec 145) (s : State) : Host.Outcome State Fault Refusal :=
  arriveRequest (.noticeEnable kinds sources) tag s

/-- NOTICE_DISABLE (R175). -/
def execNoticeDisable (tag : Byte) (kinds : BitVec 8) (sources : BitVec 145) (s : State) : Host.Outcome State Fault Refusal :=
  arriveRequest (.noticeDisable kinds sources) tag s

/-- NOTICE_POLL (R182). -/
def execNoticePoll (tag : Byte) (s : State) : Host.Outcome State Fault Refusal :=
  arriveRequest .noticePoll tag s

/-- IDENTIFY (R195). -/
def execIdentify (tag : Byte) (s : State) : Host.Outcome State Fault Refusal :=
  arriveRequest .identify tag s

/-- PART_RESET (R196). -/
def execPartReset (tag : Byte) (s : State) : Host.Outcome State Fault Refusal :=
  arriveRequest .partReset tag s

/-- UNKNOWN_REQUEST (R191): a request frame whose type names no request. -/
def execUnknownRequest (type tag : Byte) (payload : List Byte) (s : State) : Host.Outcome State Fault Refusal :=
  .next (s.receiveFrame ⟨type, tag, payload⟩).choose

end Sys2Proof.Machine
end

