-- ==== Sys2Proof/Machine/Events.lean ====
section
/-! DEFINITION. The meanings of the commands that are not requests: resets, samples, timers, tones,
readings, and characters and frames on the link. -/

namespace Sys2Proof.Machine

/-- The end of an event: the look at the test queue (R159; log 7), then the transmitter's choice (R178;
log 6). -/
def State.finish (s : State) : State := s.look.choose

/-- The expiry of a timer that runs and is due; otherwise nothing (R1; log 3). The expiry receives the
timer's expiry time. -/
def State.whenDue (s : State) (t : Option Time) (act : Time → State) : State :=
  match t with
  | some e => if due e s.now then act e else s
  | none => s

/-! ### Resets -/

/-- POWER_ON_RESET (R197). -/
def execPowerOnReset (rate1 rate0 : Bool) (s : State) : Host.Outcome State Fault Refusal :=
  .next (s.resetPart .power ⟨rate1, rate0⟩).choose

/-- RESET_PIN (R197). -/
def execResetPin (rate1 rate0 : Bool) (s : State) : Host.Outcome State Fault Refusal :=
  .next (s.resetPart .pin ⟨rate1, rate0⟩).choose

/-! ### Scanning -/

/-- PASS (R22): the pass that is due begins. -/
def execPass (s : State) : Host.Outcome State Fault Refusal :=
  .next (if due s.scan.nextPass s.now then s.beginPass else s).finish

/-- SAMPLE_REPLY (R25). -/
def execSampleReply (r : SampleReply) (s : State) : Host.Outcome State Fault Refusal :=
  .next (s.takeReply r).finish

/-! ### Line timers -/

/-- SETTLE_EXPIRY (R20). -/
def execSettleExpiry (n : LineNo) (s : State) : Host.Outcome State Fault Refusal :=
  .next (s.whenDue (s.line n).settleTimer fun e =>
    if (s.line n).state = .settling then s.settleLine n e
    else s.modLine n fun l => { l with settleTimer := none }).finish

/-- SEIZE_EXPIRY (R40). -/
def execSeizeExpiry (n : LineNo) (s : State) : Host.Outcome State Fault Refusal :=
  .next (s.whenDue (s.line n).seizeTimer fun e =>
    if (s.line n).state = .seizing then s.seizeLine n e
    else s.modLine n fun l => { l with seizeTimer := none }).finish

/-- FIRST_DIGIT_EXPIRY (R42, R50). -/
def execFirstDigitExpiry (n : LineNo) (s : State) : Host.Outcome State Fault Refusal :=
  .next (s.whenDue (s.line n).firstDigitTimer fun e =>
    if (s.line n).phase = some .seized then s.permanentLoop n e
    else s.modLine n fun l => { l with firstDigitTimer := none }).finish

/-- RELEASE: the expiry of the break timer (R51). -/
def execRelease (n : LineNo) (s : State) : Host.Outcome State Fault Refusal :=
  .next (s.whenDue (s.line n).breakTimer fun e =>
    if (s.line n).state = .opened then s.releaseLine n e
    else s.modLine n fun l => { l with breakTimer := none }).finish

/-- GAP_EXPIRY (R50, R61). -/
def execGapExpiry (n : LineNo) (s : State) : Host.Outcome State Fault Refusal :=
  .next (s.whenDue (s.line n).gapTimer fun _ =>
    if (s.line n).phase = some .pulsing then s.completePulse n
    else s.modLine n fun l => { l with gapTimer := none }).finish

/-- COLLECT_EXPIRY (R50, R65, R96). -/
def execCollectExpiry (n : LineNo) (s : State) : Host.Outcome State Fault Refusal :=
  .next (s.whenDue (s.line n).collectTimer fun e =>
    if (s.line n).phase = some .collecting ∨ (s.line n).phase = some .pulsing then s.collectTimeout n e
    else s.modLine n fun l => { l with collectTimer := none }).finish

/-- LEARN_EXPIRY (R72). -/
def execLearnExpiry (n : LineNo) (s : State) : Host.Outcome State Fault Refusal :=
  .next (s.whenDue (s.line n).learnTimer fun _ => s.modLine n .learnOverflow).finish

/-! ### Tones -/

/-- TONE_ONSET (R83 to R85). -/
def execToneOnset (d : DetectorNo) (x : Symbol) (s : State) : Host.Outcome State Fault Refusal :=
  .next (s.takeOnset d x).finish

/-- TONE_OFFSET: the pool discards the report (R83). -/
def execToneOffset (_ : DetectorNo) (s : State) : Host.Outcome State Fault Refusal := .next s.finish

/-! ### Fault watch timers -/

/-- SUSTAIN_EXPIRY (R139). -/
def execSustainExpiry (p : PairNo) (s : State) : Host.Outcome State Fault Refusal :=
  .next (s.whenDue (s.fault p).sustainTimer fun _ => s.sustainEnd p).finish

/-- GUARD_EXPIRY (R141). -/
def execGuardExpiry (p : PairNo) (s : State) : Host.Outcome State Fault Refusal :=
  .next (s.whenDue (s.fault p).guardTimer fun _ => s.guardEnd p).finish

/-- HOLD_EXPIRY (R149). -/
def execHoldExpiry (b : BinderNo) (s : State) : Host.Outcome State Fault Refusal :=
  .next (s.whenDue (s.binder b).holdTimer fun _ => s.endHold b).finish

/-! ### The test bus -/

/-- The quiet timer of the running test, if any. -/
def TestBus.quietTimer (b : TestBus) : Option Time := b.run.bind (·.quietTimer)

/-- The reading timer of the running test, if any. -/
def TestBus.readingTimer (b : TestBus) : Option Time := b.run.bind (·.readingTimer)

/-- QUIET_EXPIRY (R161). -/
def execQuietExpiry (s : State) : Host.Outcome State Fault Refusal :=
  .next (s.whenDue s.bus.quietTimer fun _ =>
    match s.bus.run with
    | some r => s.sendRead r
    | none => s).finish

/-- READING (R152, R162). -/
def execReading (m : MeterReading) (s : State) : Host.Outcome State Fault Refusal :=
  .next (s.takeReading m).finish

/-- READING_TIMEOUT (R164). -/
def execReadingTimeout (s : State) : Host.Outcome State Fault Refusal :=
  .next (s.whenDue s.bus.readingTimer fun _ =>
    match s.bus.run with
    | some r => s.endTest r (.aborted .busTimeout)
    | none => s).finish

/-! ### Characters and frames -/

/-- CHARACTER_ERROR (R189). -/
def execCharacterError (s : State) : Host.Outcome State Fault Refusal := .next (s.setCollected []).choose

/-- CHARACTER_GAP (R189): the frame being collected is abandoned. The model's choice (log 28): the row stands for a
gap above 10 ms that the sender has seen, so the frame is abandoned whatever cabinet time says. -/
def execCharacterGap (s : State) : Host.Outcome State Fault Refusal := .next (s.setCollected []).choose

/-- BAD_FRAME: the characters after its mark are examined again (R188; log 14). -/
def execBadFrame (chars : List Byte) (s : State) : Host.Outcome State Fault Refusal :=
  .next (if s.deaf then s
    else { s with link := { s.link with lastChar := s.now } }.receiveChars (Config.mark :: chars)).choose

/-- GOOD_FRAME (R190; log 14). -/
def execGoodFrame (type tag : Byte) (payload : List Byte) (s : State) : Host.Outcome State Fault Refusal :=
  .next (s.receiveFrame ⟨type, tag, payload⟩).choose

/-- FRAME_SENT (R178, R196); with no frame in flight there is only the choice. -/
def execFrameSent (s : State) : Host.Outcome State Fault Refusal :=
  .next (match s.link.inFlight with
    | some f => s.frameEnd f
    | none => s.choose)

/-- More than 10 ms have passed since the last character of the frame being collected (R189). -/
def State.gapPassed (s : State) : Bool :=
  !s.link.collected.isEmpty && decide (Config.charGapMs < elapsed s.link.lastChar s.now)

/-- RECEIVED_CHARACTER (R188): examined behind the characters being collected, or in HUNT when a gap has
abandoned them (R189). -/
def execReceivedCharacter (c : Byte) (s : State) : Host.Outcome State Fault Refusal :=
  .next (if s.deaf then s
    else { s with link := { s.link with lastChar := s.now } }.receiveChars
      ((if s.gapPassed then [] else s.link.collected) ++ [c])).choose

end Sys2Proof.Machine
end

