-- ==== Sys2Proof/Machine/Dispatch.lean ====
section
/-! DEFINITION. The meaning of every command. -/

namespace Sys2Proof.Machine

/-- The effect of a command on everything but the queue. -/
def exec (i : Instr) (s : State) : Host.Outcome State Fault Refusal :=
  match i with
  | .powerOnReset rate1 rate0 => Sys2Proof.Machine.execPowerOnReset rate1 rate0 s
  | .resetPin rate1 rate0 => Sys2Proof.Machine.execResetPin rate1 rate0 s
  | .pass => Sys2Proof.Machine.execPass s
  | .sampleReply r => Sys2Proof.Machine.execSampleReply r s
  | .settleExpiry line => Sys2Proof.Machine.execSettleExpiry line s
  | .seizeExpiry line => Sys2Proof.Machine.execSeizeExpiry line s
  | .firstDigitExpiry line => Sys2Proof.Machine.execFirstDigitExpiry line s
  | .release line => Sys2Proof.Machine.execRelease line s
  | .gapExpiry line => Sys2Proof.Machine.execGapExpiry line s
  | .collectExpiry line => Sys2Proof.Machine.execCollectExpiry line s
  | .learnExpiry line => Sys2Proof.Machine.execLearnExpiry line s
  | .toneOnset detector symbol => Sys2Proof.Machine.execToneOnset detector symbol s
  | .toneOffset detector => Sys2Proof.Machine.execToneOffset detector s
  | .sustainExpiry pair => Sys2Proof.Machine.execSustainExpiry pair s
  | .guardExpiry pair => Sys2Proof.Machine.execGuardExpiry pair s
  | .holdExpiry binder => Sys2Proof.Machine.execHoldExpiry binder s
  | .quietExpiry => Sys2Proof.Machine.execQuietExpiry s
  | .reading r => Sys2Proof.Machine.execReading r s
  | .readingTimeout => Sys2Proof.Machine.execReadingTimeout s
  | .characterError => Sys2Proof.Machine.execCharacterError s
  | .characterGap => Sys2Proof.Machine.execCharacterGap s
  | .badFrame chars => Sys2Proof.Machine.execBadFrame chars s
  | .goodFrame type tag payload => Sys2Proof.Machine.execGoodFrame type tag payload s
  | .frameSent => Sys2Proof.Machine.execFrameSent s
  | .lineEnable tag lines => Sys2Proof.Machine.execLineEnable tag lines s
  | .lineDisable tag lines => Sys2Proof.Machine.execLineDisable tag lines s
  | .lineMap tag line pair profile => Sys2Proof.Machine.execLineMap tag line pair profile s
  | .lineSwap tag lineA lineB => Sys2Proof.Machine.execLineSwap tag lineA lineB s
  | .lineReset tag line => Sys2Proof.Machine.execLineReset tag line s
  | .lineQuery tag line => Sys2Proof.Machine.execLineQuery tag line s
  | .profileWrite tag profile fields => Sys2Proof.Machine.execProfileWrite tag profile fields s
  | .profileRead tag profile => Sys2Proof.Machine.execProfileRead tag profile s
  | .scanMode tag mode => Sys2Proof.Machine.execScanMode tag mode s
  | .detectorServiceOut tag detector => Sys2Proof.Machine.execDetectorServiceOut tag detector s
  | .detectorServiceIn tag detector => Sys2Proof.Machine.execDetectorServiceIn tag detector s
  | .detectorQuery tag => Sys2Proof.Machine.execDetectorQuery tag s
  | .windowWrite tag args => Sys2Proof.Machine.execWindowWrite tag args s
  | .windowRead tag window => Sys2Proof.Machine.execWindowRead tag window s
  | .recordTake tag selector line => Sys2Proof.Machine.execRecordTake tag selector line s
  | .recordList tag => Sys2Proof.Machine.execRecordList tag s
  | .overrunClear tag line => Sys2Proof.Machine.execOverrunClear tag line s
  | .faultLimits tag pairs foreignV leakMa => Sys2Proof.Machine.execFaultLimits tag pairs foreignV leakMa s
  | .watchSet tag args => Sys2Proof.Machine.execWatchSet tag args s
  | .pairQuery tag pair => Sys2Proof.Machine.execPairQuery tag pair s
  | .testOrder tag pair kind => Sys2Proof.Machine.execTestOrder tag pair kind s
  | .testCancel tag pair => Sys2Proof.Machine.execTestCancel tag pair s
  | .testSet tag args => Sys2Proof.Machine.execTestSet tag args s
  | .testQuery tag => Sys2Proof.Machine.execTestQuery tag s
  | .routeWrite tag kind cls => Sys2Proof.Machine.execRouteWrite tag kind cls s
  | .noticeEnable tag kinds sources => Sys2Proof.Machine.execNoticeEnable tag kinds sources s
  | .noticeDisable tag kinds sources => Sys2Proof.Machine.execNoticeDisable tag kinds sources s
  | .noticePoll tag => Sys2Proof.Machine.execNoticePoll tag s
  | .identify tag => Sys2Proof.Machine.execIdentify tag s
  | .partReset tag => Sys2Proof.Machine.execPartReset tag s
  | .unknownRequest type tag payload => Sys2Proof.Machine.execUnknownRequest type tag payload s
  | .receivedCharacter c => Sys2Proof.Machine.execReceivedCharacter c s

end Sys2Proof.Machine
end

