-- ==== Sys2Proof/Machine/Tick.lean ====
section
/-! DEFINITION. What the part does of its own accord when no command waits: it takes up a due event of its
clock and timers, or a millisecond passes (R1, R22; log 1, 2). -/

namespace Sys2Proof.Machine

/-- A command when a timer is due, none otherwise. -/
def dueCommand (s : State) (t : Option Time) (c : Instr) : List Instr := if timerDue t s.now then [c] else []

/-- The due expiries of one line (R3). -/
def State.lineEvents (s : State) (n : LineNo) : List Instr :=
  let l := s.line n
  dueCommand s l.settleTimer (.settleExpiry n) ++ dueCommand s l.seizeTimer (.seizeExpiry n) ++
  dueCommand s l.firstDigitTimer (.firstDigitExpiry n) ++ dueCommand s l.breakTimer (.release n) ++
  dueCommand s l.gapTimer (.gapExpiry n) ++ dueCommand s l.collectTimer (.collectExpiry n) ++
  dueCommand s l.learnTimer (.learnExpiry n)

/-- The due expiries of one pair's fault record (R134). -/
def State.pairEvents (s : State) (p : PairNo) : List Instr :=
  dueCommand s (s.fault p).sustainTimer (.sustainExpiry p) ++ dueCommand s (s.fault p).guardTimer (.guardExpiry p)

/-- Every event of the part's own clock that is due: the pass (R22), the timers of every block (R1), and a
gap between characters of a frame (R189). -/
def State.dueEvents (s : State) : List Instr :=
  dueCommand s (some s.scan.nextPass) .pass ++ allLines.flatMap s.lineEvents ++ allPairs.flatMap s.pairEvents ++
  (List.finRange 9).flatMap (fun b => dueCommand s (s.binder b).holdTimer (.holdExpiry b)) ++
  dueCommand s s.bus.quietTimer .quietExpiry ++ dueCommand s s.bus.readingTimer .readingTimeout ++
  if s.gapPassed then [.characterGap] else []

/-- No command waits: with nothing due a millisecond passes; a single due event becomes the next command;
of several, a free value says which, since "either may be taken first" (log 1, 2). Time never passes a due timer: this
is the model's choice where a loop made arrives after the break timer's expiry time, since R52 allows either to be taken
first (log 29); in a run of the part's own clock the release is then the first. -/
def State.tick (s : State) : State :=
  match s.dueEvents with
  | [] => { s with now := s.now + 1#32 }
  | [c] => { s with pending := [c] }
  | c :: cs =>
    { s with
      raceCount := s.raceCount + 1
      pending := [(c :: cs).getD (Config.raceChoice s.raceCount % (cs.length + 1)) c] }

end Sys2Proof.Machine
end

