-- ==== Sys2Proof/Safety.lean ====
section
/-! DEFINITION. The terms claims are made in: when the Cabinet Link Port answers a request at once, what an
answer is, and the properties that every step keeps. -/

namespace Sys2Proof.Machine

/-! ### Requests that are answered at once -/

/-- The Cabinet Link Port takes a request up at the moment its frame arrives: no request waits before it,
the reply queue has room (R191), no PART_RESET has been executed, and none of its characters is lost
(R196). -/
def State.ready (s : State) : Prop :=
  s.link.inbox = [] ∧ s.link.replies.length < 4 ∧ s.link.resetOrdered = false ∧ s.deaf = false

/-- The framer has handed a good frame on and is in HUNT with nothing collected (R188). -/
def State.heard (s : State) : State := { s with link := { s.link with collected := [] } }

/-- A reply frame joins the reply queue (R192), and the transmitter makes its choice (R178). -/
def State.answer (s : State) (type tag : Byte) (payload : List Byte) : State :=
  (s.pushReply ⟨type, tag, payload⟩).choose

/-! ### Properties that every step keeps -/

/-- The inbox and the reply queue hold at most four frames each (R190, R192); an idle transmitter leaves no
reply waiting (R178); a request waits only while the reply queue is full or a reset is ordered (R191,
R196). -/
structure State.LinkOk (s : State) : Prop where
  inbox : s.link.inbox.length ≤ 4
  replies : s.link.replies.length ≤ 4
  idle : s.link.inFlight = none → s.link.replies = []
  waits : s.link.inbox ≠ [] → s.link.replies.length = 4 ∨ s.link.resetOrdered = true

/-- The pending set is in ring order with at most one entry for each notice point, every entry's point is
enabled, an entry holds a count of 1 to 255 exactly when its kind keeps one, and only notice points are
enabled (R171, R172, R174). -/
structure State.NoticesOk (s : State) : Prop where
  ordered : s.notices.entries.Pairwise fun a b => a.key < b.key
  enabled : ∀ e ∈ s.notices.entries, s.notices.enabled[e.pos][e.kind.num] = true
  counted : ∀ e ∈ s.notices.entries, e.count.isSome = e.kind.keepsCount
  counts : ∀ e ∈ s.notices.entries, ∀ c, e.count = some c → 1 ≤ c ∧ c ≤ 255
  points : ∀ (pos : Fin 145) (k : Fin 8), s.notices.enabled[pos][k] = true → isNoticePoint pos k = true

/-- The number of records of a line in the pending list (R115). -/
def Store.pendingCount (st : Store) (n : LineNo) : Nat := st.waiting.countP fun r => decide (r.line = n)

/-- The ranks of the occupied slots are 1 to k, each used once, with k the number of occupied slots
(R114); a record waits only while every slot is occupied (R116); a line has at most two records in the
store and the pending list together, and at most one of them waits (R117). -/
structure State.StoreOk (s : State) : Prop where
  ranks : ∀ (i : Fin 16) (sl : Slot), s.store.slots[i] = some sl → 1 ≤ sl.rank ∧ sl.rank ≤ s.store.occupied
  once : ∀ (i j : Fin 16) (a b : Slot), s.store.slots[i] = some a → s.store.slots[j] = some b →
    a.rank = b.rank → i = j
  full : s.store.waiting ≠ [] → ∀ i : Fin 16, s.store.slots[i].isSome = true
  limit : ∀ n : LineNo, s.store.storedCount n + s.store.pendingCount n ≤ 2
  single : ∀ n : LineNo, s.store.pendingCount n ≤ 1

/-- The pool and the lines agree: a bound detector is in service and bound to the one line whose binding
names it, a queued line stands in the queue once, and a line waits only while every in-service detector is
bound (R76, R78). -/
structure State.PoolOk (s : State) : Prop where
  bound : ∀ (d : DetectorNo) (b : Bound), (s.detector d).bound = some b →
    (s.detector d).inService = true ∧ (s.line b.line).binding = .detector d
  named : ∀ (n : LineNo) (d : DetectorNo), (s.line n).binding = .detector d →
    ∃ b, (s.detector d).bound = some b ∧ b.line = n
  queued : ∀ n : LineNo, (s.line n).binding = .queued ↔ ∃ w ∈ s.pool.queue, w.line = n
  once : s.pool.queue.Pairwise fun a b => a.line ≠ b.line
  busy : s.pool.queue ≠ [] → ∀ d : DetectorNo, (s.detector d).inService = true → (s.detector d).bound.isSome = true

/-- The test queue holds at most 16 entries, no pair twice and never the pair on the bus (R155); a wanted
pair has no entry, is not on the bus, and waits only while the queue is full (R156, R157). -/
structure State.TestsOk (s : State) : Prop where
  size : s.bus.queue.length ≤ 16
  once : s.bus.queue.Pairwise fun a b => a.pair ≠ b.pair
  offBus : ∀ e ∈ s.bus.queue, s.onBus e.pair = false
  wanted : ∀ p : PairNo, s.bus.wanted[p] ≠ none →
    s.onBus p = false ∧ (∀ e ∈ s.bus.queue, e.pair ≠ p) ∧ s.bus.queue.length = 16

/-- No two enabled lines are on one pair (R4), and an enabled line is UNDER_TEST exactly when its pair is on the
test bus (R55, R153). -/
structure State.LinesOk (s : State) : Prop where
  alone : ∀ n m : LineNo, (s.line n).state ≠ .disabled → (s.line m).state ≠ .disabled →
    (s.line n).pair = (s.line m).pair → n = m
  tested : ∀ n : LineNo, (s.line n).state ≠ .disabled →
    ((s.line n).state = .underTest ↔ s.onBus (s.line n).pair = true)

/-- The profiles keep the relations between their fields, and the windows have patterns of 1 to 8 positions and
a FIXED rule no shorter than the pattern (R13, R98, R100). -/
structure State.TablesOk (s : State) : Prop where
  currents : ∀ f : Fin 8, 2 ≤ s.profiles[f].releaseMa ∧ s.profiles[f].releaseMa + 2 ≤ s.profiles[f].seizeMa
  breaks : ∀ f : Fin 8, s.profiles[f].brkMinMs + 10 ≤ s.profiles[f].brkMaxMs ∧
    s.profiles[f].brkMaxMs + 10 ≤ s.profiles[f].flashMinMs ∧ s.profiles[f].flashMinMs ≤ s.profiles[f].flashMaxMs
  gaps : ∀ f : Fin 8, s.profiles[f].gapLoMs ≤ s.profiles[f].gapMs ∧ s.profiles[f].gapMs ≤ s.profiles[f].gapHiMs
  periods : ∀ f : Fin 8, s.profiles[f].periodLoMs ≤ s.profiles[f].periodHiMs ∧
    4 * s.profiles[f].periodHiMs ≤ s.profiles[f].learnSpanMs
  patterns : ∀ i : Fin 8, 1 ≤ s.windows.table[i].pattern.length ∧ s.windows.table[i].pattern.length ≤ 8
  rules : ∀ (i : Fin 8) (n : Nat), s.windows.table[i].rule = .fixed n →
    s.windows.table[i].pattern.length ≤ n ∧ n ≤ 24

/-- `k` steps from `s` all answer a next state, ending in `t`. -/
def runs (k : Nat) (s t : State) : Prop := Host.Core.run ⟨State, Fault, Refusal, step, .reset⟩ k s = .next t

end Sys2Proof.Machine
end

