-- ==== Sys2Proof/WellFormed.lean ====
section
/-! DEFINITION. Which commands could come from outside as their row describes: a Bool for each check. -/

namespace Sys2Proof

open Machine

/-- A payload fits a frame (R186). -/
def payloadFits (payload : List Byte) : Bool := decide (payload.length ≤ Config.payloadMax)

/-- A type 0x1E to 0x3F, which a request frame can carry and which names no request (R191). -/
def namesNoRequest (type : Byte) : Bool := decide (0x1E ≤ type.toNat) && decide (type.toNat ≤ 0x3F)

/-- The characters behind a mark are a whole frame with a bad length or a bad CRC (R188). -/
def isBadFrame (chars : List Byte) : Bool := decide (takeFrame chars = .bad)

/-- WINDOW_WRITE's 25-byte form names a window other than DEFAULT (R193). -/
def windowCodeOk : WindowWriteArgs → Bool
  | .window code _ => decide (code ≠ 8#8)
  | .default _ => true

/-- A sample reply names a pair of the part (R26). -/
def samplePairOk (r : SampleReply) : Bool := decide (r.pair < 72)

/-- The command is one its row describes. -/
def Instr.wellFormed : Instr → Bool
  | .sampleReply r => samplePairOk r
  | .badFrame chars => isBadFrame chars
  | .goodFrame _ _ payload => payloadFits payload
  | .windowWrite _ args => windowCodeOk args
  | .unknownRequest type _ payload => namesNoRequest type && payloadFits payload
  | _ => true

end Sys2Proof
end

