-- ==== Sys2Proof/Certificates/Slice0/Obligations.lean ====
section
/-! DEFINITION. The statements about the model. An expiry, a pass or a request is stated as the state the
command leaves, followed by `finish` (the look at the test queue and the transmitter's choice) or by
`answer` (a reply queued and the choice), which statements of their own describe. -/

open Sys2Proof
open Sys2Proof.Machine

/-! ### Steps, time and resets -/

/-- A step takes the command at the front of the queue and runs its meaning on the rest. -/
def Obligations.StepRunsTheFrontCommand : Prop :=
  ∀ (s : State) (c : Instr) (rest : List Instr), s.pending = c :: rest → step s = exec c { s with pending := rest }

/-- A cabinet time is later than another when their difference modulo 2^32 lies in 1 to 2^31 - 1 (R1). With no command
waiting, a millisecond passes when nothing is due, and a due event becomes the next command otherwise (the model's
choice, log 1, 2 and 29). The pass and every timer's expiry are due exactly when their time has come (R1, R22), and so
is the gap after a character of an open frame (R189); nothing else is ever due. -/
def Obligations.EmptyQueueTakesADueEvent : Prop :=
  (∀ a b : Time, later a b = true ↔ 1 ≤ (a - b).toNat ∧ (a - b).toNat ≤ 2 ^ 31 - 1) ∧
  (∀ s : State, s.pending = [] →
     (s.dueEvents = [] → step s = .next { s with now := s.now + 1#32 }) ∧
     (s.dueEvents ≠ [] →
       ∃ c ∈ s.dueEvents, ∃ k, step s = .next { s with pending := [c], raceCount := k })) ∧
  (∀ s : State,
     (Instr.pass ∈ s.dueEvents ↔ later s.scan.nextPass s.now = false) ∧
     (∀ n : LineNo,
       (Instr.settleExpiry n ∈ s.dueEvents ↔ ∃ e, (s.line n).settleTimer = some e ∧ later e s.now = false) ∧
       (Instr.seizeExpiry n ∈ s.dueEvents ↔ ∃ e, (s.line n).seizeTimer = some e ∧ later e s.now = false) ∧
       (Instr.firstDigitExpiry n ∈ s.dueEvents ↔ ∃ e, (s.line n).firstDigitTimer = some e ∧ later e s.now = false) ∧
       (Instr.release n ∈ s.dueEvents ↔ ∃ e, (s.line n).breakTimer = some e ∧ later e s.now = false) ∧
       (Instr.gapExpiry n ∈ s.dueEvents ↔ ∃ e, (s.line n).gapTimer = some e ∧ later e s.now = false) ∧
       (Instr.collectExpiry n ∈ s.dueEvents ↔ ∃ e, (s.line n).collectTimer = some e ∧ later e s.now = false) ∧
       (Instr.learnExpiry n ∈ s.dueEvents ↔ ∃ e, (s.line n).learnTimer = some e ∧ later e s.now = false)) ∧
     (∀ p : PairNo,
       (Instr.sustainExpiry p ∈ s.dueEvents ↔ ∃ e, (s.fault p).sustainTimer = some e ∧ later e s.now = false) ∧
       (Instr.guardExpiry p ∈ s.dueEvents ↔ ∃ e, (s.fault p).guardTimer = some e ∧ later e s.now = false)) ∧
     (∀ b : BinderNo,
       Instr.holdExpiry b ∈ s.dueEvents ↔ ∃ e, (s.binder b).holdTimer = some e ∧ later e s.now = false) ∧
     (Instr.quietExpiry ∈ s.dueEvents ↔ ∃ e, s.bus.quietTimer = some e ∧ later e s.now = false) ∧
     (Instr.readingTimeout ∈ s.dueEvents ↔ ∃ e, s.bus.readingTimer = some e ∧ later e s.now = false) ∧
     (Instr.characterGap ∈ s.dueEvents ↔ s.link.collected ≠ [] ∧ 10 < (s.now - s.link.lastChar).toNat) ∧
     (∀ c ∈ s.dueEvents, c = .pass ∨ c = .quietExpiry ∨ c = .readingTimeout ∨ c = .characterGap ∨
       (∃ n, c = .settleExpiry n ∨ c = .seizeExpiry n ∨ c = .firstDigitExpiry n ∨ c = .release n ∨ c = .gapExpiry n ∨
         c = .collectExpiry n ∨ c = .learnExpiry n) ∨
       (∃ p, c = .sustainExpiry p ∨ c = .guardExpiry p) ∨ ∃ b, c = .holdExpiry b))

/-- The model's choice: no command stops the block, so every command answers a next state (log 24), and none
changes the queue of commands, a reset included (log 19). -/
def Obligations.EveryCommandAnswersNext : Prop :=
  ∀ (c : Instr) (s : State), ∃ t : State, exec c s = .next t ∧ t.pending = s.pending

/-- POWER_ON_RESET and RESET_PIN put every block at its values after reset, whatever the part was doing,
and the STARTED frame with the cause is the first frame sent (R184, R197); the bit rate is the one that R185 gives
for the straps. The queue of commands, the race counter and the strap levels given as operands are the model's
(log 11, 19). -/
def Obligations.ResetCommandsStartAnew : Prop :=
  ∀ (s : State) (rate1 rate0 : Bool),
    let identity : List Byte := [0x3D, 0x07, 0x19, 0x08, 1, 64, 72, 8, 16]
    let rate : Nat := if rate1 then (if rate0 then 230400 else 115200) else if rate0 then 38400 else 19200
    let link (cause : Byte) : Link :=
      ⟨[], 0, [], [], none, some ⟨0x4F, 0, cause :: identity⟩, ⟨rate1, rate0⟩, rate, false⟩
    exec (.powerOnReset rate1 rate0) s =
      .next { State.reset with link := link 0, raceCount := s.raceCount, pending := s.pending } ∧
    exec (.resetPin rate1 rate0) s =
      .next { State.reset with link := link 1, raceCount := s.raceCount, pending := s.pending }

/-- The values after reset that the chapters give for every block. The model's own are the straps and the rate they
give, the queue, the pass bookkeeping, the start of the seize timer, the arrival time of the last
character, the lists of messages sent, and that the reset is one by power-on before the transmitter's first choice
(log 9, 11, 12, 13, 15, 19, 23). -/
def Obligations.ResetValues : Prop :=
  let r := State.reset
  r.now = 0 ∧
  (∀ n : LineNo, (r.line n).pair.val = n.val ∧ (r.line n).profile = 0 ∧ (r.line n).state = .disabled ∧
    (r.line n).collection = none ∧ (r.line n).snapshot = none ∧ (r.line n).learning = none ∧
    (r.line n).binding = .none ∧ (r.line n).permanentLoop = false ∧ (r.line n).wasFaulted = none ∧
    (r.line n).returnState = none ∧ (r.line n).breakTime = none ∧ (r.line n).pulseCount = none ∧
    (r.line n).settleTimer = none ∧ (r.line n).seizeTimer = none ∧ (r.line n).seizeFrom = none ∧
    (r.line n).breakTimer = none ∧ (r.line n).gapTimer = none ∧ (r.line n).firstDigitTimer = none ∧
    (r.line n).collectTimer = none ∧
    (r.line n).learnTimer = none) ∧
  (∀ f : Fin 8, r.profiles[f] =
    ⟨12, 7, 2, 60, 20, 100, 150, 600, 400, 250, 800, 600, 80, 140, 15000, 5000, .both, .single, 250⟩) ∧
  (r.scan.mode = .full ∧ r.scan.phase = 0 ∧ r.scan.nextPass = 0 ∧ r.scan.passMode = .full ∧
    r.scan.passBegun = false ∧ r.scan.sent = [] ∧
    ∀ p : PairNo, r.scan.outstanding[p] = none ∧ r.scanRec p = ⟨none, none, none, 0⟩) ∧
  ((∀ d : DetectorNo, r.detector d = ⟨true, none⟩) ∧ r.pool.queue = []) ∧
  ((∀ i : Fin 8, r.windows.table[i] = ⟨false, [none], .openEnd, 0, false, none⟩) ∧ r.windows.defaultClass = 0) ∧
  ((∀ i : Fin 16, r.store.slots[i] = none) ∧ r.store.waiting = [] ∧
    ∀ n : LineNo, r.store.overrun[n] = false ∧ r.store.storeWait[n] = false) ∧
  (r.watch.settings = ⟨12, 2000, 3, 10000, .startStop, 60000, BitVec.allOnes 72⟩ ∧
    (∀ p : PairNo, r.fault p = ⟨0, 0, .clear, false, none, none, none⟩ ∧ r.watch.limits[p] = ⟨40, 5⟩) ∧
    ∀ b : BinderNo, r.binder b = ⟨0, false, none⟩) ∧
  (r.bus.run = none ∧ r.bus.queue = [] ∧ r.bus.settings = ⟨3, 200, 100, 150, 25⟩ ∧ r.bus.readSeq = 0 ∧
    r.bus.sent = [.disconnect] ∧ ∀ p : PairNo, r.bus.wanted[p] = none ∧ r.bus.results[p] = none) ∧
  (r.notices.entries = [] ∧ r.notices.routes = #v[1, 1, 1, 0, 2, 0, 0, 2] ∧
    (∀ (pos : Fin 145) (k : Fin 8), r.notices.enabled[pos][k] = isNoticePoint pos k) ∧
    ∀ c : Fin 4, r.notices.cursors[c] = 0) ∧
  (r.link.collected = [] ∧ r.link.inbox = [] ∧ r.link.replies = [] ∧ r.link.inFlight = none ∧
    r.link.started = some .power ∧ r.link.resetOrdered = false ∧ r.link.lastChar = 0 ∧
    r.link.straps = ⟨false, false⟩ ∧ r.link.rate = 19200) ∧
  r.pending = []

/-- After each of the three resets the store is empty with every flag clear and no notice is pending, and
the first admission takes slot S00 and rank 1 (R131). -/
def Obligations.EveryResetEmptiesTheStore : Prop :=
  ∀ (s t : State) (rate1 rate0 : Bool),
    (exec (.powerOnReset rate1 rate0) s = .next t ∨ exec (.resetPin rate1 rate0) s = .next t ∨
      (∃ f, s.link.inFlight = some f ∧ f.type = 0x9D ∧ f.payload = [0] ∧ exec .frameSent s = .next t)) →
    (∀ i : Fin 16, t.store.slots[i] = none) ∧ t.store.waiting = [] ∧
    (∀ n : LineNo, t.store.overrun[n] = false ∧ t.store.storeWait[n] = false) ∧
    t.notices.entries = [] ∧
    ∀ rec : DialRecord, (t.arrive rec).store.slots[(0 : Fin 16)] = some ⟨1, rec⟩

/-- An expiry command whose timer is stopped or not yet due does nothing of its own (R1; log 3). -/
def Obligations.ExpiryNeedsADueTimer : Prop :=
  ∀ s : State,
    let idle (t : Option Time) : Prop := ∀ e, t = some e → later e s.now = true
    (later s.scan.nextPass s.now = true → exec .pass s = .next s.finish) ∧
    (∀ n : LineNo,
      (idle (s.line n).settleTimer → exec (.settleExpiry n) s = .next s.finish) ∧
      (idle (s.line n).seizeTimer → exec (.seizeExpiry n) s = .next s.finish) ∧
      (idle (s.line n).firstDigitTimer → exec (.firstDigitExpiry n) s = .next s.finish) ∧
      (idle (s.line n).breakTimer → exec (.release n) s = .next s.finish) ∧
      (idle (s.line n).gapTimer → exec (.gapExpiry n) s = .next s.finish) ∧
      (idle (s.line n).collectTimer → exec (.collectExpiry n) s = .next s.finish) ∧
      (idle (s.line n).learnTimer → exec (.learnExpiry n) s = .next s.finish)) ∧
    (∀ p : PairNo,
      (idle (s.fault p).sustainTimer → exec (.sustainExpiry p) s = .next s.finish) ∧
      (idle (s.fault p).guardTimer → exec (.guardExpiry p) s = .next s.finish)) ∧
    (∀ b : BinderNo, idle (s.binder b).holdTimer → exec (.holdExpiry b) s = .next s.finish) ∧
    (idle s.bus.quietTimer → exec .quietExpiry s = .next s.finish) ∧
    (idle s.bus.readingTimer → exec .readingTimeout s = .next s.finish)

/-- The end of an event is the look at the test queue and then the transmitter's choice (the model's place for both,
log 6, 7). With the bus occupied and a frame in flight it changes nothing. A line changes only when it is the served
line of the entry claimed, which goes UNDER_TEST, and a scan record only when it is that of the claimed pair, which
loses its glitch run and sample class; of the link only the STARTED frame, the reply queue and the frame in flight
change, and only when the transmitter was idle; nothing else changes but the test bus and the pending notices with
their cursors (R158, R160, R178, R179). -/
def Obligations.FinishTouchesOnlyBusAndLink : Prop :=
  ∀ s : State,
    let t := s.finish
    let claimed (e : TestEntry) : Prop := s.bus.run = none ∧ s.bus.queue.find? s.eligible = some e
    t = s.look.choose ∧
    (s.bus.run.isSome = true → s.link.inFlight.isSome = true → t = s) ∧
    (∀ n : LineNo, t.line n = s.line n ∨ ∃ e, claimed e ∧ s.served e.pair = some n ∧
      t.line n = { s.line n with
        state := .underTest, settleTimer := none, wasFaulted := some (decide ((s.line n).state = .faulted)) }) ∧
    (∀ p : PairNo, t.scanRec p = s.scanRec p ∨ ∃ e, claimed e ∧ e.pair = p ∧
      t.scanRec p = { s.scanRec p with run := none, sampleClass := none }) ∧
    { t.scan with recs := s.scan.recs } = s.scan ∧
    ((∀ e, ¬claimed e) → t.lines = s.lines ∧ t.scan = s.scan ∧ t.bus = s.bus) ∧
    (s.link.inFlight.isSome = true → t.link = s.link ∧ t.notices = s.notices) ∧
    { t.link with started := s.link.started, replies := s.link.replies, inFlight := s.link.inFlight } = s.link ∧
    t.bus.results = s.bus.results ∧ t.bus.settings = s.bus.settings ∧ t.bus.readSeq = s.bus.readSeq ∧
    t.notices.enabled = s.notices.enabled ∧ t.notices.routes = s.notices.routes ∧
    t.now = s.now ∧ t.profiles = s.profiles ∧ t.pool = s.pool ∧ t.windows = s.windows ∧ t.store = s.store ∧
    t.watch = s.watch ∧ t.raceCount = s.raceCount ∧ t.pending = s.pending

/-! ### Scanning -/

/-- A due pass begins: the next one is set 5 ms on, the phase advances on every pass but the first, the mode
is fixed, and exactly the included pairs are asked for with the pass time, by one request each, sent on the sense
port in ascending pair order (the list of messages sent is the model's, log 13). With no request outstanding before
it, nothing outside the scan settings changes (R22, R23). -/
def Obligations.PassAsksTheIncludedPairs : Prop :=
  ∀ s : State, later s.scan.nextPass s.now = false →
    ∃ u : State, exec .pass s = .next u.finish ∧
      u.scan.nextPass = s.scan.nextPass + 5#32 ∧ u.scan.mode = s.scan.mode ∧ u.scan.passMode = s.scan.mode ∧
      u.scan.passBegun = true ∧
      u.scan.phase = (if s.scan.passBegun then s.scan.phase + 1 else s.scan.phase) ∧
      (let asked (p : PairNo) : Prop := s.scan.mode = .full ∨ u.scan.phase.val = p.val % 8 ∨
          ∃ n, u.served p = some n ∧ (u.line n).state ≠ .idle ∧ (u.line n).state ≠ .faulted
       (∀ p : PairNo, (asked p → u.scan.outstanding[p] = some s.scan.nextPass) ∧
         (¬asked p → u.scan.outstanding[p] = none)) ∧
       ∃ pairs : List PairNo, pairs.Pairwise (· < ·) ∧ (∀ p, p ∈ pairs ↔ asked p) ∧
         u.scan.sent = s.scan.sent ++ pairs.map SensePortMsg.request) ∧
      ((∀ p : PairNo, s.scan.outstanding[p] = none) →
        { u with scan := s.scan } = s ∧ u.scan.recs = s.scan.recs)

/-- A pass records each unanswered request of a pair off the test bus as an invalid sample: the invalid run
rises by one, at 16 the pair loses its loop class, sample class and glitch run and sense lost is raised, which passes
the fault on and raises FAULT as a statement of its own says, and beyond 16 nothing rises; a pair on the
test bus keeps its run (R22, R25, R27). Nothing else happens outside the scan settings; that the unanswered requests
are recorded in ascending order is the model's choice (log 10). -/
def Obligations.UnansweredRequestIsInvalid : Prop :=
  (∀ s : State, later s.scan.nextPass s.now = false →
    let record (v : State) (p : PairNo) : State :=
      if v.scan.outstanding[p] = none then v
      else
        let w : State := { v with scan := { v.scan with outstanding := v.scan.outstanding.set p none } }
        let k := v.scanRec p
        if v.onBus p = true ∨ 16 ≤ k.invalidRun then w
        else if k.invalidRun = 15 then (w.setScanRec p ⟨none, none, none, 16⟩).senseLost p
        else w.setScanRec p { k with invalidRun := k.invalidRun + 1 }
    let recorded := (List.finRange 72).foldl record s
    ∃ u : State, exec .pass s = .next u.finish ∧ { u with scan := recorded.scan } = recorded ∧
      u.scan.recs = recorded.scan.recs) ∧
  ∀ (s : State) (p : PairNo) (t0 : Time), later s.scan.nextPass s.now = false →
    s.scan.outstanding[p] = some t0 →
    ∃ u : State, exec .pass s = .next u ∧
      (s.onBus p = true → (u.scanRec p).invalidRun = (s.scanRec p).invalidRun) ∧
      (s.onBus p = false → (s.scanRec p).invalidRun < 15 →
        (u.scanRec p).invalidRun = (s.scanRec p).invalidRun + 1 ∧ (u.scanRec p).loopClass = (s.scanRec p).loopClass) ∧
      (s.onBus p = false → (s.scanRec p).invalidRun = 15 →
        u.scanRec p = ⟨none, none, none, 16⟩ ∧ (u.fault p).senseLost = true) ∧
      (s.onBus p = false → 16 ≤ (s.scanRec p).invalidRun → (u.scanRec p).invalidRun = (s.scanRec p).invalidRun)

/-- A sample reply: discarded when its pair is not outstanding; only taken off the outstanding list when its
pair is on the test bus; an invalid sample lengthens the invalid run; a valid one ends it and goes through
the loop judgment of the served line to the scoring, in that order (R25 to R28, R35); it goes no further on a pair
still sense-lost. The served line of a pair is the enabled line mapped to it (R4), and the pair on the bus is the
occupant's (R153). -/
def Obligations.SampleReplyIsTaken : Prop :=
  (∀ (s : State) (p : PairNo),
    (∀ n, s.served p = some n → (s.line n).pair = p ∧ (s.line n).state ≠ .disabled) ∧
    (s.served p = none → ∀ n, (s.line n).pair = p → (s.line n).state = .disabled) ∧
    (s.onBus p = true ↔ ∃ r, s.bus.run = some r ∧ r.pair = p)) ∧
  ∀ (s : State) (r : SampleReply),
    let valid := r.status = .good ∧ 0 ≤ r.loopMa ∧ r.loopMa ≤ 120 ∧ -200 ≤ r.tipV ∧ r.tipV ≤ 200 ∧
      -200 ≤ r.ringV ∧ r.ringV ≤ 200 ∧ 0 ≤ r.longMa ∧ r.longMa ≤ 50
    (72 ≤ r.pair → exec (.sampleReply r) s = .next s.finish) ∧
    (∀ p : PairNo, r.pair = p.val →
      (s.scan.outstanding[p] = none → exec (.sampleReply r) s = .next s.finish) ∧
      ∀ passTime : Time, s.scan.outstanding[p] = some passTime →
        let u : State := { s with scan := { s.scan with outstanding := s.scan.outstanding.set p none } }
        let k := s.scanRec p
        (s.onBus p = true → exec (.sampleReply r) s = .next u.finish) ∧
        (s.onBus p = false → ¬valid → k.invalidRun < 15 →
          exec (.sampleReply r) s = .next (u.setScanRec p { k with invalidRun := k.invalidRun + 1 }).finish) ∧
        (s.onBus p = false → ¬valid → k.invalidRun = 15 →
          exec (.sampleReply r) s = .next ((u.setScanRec p ⟨none, none, none, 16⟩).senseLost p).finish) ∧
        (s.onBus p = false → ¬valid → 16 ≤ k.invalidRun → exec (.sampleReply r) s = .next u.finish) ∧
        (s.onBus p = false → valid →
          let v := u.setScanRec p { k with invalidRun := 0 }
          let v := if k.invalidRun = 16 then v.senseRegained p else v
          ((v.fault p).senseLost = true → exec (.sampleReply r) s = .next v.finish) ∧
          ((v.fault p).senseLost = false →
          exec (.sampleReply r) s = .next
            ((match v.served p with
              | some n => v.judgeLoop p n r.loopMa passTime
              | none => v).score p r.tipV r.ringV r.longMa).finish)))

/-- The sample class of a valid sample judged for loop class: LOOP at or above seize_ma, OPEN at or below
release_ma, the pair's present sample class between them; with none present the sample stays unclassified and
nothing changes (R30). A classified sample becomes the pair's present sample class and goes to the glitch filter, which
a statement of its own describes. -/
def Obligations.SampleClassFromCurrent : Prop :=
  ∀ (s : State) (p : PairNo) (n : LineNo) (current : Int) (passTime : Time),
    let seize : Int := (s.profileOf n).seizeMa
    let release : Int := (s.profileOf n).releaseMa
    let t := s.judgeLoop p n current passTime
    (seize ≤ current → (t.scanRec p).sampleClass = some .loop) ∧
    (current ≤ release → current < seize → (t.scanRec p).sampleClass = some .opened) ∧
    (release < current → current < seize →
      (t.scanRec p).sampleClass = (s.scanRec p).sampleClass ∧
      ((s.scanRec p).sampleClass = none → t = s)) ∧
    (∀ c : LoopClass,
      (seize ≤ current ∧ c = .loop) ∨ (current ≤ release ∧ current < seize ∧ c = .opened) ∨
        (release < current ∧ current < seize ∧ (s.scanRec p).sampleClass = some c) →
      t = (s.setScanRec p { s.scanRec p with sampleClass := some c }).filterSample p n c passTime)

/-- The glitch filter: the economy wake qualifies at once; a sample of the loop class drops the run; another
lengthens or starts the run, which qualifies at glitch + 1 samples with its first sample's time; and the
transition that a new loop class delivers to the line (R31, R32, R33). -/
def Obligations.GlitchFilterQualifies : Prop :=
  ∀ (s : State) (p : PairNo) (n : LineNo) (c : LoopClass) (passTime : Time),
    let k := s.scanRec p
    let wake := s.scan.passMode = .economy ∧ (s.line n).state = .idle ∧ c = .loop ∧ k.loopClass ≠ some .loop
    let run : GlitchRun := match k.run with
      | some r => if r.candidate = c then ⟨c, r.count + 1, r.first⟩ else ⟨c, 1, passTime⟩
      | none => ⟨c, 1, passTime⟩
    let taken := s.setScanRec p { k with loopClass := some c, run := none }
    (wake → s.filterSample p n c passTime = s.qualify p n c passTime) ∧
    (k.loopClass = some c → s.filterSample p n c passTime = s.setScanRec p { k with run := none }) ∧
    (¬wake → k.loopClass ≠ some c →
      (run.count < (s.profileOf n).glitch + 1 →
        s.filterSample p n c passTime = s.setScanRec p { k with run := some run }) ∧
      ((s.profileOf n).glitch + 1 ≤ run.count →
        s.filterSample p n c passTime = s.qualify p n c run.first)) ∧
    (k.loopClass ≠ some .loop → c = .loop → s.qualify p n c passTime = taken.loopMade n passTime) ∧
    (k.loopClass = some .loop → c = .opened → s.qualify p n c passTime = taken.loopBroken n passTime) ∧
    (k.loopClass = none → c = .opened → s.qualify p n c passTime = taken)

/-! ### Hook supervision -/

/-- What a qualified transition does at a line: loop made starts a seize qualification on an idle line, four
times longer and capped in a held binder; loop broken ends one, or opens a break on an off-hook line; an
expiry already reached is taken at once; every other case is discarded (R37, R38, R39, R43). A line with a snapshot is
governed by it, and a line without one by its profile as it stands (R16, R17, R29). -/
def Obligations.TransitionsAtTheLine : Prop :=
  (∀ (s : State) (n : LineNo),
    s.liveProfile n = s.profiles[(s.line n).profile] ∧
    (∀ q, (s.line n).snapshot = some q → s.profileOf n = q) ∧
    ((s.line n).snapshot = none → s.profileOf n = s.profiles[(s.line n).profile])) ∧
  (OffHook.seized.toState = .seized ∧ OffHook.pulsing.toState = .pulsing ∧
    OffHook.collecting.toState = .collecting ∧ OffHook.held.toState = .held) ∧
  ∀ (s : State) (n : LineNo) (stamp : Time),
    let l := s.line n
    let live := s.liveProfile n
    let span := if (s.binder (binderOf l.pair)).hold then min (4 * live.seizeMs) 4000 else live.seizeMs
    let seize := stamp + BitVec.ofNat 32 span
    let seizing := s.setLine n
      { l with state := .seizing, snapshot := some live, seizeTimer := some seize, seizeFrom := some stamp }
    let p := s.profileOf n
    let release := stamp + BitVec.ofNat 32 (p.flashMaxMs + 5 * p.glitch)
    (l.state = .idle →
      s.loopMade n stamp = if later seize s.now then seizing else seizing.seizeLine n seize) ∧
    (l.state ≠ .idle → l.state ≠ .opened → s.loopMade n stamp = s) ∧
    (l.state = .seizing →
      s.loopBroken n stamp = s.setLine n
        { l with state := .idle, snapshot := none, returnState := none, breakTime := none, settleTimer := none,
                 seizeTimer := none, seizeFrom := none, breakTimer := none, gapTimer := none,
                 firstDigitTimer := none, collectTimer := none, learnTimer := none }) ∧
    (∀ ph : OffHook, l.state = ph.toState →
      let opened := s.setLine n
        { l with state := .opened, returnState := some ph, breakTime := some stamp, breakTimer := some release }
      s.loopBroken n stamp = if later release s.now then opened else opened.releaseLine n release) ∧
    (l.state ≠ .seizing → (∀ ph : OffHook, l.state ≠ ph.toState) → s.loopBroken n stamp = s)

/-- A hit returns the line to its return state as if the break had not happened (R45). -/
def Obligations.HitLeavesTheLineAsItWas : Prop :=
  ∀ (s : State) (n : LineNo) (rs : OffHook) (b make : Time),
    (s.line n).state = .opened → (s.line n).returnState = some rs → (s.line n).breakTime = some b →
    (make - b).toNat < (s.profileOf n).brkMinMs →
    s.loopMade n make =
      s.setLine n { s.line n with state := rs.toState, returnState := none, breakTime := none, breakTimer := none }

/-- A break of dial pulse length: a hit on a line without pulse dialling or from HELD; otherwise a pulse is
counted, its onset is offered to rate learning, the gap timer is set from the make time with the gap then
in force, and the line is PULSING (R46, R59, R60). An invalid break: a pulse digit in progress is discarded
and the line goes on collecting or is SEIZED with a fresh first-digit timer; from any other return state the
line goes back to it (R47). -/
def Obligations.PulsesAndInvalidBreaks : Prop :=
  (∀ (s : State) (n : LineNo) (rs : OffHook) (b make : Time),
     let p := s.profileOf n
     let l := s.line n
     l.state = .opened → l.returnState = some rs → l.breakTime = some b →
     p.brkMinMs ≤ (make - b).toNat → (make - b).toNat ≤ p.brkMaxMs →
     (p.methods = .tone ∨ rs = .held →
       s.loopMade n make =
         s.setLine n { l with state := rs.toState, returnState := none, breakTime := none, breakTimer := none }) ∧
     (p.methods ≠ .tone → rs ≠ .held →
       let counted : Line := { l with
         pulseCount := some (if rs = .pulsing then min 255 (l.pulseCount.getD 0 + 1) else 1)
         firstDigitTimer := if rs = .seized then none else l.firstDigitTimer }
       let learned := counted.offerOnset p s.now b (decide (rs ≠ .pulsing))
       let gap := match learned.learning with
         | some (.done period) => if 3 * period < p.gapLoMs then p.gapLoMs else min (3 * period) p.gapHiMs
         | _ => p.gapMs
       let e := make + BitVec.ofNat 32 (gap + 5 * p.glitch)
       let u := s.setLine n { learned with
         state := .pulsing, returnState := none, breakTime := none, breakTimer := none, gapTimer := some e }
       s.loopMade n make = if later e s.now then u else u.completePulse n)) ∧
  (∀ (s : State) (n : LineNo) (rs : OffHook) (b make : Time),
     let p := s.profileOf n
     let l := s.line n
     l.state = .opened → l.returnState = some rs → l.breakTime = some b →
     p.brkMinMs ≤ (make - b).toNat → p.brkMaxMs < (make - b).toNat → (make - b).toNat < p.flashMinMs →
     (rs ≠ .pulsing →
       s.loopMade n make =
         s.setLine n { l with state := rs.toState, returnState := none, breakTime := none, breakTimer := none }) ∧
     (rs = .pulsing →
       let after_ : Line := { l.discardPulse with returnState := none, breakTime := none, breakTimer := none }
       s.loopMade n make = s.setLine n
         (if l.hasDigit then { after_ with state := .collecting }
          else { after_ with state := .seized, firstDigitTimer := some (make + BitVec.ofNat 32 p.firstMs) })))

/-- Rate learning: what an onset, the learn timer's expiry and the end of a digit do to a line (R67 to R73),
and what the discard of a pulse digit does (R64). -/
def Obligations.RateLearningMeasuresTheDial : Prop :=
  ∀ (l : Line) (p : Profile) (now onset t1 : Time) (k period : Nat) (begins : Bool),
    let mark (f : Marks → Marks) := l.collection.map fun c => { c with marks := f c.marks }
    let spanEnd := onset + BitVec.ofNat 32 p.learnSpanMs
    (l.learning = some .armed → begins = true → later spanEnd now = true →
      l.offerOnset p now onset begins =
        { l with learning := some (.measuring onset 1), learnTimer := some spanEnd }) ∧
    (l.learning = some .armed → begins = true → later spanEnd now = false →
      l.offerOnset p now onset begins =
        { l with learning := some (.overflowed onset 1), learnTimer := none,
                 collection := mark fun m => { m with learnOverflow := true } }) ∧
    (l.learning = some (.measuring t1 k) → k + 1 ≠ 5 →
      l.offerOnset p now onset begins = { l with learning := some (.measuring t1 (k + 1)) }) ∧
    (l.learning = some (.measuring t1 4) → period = (onset - t1).toNat / 4 →
      (p.periodLoMs ≤ period → period ≤ p.periodHiMs →
        l.offerOnset p now onset begins = { l with learning := some (.done period), learnTimer := none }) ∧
      (period < p.periodLoMs ∨ p.periodHiMs < period →
        l.offerOnset p now onset begins =
          { l with learning := some .failed, learnTimer := none,
                   collection := mark fun m => { m with rateOutOfRange := true } })) ∧
    (l.learning = some (.overflowed t1 k) →
      l.offerOnset p now onset begins =
        { l with learning := some (if k + 1 = 5 then .failed else .overflowed t1 (k + 1)) }) ∧
    (l.learning = some (.done k) ∨ l.learning = some .failed ∨ l.learning = none →
      l.offerOnset p now onset begins = l ∧ l.endDigitLearning = l) ∧
    (l.learning = some .armed → l.endDigitLearning = l) ∧
    (l.learning = some (.measuring t1 k) → l.endDigitLearning = { l with learning := some .armed, learnTimer := none }) ∧
    (l.learning = some (.overflowed t1 k) → l.endDigitLearning = { l with learning := some .failed }) ∧
    l.discardPulse =
      { l with gapTimer := none, pulseCount := none, learning := l.endDigitLearning.learning,
               learnTimer := l.endDigitLearning.learnTimer,
               collection := mark fun m => { m with mutilated := true } }

/-- A flash: it raises FLASH; from SEIZED it restarts the first-digit timer; from HELD it opens a collection
unless a store flag is set; from COLLECTING or PULSING it closes the collection with cause FLASH first, and
a collection left without a digit makes it a flash from SEIZED (R48, R49). -/
def Obligations.FlashIsHandled : Prop :=
  ∀ (s : State) (n : LineNo) (rs : OffHook) (b make : Time),
    let p := s.profileOf n
    let l := s.line n
    let back (st : LineState) (k : Line) : Line :=
      { k with state := st, returnState := none, breakTime := none, breakTimer := none }
    let first := some (make + BitVec.ofNat 32 p.firstMs)
    let fresh : Option Collection := some ⟨make, [], none, .none, none⟩
    l.state = .opened → l.returnState = some rs → l.breakTime = some b →
    p.brkMinMs ≤ (make - b).toNat → p.brkMaxMs < (make - b).toNat → p.flashMinMs ≤ (make - b).toNat →
    let barred (v : State) : Bool := v.store.overrun[n] || v.store.storeWait[n]
    let u := s.raise (.line n) .flash (some make)
    let d := s.setLine n (if rs = .pulsing then l.discardPulse else l)
    let c := (d.closeCollection n .flash make).raise (.line n) .flash (some make)
    (rs = .seized →
      s.loopMade n make = u.setLine n { back .seized l with firstDigitTimer := first }) ∧
    (rs = .held → barred s = true → s.loopMade n make = u.setLine n (back .held l)) ∧
    (rs = .held → barred s = false →
      let v := u.setLine n { back .seized l with
        collection := fresh, firstDigitTimer := first, learning := some (l.learning.getD .armed) }
      s.loopMade n make = if p.methods = .pulse then v else v.requestDetector n) ∧
    (rs = .collecting ∨ rs = .pulsing → l.hasDigit = false →
      s.loopMade n make = (d.raise (.line n) .flash (some make)).setLine n
        { back .seized (d.line n) with firstDigitTimer := first }) ∧
    (rs = .collecting ∨ rs = .pulsing → l.hasDigit = true →
      s.loopMade n make =
        if barred c then (c.setLine n (back .held (c.line n))).dropDetector n
        else c.setLine n { back .seized (c.line n) with collection := fresh, firstDigitTimer := first })

/-! ### The timers of a line -/

/-- SETTLE_EXPIRY takes a settling line to FAULTED on a faulted pair, to SEIZING on a pair whose loop class
is LOOP, and to IDLE otherwise (R20, R38). SEIZE_EXPIRY raises HOOK; with a store flag set the line is HELD;
otherwise it is SEIZED with an open collection, a first-digit timer and an ARMED learning record, and
requests a detector unless its methods is PULSE (R40, R56, R93). A line that enters SETTLING has its settle
timer set, and a settle time of 0 expires at entry (R18). What each expiry does is said of the operation itself
(`settleLine`, `seizeLine`), which other statements name where an expiry is reached in the same event. -/
def Obligations.SettleAndSeizeExpire : Prop :=
  (∀ (s : State) (n : LineNo) (e : Time),
     let l := s.line n
     let r := s.fault l.pair
     let faulted := r.state = .confirmed ∨ r.state = .recheck ∨ r.senseLost = true
     let live := s.liveProfile n
     let span := if (s.binder (binderOf l.pair)).hold then min (4 * live.seizeMs) 4000 else live.seizeMs
     let seize := e + BitVec.ofNat 32 span
     let seizing := s.setLine n
       { l with state := .seizing, settleTimer := none, snapshot := some live, seizeTimer := some seize,
                seizeFrom := some e }
     (faulted → s.settleLine n e = s.setLine n { l with state := .faulted, settleTimer := none }) ∧
     (¬faulted → (s.scanRec l.pair).loopClass = some .loop →
       s.settleLine n e = if later seize s.now then seizing else seizing.seizeLine n seize) ∧
     (¬faulted → (s.scanRec l.pair).loopClass ≠ some .loop →
       s.settleLine n e = s.setLine n { l with state := .idle, settleTimer := none }) ∧
     (l.state = .settling → l.settleTimer = some e → later e s.now = false →
       exec (.settleExpiry n) s = .next (s.settleLine n e).finish)) ∧
  (∀ (s : State) (n : LineNo) (e base : Time),
     let l := s.line n
     let p := s.profileOf n
     l.seizeFrom = some base →
     let u := s.raise (.line n) .hook (some base)
     let seized := u.setLine n { l with
       state := .seized, seizeTimer := none, seizeFrom := none, collection := some ⟨e, [], none, .none, none⟩,
       firstDigitTimer := some (e + BitVec.ofNat 32 p.firstMs), learning := some .armed }
     (s.store.overrun[n] = true ∨ s.store.storeWait[n] = true →
       s.seizeLine n e = u.setLine n { l with state := .held, seizeTimer := none, seizeFrom := none }) ∧
     (s.store.overrun[n] = false → s.store.storeWait[n] = false →
       s.seizeLine n e = if p.methods = .pulse then seized else seized.requestDetector n) ∧
     (l.state = .seizing → l.seizeTimer = some e → later e s.now = false →
       exec (.seizeExpiry n) s = .next (s.seizeLine n e).finish)) ∧
  (∀ (s : State) (n : LineNo),
     let ms := (s.liveProfile n).settleMs
     let entered := s.setLine n { s.line n with
       state := .settling, settleTimer := some (s.now + BitVec.ofNat 32 ms), snapshot := none,
       returnState := none, breakTime := none, wasFaulted := none }
     (ms ≠ 0 → s.enterSettling n = entered) ∧
     (ms = 0 → s.enterSettling n = entered.settleLine n s.now ∧
       exec (.settleExpiry n) entered = .next (s.enterSettling n).finish))

/-- FIRST_DIGIT_EXPIRY takes a line in SEIZED, or in OPEN with return state SEIZED, for a permanent loop:
the flag is set, LOOP_HELD is raised with the expiry time, the collection goes, the detector is released,
and the line (in OPEN its return state) becomes HELD (R42, R50). COLLECT_EXPIRY closes the collection with
cause TIMEOUT, after discarding a pulse digit in progress; the detector is released and the line (in OPEN
its return state) becomes HELD (R50, R65, R96). LEARN_EXPIRY takes a MEASURING record to OVERFLOWED with the
mark LEARN_OVERFLOW and changes nothing else (R72). -/
def Obligations.DiallingTimersExpire : Prop :=
  (∀ (s : State) (n : LineNo) (e : Time),
     let l := s.line n
     l.firstDigitTimer = some e → later e s.now = false →
     l.state = .seized ∨ (l.state = .opened ∧ l.returnState = some .seized) →
     let u := (s.setLine n { l with permanentLoop := true, firstDigitTimer := none, collection := none }).raise
       (.line n) .loopHeld (some e)
     let v := u.dropDetector n
     exec (.firstDigitExpiry n) s =
       .next (v.setLine n
         (if l.state = .opened then { v.line n with returnState := some .held }
          else { v.line n with state := .held })).finish) ∧
  (∀ (s : State) (n : LineNo) (e : Time) (ph : OffHook),
     let l := s.line n
     l.collectTimer = some e → later e s.now = false → ph = .collecting ∨ ph = .pulsing →
     l.state = ph.toState ∨ (l.state = .opened ∧ l.returnState = some ph) →
     let d := s.setLine n (if ph = .pulsing then l.discardPulse else l)
     let u := (d.closeCollection n .timeout e).dropDetector n
     exec (.collectExpiry n) s =
       .next (u.setLine n
         (if l.state = .opened then { u.line n with returnState := some .held }
          else { u.line n with state := .held })).finish) ∧
  (∀ (s : State) (n : LineNo) (e t1 : Time) (k : Nat),
     let l := s.line n
     l.learnTimer = some e → later e s.now = false → l.learning = some (.measuring t1 k) →
     exec (.learnExpiry n) s =
       .next (s.setLine n { l with
         learning := some (.overflowed t1 k), learnTimer := none,
         collection := l.collection.map fun c => { c with marks := { c.marks with learnOverflow := true } } }).finish)

/-- RELEASE: the steps of a release in their order (R51), said of the operation itself (`releaseLine`), which other
statements name where the expiry is reached in the same event. -/
def Obligations.ReleaseEndsTheCall : Prop :=
  (∀ l : Line, l.hasDigit = true ↔ ∃ c, l.collection = some c ∧ c.digits ≠ []) ∧
  ∀ (s : State) (n : LineNo) (e b : Time),
    let l := s.line n
    l.state = .opened → l.breakTime = some b →
    let d := s.setLine n (if l.returnState = some .pulsing then l.discardPulse else l)
    let closed := if l.hasDigit then d.closeCollection n .release e
      else d.setLine n { d.line n with collection := none }
    let dropped := (closed.setLine n { closed.line n with
      settleTimer := none, seizeTimer := none, seizeFrom := none, breakTimer := none, gapTimer := none,
      firstDigitTimer := none, collectTimer := none, learnTimer := none }).dropDetector n
    let u := dropped.raise (.line n) .hook (some b)
    s.releaseLine n e = u.setLine n { u.line n with
      state := .idle, learning := none, permanentLoop := false, snapshot := none, returnState := none,
      breakTime := none } ∧
    (l.breakTimer = some e → later e s.now = false → exec (.release n) s = .next (s.releaseLine n e).finish)

/-- A fault at a line: an off-hook line takes the steps of a release at the time of the fault: a pulse digit in
progress is discarded with the mark MUTILATED, a collection with a digit closes with cause RELEASE and one without
goes, the timers stop, the detector or queue place is given up, learning, permanent loop and the call's fields go,
HOOK carries the time of the fault, and the line is FAULTED. A settling, seizing or idle line stops its timers and is
FAULTED; a line FAULTED, UNDER_TEST or DISABLED is left as it is (R51, R53). -/
def Obligations.FaultReachesTheLine : Prop :=
  ∀ (s : State) (n : LineNo),
    let l := s.line n
    (l.state = .settling ∨ l.state = .seizing →
      s.faultLine n = s.setLine n
        { l with state := .faulted, snapshot := none, returnState := none, breakTime := none, settleTimer := none,
                 seizeTimer := none, seizeFrom := none, breakTimer := none, gapTimer := none,
                 firstDigitTimer := none, collectTimer := none, learnTimer := none }) ∧
    (l.state = .idle → s.faultLine n = s.setLine n { l with state := .faulted }) ∧
    (l.state = .seized ∨ l.state = .pulsing ∨ l.state = .collecting ∨ l.state = .held ∨ l.state = .opened →
      let pulsing : Prop := l.state = .pulsing ∨ (l.state = .opened ∧ l.returnState = some .pulsing)
      ∀ d : State, (pulsing ∧ d = s.setLine n l.discardPulse) ∨ (¬pulsing ∧ d = s) →
      let closed := if l.hasDigit then d.closeCollection n .release s.now
        else d.setLine n { d.line n with collection := none }
      let dropped := (closed.setLine n { closed.line n with
        settleTimer := none, seizeTimer := none, seizeFrom := none, breakTimer := none, gapTimer := none,
        firstDigitTimer := none, collectTimer := none, learnTimer := none }).dropDetector n
      let u := dropped.raise (.line n) .hook (some s.now)
      s.faultLine n = u.setLine n
        { u.line n with
          state := .faulted, learning := none, permanentLoop := false, snapshot := none, returnState := none,
          breakTime := none } ∧
      ((s.faultLine n).line n).collection = none ∧ (l.hasDigit = false → (s.faultLine n).store = s.store)) ∧
    (l.state = .faulted ∨ l.state = .underTest ∨ l.state = .disabled → s.faultLine n = s)

/-- GAP_EXPIRY completes the pulse digit: learning is updated, a count of 1 to 10 gives its symbol to the
collection, a count of 11 or more leaves the mark BAD_PULSE_COUNT, and the line (in OPEN its return state)
goes on as the collection stands: with its collection closed it gives up its detector and is HELD, with a
digit it is COLLECTING, with none it is SEIZED with a fresh first-digit timer (R41, R50, R61, R113). The completion is
said of the operation itself (`completePulse`), which a statement on pulses names where the gap is over in the same
event. -/
def Obligations.GapExpiryCompletesTheDigit : Prop :=
  (∀ (s : State) (n : LineNo) (e : Time) (count : Nat),
     let l := s.line n
     l.pulseCount = some count →
     let ended : Line := { l.endDigitLearning with pulseCount := none, gapTimer := none }
     let u := s.setLine n ended
     let bad := s.setLine n { ended with
       collection := ended.collection.map fun c => { c with marks := { c.marks with badPulseCount := true } } }
     (11 ≤ count → s.completePulse n = bad.phaseAfterDigit n) ∧
     (∀ x : Symbol, 1 ≤ count → count ≤ 10 → x.val = count % 10 →
       s.completePulse n = (u.acceptDigit n ⟨x, .pulse⟩).phaseAfterDigit n) ∧
     (l.gapTimer = some e → later e s.now = false →
       l.state = .pulsing ∨ (l.state = .opened ∧ l.returnState = some .pulsing) →
       exec (.gapExpiry n) s = .next (s.completePulse n).finish)) ∧
  (∀ (s : State) (n : LineNo),
     let l := s.line n
     let moved (k : Line) (ph : OffHook) : Line :=
       if k.state = .opened then { k with returnState := some ph } else { k with state := ph.toState }
     (l.collection = none →
       let u := s.dropDetector n
       s.phaseAfterDigit n = u.setLine n (moved (u.line n) .held)) ∧
     (∀ c : Collection, l.collection = some c →
       (c.digits ≠ [] → s.phaseAfterDigit n = s.setLine n (moved l .collecting)) ∧
       (c.digits = [] →
         s.phaseAfterDigit n = s.setLine n { moved l .seized with
           firstDigitTimer := some (s.now + BitVec.ofNat 32 (s.profileOf n).firstMs) })))

/-! ### Tones, detectors, windows, digits -/

/-- TONE_ONSET and TONE_OFFSET: an onset of a detector that is OUT or free, or within 20 ms of its bind time,
is discarded; otherwise its symbol is a TONE digit in SEIZED and COLLECTING, a mark in PULSING, and ignored
in OPEN; an offset is discarded (R83, R84, R85). -/
def Obligations.ToneReportsAreTaken : Prop :=
  ∀ (s : State) (d : DetectorNo) (x : Symbol),
    exec (.toneOffset d) s = .next s.finish ∧
    ((s.detector d).inService = false ∨ (s.detector d).bound = none →
      exec (.toneOnset d x) s = .next s.finish) ∧
    (∀ b : Bound, (s.detector d).inService = true → (s.detector d).bound = some b →
      let l := s.line b.line
      ((s.now - b.bindTime).toNat < 20 → exec (.toneOnset d x) s = .next s.finish) ∧
      (20 ≤ (s.now - b.bindTime).toNat →
        (l.state = .seized ∨ l.state = .collecting →
          exec (.toneOnset d x) s =
            .next ((s.acceptDigit b.line ⟨x, .tone⟩).phaseAfterDigit b.line).finish) ∧
        (l.state = .pulsing →
          exec (.toneOnset d x) s =
            .next (s.setLine b.line { l with
              collection := l.collection.map fun c => { c with marks := { c.marks with toneInPulse := true } } }).finish) ∧
        (l.state = .opened → exec (.toneOnset d x) s = .next s.finish)))

/-- A detector request binds the lowest-numbered detector that is IN and free, with the bind time and the
line's pair at its crosspoint, and otherwise queues the line at the tail; a line that is bound or queued
changes nothing (R77, R78, R79). A line gives up what it holds: a queued line leaves the queue from its
place; a bound line frees its detector, which goes at once to the queue head with the mark DETECTOR_WAIT and
the wait added, the sum holding at 65535 ms (R80, R81, R82). -/
def Obligations.DetectorsAreGivenAndReleased : Prop :=
  (∀ (s : State) (n : LineNo),
     let l := s.line n
     let free (d : DetectorNo) := (s.detector d).inService = true ∧ (s.detector d).bound = none
     (l.binding ≠ .none → s.requestDetector n = s) ∧
     (l.binding = .none → ∀ d : DetectorNo, free d → (∀ d' : DetectorNo, d' < d → ¬free d') →
       s.requestDetector n =
         (s.setDetector d ⟨true, some ⟨n, s.now, l.pair⟩⟩).setLine n { l with binding := .detector d }) ∧
     (l.binding = .none → (∀ d : DetectorNo, ¬free d) →
       s.requestDetector n =
         (s.setDetectorQueue (s.pool.queue ++ [⟨n, s.now⟩])).setLine n { l with binding := .queued })) ∧
  (∀ (s : State) (n : LineNo),
     let l := s.line n
     (l.binding = .none → s.dropDetector n = s) ∧
     (l.binding = .queued →
       s.dropDetector n =
         (s.setDetectorQueue (s.pool.queue.filter fun w => decide (w.line ≠ n))).setLine n { l with binding := .none }) ∧
     (∀ d : DetectorNo, l.binding = .detector d → (s.detector d).inService = true →
       let u := s.setLine n { l with binding := .none }
       (s.pool.queue = [] → s.dropDetector n = u.setDetector d ⟨true, none⟩) ∧
       (∀ (w : Waiter) (rest : List Waiter), s.pool.queue = w :: rest →
         let k := u.line w.line
         s.dropDetector n =
           ((u.setDetectorQueue rest).setDetector d ⟨true, some ⟨w.line, s.now, k.pair⟩⟩).setLine w.line
             { k with
               binding := .detector d
               collection := k.collection.map fun c => { c with
                 marks := { c.marks with detectorWait := true }
                 wait := some (min 65535 (c.wait.getD 0 + (s.now - w.queuedTime).toNat)) } })))

/-- The judgment of a window against a digit list: FAIL when a compared position does not match, and
otherwise PARTIAL or HIT by the counts; a HIT stays a HIT and a FAIL a FAIL as digits come, no window is
PARTIAL at eight digits, and disabled windows are not judged (R102). -/
def Obligations.WindowIsJudged : Prop :=
  (∀ (pattern : List (Option Symbol)) (digits : List Digit),
    let mismatch := ∃ (i : Nat) (y : Symbol) (d : Digit),
      pattern[i]? = some (some y) ∧ digits[i]? = some d ∧ y ≠ d.symbol
    (judge pattern digits = .fail ↔ mismatch) ∧
    (judge pattern digits = .partialFit ↔ ¬mismatch ∧ digits.length < pattern.length) ∧
    (judge pattern digits = .hit ↔ ¬mismatch ∧ pattern.length ≤ digits.length) ∧
    (∀ d : Digit, judge pattern digits = .hit → judge pattern (digits ++ [d]) = .hit) ∧
    (∀ d : Digit, judge pattern digits = .fail → judge pattern (digits ++ [d]) = .fail) ∧
    (pattern.length ≤ 8 → 8 ≤ digits.length → judge pattern digits ≠ .partialFit)) ∧
  (∀ (t : WindowTable) (digits : List Digit) (i : Fin 8) (w : Window),
    t.table[i].enabled = false → w.enabled = false →
    { t with table := t.table.set i w }.evaluate digits = t.evaluate digits)

/-- The binding of an UNDECIDED collection comes from the lowest enabled window that is not FAIL: a snapshot
of it when it is HIT, none while it is PARTIAL, and a snapshot of WD when there is no such window; a bound
collection is not evaluated again, an UNDECIDED one is evaluated at every accepted digit against the table
as it then stands, and eight digits always bind (R103). -/
def Obligations.LowestWindowDecides : Prop :=
  ∀ (t : WindowTable) (c : Collection) (d : Digit),
    let digits := c.digits ++ [d]
    (∃ b, c.accept t d = { c with digits := digits, bound := b }) ∧
    (∀ b, c.bound = some b → (c.accept t d).bound = some b) ∧
    (c.bound = none → (c.accept t d).bound = t.evaluate digits ∧
      ((∀ i : Fin 8, t.table[i].enabled = true → judge t.table[i].pattern digits = .fail) →
        (c.accept t d).bound = some ⟨none, 0, .openEnd, t.defaultClass, false, none⟩) ∧
      (∀ i : Fin 8, t.table[i].enabled = true →
        (∀ j : Fin 8, j < i → t.table[j].enabled = true → judge t.table[j].pattern digits = .fail) →
        let w := t.table[i]
        (judge w.pattern digits = .hit →
          (c.accept t d).bound = some ⟨some i, w.pattern.length, w.rule, w.cls, w.urgent, w.replacement⟩) ∧
        (judge w.pattern digits = .partialFit → (c.accept t d).bound = none)) ∧
      ((∀ i : Fin 8, t.table[i].pattern.length ≤ 8) → 7 ≤ c.digits.length → (c.accept t d).bound.isSome = true))

/-- An accepted digit joins the list, stops the first-digit timer, sets the collect timer and may bind the
collection, which closes with LENGTH at its window's count and with FULL at 24 digits (R95, R105). -/
def Obligations.DigitIsAccepted : Prop :=
  ∀ (s : State) (n : LineNo) (d : Digit) (c : Collection),
    let l := s.line n
    l.collection = some c →
    let c' : Collection := { c with
      digits := c.digits ++ [d], bound := match c.bound with
        | some w => some w
        | none => s.windows.evaluate (c.digits ++ [d]) }
    let u := s.setLine n { l with
      collection := some c', firstDigitTimer := none,
      collectTimer := some (s.now + BitVec.ofNat 32 (s.profileOf n).collectMs) }
    let long := ∃ w m, c'.bound = some w ∧ w.rule = .fixed m ∧ m ≤ c'.digits.length
    (long → s.acceptDigit n d = u.closeCollection n .length s.now) ∧
    (¬long → 24 ≤ c'.digits.length → s.acceptDigit n d = u.closeCollection n .full s.now) ∧
    (¬long → c'.digits.length < 24 → s.acceptDigit n d = u)

/-- A closure builds the dial record from the collection, the line and the learning record, hands it to the
store as an arrival, and removes the collection; the line's detector binding stays (R108, R109, R110,
R111). -/
def Obligations.ClosureBuildsTheRecord : Prop :=
  ∀ (s : State) (n : LineNo) (c : Collection) (cause : Cause) (t : Time),
    let l := s.line n
    l.collection = some c →
    let record : DialRecord := {
      line := n, pair := l.pair, seizeTime := c.seizeTime, closeTime := t, cause := cause,
      window := (match c.bound with
        | none => .unbound
        | some ⟨none, _, _, _, _, _⟩ => .default
        | some ⟨some i, _, _, _, _, _⟩ => .window i),
      cls := (c.bound.map (·.cls)).getD s.windows.defaultClass,
      urgent := (c.bound.map (·.urgent)).getD false,
      digits := c.digits,
      routed := c.bound.bind fun w => w.replacement.map fun r => r ++ (c.digits.drop w.patternLen).map (·.symbol),
      learned := (match l.learning with
        | some (.done period) => some period
        | _ => none),
      marks := c.marks, wait := c.wait, storeWaited := false }
    s.closeCollection n cause t =
      (s.arrive record).setLine n { l with collectTimer := none, collection := none }

/-! ### The dial record store -/

/-- A closure arrival: discarded with the overrun flag and an OVERRUN raise at the line's limit, admitted to
the lowest empty slot with the next rank and a RECORD raise when there is room and nobody waits, and put at
the tail of the pending list with the store-wait flag otherwise (R117, R118, R119). -/
def Obligations.ClosureArrivalIsPlaced : Prop :=
  ∀ (s : State) (r : DialRecord),
    let waits := ∃ x ∈ s.store.waiting, x.line = r.line
    let stored := (List.finRange 16).countP fun i => match s.store.slots[i] with
      | some sl => decide (sl.record.line = r.line)
      | none => false
    let occupied := (List.finRange 16).countP fun i => s.store.slots[i].isSome
    let limit := waits ∨ 2 ≤ stored
    (limit →
      s.arrive r =
        State.raise { s with store := { s.store with overrun := s.store.overrun.set r.line true } }
          (.line r.line) .overrun (some r.closeTime)) ∧
    (¬limit → s.store.waiting = [] → ∀ i : Fin 16, s.store.slots[i] = none →
      (∀ j : Fin 16, j < i → s.store.slots[j].isSome = true) →
      s.arrive r =
        State.raise { s with store := { s.store with
            slots := s.store.slots.set i (some ⟨occupied + 1, r⟩) } } (.line r.line) .record none) ∧
    (¬limit → s.store.waiting ≠ [] ∨ (∀ i : Fin 16, s.store.slots[i].isSome = true) →
      s.arrive r =
        { s with store := { s.store with
            waiting := s.store.waiting ++ [{ r with storeWaited := true }]
            storeWait := s.store.storeWait.set r.line true } })

/-- The record a selector chooses: the record of rank 1 for OLDEST, the line's lowest-ranked record for
LINE n, the lowest-ranked urgent record for URGENT_FIRST and the record of rank 1 when none is urgent
(R121). -/
def Obligations.SelectorChoosesTheLowestRank : Prop :=
  ∀ s : State, s.StoreOk →
    let lowest (q : DialRecord → Bool) (c : Option (Fin 16)) : Prop :=
      (c = none → ∀ (i : Fin 16) (sl : Slot), s.store.slots[i] = some sl → q sl.record = false) ∧
      (∀ i, c = some i → ∃ sl, s.store.slots[i] = some sl ∧ q sl.record = true ∧
        ∀ (j : Fin 16) (sl' : Slot), s.store.slots[j] = some sl' → q sl'.record = true → sl.rank ≤ sl'.rank)
    lowest (fun _ => true) (s.store.choose .oldest) ∧
    (∀ n : LineNo, lowest (fun r => decide (r.line = n)) (s.store.choose (.line n))) ∧
    ((∃ (i : Fin 16) (sl : Slot), s.store.slots[i] = some sl ∧ sl.record.urgent = true) →
      lowest (·.urgent) (s.store.choose .urgentFirst)) ∧
    ((∀ (i : Fin 16) (sl : Slot), s.store.slots[i] = some sl → sl.record.urgent = false) →
      s.store.choose .urgentFirst = s.store.choose .oldest)

/-- RECORD_TAKE: a bad selector or line is refused with BAD_ARG, a selector with nothing to choose is
answered EMPTY, and otherwise the chosen record is answered with its slot and rank and taken (R121, R122). The bytes
of a record are those of the layout of section 11.7 (R109). -/
def Obligations.RecordTakeReturnsTheRecord : Prop :=
  (∀ (s : State) (tag selector line : Byte), s.ready →
    (2 < selector.toNat ∨ (selector = 1 ∧ 64 ≤ line.toNat) →
      exec (.recordTake tag selector line) s = .next (s.heard.answer 0x8E tag [3])) ∧
    (∀ q : Selector, (selector = 0 ∧ q = .oldest) ∨ (selector = 2 ∧ q = .urgentFirst) ∨
        (selector = 1 ∧ ∃ n : LineNo, n.val = line.toNat ∧ q = .line n) →
      (s.store.choose q = none →
        exec (.recordTake tag selector line) s = .next (s.heard.answer 0x8E tag [7])) ∧
      (∀ (i : Fin 16) (sl : Slot), s.store.choose q = some i → s.store.slots[i] = some sl →
        exec (.recordTake tag selector line) s =
          .next ((s.heard.takeSlot i sl).answer 0x8E tag
            ([0, BitVec.ofNat 8 i.val, BitVec.ofNat 8 sl.rank] ++ sl.record.bytes))))) ∧
  (∀ r : DialRecord,
    let one (n : Nat) : Byte := BitVec.ofNat 8 n
    let four (t : Time) : List Byte := [t.extractLsb' 24 8, t.extractLsb' 16 8, t.extractLsb' 8 8, t.extractLsb' 0 8]
    let bit (b : Bool) (i : Nat) : Nat := if b then 2 ^ i else 0
    let cause : Byte := match r.cause with
      | .length => 0
      | .timeout => 1
      | .full => 2
      | .release => 3
      | .flash => 4
    let window : Byte := match r.window with
      | .window i => one i.val
      | .default => 8
      | .unbound => 9
    let marks := bit r.marks.mutilated 0 + bit r.marks.badPulseCount 1 + bit r.marks.learnOverflow 2 +
      bit r.marks.rateOutOfRange 3 + bit r.marks.toneInPulse 4 + bit r.marks.detectorWait 5
    let flags := bit r.learned.isSome 0 + bit r.wait.isSome 1 + bit r.routed.isSome 2 + bit r.storeWaited 3
    let wait := r.wait.getD 0
    let routed := r.routed.getD []
    r.bytes = [one r.line.val, one r.pair.val] ++ four r.seizeTime ++ four r.closeTime ++
      [cause, window, one r.cls.val, one (bit r.urgent 0), one marks, one flags, one (r.learned.getD 0),
        one (wait / 256), one wait, one r.digits.length] ++
      (r.digits.map fun d => one (d.symbol.val + bit (decide (d.method = .tone)) 4)) ++
      [one routed.length] ++ routed.map fun x => one x.val)

/-- A take empties its slot and lowers the ranks above it; in SINGLE mode it clears the line's overrun flag;
and the head of the pending list, if any, takes the freed slot with rank 16, leaves the list and loses its
store-wait flag. No line, pair or notice setting changes (R114, R122, R123, R124). -/
def Obligations.TakeFreesTheSlotAndAdmits : Prop :=
  ∀ (s : State) (i : Fin 16) (sl : Slot), s.StoreOk → s.store.slots[i] = some sl →
    let t := s.takeSlot i sl
    let n := sl.record.line
    (∀ j : Fin 16, j ≠ i → t.store.slots[j] =
      s.store.slots[j].map fun x => if sl.rank < x.rank then ⟨x.rank - 1, x.record⟩ else x) ∧
    (s.store.waiting = [] → t.store.slots[i] = none ∧ t.store.waiting = [] ∧ t.store.storeWait = s.store.storeWait ∧
      t.notices = s.notices) ∧
    (∀ (r : DialRecord) (rest : List DialRecord), s.store.waiting = r :: rest →
      t.store.slots[i] = some ⟨16, r⟩ ∧ t.store.waiting = rest ∧
      t.store.storeWait = s.store.storeWait.set r.line false ∧
      t.notices = (s.raise (.line r.line) .record none).notices) ∧
    ((s.liveProfile n).recordMode = .single → t.store.overrun = s.store.overrun.set n false) ∧
    ((s.liveProfile n).recordMode = .continuous → t.store.overrun = s.store.overrun) ∧
    { t with store := s.store, notices := s.notices } = s

/-- OVERRUN_CLEAR clears the line's overrun flag whatever its record mode and touches nothing else; a line
whose store-wait flag is set stays barred (R127). -/
def Obligations.OverrunClearClearsTheFlag : Prop :=
  ∀ (s : State) (tag line : Byte), s.ready →
    (64 ≤ line.toNat → exec (.overrunClear tag line) s = .next (s.heard.answer 0x90 tag [3])) ∧
    (∀ n : LineNo, n.val = line.toNat →
      let u : State := { s.heard with store := { s.store with overrun := s.store.overrun.set n false } }
      exec (.overrunClear tag line) s = .next (u.answer 0x90 tag [0]) ∧
      (u.barred n = true ↔ s.store.storeWait[n] = true))

/-! ### The fault watch -/

/-- A scored sample of a watched pair moves each score by one within 0 to 63, up when the sample is at or
above the limit and down otherwise; an unwatched pair's sample changes nothing (R135). A score at or above
suspect_score takes a CLEAR pair to SUSPECT, with FAULT
raised and a test wanted unless the guard runs, and a RECHECK pair back to CONFIRMED, with the fault passed on and the want
withdrawn; a SUSPECT or CONFIRMED pair keeps its state (R137, R138, R140). -/
def Obligations.ScoresFollowTheSamples : Prop :=
  ∀ (s : State) (p : PairNo) (tipV ringV longMa : Int) (foreign leak : Nat),
    let old := s.fault p
    let lim := s.watch.limits[p]
    let w := s.watch.settings
    let new : FaultRec := { old with foreign := foreign, leak := leak }
    let reached := w.suspectScore ≤ foreign ∨ w.suspectScore ≤ leak
    (w.watched.getLsbD p.val = false → s.score p tipV ringV longMa = s) ∧
    (w.watched.getLsbD p.val = true →
    foreign = (if lim.foreignV ≤ tipV ∨ lim.foreignV ≤ ringV then min 63 (old.foreign + 1) else old.foreign - 1) →
    leak = (if lim.leakMa ≤ longMa then min 63 (old.leak + 1) else old.leak - 1) →
    (old.state = .clear → reached →
      let u := (s.changeFault p { new with state := .suspect }).raise (.pair p) .fault none
      s.score p tipV ringV longMa = if old.guardTimer = none then u.want p else u) ∧
    (old.state = .recheck → reached →
      s.score p tipV ringV longMa =
        (((s.changeFault p { new with state := .confirmed }).passFault p).raise (.pair p) .fault none).withdraw p) ∧
    (old.state = .suspect ∨ old.state = .confirmed ∨ ¬reached →
      s.score p tipV ringV longMa =
        let u := s.changeFault p new
        if w.sustainMs = 0 ∧ (∃ e, (u.fault p).sustainTimer = some e ∧ later e u.now = false)
        then u.sustainEnd p else u))

/-- A change of a pair's record: the sustain timer is set when the sustain condition begins or CONFIRMED is
entered, stopped when it ceases, and the binder's suspected count follows entry into and exit from
suspicion (R138, R148). A change of a binder's suspected count: at binder_k the hold is on with its timer
stopped; below it a binder in hold has its hold timer running; BINDER is raised when the hold goes on and, in
EVERY mode, at every change while it is on (R149, R150). The binder of pair p is binder p div 8 (R4). -/
def Obligations.PairChangesMoveTimerAndBinder : Prop :=
  (∀ p : PairNo, (binderOf p).val = p.val / 8) ∧
  (∀ (s : State) (p : PairNo) (new : FaultRec),
     let old := s.fault p
     let b := binderOf p
     let suspected (r : FaultRec) := r.state = .suspect ∨ r.state = .confirmed
     let sustains (r : FaultRec) := suspected r ∧ r.foreign = 0 ∧ r.leak = 0 ∧ r.senseLost = false
     let fresh := some (s.now + BitVec.ofNat 32 s.watch.settings.sustainMs)
     ∀ timer : Option Time,
       (¬sustains new ∧ timer = none) ∨
       (sustains new ∧ (¬sustains old ∨ (new.state = .confirmed ∧ old.state ≠ .confirmed)) ∧ timer = fresh) ∨
       (sustains new ∧ sustains old ∧ (new.state ≠ .confirmed ∨ old.state = .confirmed) ∧ timer = new.sustainTimer) →
       let u := s.setFault p { new with sustainTimer := timer }
       ((suspected new ↔ suspected old) → s.changeFault p new = u) ∧
       (suspected new → ¬suspected old → s.changeFault p new = u.countChange b true) ∧
       (¬suspected new → suspected old → s.changeFault p new = u.countChange b false)) ∧
  (∀ (s : State) (b : BinderNo) (up : Bool),
     let r := s.binder b
     let w := s.watch.settings
     let count := if up then r.count + 1 else r.count - 1
     let told (u : State) : State := u.raise (.binder b) .binder none
     (w.binderK ≤ count →
       let u := s.setBinder b ⟨count, true, none⟩
       s.countChange b up = if r.hold = false ∨ w.mode = .every then told u else u) ∧
     (count < w.binderK → r.hold = false → s.countChange b up = s.setBinder b ⟨count, false, r.holdTimer⟩) ∧
     (count < w.binderK → r.hold = true →
       let u := s.setBinder b ⟨count, true,
         some (r.holdTimer.getD (s.now + BitVec.ofNat 32 w.holdMs))⟩
       s.countChange b up = if w.mode = .every then told u else u))

/-- SUSTAIN_EXPIRY, GUARD_EXPIRY and HOLD_EXPIRY by the state of the pair or binder (R139, R141, R149). R139
names SUSPECT and CONFIRMED alone: that a due sustain timer of a CLEAR or RECHECK pair only stops is the model's
choice, made for states that no run reaches (log 25). -/
def Obligations.WatchTimersExpire : Prop :=
  ∀ s : State,
    (∀ (p : PairNo) (e : Time), (s.fault p).sustainTimer = some e → later e s.now = false →
      let r : FaultRec := { s.fault p with sustainTimer := none }
      (r.state = .suspect → exec (.sustainExpiry p) s =
        .next (((s.changeFault p { r with state := .clear }).raise (.pair p) .fault none).withdraw p).finish) ∧
      (r.state = .confirmed → exec (.sustainExpiry p) s =
        .next ((((s.changeFault p { r with state := .recheck }).passFault p).raise (.pair p) .fault none).want p).finish) ∧
      (r.state = .clear ∨ r.state = .recheck → exec (.sustainExpiry p) s = .next (s.setFault p r).finish)) ∧
    (∀ (p : PairNo) (e : Time), (s.fault p).guardTimer = some e → later e s.now = false →
      let r : FaultRec := { s.fault p with guardTimer := none }
      (r.state = .suspect ∨ r.state = .recheck →
        exec (.guardExpiry p) s = .next ((s.setFault p r).want p).finish) ∧
      (r.state = .clear ∨ r.state = .confirmed → exec (.guardExpiry p) s = .next (s.setFault p r).finish)) ∧
    (∀ (b : BinderNo) (e : Time), (s.binder b).holdTimer = some e → later e s.now = false →
      exec (.holdExpiry b) s =
        .next ((s.setBinder b ⟨(s.binder b).count, false, none⟩).raise (.binder b) .binder none).finish)

/-- Sense lost sets the flag, passes a fault and raises FAULT; sense regained clears it, sets the sustain timer where
the sustain condition begins (in the change of the pair), releases the served line of a pair neither CONFIRMED nor
RECHECK and raises FAULT; a fault and a release reach only the served line, and a release moves only a FAULTED one
(R138, R144, R145). A sustain timer set for 0 ms expires in the same event, as R138 and R139 say; that it does so behind
the event's own steps is the model's choice (log 18). -/
def Obligations.SenseEdgesReachTheLine : Prop :=
  ∀ (s : State) (p : PairNo),
    let lost := s.changeFault p { s.fault p with senseLost := true }
    let back := s.changeFault p { s.fault p with senseLost := false }
    let sustained (u : State) : State :=
      let r : FaultRec := { u.fault p with sustainTimer := none }
      if s.watch.settings.sustainMs = 0 ∧ (∃ e, (u.fault p).sustainTimer = some e ∧ later e s.now = false) then
        (match r.state with
         | .suspect => ((u.changeFault p { r with state := .clear }).raise (.pair p) .fault none).withdraw p
         | .confirmed =>
           (((u.changeFault p { r with state := .recheck }).passFault p).raise (.pair p) .fault none).want p
         | _ => u.setFault p r)
      else u
    s.senseLost p = (lost.passFault p).raise (.pair p) .fault none ∧
    ((s.fault p).state = .clear ∨ (s.fault p).state = .suspect →
      s.senseRegained p = sustained ((back.releasePair p).raise (.pair p) .fault none)) ∧
    ((s.fault p).state = .confirmed ∨ (s.fault p).state = .recheck →
      s.senseRegained p = sustained (back.raise (.pair p) .fault none)) ∧
    (s.served p = none → s.passFault p = s ∧ s.releasePair p = s) ∧
    (∀ n, s.served p = some n →
      s.passFault p = s.faultLine n ∧
      ((s.line n).state = .faulted → s.releasePair p = s.enterSettling n) ∧
      ((s.line n).state ≠ .faulted → s.releasePair p = s))

/-- A test end at the Fault Watch: the pair's record takes the state, the scores, the guard timer and the last test
result of R143 in one change of the pair, with its sustain timer and its binder's suspected count (`changeFault`, which
a statement of its own describes); on entry to CONFIRMED the fault is passed on; and at every test end FAULT is raised
(R138, R143, R144, R146, R148). A sustain or guard timer set for 0 ms expires in the same event, as R139 and R141
say (the place of these expiries is the model's, log 18). -/
def Obligations.TestEndIsApplied : Prop :=
  ∀ (s : State) (p : PairNo) (t : LastTest),
    let old := s.fault p
    let w := s.watch.settings
    let fresh := some (s.now + BitVec.ofNat 32 w.guardMs)
    let sustained (u : State) : State :=
      if w.sustainMs = 0 ∧ (∃ e, (u.fault p).sustainTimer = some e ∧ later e u.now = false)
      then u.sustainEnd p else u
    let guarded (u : State) : State :=
      let v := u.setFault p { u.fault p with guardTimer := none }
      if w.guardMs = 0 ∧ (∃ e, (u.fault p).guardTimer = some e ∧ later e u.now = false) then
        (if (u.fault p).state = .suspect ∨ (u.fault p).state = .recheck then v.want p else v)
      else u
    let told (u : State) : State := sustained (u.raise (.pair p) .fault none)
    let passed : FaultRec := { old with state := .clear, foreign := 0, leak := 0, guardTimer := fresh, last := some t }
    let failed : FaultRec := { old with state := .confirmed, last := some t }
    let kept : FaultRec := { old with last := some t }
    let waits : FaultRec := { kept with guardTimer := fresh }
    (t.outcome = .result .pass → old.state = .clear → s.testEnd p t = told (s.changeFault p kept)) ∧
    (t.outcome = .result .pass → old.state ≠ .clear → s.testEnd p t = guarded (told (s.changeFault p passed))) ∧
    (t.outcome = .result .fail → old.state = .confirmed → s.testEnd p t = told (s.changeFault p kept)) ∧
    (t.outcome = .result .fail → old.state ≠ .confirmed →
      s.testEnd p t = told ((s.changeFault p failed).passFault p)) ∧
    (t.outcome = .result .inconclusive → old.state = .clear ∨ old.state = .confirmed →
      s.testEnd p t = told (s.changeFault p kept)) ∧
    (t.outcome = .result .inconclusive → old.state = .recheck →
      s.testEnd p t = told ((s.changeFault p failed).passFault p)) ∧
    (t.outcome = .result .inconclusive → old.state = .suspect →
      s.testEnd p t = guarded (told (s.changeFault p waits))) ∧
    (∀ c, t.outcome = .aborted c → old.state = .clear ∨ old.state = .confirmed →
      s.testEnd p t = told (s.changeFault p kept)) ∧
    (∀ c, t.outcome = .aborted c → old.state = .suspect ∨ old.state = .recheck →
      s.testEnd p t = guarded (told (s.changeFault p waits))) ∧
    (∀ u : State,
      let r : FaultRec := { u.fault p with sustainTimer := none }
      (r.state = .suspect → u.sustainEnd p =
        ((u.changeFault p { r with state := .clear }).raise (.pair p) .fault none).withdraw p) ∧
      (r.state = .confirmed → u.sustainEnd p =
        (((u.changeFault p { r with state := .recheck }).passFault p).raise (.pair p) .fault none).want p)) ∧
    (w.sustainMs ≠ 0 →
      let r := (s.testEnd p t).fault p
      let guard := if w.guardMs = 0 then none else fresh
      let kept := r.foreign = old.foreign ∧ r.leak = old.leak
      r.last = some t ∧ r.senseLost = old.senseLost ∧
      (t.outcome = .result .pass →
        r.state = .clear ∧
        (old.state = .clear → kept ∧ r.guardTimer = old.guardTimer) ∧
        (old.state ≠ .clear → r.foreign = 0 ∧ r.leak = 0 ∧ r.guardTimer = guard)) ∧
      (t.outcome = .result .fail → r.state = .confirmed ∧ kept ∧ r.guardTimer = old.guardTimer) ∧
      (t.outcome = .result .inconclusive → kept ∧
        r.state = (if old.state = .recheck then .confirmed else old.state) ∧
        r.guardTimer = (if old.state = .suspect then guard else old.guardTimer)) ∧
      (∀ c, t.outcome = .aborted c → kept ∧ r.state = old.state ∧
        r.guardTimer = (if old.state = .suspect ∨ old.state = .recheck then guard else old.guardTimer)) ∧
      (s.notices.enabled[(Source.pair p).pos][(5 : Fin 8)] = true → ∃ e ∈ (s.testEnd p t).notices.entries,
        e.pos = (Source.pair p).pos ∧ e.kind = .fault))

/-- A want is raised for no pair on the test bus; its kind comes from the scores; it merges into the pair's
queued or wanted test, joins the queue while there is room, and the wanted set otherwise. A withdrawal takes
out the pair's WATCH entry and its place in the wanted set; an entry so taken out lets in the lowest-numbered pair of
the wanted set, if it holds one (R142, R156, R157). -/
def Obligations.WantsArePlacedAndWithdrawn : Prop :=
  ∀ (s : State) (p : PairNo),
    let w := s.watch.settings
    let f := w.suspectScore ≤ (s.fault p).foreign
    let l := w.suspectScore ≤ (s.fault p).leak
    let queued := ∃ e ∈ s.bus.queue, e.pair = p
    (s.onBus p = true → s.want p = s ∧ s.withdraw p = s) ∧
    (s.onBus p = false → ∀ k : TestKind,
      (f ∧ ¬l ∧ k = .foreign) ∨ (¬f ∧ l ∧ k = .insulation) ∨ ((f ↔ l) ∧ k = .full) →
      let merge (k' : TestKind) : TestKind := if k' = k then k' else .full
      (queued → s.want p = { s with bus := { s.bus with
        queue := s.bus.queue.map fun e => if e.pair = p then ⟨e.pair, merge e.kind, e.asker⟩ else e } }) ∧
      (¬queued → ∀ k', s.bus.wanted[p] = some k' →
        s.want p = { s with bus := { s.bus with wanted := s.bus.wanted.set p (some (merge k')) } }) ∧
      (¬queued → s.bus.wanted[p] = none → s.bus.queue.length < 16 →
        s.want p = { s with bus := { s.bus with queue := s.bus.queue ++ [⟨p, k, .watch⟩] } }) ∧
      (¬queued → s.bus.wanted[p] = none → 16 ≤ s.bus.queue.length →
        s.want p = { s with bus := { s.bus with wanted := s.bus.wanted.set p (some k) } })) ∧
    (s.onBus p = false →
      let u : State := { s with bus := { s.bus with wanted := s.bus.wanted.set p none } }
      let mine (e : TestEntry) : Bool := decide (e.pair = p ∧ e.asker = .watch)
      let left := s.bus.queue.eraseP mine
      ((∀ e ∈ s.bus.queue, mine e = false) → s.withdraw p = u) ∧
      ((∃ e ∈ s.bus.queue, mine e = true) →
        ((∀ q : PairNo, u.bus.wanted[q] = none) → s.withdraw p = { u with bus := { u.bus with queue := left } }) ∧
        (∀ (q : PairNo) (k : TestKind), u.bus.wanted[q] = some k → (∀ x < q, u.bus.wanted[x] = none) →
          s.withdraw p = { u with bus := { u.bus with
            queue := left ++ [⟨q, k, .watch⟩], wanted := u.bus.wanted.set q none } })))

/-! ### The test bus -/

/-- A look with the bus occupied, or with no eligible entry, does nothing; otherwise the first eligible
entry's test is claimed: the entry leaves the queue and the lowest-numbered wanted pair, if there is one, enters it,
the run record is made, the served line is UNDER_TEST, the pair's glitch run and sample class go, and CONNECT is sent
(R157, R158, R159, R160). -/
def Obligations.LookClaimsTheFirstEligible : Prop :=
  ∀ s : State,
    let held (p : PairNo) := (s.binder (binderOf p)).hold
    (∀ e : TestEntry, s.eligible e = true ↔
      (∀ n, s.served e.pair = some n →
        (s.line n).state = .idle ∨ (s.line n).state = .faulted ∨ (s.line n).state = .settling) ∧
      (e.asker = .watch → held e.pair = false)) ∧
    (s.bus.run.isSome = true → s.look = s) ∧
    ((∀ e ∈ s.bus.queue, s.eligible e = false) → s.look = s) ∧
    (∀ (e : TestEntry) (front back : List TestEntry), s.bus.run = none →
      s.bus.queue = front ++ e :: back → (∀ x ∈ front, s.eligible x = false ∧ x ≠ e) → s.eligible e = true →
      ∀ (admitted : List TestEntry) (wanted : Vector (Option TestKind) 72),
      ((∀ q : PairNo, s.bus.wanted[q] = none) ∧ admitted = [] ∧ wanted = s.bus.wanted) ∨
      (∃ (q : PairNo) (kind : TestKind), s.bus.wanted[q] = some kind ∧ (∀ x < q, s.bus.wanted[x] = none) ∧
        admitted = [⟨q, kind, .watch⟩] ∧ wanted = s.bus.wanted.set q none) →
      let w := s.bus.settings
      let run : Run := ⟨e.pair, e.kind, e.asker, w, 1, .quiet, 0, 0, [], none,
        some (s.now + BitVec.ofNat 32 w.quietFirstMs), none, none⟩
      let k := s.scanRec e.pair
      let bus : TestBus := { s.bus with
        run := some run
        queue := front ++ back ++ admitted
        wanted := wanted
        sent := s.bus.sent ++ [TestPortMsg.connect e.pair] }
      let u : State := { (s.setScanRec e.pair { k with run := none, sampleClass := none }) with bus := bus }
      (s.served e.pair = none → s.look = u) ∧
      (∀ n, s.served e.pair = some n →
        let l := s.line n
        s.look = u.setLine n { l with
          state := .underTest, settleTimer := none, wasFaulted := some (decide (l.state = .faulted)) }))

/-- QUIET_EXPIRY: the phase becomes READING, the first READ goes out with the next sequence number, and the
reading timer runs for 500 ms (R161, R152). READING_TIMEOUT ends the test as ABORTED with cause BUS_TIMEOUT
(R164). -/
def Obligations.TestTimersExpire : Prop :=
  (∀ (s : State) (r : Run) (e : Time), s.bus.run = some r → r.quietTimer = some e → later e s.now = false →
     exec .quietExpiry s =
       .next { s with bus := { s.bus with
         run := some { r with
           phase := .reading, quietTimer := none, readingTimer := some (s.now + 500#32),
           outstanding := some s.bus.readSeq }
         readSeq := s.bus.readSeq + 1
         sent := s.bus.sent ++ [TestPortMsg.read s.bus.readSeq] } }.finish) ∧
  (∀ (s : State) (r : Run) (e : Time), s.bus.run = some r → r.readingTimer = some e → later e s.now = false →
     exec .readingTimeout s = .next (s.endTest r (.aborted .busTimeout)).finish)

/-- READING: discarded with no test on the bus, and unless it answers the outstanding READ with every field in range; a tip–ring
resistance below 3 kΩ aborts the test as SUBSCRIBER; otherwise the reading is counted, as a fail when its
kind's limit is passed, and the next READ is sent, or at the fourth the attempt's verdict is reached: FAIL
on three or four fails, PASS on none or one, and on two a retry while attempts remain (R152, R162, R163). -/
def Obligations.ReadingIsJudged : Prop :=
  ∀ (s : State) (m : MeterReading), (s.bus.run = none → exec (.reading m) s = .next s.finish) ∧
    ∀ r : Run, s.bus.run = some r →
    let inRange := m.tipGround ≤ 9999 ∧ m.ringGround ≤ 9999 ∧ m.tipRing ≤ 9999 ∧ m.volts ≤ 200
    let w := r.settings
    let fails := (r.kind ≠ .foreign ∧ min m.tipGround m.ringGround < w.rMinKohm) ∨
      (r.kind ≠ .insulation ∧ w.vTest ≤ m.volts)
    let taken : Run := { r with
      last := some ⟨m.tipGround, m.ringGround, m.tipRing, m.volts⟩, readingTimer := none, outstanding := none }
    (r.outstanding ≠ some m.seq ∨ ¬inRange → exec (.reading m) s = .next s.finish) ∧
    (r.outstanding = some m.seq → inRange → m.tipRing < 3 →
      exec (.reading m) s = .next (s.endTest taken (.aborted .subscriber)).finish) ∧
    (∀ f : Nat, r.outstanding = some m.seq → inRange → 3 ≤ m.tipRing →
      (fails ∧ f = r.fails + 1) ∨ (¬fails ∧ f = r.fails) →
      let counted : Run := { taken with readings := r.readings + 1, fails := f }
      (r.readings + 1 < 4 → exec (.reading m) s =
        .next { s with bus := { s.bus with
          run := some { counted with
            phase := .reading, quietTimer := none, readingTimer := some (s.now + 500#32),
            outstanding := some s.bus.readSeq }
          readSeq := s.bus.readSeq + 1
          sent := s.bus.sent ++ [TestPortMsg.read s.bus.readSeq] } }.finish) ∧
      (4 ≤ r.readings + 1 →
        let judged (v : Verdict) : Run := { counted with verdicts := r.verdicts ++ [v] }
        (3 ≤ f → exec (.reading m) s = .next (s.endTest (judged .fail) (.result .fail)).finish) ∧
        (f ≤ 1 → exec (.reading m) s = .next (s.endTest (judged .pass) (.result .pass)).finish) ∧
        (f = 2 → w.attemptsMax ≤ r.attempt →
          exec (.reading m) s = .next (s.endTest (judged .inconclusive) (.result .inconclusive)).finish) ∧
        (f = 2 → r.attempt < w.attemptsMax → exec (.reading m) s =
          .next { s with bus := { s.bus with
            run := some { judged .inconclusive with
              attempt := r.attempt + 1, readings := 0, fails := 0, phase := .quiet,
              quietTimer := some (s.now + BitVec.ofNat 32 w.quietRetryMs) } } }.finish)))

/-- The end of a test: DISCONNECT is sent, the test end reaches the Fault Watch, a CONTROLLER test writes the
pair's result and raises TEST_DONE once, a WATCH test raises nothing of its own, the bus is free, and the pair's lines
in UNDER_TEST go to FAULTED on a faulted pair and settle otherwise, no other line being touched by that. With one such
line, as every step keeps it, the whole state is given: a settle time of 0 ms expires at entry, so the line is SEIZING
on a pair whose loop class is LOOP and IDLE otherwise (R18, R20, R38, R165, R166). -/
def Obligations.TestEndFreesTheBus : Prop :=
  ∀ (s : State) (r : Run) (o : TestOutcome),
    let t := s.endTest r o
    let origin : TestOrigin := match r.asker with
      | .watch => .watch
      | .controller _ => .controller
    let told := ({ s with bus := { s.bus with
        run := some { r with quietTimer := none, readingTimer := none, outstanding := none }
        sent := s.bus.sent ++ [TestPortMsg.disconnect] } }).testEnd r.pair ⟨origin, r.kind, o, s.now⟩
    t.bus.run = none ∧ t.bus.sent = s.bus.sent ++ [TestPortMsg.disconnect] ∧ t.watch = told.watch ∧
    t.store = told.store ∧
    (r.asker = .watch → t.bus.results = s.bus.results) ∧
    (∀ freed : State,
      (r.asker = .watch ∧ freed = { told with bus := { told.bus with run := none } }) ∨
      (∃ tag, r.asker = .controller tag ∧ freed = State.raise { told with bus := { told.bus with
        run := none, results := s.bus.results.set r.pair (some ⟨tag, r.kind, o, r.attempt, r.last, s.now⟩) } }
        (.pair r.pair) .testDone none) →
      let leaves (n : LineNo) : Prop := (told.line n).pair = r.pair ∧ (told.line n).state = .underTest
      ((∀ n, leaves n → (told.liveProfile n).settleMs ≠ 0) → t.notices = freed.notices) ∧
      ((∀ n, ¬leaves n) → t = freed) ∧
      (∀ n, leaves n → (∀ m, leaves m → m = n) →
        let l := told.line n
        let f := told.fault r.pair
        let faulted := f.state = .confirmed ∨ f.state = .recheck ∨ f.senseLost = true
        let live := told.liveProfile n
        let span := if (told.binder (binderOf r.pair)).hold then min (4 * live.seizeMs) 4000 else live.seizeMs
        let seize := s.now + BitVec.ofNat 32 span
        let left : Line := { l with wasFaulted := none, settleTimer := none, returnState := none, breakTime := none }
        let seizing := freed.setLine n { left with
          state := .seizing, snapshot := some live, seizeTimer := some seize, seizeFrom := some s.now }
        (faulted → t = freed.setLine n { l with state := .faulted, wasFaulted := none }) ∧
        (¬faulted → live.settleMs ≠ 0 → t = freed.setLine n { left with
          state := .settling, snapshot := none, settleTimer := some (s.now + BitVec.ofNat 32 live.settleMs) }) ∧
        (¬faulted → live.settleMs = 0 → (told.scanRec r.pair).loopClass ≠ some .loop →
          t = freed.setLine n { left with state := .idle, snapshot := none }) ∧
        (¬faulted → live.settleMs = 0 → (told.scanRec r.pair).loopClass = some .loop →
          t = if later seize s.now then seizing else seizing.seizeLine n seize))) ∧
    (∀ tag, r.asker = .controller tag →
      t.bus.results = s.bus.results.set r.pair (some ⟨tag, r.kind, o, r.attempt, r.last, s.now⟩) ∧
      (s.notices.enabled[(Source.pair r.pair).pos][(7 : Fin 8)] = true → ∃ e ∈ t.notices.entries,
        e.pos = (Source.pair r.pair).pos ∧ e.kind = .testDone)) ∧
    (∀ n : LineNo,
      let l := told.line n
      let f := told.fault r.pair
      let faulted := f.state = .confirmed ∨ f.state = .recheck ∨ f.senseLost = true
      let settle := (told.liveProfile n).settleMs
      (l.pair ≠ r.pair ∨ l.state ≠ .underTest → t.line n = l) ∧
      (l.pair = r.pair → l.state = .underTest → faulted → t.line n = { l with state := .faulted, wasFaulted := none }) ∧
      (l.pair = r.pair → l.state = .underTest → ¬faulted → settle ≠ 0 →
        t.line n = { l with
          state := .settling, settleTimer := some (s.now + BitVec.ofNat 32 settle), wasFaulted := none,
          snapshot := none, returnState := none, breakTime := none }))

/-! ### Requests -/

/-- LINE_ENABLE: two enabled lines on one pair are refused with CONFLICT; otherwise each disabled line of the
set is UNDER_TEST on a pair on the bus and settles elsewhere (a settle time of 0 expires at entry), on a
pair whose loop class, sample class and glitch run start again from none, and nothing else changes before the look. LINE_DISABLE: line by line,
an enabled line of the set loses its call, its detector and its overrun flag and is DISABLED (R5, R7, R8,
R34). That the lines of the set are taken in ascending order is the model's choice (log 10), and so is the single look
at the test queue after them (log 7). -/
def Obligations.LinesAreEnabledAndDisabled : Prop :=
  ∀ (s : State) (tag : Byte) (lines : BitVec 64), s.ready →
    let chosen (n : LineNo) : Prop := lines.getLsbD n.val = true
    let off (n : LineNo) : Prop := (s.line n).state = .disabled
    let restarted (k : ScanRec) : ScanRec := ⟨none, none, none, k.invalidRun⟩
    let conflict : Prop := ∃ n m : LineNo, n ≠ m ∧ chosen n ∧ off n ∧ (s.line m).pair = (s.line n).pair ∧
      (¬off m ∨ chosen m)
    (conflict → exec (.lineEnable tag lines) s = .next (s.heard.answer 0x81 tag [5])) ∧
    (¬conflict → ∃ u : State, exec (.lineEnable tag lines) s = .next (u.look.answer 0x81 tag [0]) ∧
      (∀ n, ¬(chosen n ∧ off n) → u.line n = s.line n) ∧
      (∀ n, chosen n → off n →
        let l := s.line n
        let f := s.fault l.pair
        let faulted := f.state = .confirmed ∨ f.state = .recheck ∨ f.senseLost = true
        let ms := (s.liveProfile n).settleMs
        let settled : Line :=
          { l with snapshot := none, returnState := none, breakTime := none, wasFaulted := none }
        (s.onBus l.pair = true → u.line n = { l with state := .underTest, wasFaulted := some false }) ∧
        (s.onBus l.pair = false → ms ≠ 0 →
          u.line n = { settled with state := .settling, settleTimer := some (s.now + BitVec.ofNat 32 ms) }) ∧
        (s.onBus l.pair = false → ms = 0 → faulted → u.line n = { settled with state := .faulted, settleTimer := none }) ∧
        (s.onBus l.pair = false → ms = 0 → ¬faulted → u.line n = { settled with state := .idle, settleTimer := none })) ∧
      (∀ p : PairNo, (∃ n, chosen n ∧ off n ∧ (s.line n).pair = p) → u.scanRec p = restarted (s.scanRec p)) ∧
      (∀ p : PairNo, (∀ n, chosen n → off n → (s.line n).pair ≠ p) → u.scanRec p = s.scanRec p) ∧
      { u with lines := s.lines, scan := { u.scan with recs := s.scan.recs } } = s.heard) ∧
    exec (.lineDisable tag lines) s =
      .next (((allLines.filter fun n => lines.getLsbD n.val).foldl State.disableLine s.heard).look.answer 0x82 tag [0]) ∧
    (∀ n, off n → s.disableLine n = s) ∧
    (∀ n, ¬off n →
      let l := s.line n
      let u := (s.setLine n { l with
        settleTimer := none, seizeTimer := none, seizeFrom := none, breakTimer := none, gapTimer := none,
        firstDigitTimer := none, collectTimer := none, learnTimer := none, snapshot := none,
        returnState := none, breakTime := none, collection := none, learning := none, pulseCount := none,
        permanentLoop := false }).dropDetector n
      let v := u.setLine n { u.line n with state := .disabled, wasFaulted := none }
      s.disableLine n =
        { v with
          store := { s.store with overrun := s.store.overrun.set n false }
          scan := { s.scan with recs := s.scan.recs.set l.pair (restarted (s.scanRec l.pair)) } })

/-- LINE_MAP, LINE_SWAP and LINE_RESET: their checks in order, and their effects: the lines take the new
pairs and profile, every pair whose served line changed starts its loop class, sample class and glitch run again from
none and keeps its invalid run, and an enabled line
settles; a reset line loses its call, its detector, its pending record and its store flags, and settles, or
is UNDER_TEST on a pair on the bus (R6, R9, R10, R11, R34). -/
def Obligations.LinesAreMappedSwappedAndReset : Prop :=
  ∀ (s : State) (tag : Byte), s.ready →
    let mappable (n : LineNo) : Prop :=
      (s.line n).state = .disabled ∨ (s.line n).state = .idle ∨ (s.line n).state = .faulted
    let enabled (n : LineNo) : Prop := (s.line n).state ≠ .disabled
    let restarted (k : ScanRec) : ScanRec := ⟨none, none, none, k.invalidRun⟩
    let rescoped (moved v : State) : Prop :=
      (∀ q : PairNo, v.scanRec q = if s.served q = moved.served q then s.scanRec q else restarted (s.scanRec q)) ∧
      { v with scan := { v.scan with recs := s.scan.recs } } = moved
    let settled (n : LineNo) (v : State) : State := if (s.line n).state = .disabled then v else v.enterSettling n
    (∀ line pair profile : Byte, 64 ≤ line.toNat ∨ 72 ≤ pair.toNat ∨ 8 ≤ profile.toNat →
      exec (.lineMap tag line pair profile) s = .next (s.heard.answer 0x83 tag [3])) ∧
    (∀ (line pair profile : Byte) (n : LineNo) (p : PairNo) (f : Fin 8),
      n.val = line.toNat → p.val = pair.toNat → f.val = profile.toNat →
      let reply (st : Byte) := exec (.lineMap tag line pair profile) s = .next (s.heard.answer 0x83 tag [st])
      let shared : Prop := ∃ m, m ≠ n ∧ (s.line m).pair = p ∧ enabled m
      let busy : Prop := s.onBus p = true ∨ s.onBus (s.line n).pair = true
      (¬mappable n → reply 4) ∧ (mappable n → shared → reply 5) ∧ (mappable n → ¬shared → busy → reply 6) ∧
      (mappable n → ¬shared → ¬busy →
        ∃ v, rescoped (s.heard.setLine n { s.line n with pair := p, profile := f }) v ∧
          exec (.lineMap tag line pair profile) s = .next ((settled n v).look.answer 0x83 tag [0]))) ∧
    (∀ lineA lineB : Byte, 64 ≤ lineA.toNat ∨ 64 ≤ lineB.toNat ∨ lineA = lineB →
      exec (.lineSwap tag lineA lineB) s = .next (s.heard.answer 0x84 tag [3])) ∧
    (∀ (lineA lineB : Byte) (a b : LineNo), a.val = lineA.toNat → b.val = lineB.toNat → a ≠ b →
      let reply (st : Byte) := exec (.lineSwap tag lineA lineB) s = .next (s.heard.answer 0x84 tag [st])
      let pa := (s.line a).pair
      let pb := (s.line b).pair
      let third (p : PairNo) : Prop := ∃ m, m ≠ a ∧ m ≠ b ∧ (s.line m).pair = p ∧ enabled m
      let shared : Prop := (enabled a ∧ third pb) ∨ (enabled b ∧ third pa)
      let busy : Prop := s.onBus pa = true ∨ s.onBus pb = true
      let fit : Prop := mappable a ∧ mappable b
      (¬fit → reply 4) ∧ (fit → shared → reply 5) ∧ (fit → ¬shared → busy → reply 6) ∧
      (fit → ¬shared → ¬busy →
        ∃ v, rescoped ((s.heard.setLine a { s.line a with pair := pb }).setLine b { s.line b with pair := pa }) v ∧
          exec (.lineSwap tag lineA lineB) s = .next ((settled b (settled a v)).look.answer 0x84 tag [0]))) ∧
    (∀ line : Byte, 64 ≤ line.toNat → exec (.lineReset tag line) s = .next (s.heard.answer 0x85 tag [3])) ∧
    (∀ (line : Byte) (n : LineNo), n.val = line.toNat →
      let l := s.line n
      let u := (s.heard.setLine n { l with
        settleTimer := none, seizeTimer := none, seizeFrom := none, breakTimer := none, gapTimer := none,
        firstDigitTimer := none, collectTimer := none, learnTimer := none, snapshot := none,
        returnState := none, breakTime := none, collection := none, learning := none, pulseCount := none,
        permanentLoop := false }).dropDetector n
      let v : State := { u with store := { s.store with
        waiting := s.store.waiting.filter fun r => decide (r.line ≠ n)
        storeWait := s.store.storeWait.set n false
        overrun := s.store.overrun.set n false } }
      let t := if l.state = .disabled then v
        else if s.onBus l.pair then v.setLine n { v.line n with state := .underTest } else v.enterSettling n
      exec (.lineReset tag line) s = .next (t.look.answer 0x85 tag [0]))

/-- PROFILE_WRITE and WINDOW_WRITE write every field of one profile or window, or are refused with BAD_ARG
and change nothing, by the ranges and relations of R13 and R100 (R14, R100). The codes of methods, record mode, rule
and positions are those of R193 and section 11.7, and so is what is carried and ignored. That a yes or no byte or a
presence byte above 1 is refused, and that the length byte of an absent replacement is not examined, is the model's
reading (log 16). -/
def Obligations.ProfilesAndWindowsAreWritten : Prop :=
  ∀ (s : State) (tag : Byte), s.ready →
    (∀ (profile : Byte) (a : ProfileArgs), 8 ≤ profile.toNat ∨ 2 < a.methods.toNat ∨ 1 < a.recordMode.toNat →
      exec (.profileWrite tag profile a) s = .next (s.heard.answer 0x87 tag [3])) ∧
    (∀ (profile : Byte) (a : ProfileArgs) (f : Fin 8) (p : Profile), f.val = profile.toNat →
      p = ⟨a.seizeMa.toNat, a.releaseMa.toNat, a.glitch.toNat, a.seizeMs.toNat, a.brkMinMs.toNat,
        a.brkMaxMs.toNat, a.flashMinMs.toNat, a.flashMaxMs.toNat, a.gapMs.toNat, a.gapLoMs.toNat,
        a.gapHiMs.toNat, a.learnSpanMs.toNat, a.periodLoMs.toNat, a.periodHiMs.toNat, a.firstMs.toNat,
        a.collectMs.toNat, p.methods, p.recordMode, a.settleMs.toNat⟩ →
      (a.methods = 0 ∧ p.methods = .pulse) ∨ (a.methods = 1 ∧ p.methods = .tone) ∨ (a.methods = 2 ∧ p.methods = .both) →
      (a.recordMode = 0 ∧ p.recordMode = .single) ∨ (a.recordMode = 1 ∧ p.recordMode = .continuous) →
      let legal : Prop := 6 ≤ p.seizeMa ∧ p.seizeMa ≤ 40 ∧ 2 ≤ p.releaseMa ∧ p.releaseMa + 2 ≤ p.seizeMa ∧
        p.glitch ≤ 7 ∧ 20 ≤ p.seizeMs ∧ p.seizeMs ≤ 1000 ∧ 10 ≤ p.brkMinMs ∧ p.brkMinMs ≤ 60 ∧
        p.brkMinMs + 10 ≤ p.brkMaxMs ∧ p.brkMaxMs ≤ 200 ∧ p.brkMaxMs + 10 ≤ p.flashMinMs ∧
        p.flashMinMs ≤ 1000 ∧ p.flashMinMs ≤ p.flashMaxMs ∧ p.flashMaxMs ≤ 1500 ∧ 100 ≤ p.gapLoMs ∧
        p.gapLoMs ≤ 1000 ∧ p.gapLoMs ≤ p.gapHiMs ∧ p.gapHiMs ≤ 1000 ∧ p.gapLoMs ≤ p.gapMs ∧
        p.gapMs ≤ p.gapHiMs ∧ 200 ≤ p.learnSpanMs ∧ p.learnSpanMs ≤ 1200 ∧ 4 * p.periodHiMs ≤ p.learnSpanMs ∧
        50 ≤ p.periodLoMs ∧ p.periodLoMs ≤ p.periodHiMs ∧ p.periodHiMs ≤ 250 ∧ 2000 ≤ p.firstMs ∧
        p.firstMs ≤ 60000 ∧ 1000 ≤ p.collectMs ∧ p.collectMs ≤ 30000 ∧ p.settleMs ≤ 2000
      (legal → exec (.profileWrite tag profile a) s =
        .next (State.answer { s.heard with profiles := s.profiles.set f p } 0x87 tag [0])) ∧
      (¬legal → exec (.profileWrite tag profile a) s = .next (s.heard.answer 0x87 tag [3]))) ∧
    (∀ cls : Byte, 16 ≤ cls.toNat →
      exec (.windowWrite tag (.default cls)) s = .next (s.heard.answer 0x8C tag [3])) ∧
    (∀ (cls : Byte) (k : Fin 16), k.val = cls.toNat → exec (.windowWrite tag (.default cls)) s =
      .next (State.answer { s.heard with windows := { s.windows with defaultClass := k } } 0x8C tag [0])) ∧
    (∀ (code : Byte) (a : WindowArgs), code ≠ 8 →
      let position (y : Option Symbol) : Byte := match y with
        | some d => BitVec.ofNat 8 d.val
        | none => 16
      let k := a.patternLen.toNat
      let symbols := a.symbols.toList.take a.replLen.toNat
      let legal : Prop := code.toNat < 8 ∧ a.enabled.toNat ≤ 1 ∧ 1 ≤ k ∧ k ≤ 8 ∧
        (∀ x ∈ a.positions.toList.take k, x.toNat ≤ 16) ∧
        ((a.rule = 0 ∧ k ≤ a.n.toNat ∧ a.n.toNat ≤ 24) ∨ a.rule = 1) ∧ a.cls.toNat < 16 ∧ a.urgent.toNat ≤ 1 ∧
        (a.replPresent = 0 ∨ (a.replPresent = 1 ∧ a.replLen.toNat ≤ 8 ∧ ∀ x ∈ symbols, x.toNat < 16))
      (¬legal → exec (.windowWrite tag (.window code a)) s = .next (s.heard.answer 0x8C tag [3])) ∧
      (legal → ∃ (i : Fin 8) (w : Window), i.val = code.toNat ∧ w.enabled = decide (a.enabled = 1) ∧
        w.pattern.map position = a.positions.toList.take k ∧
        w.rule = (if a.rule = 0 then .fixed a.n.toNat else .openEnd) ∧ w.cls.val = a.cls.toNat ∧
        w.urgent = decide (a.urgent = 1) ∧
        w.replacement.map (fun r => r.map fun x => BitVec.ofNat 8 x.val) =
          (if a.replPresent = 1 then some symbols else none) ∧
        exec (.windowWrite tag (.window code a)) s =
          .next (State.answer { s.heard with windows := { s.windows with table := s.windows.table.set i w } }
            0x8C tag [0])))

/-- SCAN_MODE, FAULT_LIMITS, WATCH_SET, TEST_SET and ROUTE_WRITE write their settings, or are refused with
BAD_ARG and change nothing; a change of binder_k brings every binder into line, and raises BINDER once for each
binder that goes on hold by it, in either notice mode, and no other notice (R24, R132, R133, R149, R150, R154, R176).
That the raises come in ascending order is the model's (log 10); the pending set does not show it. -/
def Obligations.SettingsAreWritten : Prop :=
  ∀ (s : State) (tag : Byte), s.ready →
    (∀ mode : Byte, 1 < mode.toNat → exec (.scanMode tag mode) s = .next (s.heard.answer 0x89 tag [3])) ∧
    (∀ (mode : Byte) (m : ScanMode), (mode = 0 ∧ m = .full) ∨ (mode = 1 ∧ m = .economy) →
      exec (.scanMode tag mode) s =
        .next (State.answer { s.heard with scan := { s.scan with mode := m } } 0x89 tag [0])) ∧
    (∀ (pairs : BitVec 72) (v ma : Byte),
      let legal : Prop := 5 ≤ v.toNat ∧ v.toNat ≤ 150 ∧ 1 ≤ ma.toNat ∧ ma.toNat ≤ 40
      (¬legal → exec (.faultLimits tag pairs v ma) s = .next (s.heard.answer 0x91 tag [3])) ∧
      (legal → ∃ limits : Vector Limits 72,
        (∀ p : PairNo, limits[p] = if pairs.getLsbD p.val then ⟨v.toNat, ma.toNat⟩ else s.watch.limits[p]) ∧
        exec (.faultLimits tag pairs v ma) s =
          .next (State.answer { s.heard with watch := { s.watch with limits := limits } } 0x91 tag [0]))) ∧
    (∀ a : WatchArgs,
      let legal : Prop := 2 ≤ a.suspectScore.toNat ∧ a.suspectScore.toNat ≤ 63 ∧ a.sustainMs.toNat ≤ 60000 ∧
        2 ≤ a.binderK.toNat ∧ a.binderK.toNat ≤ 8 ∧ 1000 ≤ a.holdMs.toNat ∧ a.holdMs.toNat ≤ 600000 ∧
        a.mode.toNat ≤ 1 ∧ a.guardMs.toNat ≤ 600000
      (¬legal → exec (.watchSet tag a) s = .next (s.heard.answer 0x92 tag [3])) ∧
      (∀ mode : NoticeMode, legal → mode = (if a.mode = 0 then .every else .startStop) →
        let w : WatchSettings := ⟨a.suspectScore.toNat, a.sustainMs.toNat, a.binderK.toNat, a.holdMs.toNat, mode,
          a.guardMs.toNat, a.pairs⟩
        let u : State := { s.heard with watch := { s.watch with settings := w } }
        (w.binderK = s.watch.settings.binderK → exec (.watchSet tag a) s = .next (u.answer 0x92 tag [0])) ∧
        (w.binderK ≠ s.watch.settings.binderK → ∃ t : State, exec (.watchSet tag a) s = .next (t.answer 0x92 tag [0]) ∧
          { t with watch := { t.watch with binders := s.watch.binders }, notices := s.notices } = u ∧
          (∀ b : BinderNo,
            let r := s.binder b
            (w.binderK ≤ r.count → t.binder b = ⟨r.count, true, none⟩) ∧
            (r.count < w.binderK → r.hold = true →
              t.binder b = ⟨r.count, true, some (r.holdTimer.getD (s.now + BitVec.ofNat 32 w.holdMs))⟩) ∧
            (r.count < w.binderK → r.hold = false → t.binder b = r)) ∧
          (let goesOn (b : BinderNo) : Bool := decide (w.binderK ≤ (s.binder b).count ∧ (s.binder b).hold = false)
           t.notices = (((List.finRange 9).filter goesOn).foldl
             (fun (v : State) b => v.raise (.binder b) .binder none) s).notices)))) ∧
    (∀ a : TestSetArgs,
      let w : TestSettings := ⟨a.attemptsMax.toNat, a.quietFirstMs.toNat, a.quietRetryMs.toNat, a.rMinKohm.toNat,
        a.vTest.toNat⟩
      let legal : Prop := 1 ≤ w.attemptsMax ∧ w.attemptsMax ≤ 5 ∧ 50 ≤ w.quietFirstMs ∧ w.quietFirstMs ≤ 2000 ∧
        20 ≤ w.quietRetryMs ∧ w.quietRetryMs ≤ 2000 ∧ 20 ≤ w.rMinKohm ∧ w.rMinKohm ≤ 2000 ∧ 5 ≤ w.vTest ∧
        w.vTest ≤ 150
      (¬legal → exec (.testSet tag a) s = .next (s.heard.answer 0x96 tag [3])) ∧
      (legal → exec (.testSet tag a) s =
        .next (State.answer { s.heard with bus := { s.bus with settings := w } } 0x96 tag [0]))) ∧
    (∀ kind cls : Byte, 8 ≤ kind.toNat ∨ 4 ≤ cls.toNat →
      exec (.routeWrite tag kind cls) s = .next (s.heard.answer 0x98 tag [3])) ∧
    (∀ (kind cls : Byte) (k : Fin 8) (c : Fin 4), k.val = kind.toNat → c.val = cls.toNat →
      exec (.routeWrite tag kind cls) s =
        .next (State.answer { s.heard with notices := { s.notices with routes := s.notices.routes.set k c } }
          0x98 tag [0]))

/-- LINE_QUERY, PROFILE_READ, DETECTOR_QUERY, WINDOW_READ, RECORD_LIST, PAIR_QUERY, TEST_QUERY and IDENTIFY complete
with the reply DONE and change nothing; an argument out of range is refused with BAD_ARG. Each reply carries the fields
that its rule lists, in that order (R12, R15, R90, R101, R126, R147, R170, R195), with the numbers, codes, sets,
optional values and lists of R193 and section 11.7, the last list cut to what fits (R194). The bytes of an absent last
test result and of an absent run record, and the place of an item that has no field of its own in R147 or R170, are the
model's choice (log 17). -/
def Obligations.QueriesChangeNothing : Prop :=
  ∀ (s : State) (tag : Byte), s.ready →
    let gives (c : Instr) (type : Byte) (payload : List Byte) : Prop :=
      exec c s = .next (s.heard.answer type tag payload)
    let one (n : Nat) : Byte := BitVec.ofNat 8 n
    let yes (b : Bool) : Byte := if b then 1 else 0
    let two (n : Nat) : List Byte := [one (n / 256), one n]
    let four (n : Nat) : List Byte := [one (n / 16777216), one (n / 65536), one (n / 256), one n]
    let timer (t : Option Time) : List Byte := match t with
      | some e => 1 :: four e.toNat
      | none => [0, 0, 0, 0, 0]
    let cut (used size : Nat) (entries : List (List Byte)) : List Byte :=
      one entries.length :: (entries.take ((250 - used - 1) / size)).flatten
    let eight (bytes : List Byte) : List Byte := (bytes ++ [0, 0, 0, 0, 0, 0, 0, 0]).take 8
    let kind (k : TestKind) : Byte := match k with
      | .insulation => 0
      | .foreign => 1
      | .full => 2
    let asker (a : Asker) : List Byte := match a with
      | .watch => [0, 0, 0]
      | .controller t => [1, 1, t]
    let verdict (v : Verdict) : Byte := match v with
      | .pass => 0
      | .fail => 1
      | .inconclusive => 2
    let outcome (o : TestOutcome) : List Byte := match o with
      | .result v => [verdict v, 0]
      | .aborted .subscriber => [3, 1]
      | .aborted .busTimeout => [3, 2]
      | .aborted .cancelled => [3, 3]
    let settings (w : TestSettings) : List Byte :=
      [one w.attemptsMax] ++ two w.quietFirstMs ++ two w.quietRetryMs ++ two w.rMinKohm ++ [one w.vTest]
    (∀ x : Byte, 64 ≤ x.toNat → gives (.lineQuery tag x) 0x86 [3]) ∧
    (∀ (x : Byte) (n : LineNo), n.val = x.toNat →
      let l := s.line n
      let state : Byte := match l.state with
        | .disabled => 0
        | .settling => 1
        | .idle => 2
        | .seizing => 3
        | .seized => 4
        | .pulsing => 5
        | .collecting => 6
        | .held => 7
        | .opened => 8
        | .underTest => 9
        | .faulted => 10
      let back : List Byte := match l.state, l.returnState with
        | .opened, some .seized => [1, 4]
        | .opened, some .pulsing => [1, 5]
        | .opened, some .collecting => [1, 6]
        | .opened, some .held => [1, 7]
        | _, _ => [0, 0]
      let stored := (List.finRange 16).countP fun i => match s.store.slots[i] with
        | some sl => decide (sl.record.line = n)
        | none => false
      let pending := s.store.waiting.any fun r => decide (r.line = n)
      let detector : List Byte := match l.binding with
        | .none => [0, 0]
        | .detector d => [1, one d.val]
        | .queued => [2, one (s.pool.queue.findIdx (fun w => decide (w.line = n)) + 1)]
      let digits := match l.collection with
        | some c => c.digits
        | none => []
      let learned : List Byte := match l.learning with
        | some (.done period) => [1, one period]
        | _ => [0, 0]
      gives (.lineQuery tag x) 0x86 ([0, state] ++ back ++ [one l.pair.val, one l.profile.val,
        yes l.permanentLoop, yes s.store.overrun[n], yes s.store.storeWait[n], one stored, yes pending] ++ detector ++
        (one digits.length :: digits.map fun d => one (d.symbol.val + if d.method = .tone then 16 else 0)) ++ learned)) ∧
    (∀ x : Byte, 8 ≤ x.toNat → gives (.profileRead tag x) 0x88 [3]) ∧
    (∀ (x : Byte) (f : Fin 8), f.val = x.toNat →
      let p := s.profiles[f]
      let methods : Byte := match p.methods with
        | .pulse => 0
        | .tone => 1
        | .both => 2
      let mode : Byte := match p.recordMode with
        | .single => 0
        | .continuous => 1
      gives (.profileRead tag x) 0x88 ([0, x, one p.seizeMa, one p.releaseMa, one p.glitch] ++ two p.seizeMs ++
        [one p.brkMinMs, one p.brkMaxMs] ++ two p.flashMinMs ++ two p.flashMaxMs ++ two p.gapMs ++ two p.gapLoMs ++
        two p.gapHiMs ++ two p.learnSpanMs ++ [one p.periodLoMs, one p.periodHiMs] ++ two p.firstMs ++
        two p.collectMs ++ [methods, mode] ++ two p.settleMs)) ∧
    (let detector (d : DetectorNo) : List Byte := yes (!(s.detector d).inService) :: match (s.detector d).bound with
       | some b => [1, one b.line.val, one b.crosspoint.val] ++ four b.bindTime.toNat
       | none => [0, 0, 0, 0, 0, 0, 0]
     gives (.detectorQuery tag) 0x8B (0 :: ((List.finRange 8).flatMap detector ++
       one s.pool.queue.length ::
         (s.pool.queue.take 36).flatMap fun w => one w.line.val :: four w.queuedTime.toNat))) ∧
    (∀ x : Byte, 8 < x.toNat → gives (.windowRead tag x) 0x8D [3]) ∧
    (∀ (x : Byte) (i : Fin 8), i.val = x.toNat →
      let w := s.windows.table[i]
      let position (y : Option Symbol) : Byte := match y with
        | some d => one d.val
        | none => 16
      let rule : List Byte := match w.rule with
        | .fixed n => [0, one n]
        | .openEnd => [1, 0]
      let replacement : List Byte := match w.replacement with
        | some r => [1, one r.length] ++ eight (r.map fun d => one d.val)
        | none => [0, 0] ++ eight []
      gives (.windowRead tag x) 0x8D ([0, x, yes w.enabled, one w.pattern.length] ++ eight (w.pattern.map position) ++
        rule ++ [one w.cls.val, yes w.urgent] ++ replacement)) ∧
    gives (.windowRead tag 8) 0x8D [0, 8, one s.windows.defaultClass.val, 1, 0] ∧
    (let summary (r : DialRecord) : List Byte := [one r.line.val, one r.cls.val, yes r.urgent] ++ four r.closeTime.toNat
     let ofRank (k : Nat) : List (List Byte) := (List.finRange 16).filterMap fun i => match s.store.slots[i] with
       | some sl => if sl.rank = k then some ([one i.val, one sl.rank] ++ summary sl.record) else none
       | none => none
     let entries := (List.range 16).flatMap fun k => ofRank (k + 1)
     gives (.recordList tag) 0x8F (0 :: one entries.length :: entries.flatten ++
       cut (2 + entries.flatten.length) 7 (s.store.waiting.map summary))) ∧
    (∀ x : Byte, 72 ≤ x.toNat → gives (.pairQuery tag x) 0x93 [3]) ∧
    (∀ (x : Byte) (p : PairNo), p.val = x.toNat →
      let r := s.fault p
      let b := s.binder (binderOf p)
      let w := s.watch.settings
      let state : Byte := match r.state with
        | .clear => 0
        | .suspect => 1
        | .confirmed => 2
        | .recheck => 3
      let last : List Byte := match r.last with
        | some t => [1, (if t.origin = .watch then 0 else 1), kind t.kind] ++ outcome t.outcome ++ four t.endTime.toNat
        | none => [0, 0, 0, 0, 0, 0, 0, 0, 0]
      gives (.pairQuery tag x) 0x93 ([0, one r.foreign, one r.leak, state, yes r.senseLost] ++ timer r.sustainTimer ++
        timer r.guardTimer ++ last ++ [one s.watch.limits[p].foreignV, one s.watch.limits[p].leakMa] ++
        [yes (w.watched.getLsbD p.val), one (p.val / 8), one b.count, yes b.hold] ++ timer b.holdTimer ++
        [one w.suspectScore] ++ two w.sustainMs ++ [one w.binderK] ++ four w.holdMs ++
        [if w.mode = .every then 0 else 1] ++ four w.guardMs)) ∧
    (let lines (p : PairNo) : List (List Byte) :=
       ((List.finRange 64).filter fun n => decide ((s.line n).pair = p ∧ (s.line n).state ≠ .disabled)).map fun n =>
         [one n.val, yes ((s.line n).wasFaulted.getD false)]
     let last (m : Option Measured) : List Byte := match m with
       | some m => 1 :: two m.tipGround ++ two m.ringGround ++ two m.tipRing ++ [one m.volts]
       | none => [0, 0, 0, 0, 0, 0, 0, 0]
     let occupant : List Byte := match s.bus.run with
       | some r => [1, one r.pair.val, 1, one r.pair.val, kind r.kind] ++ asker r.asker ++
           [one r.attempt, (if r.phase = .quiet then 0 else 1), one r.readings, one r.fails] ++
           (one r.verdicts.length :: r.verdicts.map verdict) ++ last r.last ++ settings r.settings ++
           (one (lines r.pair).length :: (lines r.pair).flatten)
       | none => List.replicate 30 0
     let queue := one s.bus.queue.length :: s.bus.queue.flatMap fun e =>
       [one e.pair.val, kind e.kind] ++ asker e.asker ++ [yes (s.eligible e)]
     let wanted := (List.finRange 72).filterMap fun p => match s.bus.wanted[p] with
       | some k => some [one p.val, kind k]
       | none => none
     gives (.testQuery tag) 0x97 (0 :: (occupant ++ queue) ++
       cut (1 + (occupant ++ queue).length + 8) 2 wanted ++ settings s.bus.settings)) ∧
    gives (.identify tag) 0x9C [0, 0x3D, 0x07, 0x19, 0x08, 1, 64, 72, 8, 16]

/-- DETECTOR_SERVICE_OUT and DETECTOR_SERVICE_IN: a detector already so changes nothing; OUT takes a free
detector out, and unbinds a bound one, its line going to the queue head and at once to the lowest other free
detector with a wait of 0 ms; IN returns the detector and grants it to the queue head (R82, R87, R88, R89). A
DETECTOR_SERVICE frame with a service code other than IN (0) and OUT (1) is refused. -/
def Obligations.DetectorServiceIsSet : Prop :=
  ∀ (s : State) (tag : Byte), s.ready →
    let out (x : Byte) (t : State) (st : Byte) := exec (.detectorServiceOut tag x) s = .next (t.answer 0x8A tag [st])
    let back (x : Byte) (t : State) (st : Byte) := exec (.detectorServiceIn tag x) s = .next (t.answer 0x8A tag [st])
    let granted (t : State) (d : DetectorNo) (w : Waiter) (rest : List Waiter) : State :=
      let k := t.line w.line
      ((t.setDetectorQueue rest).setDetector d ⟨true, some ⟨w.line, s.now, k.pair⟩⟩).setLine w.line
        { k with
          binding := .detector d
          collection := k.collection.map fun c => { c with
            marks := { c.marks with detectorWait := true }
            wait := some (min 65535 (c.wait.getD 0 + (s.now - w.queuedTime).toNat)) } }
    (∀ x : Byte, 8 ≤ x.toNat → out x s.heard 3 ∧ back x s.heard 3) ∧
    (∀ x y : Byte, 8 ≤ x.toNat ∨ 1 < y.toNat →
      exec (.goodFrame 0x0A tag [x, y]) s = .next (s.heard.answer 0x8A tag [3])) ∧
    (∀ (x : Byte) (d : DetectorNo), d.val = x.toNat →
      let gone := s.heard.setDetector d ⟨false, none⟩
      let free (d' : DetectorNo) : Prop := d' ≠ d ∧ (s.detector d').inService = true ∧ (s.detector d').bound = none
      ((s.detector d).inService = false → out x s.heard 0) ∧
      ((s.detector d).inService = true → back x s.heard 0) ∧
      ((s.detector d).inService = true → (s.detector d).bound = none → out x gone 0) ∧
      (∀ b : Bound, (s.detector d).inService = true → (s.detector d).bound = some b →
        let u := (gone.setDetectorQueue (⟨b.line, s.now⟩ :: s.pool.queue)).setLine b.line
          { s.line b.line with binding := .queued }
        ((∀ d', ¬free d') → out x u 0) ∧
        (∀ d', free d' → (∀ d'', d'' < d' → ¬free d'') → out x (granted u d' ⟨b.line, s.now⟩ s.pool.queue) 0)) ∧
      ((s.detector d).inService = false →
        let u := s.heard.setDetector d ⟨true, none⟩
        (s.pool.queue = [] → back x u 0) ∧
        (∀ w rest, s.pool.queue = w :: rest → back x (granted u d w rest) 0)))

/-- TEST_ORDER: refused for a bad argument, for the pair on the bus and for a full queue; a queued pair's
entry takes the tag and merges its kind, any other pair's order joins the tail, and the reply is QUEUED after
the look. TEST_CANCEL ends the running test, or takes the entry (admitting the lowest-numbered wanted pair) or the want
away, and otherwise finds nothing (R157, R167, R168). -/
def Obligations.TestsAreOrderedAndCancelled : Prop :=
  ∀ (s : State) (tag : Byte), s.ready →
    (∀ pair kind : Byte, 72 ≤ pair.toNat ∨ 2 < kind.toNat →
      exec (.testOrder tag pair kind) s = .next (s.heard.answer 0x94 tag [3])) ∧
    (∀ pair : Byte, 72 ≤ pair.toNat → exec (.testCancel tag pair) s = .next (s.heard.answer 0x95 tag [3])) ∧
    (∀ (pair : Byte) (p : PairNo), p.val = pair.toNat →
      let queued : Prop := ∃ e ∈ s.bus.queue, e.pair = p
      let cancel (t : State) (st : Byte) : Prop :=
        exec (.testCancel tag pair) s = .next (t.answer 0x95 tag [st])
      (∀ (kind : Byte) (k : TestKind),
        (kind = 0 ∧ k = .insulation) ∨ (kind = 1 ∧ k = .foreign) ∨ (kind = 2 ∧ k = .full) →
        let order (t : State) (st : Byte) : Prop :=
          exec (.testOrder tag pair kind) s = .next (t.answer 0x94 tag [st])
        (s.onBus p = true → order s.heard 6) ∧
        (s.onBus p = false → queued →
          order (State.look { s.heard with bus := { s.bus with queue := s.bus.queue.map fun e =>
            if e.pair = p then ⟨e.pair, if e.kind = k then e.kind else .full, .controller tag⟩ else e } }) 1) ∧
        (s.onBus p = false → ¬queued → 16 ≤ s.bus.queue.length → order s.heard 2) ∧
        (s.onBus p = false → ¬queued → s.bus.queue.length < 16 →
          order (State.look { s.heard with bus := { s.bus with
            queue := s.bus.queue ++ [⟨p, k, .controller tag⟩] } }) 1)) ∧
      (∀ r : Run, s.bus.run = some r → r.pair = p → cancel (s.heard.endTest r (.aborted .cancelled)).look 0) ∧
      (s.onBus p = false → queued →
        let left := s.bus.queue.eraseP fun e => decide (e.pair = p)
        ((∀ q : PairNo, s.bus.wanted[q] = none) → cancel (State.look { s.heard with bus := { s.bus with queue := left } }) 0) ∧
        (∀ (q : PairNo) (k : TestKind), s.bus.wanted[q] = some k → (∀ x < q, s.bus.wanted[x] = none) →
          cancel (State.look { s.heard with bus := { s.bus with
            queue := left ++ [⟨q, k, .watch⟩], wanted := s.bus.wanted.set q none } }) 0)) ∧
      (s.onBus p = false → ¬queued → s.bus.wanted[p] ≠ none →
        cancel { s.heard with bus := { s.bus with wanted := s.bus.wanted.set p none } } 0) ∧
      (s.onBus p = false → ¬queued → s.bus.wanted[p] = none → cancel s.heard 8))

/-! ### Notices and the link -/

/-- A raise of an enabled notice point starts an entry or joins the point's entry, counting to 255 and taking
the newest time; a raise of a disabled point is lost. NOTICE_ENABLE and NOTICE_DISABLE change the points of
both sets, a disabled point's entry being dropped; NOTICE_POLL returns up to eight class-3 entries, each
chosen and taken in turn (R172, R174, R175, R182). The ring positions of the sources, the numbers of the kinds and the
notice points are those of R171. -/
def Obligations.NoticesAreKeptAndPolled : Prop :=
  ((∀ n : LineNo, (Source.line n).pos.val = n.val) ∧ (∀ p : PairNo, (Source.pair p).pos.val = 64 + p.val) ∧
    (∀ b : BinderNo, (Source.binder b).pos.val = 136 + b.val) ∧
    [Kind.hook, .flash, .record, .overrun, .loopHeld, .fault, .binder, .testDone].map (·.num) = [0, 1, 2, 3, 4, 5, 6, 7] ∧
    (∀ (pos : Fin 145) (k : Fin 8), isNoticePoint pos k = true ↔
      (pos.val < 64 ∧ k.val ≤ 4) ∨ (64 ≤ pos.val ∧ pos.val < 136 ∧ (k = 5 ∨ k = 7)) ∨ (136 ≤ pos.val ∧ k = 6)) ∧
    ∀ x e : NoticeEntry, x.key = e.key ↔ x.pos = e.pos ∧ x.kind = e.kind) ∧
  (∀ (s : State) (src : Source) (k : Kind) (time : Option Time),
    let t := s.raise src k time
    let mine (e : NoticeEntry) : Prop := e.pos = src.pos ∧ e.kind = k
    (s.notices.enabled[src.pos][k.num] = false → t = s) ∧
    (s.NoticesOk → s.notices.enabled[src.pos][k.num] = true →
      { t with notices := { t.notices with entries := s.notices.entries } } = s ∧
      (∀ e, ¬mine e → (e ∈ t.notices.entries ↔ e ∈ s.notices.entries)) ∧
      (∀ e ∈ s.notices.entries, mine e → ∀ e', mine e' →
        (e' ∈ t.notices.entries ↔ e'.count = e.count.map (fun c => min 255 (c + 1)) ∧ e'.time = (time <|> e.time))) ∧
      ((∀ e ∈ s.notices.entries, ¬mine e) → ∀ e', mine e' →
        (e' ∈ t.notices.entries ↔
          e'.count = (if k = .record ∨ k = .fault then none else some 1) ∧ e'.time = time)))) ∧
  (∀ (s : State) (tag : Byte) (kinds : BitVec 8) (sources : BitVec 145), s.ready →
    let named (pos : Fin 145) (k : Fin 8) : Bool :=
      kinds.getLsbD k.val && sources.getLsbD pos.val && isNoticePoint pos k
    (∃ set : Vector (Vector Bool 8) 145,
      (∀ (pos : Fin 145) (k : Fin 8), set[pos][k] = (s.notices.enabled[pos][k] || named pos k)) ∧
      exec (.noticeEnable tag kinds sources) s =
        .next (State.answer { s.heard with notices := { s.notices with enabled := set } } 0x99 tag [0])) ∧
    (∃ set : Vector (Vector Bool 8) 145,
      (∀ (pos : Fin 145) (k : Fin 8), set[pos][k] = (s.notices.enabled[pos][k] && !named pos k)) ∧
      exec (.noticeDisable tag kinds sources) s =
        .next (State.answer { s.heard with notices := { s.notices with
          enabled := set, entries := s.notices.entries.filter fun e => !named e.pos e.kind.num } } 0x9A tag [0])) ∧
    exec (.noticePoll tag) s =
      (let polled := s.heard.poll 8
       .next (polled.1.answer 0x9B tag (0 :: BitVec.ofNat 8 polled.2.length :: polled.2.flatten)))) ∧
  (∀ (s : State) (k : Nat),
    s.poll 0 = (s, []) ∧
    (s.nextOfClass 3 = none → s.poll (k + 1) = (s, [])) ∧
    (∀ e, s.nextOfClass 3 = some e →
      let t : State := { s with notices := { s.notices with
        entries := s.notices.entries.filter fun x => decide (x.key ≠ e.key)
        cursors := s.notices.cursors.set (3 : Fin 4) (e.pos + 1) } }
      s.poll (k + 1) = ((t.poll k).1, (BitVec.ofNat 8 e.kind.num.val :: s.body e) :: (t.poll k).2)))

/-- The transmitter chooses only when idle: STARTED first, then the oldest reply, then an entry of class 0, 1
or 2, the first one round the ring from the class's cursor, whose frame carries its body as it stands; an
urgent RECORD entry is in class 0. The inbox is served from its head, with a choice after each execution, until it is
empty or must wait. FRAME_SENT ends the frame in flight: the choice follows and a waiting
request is executed (R177 to R180, R191); after the reply to a PART_RESET (known as log 21 says) every block is at its values after reset, the
straps having been read again (their levels are free values, log 11), and STARTED with cause REQUEST is the first frame
(R184, R185, R196). The body of each notice holds its source, the entry's count and time and the live fields, byte by
byte as section 11.7 lays them out (R173). -/
def Obligations.TransmitterChoosesTheNextFrame : Prop :=
  ∀ s : State,
    let idle : Prop := s.link.inFlight = none
    let quiet : Prop := idle ∧ s.link.started = none ∧ s.link.replies = []
    let send (c : Fin 4) (e : NoticeEntry) : State := { s with
      notices := { s.notices with
        entries := s.notices.entries.filter fun x => decide (x.key ≠ e.key)
        cursors := s.notices.cursors.set c (e.pos + 1) }
      link := { s.link with inFlight := some ⟨0x40 + BitVec.ofNat 8 e.kind.num.val, 0, s.body e⟩ } }
    (¬idle → s.choose = s) ∧
    (∀ cause, idle → s.link.started = some cause →
      let code : Byte := match cause with
        | .power => 0
        | .pin => 1
        | .request => 2
      s.choose = { s with link := { s.link with started := none, inFlight := some ⟨0x4F, 0,
        [code, 0x3D, 0x07, 0x19, 0x08, 1, 64, 72, 8, 16]⟩ } }) ∧
    (∀ r rest, idle → s.link.started = none → s.link.replies = r :: rest → s.choose =
      { s with link := { s.link with replies := rest, inFlight := some r } }) ∧
    (∀ e, quiet → s.nextOfClass 0 = some e → s.choose = send 0 e) ∧
    (∀ e, quiet → s.nextOfClass 0 = none → s.nextOfClass 1 = some e → s.choose = send 1 e) ∧
    (∀ e, quiet → s.nextOfClass 0 = none → s.nextOfClass 1 = none → s.nextOfClass 2 = some e →
      s.choose = send 2 e) ∧
    (quiet → s.nextOfClass 0 = none → s.nextOfClass 1 = none → s.nextOfClass 2 = none → s.choose = s) ∧
    (s.NoticesOk → ∀ c : Fin 4,
      let away (e : NoticeEntry) : Nat := (e.pos - s.notices.cursors[c]).val
      (s.nextOfClass c = none → ∀ e ∈ s.notices.entries, s.classOf e ≠ c) ∧
      (∀ e, s.nextOfClass c = some e → e ∈ s.notices.entries ∧ s.classOf e = c ∧
        ∀ x ∈ s.notices.entries, s.classOf x = c →
          away e < away x ∨ (away e = away x ∧ e.kind.num ≤ x.kind.num))) ∧
    (∀ e : NoticeEntry,
      let urgent : Prop := e.kind = .record ∧ ∃ n : LineNo, e.pos.val = n.val ∧
        ∃ (i : Fin 16) (sl : Slot), s.store.slots[i] = some sl ∧ sl.record.line = n ∧ sl.record.urgent = true
      (urgent → s.classOf e = 0) ∧ (¬urgent → s.classOf e = s.notices.routes[e.kind.num])) ∧
    (let waits : Prop := s.link.resetOrdered = true ∨ 4 ≤ s.link.replies.length
     (s.link.inbox = [] ∨ waits → s.serve = s.choose) ∧
     (∀ q rest, s.link.inbox = q :: rest → ¬waits →
       s.serve = (State.executeFrame { s with link := { s.link with inbox := rest } } q).choose.serve)) ∧
    (idle → exec .frameSent s = .next s.choose) ∧
    (∀ f, s.link.inFlight = some f →
      let sent := State.choose { s with link := { s.link with inFlight := none } }
      (f.type = 0x9D → f.payload = [0] → ∃ rate1 rate0 : Bool,
        let rate : Nat := if rate1 then (if rate0 then 230400 else 115200) else if rate0 then 38400 else 19200
        exec .frameSent s = .next { State.reset with
          link := ⟨[], 0, [], [], none, some ⟨0x4F, 0, [2, 0x3D, 0x07, 0x19, 0x08, 1, 64, 72, 8, 16]⟩,
            ⟨rate1, rate0⟩, rate, false⟩
          raceCount := s.raceCount + 1
          pending := s.pending }) ∧
      (f.type ≠ 0x9D ∨ f.payload ≠ [0] →
        (s.link.inbox = [] ∨ sent.link.resetOrdered = true ∨ 4 ≤ sent.link.replies.length →
          exec .frameSent s = .next sent) ∧
        (∀ q rest, s.link.inbox = q :: rest → sent.link.resetOrdered = false → sent.link.replies.length < 4 →
          exec .frameSent s =
            .next (State.executeFrame { sent with link := { sent.link with inbox := rest } } q).choose.serve))) ∧
    (let one (n : Nat) : Byte := BitVec.ofNat 8 n
     let yes (b : Bool) : Byte := if b then 1 else 0
     let two (n : Nat) : List Byte := [one (n / 256), one n]
     let four (t : Time) : List Byte := [t.extractLsb' 24 8, t.extractLsb' 16 8, t.extractLsb' 8 8, t.extractLsb' 0 8]
     let outcome (o : TestOutcome) : List Byte := match o with
       | .result .pass => [0, 0]
       | .result .fail => [1, 0]
       | .result .inconclusive => [2, 0]
       | .aborted .subscriber => [3, 1]
       | .aborted .busTimeout => [3, 2]
       | .aborted .cancelled => [3, 3]
     let kind (k : TestKind) : Byte := match k with
       | .insulation => 0
       | .foreign => 1
       | .full => 2
     (∀ (n : LineNo) (pos : Fin 145) (c : Nat) (t : Time), pos.val = n.val →
       let l := s.line n
       let off : Bool := decide (l.state = .seized ∨ l.state = .pulsing ∨ l.state = .collecting ∨ l.state = .held ∨
         l.state = .opened)
       let mine (i : Fin 16) : Bool := match s.store.slots[i] with
         | some sl => decide (sl.record.line = n)
         | none => false
       let urgent (i : Fin 16) : Bool := match s.store.slots[i] with
         | some sl => decide (sl.record.line = n ∧ sl.record.urgent = true)
         | none => false
       s.body ⟨pos, .hook, some c, some t⟩ = [one n.val, yes off, one c] ++ four t ∧
       s.body ⟨pos, .flash, some c, some t⟩ = [one n.val, one c] ++ four t ∧
       s.body ⟨pos, .record, none, none⟩ =
         [one n.val, one ((List.finRange 16).countP mine), yes ((List.finRange 16).any urgent)] ∧
       s.body ⟨pos, .overrun, some c, some t⟩ = [one n.val, one c] ++ four t ++ [yes s.store.overrun[n]] ∧
       s.body ⟨pos, .loopHeld, some c, some t⟩ = [one n.val, one c] ++ four t ++ [yes l.permanentLoop]) ∧
     (∀ (p : PairNo) (pos : Fin 145) (c : Nat), pos.val = 64 + p.val →
       let r := s.fault p
       let state : Byte := match r.state with
         | .clear => 0
         | .suspect => 1
         | .confirmed => 2
         | .recheck => 3
       let w := s.watch.settings
       let exceeded := (if w.suspectScore ≤ r.foreign then 1 else 0) + (if w.suspectScore ≤ r.leak then 2 else 0)
       (r.last = none → s.body ⟨pos, .fault, none, none⟩ =
         [one p.val, state, one exceeded, yes r.senseLost, 0, 0, 0, 0, 0, 0, 0, 0, 0]) ∧
       (∀ x, r.last = some x → s.body ⟨pos, .fault, none, none⟩ =
         [one p.val, state, one exceeded, yes r.senseLost, 1, (if x.origin = .watch then 0 else 1), kind x.kind] ++
           outcome x.outcome ++ four x.endTime) ∧
       (∀ x, s.bus.results[p] = some x →
         let reading : List Byte := match x.last with
           | some m => 1 :: two m.tipGround ++ two m.ringGround ++ two m.tipRing ++ [one m.volts]
           | none => [0, 0, 0, 0, 0, 0, 0, 0]
         s.body ⟨pos, .testDone, some c, none⟩ =
           [one p.val, one c, x.tag, kind x.kind] ++ outcome x.outcome ++ [one x.attempts] ++ four x.endTime ++ reading)) ∧
     (∀ (b : BinderNo) (pos : Fin 145) (c : Nat), pos.val = 136 + b.val →
       let suspects := (List.finRange 72).filter fun p => decide (p.val / 8 = b.val ∧
         ((s.fault p).state = .suspect ∨ (s.fault p).state = .confirmed))
       s.body ⟨pos, .binder, some c, none⟩ =
         [one b.val, yes (s.binder b).hold, one c, one (s.binder b).count] ++ suspects.map fun p => one p.val))

/-- Characters and frames on the link: an error or a gap abandons the frame being collected; a character is
examined behind the ones collected, and a false frame's characters again; a good frame whose type is no
request, or that finds the inbox full, is discarded; a request waits while the reply queue is full or a reset
is ordered; a type naming no request is answered UNKNOWN and a wrong payload length BAD_ARG; PART_RESET
answers DONE and orders the reset; and nothing is heard while its reply is sent (R188 to R192, R196). A good frame found
among characters joins the inbox, if it is kept, and what can be executed is executed. What a false and
a good frame are, and what stays collected, is said with the bytes of frames. What the rows
GOOD_FRAME and BAD_FRAME stand for, with the characters collected before them gone, is the model's choice (log 14), as
are the whole milliseconds of the gap (log 15), the frame in flight that makes the part deaf (log 21), and that
CHARACTER_GAP abandons the frame whatever cabinet time says (log 28). -/
def Obligations.CharactersAndFramesArrive : Prop :=
  ∀ s : State,
    let open_ := s.link.collected
    let late : Prop := open_ ≠ [] ∧ 10 < (s.now - s.link.lastChar).toNat
    let taken (cs : List Byte) : State := { s with link := { s.link with lastChar := s.now, collected := cs } }
    (s.deaf = true ↔ ∃ f, s.link.inFlight = some f ∧ f.type = 0x9D ∧ f.payload = [0]) ∧
    (∀ f : Frame, s.pushReply f = { s with link := { s.link with replies := s.link.replies ++ [f] } }) ∧
    (∀ f : Frame,
      let kept : Prop := 1 ≤ f.type.toNat ∧ f.type.toNat ≤ 0x3F ∧ s.link.inbox.length < 4
      (kept → s.submit f = State.serve { s with link := { s.link with inbox := s.link.inbox ++ [f] } }) ∧
      (¬kept → s.submit f = s.serve)) ∧
    exec .characterError s = .next s.heard.choose ∧
    exec .characterGap s = .next s.heard.choose ∧
    (∀ (c : Byte) (cs : List Byte), s.deaf = false → (late ∧ cs = [c]) ∨ (¬late ∧ cs = open_ ++ [c]) →
      exec (.receivedCharacter c) s =
        .next ((scanChars cs).2.foldl State.submit (taken (scanChars cs).1)).choose) ∧
    (∀ c : Byte, s.deaf = true → exec (.receivedCharacter c) s = .next s.choose) ∧
    (∀ c : Byte, scanChars [c] = (if c = 0xC3 then [0xC3] else [], [])) ∧
    (∀ chars,
      let found := scanChars (0xC3 :: chars)
      (s.deaf = true → exec (.badFrame chars) s = .next s.choose) ∧
      (s.deaf = false → exec (.badFrame chars) s = .next (found.2.foldl State.submit (taken found.1)).choose) ∧
      (takeFrame chars = .bad → found = scanChars chars)) ∧
    (∀ (type tag : Byte) (payload : List Byte), payload.length ≤ 250 →
      let f : Frame := ⟨type, tag, payload⟩
      let request : Prop := 1 ≤ type.toNat ∧ type.toNat ≤ 0x3F
      let waits : Prop := s.link.resetOrdered = true ∨ 4 ≤ s.link.replies.length
      (s.deaf = true → exec (.goodFrame type tag payload) s = .next s.choose ∧
        exec (.unknownRequest type tag payload) s = .next s.choose) ∧
      (s.deaf = false → ¬request → waits ∨ s.link.inbox = [] →
        exec (.goodFrame type tag payload) s = .next s.heard.choose) ∧
      (s.deaf = false → request → waits →
        (4 ≤ s.link.inbox.length → exec (.goodFrame type tag payload) s = .next s.heard.choose) ∧
        (s.link.inbox.length < 4 → exec (.goodFrame type tag payload) s =
          .next (State.choose { s.heard with link := { s.heard.link with inbox := s.link.inbox ++ [f] } }))) ∧
      (s.ready → request → exec (.goodFrame type tag payload) s = .next (s.heard.executeFrame f).choose) ∧
      (s.ready → 0x1E ≤ type.toNat → type.toNat ≤ 0x3F →
        exec (.unknownRequest type tag payload) s = .next (s.heard.answer (type + 0x80) tag [9])) ∧
      (decodeRequest type payload = .unknown → s.executeFrame f = s.pushReply ⟨type + 0x80, tag, [9]⟩) ∧
      (decodeRequest type payload = .badLength → s.executeFrame f = s.pushReply ⟨type + 0x80, tag, [3]⟩)) ∧
    (∀ tag : Byte, s.ready → exec (.partReset tag) s =
      .next (State.answer { s.heard with link := { s.heard.link with resetOrdered := true } } 0x9D tag [0]))

/-! ### Headline statements -/

/-- Every request, with every value of every operand, is read back from its payload, and every frame from its
bytes on the link, the characters behind it included (R186, R193). The CRC has the polynomial 0x1021, starts at 0xFFFF
and takes each byte most significant bit first (R187). The type and the payload of each request are those of section
11.6 and R193, a request's row is the arrival of its good frame (the model's reading, log 4), and a payload whose length
is not the one of section 11.6, or a type that names no request, is none (R191). Behind a mark a frame is false exactly for a length below 2 or
above 252 or for a CRC that does not match, good exactly with a legal length and a CRC that matches, and incomplete
otherwise; the hunt skips what is no mark, keeps an incomplete frame's characters with their mark, examines a false
frame's again, and goes on behind a good frame (R188). -/
def Obligations.FramesAndRequestsAreReadBack : Prop :=
  (∀ r : Request, (∀ x a, r = .windowWrite (.window x a) → x ≠ 8) →
    decodeRequest r.type r.payload = .request r ∧ r.payload.length ≤ 250) ∧
  (let row (c : Byte → Instr) (r : Request) (type : Byte) (payload : List Byte) : Prop :=
     r.type = type ∧ r.payload = payload ∧ ∀ (tag : Byte) (s : State), exec (c tag) s = exec (.goodFrame type tag payload) s
   let set (n v : Nat) : List Byte := (List.range n).map fun i => BitVec.ofNat 8 (v / 256 ^ i)
   let two (x : BitVec 16) : List Byte := [x.extractLsb' 8 8, x.extractLsb' 0 8]
   let four (x : BitVec 32) : List Byte := [x.extractLsb' 24 8, x.extractLsb' 16 8, x.extractLsb' 8 8, x.extractLsb' 0 8]
   (∀ (lines : BitVec 64), row (.lineEnable · lines) (.lineEnable lines) 0x01 (set 8 lines.toNat)) ∧
   (∀ (lines : BitVec 64), row (.lineDisable · lines) (.lineDisable lines) 0x02 (set 8 lines.toNat)) ∧
   (∀ (x y z : Byte), row (.lineMap · x y z) (.lineMap x y z) 0x03 [x, y, z]) ∧
   (∀ (x y : Byte), row (.lineSwap · x y) (.lineSwap x y) 0x04 [x, y]) ∧
   (∀ (x : Byte), row (.lineReset · x) (.lineReset x) 0x05 [x]) ∧
   (∀ (x : Byte), row (.lineQuery · x) (.lineQuery x) 0x06 [x]) ∧
   (∀ (x : Byte) (a : ProfileArgs),
      row (.profileWrite · x a) (.profileWrite x a) 0x07 ([x, a.seizeMa, a.releaseMa, a.glitch] ++ two a.seizeMs ++ [a.brkMinMs, a.brkMaxMs] ++
        two a.flashMinMs ++ two a.flashMaxMs ++ two a.gapMs ++ two a.gapLoMs ++ two a.gapHiMs ++ two a.learnSpanMs ++
        [a.periodLoMs, a.periodHiMs] ++ two a.firstMs ++ two a.collectMs ++ [a.methods, a.recordMode] ++ two a.settleMs)) ∧
   (∀ (x : Byte), row (.profileRead · x) (.profileRead x) 0x08 [x]) ∧
   (∀ (x : Byte), row (.scanMode · x) (.scanMode x) 0x09 [x]) ∧
   (∀ (x : Byte), row (.detectorServiceOut · x) (.detectorService x 1) 0x0A [x, 1]) ∧
   (∀ (x : Byte), row (.detectorServiceIn · x) (.detectorService x 0) 0x0A [x, 0]) ∧
   (row (.detectorQuery ·) .detectorQuery 0x0B []) ∧
   (∀ (x : Byte), row (.windowWrite · (.default x)) (.windowWrite (.default x)) 0x0C [8, x]) ∧
   (∀ (x : Byte) (a : WindowArgs),
      row (.windowWrite · (.window x a)) (.windowWrite (.window x a)) 0x0C ([x, a.enabled, a.patternLen] ++ a.positions.toList ++
        [a.rule, a.n, a.cls, a.urgent, a.replPresent, a.replLen] ++ a.symbols.toList)) ∧
   (∀ (x : Byte), row (.windowRead · x) (.windowRead x) 0x0D [x]) ∧
   (∀ (x y : Byte), row (.recordTake · x y) (.recordTake x y) 0x0E [x, y]) ∧
   (row (.recordList ·) .recordList 0x0F []) ∧
   (∀ (x : Byte), row (.overrunClear · x) (.overrunClear x) 0x10 [x]) ∧
   (∀ (pairs : BitVec 72) (x y : Byte),
      row (.faultLimits · pairs x y) (.faultLimits pairs x y) 0x11 (set 9 pairs.toNat ++ [x, y])) ∧
   (∀ (a : WatchArgs),
      row (.watchSet · a) (.watchSet a) 0x12 ([a.suspectScore] ++ two a.sustainMs ++ [a.binderK] ++ four a.holdMs ++
        [a.mode] ++ four a.guardMs ++ set 9 a.pairs.toNat)) ∧
   (∀ (x : Byte), row (.pairQuery · x) (.pairQuery x) 0x13 [x]) ∧
   (∀ (x y : Byte), row (.testOrder · x y) (.testOrder x y) 0x14 [x, y]) ∧
   (∀ (x : Byte), row (.testCancel · x) (.testCancel x) 0x15 [x]) ∧
   (∀ (a : TestSetArgs),
      row (.testSet · a) (.testSet a) 0x16 ([a.attemptsMax] ++ two a.quietFirstMs ++ two a.quietRetryMs ++ two a.rMinKohm ++
        [a.vTest])) ∧
   (row (.testQuery ·) .testQuery 0x17 []) ∧
   (∀ (x y : Byte), row (.routeWrite · x y) (.routeWrite x y) 0x18 [x, y]) ∧
   (∀ (kinds : BitVec 8) (sources : BitVec 145),
      row (.noticeEnable · kinds sources) (.noticeEnable kinds sources) 0x19 (kinds :: set 19 sources.toNat)) ∧
   (∀ (kinds : BitVec 8) (sources : BitVec 145),
      row (.noticeDisable · kinds sources) (.noticeDisable kinds sources) 0x1A (kinds :: set 19 sources.toNat)) ∧
   (row (.noticePoll ·) .noticePoll 0x1B []) ∧
   (row (.identify ·) .identify 0x1C []) ∧
   (row (.partReset ·) .partReset 0x1D [])) ∧
  (∀ (type : Byte) (payload : List Byte),
    let lengths := [8, 8, 3, 2, 1, 1, 30, 1, 1, 2, 0, 25, 1, 2, 0, 1, 11, 22, 1, 2, 1, 8, 0, 2, 20, 20, 0, 0, 0]
    let named : Prop := 1 ≤ type.toNat ∧ type.toNat ≤ 0x1D
    let fits : Prop := if type = 0x0C ∧ payload.head? = some 8 then payload.length = 2
      else lengths[type.toNat - 1]? = some payload.length
    (decodeRequest type payload = .unknown ↔ ¬named) ∧ (decodeRequest type payload = .badLength ↔ named ∧ ¬fits)) ∧
  (∀ (f : Frame) (rest : List Byte), f.payload.length ≤ 250 →
    scanChars (f.bytes ++ rest) = ((scanChars rest).1, f :: (scanChars rest).2)) ∧
  (∀ f : Frame,
    let covered := BitVec.ofNat 8 (f.payload.length + 2) :: f.type :: f.tag :: f.payload
    f.bytes = 0xC3 :: covered ++ [(crc covered).extractLsb' 8 8, (crc covered).extractLsb' 0 8]) ∧
  (let feed (r : BitVec 16) (x : Bool) : BitVec 16 := if r.msb = x then r <<< 1 else (r <<< 1) ^^^ 0x1021
   let bits (b : Byte) : List Bool := [b.getLsbD 7, b.getLsbD 6, b.getLsbD 5, b.getLsbD 4, b.getLsbD 3, b.getLsbD 2,
     b.getLsbD 1, b.getLsbD 0]
   ∀ bs : List Byte, crc bs = (bs.flatMap bits).foldl feed 0xFFFF) ∧
  (∀ cs : List Byte,
    let legal (len : Byte) : Prop := 2 ≤ len.toNat ∧ len.toNat ≤ 252
    (takeFrame cs = .bad ↔
      (∃ len rest, cs = len :: rest ∧ ¬legal len) ∨
      ∃ len body hi lo behind, cs = len :: (body ++ hi :: lo :: behind) ∧ legal len ∧ body.length = len.toNat ∧
        crc (len :: body) ≠ (hi ++ lo : BitVec 16)) ∧
    (takeFrame cs = .incomplete ↔
      cs = [] ∨ ∃ len rest, cs = len :: rest ∧ legal len ∧ rest.length < len.toNat + 2) ∧
    (∀ f behind, takeFrame cs = .good f behind ↔
      ∃ len hi lo, cs = len :: f.type :: f.tag :: (f.payload ++ hi :: lo :: behind) ∧ legal len ∧
        f.payload.length + 2 = len.toNat ∧
        crc (len :: f.type :: f.tag :: f.payload) = (hi ++ lo : BitVec 16)) ∧
    scanChars [] = ([], []) ∧
    (∀ c, c ≠ 0xC3 → scanChars (c :: cs) = scanChars cs) ∧
    (takeFrame cs = .incomplete → scanChars (0xC3 :: cs) = (0xC3 :: cs, [])) ∧
    (takeFrame cs = .bad → scanChars (0xC3 :: cs) = scanChars cs) ∧
    (∀ f behind, takeFrame cs = .good f behind →
      scanChars (0xC3 :: cs) = ((scanChars behind).1, f :: (scanChars behind).2)))

/-- Every step keeps the bounds of the inbox and the reply queue and the idle transmitter's queue empty, keeps
the pending set in order, enabled and counted, and keeps the relations between the fields of the profiles and
of the windows. -/
def Obligations.StepKeepsLinkNoticesAndTablesOk : Prop :=
  ∀ s t : State, step s = .next t →
    (s.LinkOk → t.LinkOk) ∧ (s.NoticesOk → t.NoticesOk) ∧ (s.TablesOk → t.TablesOk)

/-- Every step keeps the ranks of the store and the limits on a line's records. -/
def Obligations.StepKeepsStoreOk : Prop := ∀ s t : State, s.StoreOk → step s = .next t → t.StoreOk

/-- Every step keeps the pool, the queue and the lines' bindings in agreement. -/
def Obligations.StepKeepsPoolOk : Prop := ∀ s t : State, s.PoolOk → step s = .next t → t.PoolOk

/-- Every step keeps the test queue within 16 entries, without a pair twice or on the bus, and the wanted set
outside it; and every step keeps the lines in order: no two enabled lines on one pair (R4), and an enabled line
UNDER_TEST exactly when its pair is on the test bus (R55, R153). -/
def Obligations.StepKeepsTestsOk : Prop :=
  ∀ s t : State, step s = .next t → (s.TestsOk → t.TestsOk) ∧ (s.LinesOk → t.LinesOk)

/-- The part after reset has every property that steps keep. -/
def Obligations.ResetHasTheKeptProperties : Prop :=
  State.reset.LinkOk ∧ State.reset.NoticesOk ∧ State.reset.TablesOk ∧ State.reset.StoreOk ∧ State.reset.PoolOk ∧
    State.reset.TestsOk ∧ State.reset.LinesOk
end

