-- ==== Sys2Proof/Laws/State.lean ====
section
/-! SUPPORT. One lemma for each field of State under each named update, so that no proof unfolds a record
update; then what the named reads give after the named writes. -/

namespace Sys2Proof.Machine

/-! ### setLine -/

@[simp] theorem State.now_setLine (s : State) (n : LineNo) (l : Line) : (s.setLine n l).now = s.now := rfl
@[simp] theorem State.profiles_setLine (s : State) (n : LineNo) (l : Line) : (s.setLine n l).profiles = s.profiles := rfl
@[simp] theorem State.scan_setLine (s : State) (n : LineNo) (l : Line) : (s.setLine n l).scan = s.scan := rfl
@[simp] theorem State.pool_setLine (s : State) (n : LineNo) (l : Line) : (s.setLine n l).pool = s.pool := rfl
@[simp] theorem State.windows_setLine (s : State) (n : LineNo) (l : Line) : (s.setLine n l).windows = s.windows := rfl
@[simp] theorem State.store_setLine (s : State) (n : LineNo) (l : Line) : (s.setLine n l).store = s.store := rfl
@[simp] theorem State.watch_setLine (s : State) (n : LineNo) (l : Line) : (s.setLine n l).watch = s.watch := rfl
@[simp] theorem State.bus_setLine (s : State) (n : LineNo) (l : Line) : (s.setLine n l).bus = s.bus := rfl
@[simp] theorem State.notices_setLine (s : State) (n : LineNo) (l : Line) : (s.setLine n l).notices = s.notices := rfl
@[simp] theorem State.link_setLine (s : State) (n : LineNo) (l : Line) : (s.setLine n l).link = s.link := rfl
@[simp] theorem State.raceCount_setLine (s : State) (n : LineNo) (l : Line) : (s.setLine n l).raceCount = s.raceCount := rfl
@[simp] theorem State.pending_setLine (s : State) (n : LineNo) (l : Line) : (s.setLine n l).pending = s.pending := rfl

/-! ### setScanRec -/

@[simp] theorem State.now_setScanRec (s : State) (p : PairNo) (r : ScanRec) : (s.setScanRec p r).now = s.now := rfl
@[simp] theorem State.lines_setScanRec (s : State) (p : PairNo) (r : ScanRec) : (s.setScanRec p r).lines = s.lines := rfl
@[simp] theorem State.profiles_setScanRec (s : State) (p : PairNo) (r : ScanRec) : (s.setScanRec p r).profiles = s.profiles := rfl
@[simp] theorem State.pool_setScanRec (s : State) (p : PairNo) (r : ScanRec) : (s.setScanRec p r).pool = s.pool := rfl
@[simp] theorem State.windows_setScanRec (s : State) (p : PairNo) (r : ScanRec) : (s.setScanRec p r).windows = s.windows := rfl
@[simp] theorem State.store_setScanRec (s : State) (p : PairNo) (r : ScanRec) : (s.setScanRec p r).store = s.store := rfl
@[simp] theorem State.watch_setScanRec (s : State) (p : PairNo) (r : ScanRec) : (s.setScanRec p r).watch = s.watch := rfl
@[simp] theorem State.bus_setScanRec (s : State) (p : PairNo) (r : ScanRec) : (s.setScanRec p r).bus = s.bus := rfl
@[simp] theorem State.notices_setScanRec (s : State) (p : PairNo) (r : ScanRec) : (s.setScanRec p r).notices = s.notices := rfl
@[simp] theorem State.link_setScanRec (s : State) (p : PairNo) (r : ScanRec) : (s.setScanRec p r).link = s.link := rfl
@[simp] theorem State.raceCount_setScanRec (s : State) (p : PairNo) (r : ScanRec) : (s.setScanRec p r).raceCount = s.raceCount := rfl
@[simp] theorem State.pending_setScanRec (s : State) (p : PairNo) (r : ScanRec) : (s.setScanRec p r).pending = s.pending := rfl

/-! ### setFault -/

@[simp] theorem State.now_setFault (s : State) (p : PairNo) (r : FaultRec) : (s.setFault p r).now = s.now := rfl
@[simp] theorem State.lines_setFault (s : State) (p : PairNo) (r : FaultRec) : (s.setFault p r).lines = s.lines := rfl
@[simp] theorem State.profiles_setFault (s : State) (p : PairNo) (r : FaultRec) : (s.setFault p r).profiles = s.profiles := rfl
@[simp] theorem State.scan_setFault (s : State) (p : PairNo) (r : FaultRec) : (s.setFault p r).scan = s.scan := rfl
@[simp] theorem State.pool_setFault (s : State) (p : PairNo) (r : FaultRec) : (s.setFault p r).pool = s.pool := rfl
@[simp] theorem State.windows_setFault (s : State) (p : PairNo) (r : FaultRec) : (s.setFault p r).windows = s.windows := rfl
@[simp] theorem State.store_setFault (s : State) (p : PairNo) (r : FaultRec) : (s.setFault p r).store = s.store := rfl
@[simp] theorem State.bus_setFault (s : State) (p : PairNo) (r : FaultRec) : (s.setFault p r).bus = s.bus := rfl
@[simp] theorem State.notices_setFault (s : State) (p : PairNo) (r : FaultRec) : (s.setFault p r).notices = s.notices := rfl
@[simp] theorem State.link_setFault (s : State) (p : PairNo) (r : FaultRec) : (s.setFault p r).link = s.link := rfl
@[simp] theorem State.raceCount_setFault (s : State) (p : PairNo) (r : FaultRec) : (s.setFault p r).raceCount = s.raceCount := rfl
@[simp] theorem State.pending_setFault (s : State) (p : PairNo) (r : FaultRec) : (s.setFault p r).pending = s.pending := rfl

/-! ### setBinder -/

@[simp] theorem State.now_setBinder (s : State) (b : BinderNo) (r : Binder) : (s.setBinder b r).now = s.now := rfl
@[simp] theorem State.lines_setBinder (s : State) (b : BinderNo) (r : Binder) : (s.setBinder b r).lines = s.lines := rfl
@[simp] theorem State.profiles_setBinder (s : State) (b : BinderNo) (r : Binder) : (s.setBinder b r).profiles = s.profiles := rfl
@[simp] theorem State.scan_setBinder (s : State) (b : BinderNo) (r : Binder) : (s.setBinder b r).scan = s.scan := rfl
@[simp] theorem State.pool_setBinder (s : State) (b : BinderNo) (r : Binder) : (s.setBinder b r).pool = s.pool := rfl
@[simp] theorem State.windows_setBinder (s : State) (b : BinderNo) (r : Binder) : (s.setBinder b r).windows = s.windows := rfl
@[simp] theorem State.store_setBinder (s : State) (b : BinderNo) (r : Binder) : (s.setBinder b r).store = s.store := rfl
@[simp] theorem State.bus_setBinder (s : State) (b : BinderNo) (r : Binder) : (s.setBinder b r).bus = s.bus := rfl
@[simp] theorem State.notices_setBinder (s : State) (b : BinderNo) (r : Binder) : (s.setBinder b r).notices = s.notices := rfl
@[simp] theorem State.link_setBinder (s : State) (b : BinderNo) (r : Binder) : (s.setBinder b r).link = s.link := rfl
@[simp] theorem State.raceCount_setBinder (s : State) (b : BinderNo) (r : Binder) : (s.setBinder b r).raceCount = s.raceCount := rfl
@[simp] theorem State.pending_setBinder (s : State) (b : BinderNo) (r : Binder) : (s.setBinder b r).pending = s.pending := rfl

/-! ### setDetector -/

@[simp] theorem State.now_setDetector (s : State) (d : DetectorNo) (x : Detector) : (s.setDetector d x).now = s.now := rfl
@[simp] theorem State.lines_setDetector (s : State) (d : DetectorNo) (x : Detector) : (s.setDetector d x).lines = s.lines := rfl
@[simp] theorem State.profiles_setDetector (s : State) (d : DetectorNo) (x : Detector) : (s.setDetector d x).profiles = s.profiles := rfl
@[simp] theorem State.scan_setDetector (s : State) (d : DetectorNo) (x : Detector) : (s.setDetector d x).scan = s.scan := rfl
@[simp] theorem State.windows_setDetector (s : State) (d : DetectorNo) (x : Detector) : (s.setDetector d x).windows = s.windows := rfl
@[simp] theorem State.store_setDetector (s : State) (d : DetectorNo) (x : Detector) : (s.setDetector d x).store = s.store := rfl
@[simp] theorem State.watch_setDetector (s : State) (d : DetectorNo) (x : Detector) : (s.setDetector d x).watch = s.watch := rfl
@[simp] theorem State.bus_setDetector (s : State) (d : DetectorNo) (x : Detector) : (s.setDetector d x).bus = s.bus := rfl
@[simp] theorem State.notices_setDetector (s : State) (d : DetectorNo) (x : Detector) : (s.setDetector d x).notices = s.notices := rfl
@[simp] theorem State.link_setDetector (s : State) (d : DetectorNo) (x : Detector) : (s.setDetector d x).link = s.link := rfl
@[simp] theorem State.raceCount_setDetector (s : State) (d : DetectorNo) (x : Detector) : (s.setDetector d x).raceCount = s.raceCount := rfl
@[simp] theorem State.pending_setDetector (s : State) (d : DetectorNo) (x : Detector) : (s.setDetector d x).pending = s.pending := rfl

/-! ### setDetectorQueue -/

@[simp] theorem State.now_setDetectorQueue (s : State) (q : List Waiter) : (s.setDetectorQueue q).now = s.now := rfl
@[simp] theorem State.lines_setDetectorQueue (s : State) (q : List Waiter) : (s.setDetectorQueue q).lines = s.lines := rfl
@[simp] theorem State.profiles_setDetectorQueue (s : State) (q : List Waiter) : (s.setDetectorQueue q).profiles = s.profiles := rfl
@[simp] theorem State.scan_setDetectorQueue (s : State) (q : List Waiter) : (s.setDetectorQueue q).scan = s.scan := rfl
@[simp] theorem State.windows_setDetectorQueue (s : State) (q : List Waiter) : (s.setDetectorQueue q).windows = s.windows := rfl
@[simp] theorem State.store_setDetectorQueue (s : State) (q : List Waiter) : (s.setDetectorQueue q).store = s.store := rfl
@[simp] theorem State.watch_setDetectorQueue (s : State) (q : List Waiter) : (s.setDetectorQueue q).watch = s.watch := rfl
@[simp] theorem State.bus_setDetectorQueue (s : State) (q : List Waiter) : (s.setDetectorQueue q).bus = s.bus := rfl
@[simp] theorem State.notices_setDetectorQueue (s : State) (q : List Waiter) : (s.setDetectorQueue q).notices = s.notices := rfl
@[simp] theorem State.link_setDetectorQueue (s : State) (q : List Waiter) : (s.setDetectorQueue q).link = s.link := rfl
@[simp] theorem State.raceCount_setDetectorQueue (s : State) (q : List Waiter) : (s.setDetectorQueue q).raceCount = s.raceCount := rfl
@[simp] theorem State.pending_setDetectorQueue (s : State) (q : List Waiter) : (s.setDetectorQueue q).pending = s.pending := rfl

/-! ### sendTest -/

@[simp] theorem State.now_sendTest (s : State) (m : TestPortMsg) : (s.sendTest m).now = s.now := rfl
@[simp] theorem State.lines_sendTest (s : State) (m : TestPortMsg) : (s.sendTest m).lines = s.lines := rfl
@[simp] theorem State.profiles_sendTest (s : State) (m : TestPortMsg) : (s.sendTest m).profiles = s.profiles := rfl
@[simp] theorem State.scan_sendTest (s : State) (m : TestPortMsg) : (s.sendTest m).scan = s.scan := rfl
@[simp] theorem State.pool_sendTest (s : State) (m : TestPortMsg) : (s.sendTest m).pool = s.pool := rfl
@[simp] theorem State.windows_sendTest (s : State) (m : TestPortMsg) : (s.sendTest m).windows = s.windows := rfl
@[simp] theorem State.store_sendTest (s : State) (m : TestPortMsg) : (s.sendTest m).store = s.store := rfl
@[simp] theorem State.watch_sendTest (s : State) (m : TestPortMsg) : (s.sendTest m).watch = s.watch := rfl
@[simp] theorem State.notices_sendTest (s : State) (m : TestPortMsg) : (s.sendTest m).notices = s.notices := rfl
@[simp] theorem State.link_sendTest (s : State) (m : TestPortMsg) : (s.sendTest m).link = s.link := rfl
@[simp] theorem State.raceCount_sendTest (s : State) (m : TestPortMsg) : (s.sendTest m).raceCount = s.raceCount := rfl
@[simp] theorem State.pending_sendTest (s : State) (m : TestPortMsg) : (s.sendTest m).pending = s.pending := rfl

/-! ### sendSense -/

@[simp] theorem State.now_sendSense (s : State) (m : SensePortMsg) : (s.sendSense m).now = s.now := rfl
@[simp] theorem State.lines_sendSense (s : State) (m : SensePortMsg) : (s.sendSense m).lines = s.lines := rfl
@[simp] theorem State.profiles_sendSense (s : State) (m : SensePortMsg) : (s.sendSense m).profiles = s.profiles := rfl
@[simp] theorem State.pool_sendSense (s : State) (m : SensePortMsg) : (s.sendSense m).pool = s.pool := rfl
@[simp] theorem State.windows_sendSense (s : State) (m : SensePortMsg) : (s.sendSense m).windows = s.windows := rfl
@[simp] theorem State.store_sendSense (s : State) (m : SensePortMsg) : (s.sendSense m).store = s.store := rfl
@[simp] theorem State.watch_sendSense (s : State) (m : SensePortMsg) : (s.sendSense m).watch = s.watch := rfl
@[simp] theorem State.bus_sendSense (s : State) (m : SensePortMsg) : (s.sendSense m).bus = s.bus := rfl
@[simp] theorem State.notices_sendSense (s : State) (m : SensePortMsg) : (s.sendSense m).notices = s.notices := rfl
@[simp] theorem State.link_sendSense (s : State) (m : SensePortMsg) : (s.sendSense m).link = s.link := rfl
@[simp] theorem State.raceCount_sendSense (s : State) (m : SensePortMsg) : (s.sendSense m).raceCount = s.raceCount := rfl
@[simp] theorem State.pending_sendSense (s : State) (m : SensePortMsg) : (s.sendSense m).pending = s.pending := rfl
@[simp] theorem State.recs_sendSense (s : State) (m : SensePortMsg) : (s.sendSense m).scan.recs = s.scan.recs := rfl
@[simp] theorem State.outstanding_sendSense (s : State) (m : SensePortMsg) : (s.sendSense m).scan.outstanding = s.scan.outstanding := rfl
@[simp] theorem State.sent_sendSense (s : State) (m : SensePortMsg) : (s.sendSense m).scan.sent = s.scan.sent ++ [m] := rfl

/-! ### setTestQueue -/

@[simp] theorem State.now_setTestQueue (s : State) (q : List TestEntry) : (s.setTestQueue q).now = s.now := rfl
@[simp] theorem State.lines_setTestQueue (s : State) (q : List TestEntry) : (s.setTestQueue q).lines = s.lines := rfl
@[simp] theorem State.profiles_setTestQueue (s : State) (q : List TestEntry) : (s.setTestQueue q).profiles = s.profiles := rfl
@[simp] theorem State.scan_setTestQueue (s : State) (q : List TestEntry) : (s.setTestQueue q).scan = s.scan := rfl
@[simp] theorem State.pool_setTestQueue (s : State) (q : List TestEntry) : (s.setTestQueue q).pool = s.pool := rfl
@[simp] theorem State.windows_setTestQueue (s : State) (q : List TestEntry) : (s.setTestQueue q).windows = s.windows := rfl
@[simp] theorem State.store_setTestQueue (s : State) (q : List TestEntry) : (s.setTestQueue q).store = s.store := rfl
@[simp] theorem State.watch_setTestQueue (s : State) (q : List TestEntry) : (s.setTestQueue q).watch = s.watch := rfl
@[simp] theorem State.notices_setTestQueue (s : State) (q : List TestEntry) : (s.setTestQueue q).notices = s.notices := rfl
@[simp] theorem State.link_setTestQueue (s : State) (q : List TestEntry) : (s.setTestQueue q).link = s.link := rfl
@[simp] theorem State.raceCount_setTestQueue (s : State) (q : List TestEntry) : (s.setTestQueue q).raceCount = s.raceCount := rfl
@[simp] theorem State.pending_setTestQueue (s : State) (q : List TestEntry) : (s.setTestQueue q).pending = s.pending := rfl

/-! ### setWanted -/

@[simp] theorem State.now_setWanted (s : State) (p : PairNo) (k : Option TestKind) : (s.setWanted p k).now = s.now := rfl
@[simp] theorem State.lines_setWanted (s : State) (p : PairNo) (k : Option TestKind) : (s.setWanted p k).lines = s.lines := rfl
@[simp] theorem State.profiles_setWanted (s : State) (p : PairNo) (k : Option TestKind) : (s.setWanted p k).profiles = s.profiles := rfl
@[simp] theorem State.scan_setWanted (s : State) (p : PairNo) (k : Option TestKind) : (s.setWanted p k).scan = s.scan := rfl
@[simp] theorem State.pool_setWanted (s : State) (p : PairNo) (k : Option TestKind) : (s.setWanted p k).pool = s.pool := rfl
@[simp] theorem State.windows_setWanted (s : State) (p : PairNo) (k : Option TestKind) : (s.setWanted p k).windows = s.windows := rfl
@[simp] theorem State.store_setWanted (s : State) (p : PairNo) (k : Option TestKind) : (s.setWanted p k).store = s.store := rfl
@[simp] theorem State.watch_setWanted (s : State) (p : PairNo) (k : Option TestKind) : (s.setWanted p k).watch = s.watch := rfl
@[simp] theorem State.notices_setWanted (s : State) (p : PairNo) (k : Option TestKind) : (s.setWanted p k).notices = s.notices := rfl
@[simp] theorem State.link_setWanted (s : State) (p : PairNo) (k : Option TestKind) : (s.setWanted p k).link = s.link := rfl
@[simp] theorem State.raceCount_setWanted (s : State) (p : PairNo) (k : Option TestKind) : (s.setWanted p k).raceCount = s.raceCount := rfl
@[simp] theorem State.pending_setWanted (s : State) (p : PairNo) (k : Option TestKind) : (s.setWanted p k).pending = s.pending := rfl

/-! ### setRun -/

@[simp] theorem State.now_setRun (s : State) (r : Option Run) : (s.setRun r).now = s.now := rfl
@[simp] theorem State.lines_setRun (s : State) (r : Option Run) : (s.setRun r).lines = s.lines := rfl
@[simp] theorem State.profiles_setRun (s : State) (r : Option Run) : (s.setRun r).profiles = s.profiles := rfl
@[simp] theorem State.scan_setRun (s : State) (r : Option Run) : (s.setRun r).scan = s.scan := rfl
@[simp] theorem State.pool_setRun (s : State) (r : Option Run) : (s.setRun r).pool = s.pool := rfl
@[simp] theorem State.windows_setRun (s : State) (r : Option Run) : (s.setRun r).windows = s.windows := rfl
@[simp] theorem State.store_setRun (s : State) (r : Option Run) : (s.setRun r).store = s.store := rfl
@[simp] theorem State.watch_setRun (s : State) (r : Option Run) : (s.setRun r).watch = s.watch := rfl
@[simp] theorem State.notices_setRun (s : State) (r : Option Run) : (s.setRun r).notices = s.notices := rfl
@[simp] theorem State.link_setRun (s : State) (r : Option Run) : (s.setRun r).link = s.link := rfl
@[simp] theorem State.raceCount_setRun (s : State) (r : Option Run) : (s.setRun r).raceCount = s.raceCount := rfl
@[simp] theorem State.pending_setRun (s : State) (r : Option Run) : (s.setRun r).pending = s.pending := rfl

/-! ### setOverrun -/

@[simp] theorem State.now_setOverrun (s : State) (n : LineNo) (b : Bool) : (s.setOverrun n b).now = s.now := rfl
@[simp] theorem State.lines_setOverrun (s : State) (n : LineNo) (b : Bool) : (s.setOverrun n b).lines = s.lines := rfl
@[simp] theorem State.profiles_setOverrun (s : State) (n : LineNo) (b : Bool) : (s.setOverrun n b).profiles = s.profiles := rfl
@[simp] theorem State.scan_setOverrun (s : State) (n : LineNo) (b : Bool) : (s.setOverrun n b).scan = s.scan := rfl
@[simp] theorem State.pool_setOverrun (s : State) (n : LineNo) (b : Bool) : (s.setOverrun n b).pool = s.pool := rfl
@[simp] theorem State.windows_setOverrun (s : State) (n : LineNo) (b : Bool) : (s.setOverrun n b).windows = s.windows := rfl
@[simp] theorem State.watch_setOverrun (s : State) (n : LineNo) (b : Bool) : (s.setOverrun n b).watch = s.watch := rfl
@[simp] theorem State.bus_setOverrun (s : State) (n : LineNo) (b : Bool) : (s.setOverrun n b).bus = s.bus := rfl
@[simp] theorem State.notices_setOverrun (s : State) (n : LineNo) (b : Bool) : (s.setOverrun n b).notices = s.notices := rfl
@[simp] theorem State.link_setOverrun (s : State) (n : LineNo) (b : Bool) : (s.setOverrun n b).link = s.link := rfl
@[simp] theorem State.raceCount_setOverrun (s : State) (n : LineNo) (b : Bool) : (s.setOverrun n b).raceCount = s.raceCount := rfl
@[simp] theorem State.pending_setOverrun (s : State) (n : LineNo) (b : Bool) : (s.setOverrun n b).pending = s.pending := rfl

/-! ### setStoreWait -/

@[simp] theorem State.now_setStoreWait (s : State) (n : LineNo) (b : Bool) : (s.setStoreWait n b).now = s.now := rfl
@[simp] theorem State.lines_setStoreWait (s : State) (n : LineNo) (b : Bool) : (s.setStoreWait n b).lines = s.lines := rfl
@[simp] theorem State.profiles_setStoreWait (s : State) (n : LineNo) (b : Bool) : (s.setStoreWait n b).profiles = s.profiles := rfl
@[simp] theorem State.scan_setStoreWait (s : State) (n : LineNo) (b : Bool) : (s.setStoreWait n b).scan = s.scan := rfl
@[simp] theorem State.pool_setStoreWait (s : State) (n : LineNo) (b : Bool) : (s.setStoreWait n b).pool = s.pool := rfl
@[simp] theorem State.windows_setStoreWait (s : State) (n : LineNo) (b : Bool) : (s.setStoreWait n b).windows = s.windows := rfl
@[simp] theorem State.watch_setStoreWait (s : State) (n : LineNo) (b : Bool) : (s.setStoreWait n b).watch = s.watch := rfl
@[simp] theorem State.bus_setStoreWait (s : State) (n : LineNo) (b : Bool) : (s.setStoreWait n b).bus = s.bus := rfl
@[simp] theorem State.notices_setStoreWait (s : State) (n : LineNo) (b : Bool) : (s.setStoreWait n b).notices = s.notices := rfl
@[simp] theorem State.link_setStoreWait (s : State) (n : LineNo) (b : Bool) : (s.setStoreWait n b).link = s.link := rfl
@[simp] theorem State.raceCount_setStoreWait (s : State) (n : LineNo) (b : Bool) : (s.setStoreWait n b).raceCount = s.raceCount := rfl
@[simp] theorem State.pending_setStoreWait (s : State) (n : LineNo) (b : Bool) : (s.setStoreWait n b).pending = s.pending := rfl

/-! ### setCollected -/

@[simp] theorem State.now_setCollected (s : State) (cs : List Byte) : (s.setCollected cs).now = s.now := rfl
@[simp] theorem State.lines_setCollected (s : State) (cs : List Byte) : (s.setCollected cs).lines = s.lines := rfl
@[simp] theorem State.profiles_setCollected (s : State) (cs : List Byte) : (s.setCollected cs).profiles = s.profiles := rfl
@[simp] theorem State.scan_setCollected (s : State) (cs : List Byte) : (s.setCollected cs).scan = s.scan := rfl
@[simp] theorem State.pool_setCollected (s : State) (cs : List Byte) : (s.setCollected cs).pool = s.pool := rfl
@[simp] theorem State.windows_setCollected (s : State) (cs : List Byte) : (s.setCollected cs).windows = s.windows := rfl
@[simp] theorem State.store_setCollected (s : State) (cs : List Byte) : (s.setCollected cs).store = s.store := rfl
@[simp] theorem State.watch_setCollected (s : State) (cs : List Byte) : (s.setCollected cs).watch = s.watch := rfl
@[simp] theorem State.bus_setCollected (s : State) (cs : List Byte) : (s.setCollected cs).bus = s.bus := rfl
@[simp] theorem State.notices_setCollected (s : State) (cs : List Byte) : (s.setCollected cs).notices = s.notices := rfl
@[simp] theorem State.raceCount_setCollected (s : State) (cs : List Byte) : (s.setCollected cs).raceCount = s.raceCount := rfl
@[simp] theorem State.pending_setCollected (s : State) (cs : List Byte) : (s.setCollected cs).pending = s.pending := rfl

/-! ### transmit -/

@[simp] theorem State.now_transmit (s : State) (f : Frame) : (s.transmit f).now = s.now := rfl
@[simp] theorem State.lines_transmit (s : State) (f : Frame) : (s.transmit f).lines = s.lines := rfl
@[simp] theorem State.profiles_transmit (s : State) (f : Frame) : (s.transmit f).profiles = s.profiles := rfl
@[simp] theorem State.scan_transmit (s : State) (f : Frame) : (s.transmit f).scan = s.scan := rfl
@[simp] theorem State.pool_transmit (s : State) (f : Frame) : (s.transmit f).pool = s.pool := rfl
@[simp] theorem State.windows_transmit (s : State) (f : Frame) : (s.transmit f).windows = s.windows := rfl
@[simp] theorem State.store_transmit (s : State) (f : Frame) : (s.transmit f).store = s.store := rfl
@[simp] theorem State.watch_transmit (s : State) (f : Frame) : (s.transmit f).watch = s.watch := rfl
@[simp] theorem State.bus_transmit (s : State) (f : Frame) : (s.transmit f).bus = s.bus := rfl
@[simp] theorem State.notices_transmit (s : State) (f : Frame) : (s.transmit f).notices = s.notices := rfl
@[simp] theorem State.raceCount_transmit (s : State) (f : Frame) : (s.transmit f).raceCount = s.raceCount := rfl
@[simp] theorem State.pending_transmit (s : State) (f : Frame) : (s.transmit f).pending = s.pending := rfl

/-! ### pushReply -/

@[simp] theorem State.now_pushReply (s : State) (f : Frame) : (s.pushReply f).now = s.now := rfl
@[simp] theorem State.lines_pushReply (s : State) (f : Frame) : (s.pushReply f).lines = s.lines := rfl
@[simp] theorem State.profiles_pushReply (s : State) (f : Frame) : (s.pushReply f).profiles = s.profiles := rfl
@[simp] theorem State.scan_pushReply (s : State) (f : Frame) : (s.pushReply f).scan = s.scan := rfl
@[simp] theorem State.pool_pushReply (s : State) (f : Frame) : (s.pushReply f).pool = s.pool := rfl
@[simp] theorem State.windows_pushReply (s : State) (f : Frame) : (s.pushReply f).windows = s.windows := rfl
@[simp] theorem State.store_pushReply (s : State) (f : Frame) : (s.pushReply f).store = s.store := rfl
@[simp] theorem State.watch_pushReply (s : State) (f : Frame) : (s.pushReply f).watch = s.watch := rfl
@[simp] theorem State.bus_pushReply (s : State) (f : Frame) : (s.pushReply f).bus = s.bus := rfl
@[simp] theorem State.notices_pushReply (s : State) (f : Frame) : (s.pushReply f).notices = s.notices := rfl
@[simp] theorem State.raceCount_pushReply (s : State) (f : Frame) : (s.pushReply f).raceCount = s.raceCount := rfl
@[simp] theorem State.pending_pushReply (s : State) (f : Frame) : (s.pushReply f).pending = s.pending := rfl

/-! ### takeEntry -/

@[simp] theorem State.now_takeEntry (s : State) (c : Fin 4) (e : NoticeEntry) : (s.takeEntry c e).now = s.now := rfl
@[simp] theorem State.lines_takeEntry (s : State) (c : Fin 4) (e : NoticeEntry) : (s.takeEntry c e).lines = s.lines := rfl
@[simp] theorem State.profiles_takeEntry (s : State) (c : Fin 4) (e : NoticeEntry) : (s.takeEntry c e).profiles = s.profiles := rfl
@[simp] theorem State.scan_takeEntry (s : State) (c : Fin 4) (e : NoticeEntry) : (s.takeEntry c e).scan = s.scan := rfl
@[simp] theorem State.pool_takeEntry (s : State) (c : Fin 4) (e : NoticeEntry) : (s.takeEntry c e).pool = s.pool := rfl
@[simp] theorem State.windows_takeEntry (s : State) (c : Fin 4) (e : NoticeEntry) : (s.takeEntry c e).windows = s.windows := rfl
@[simp] theorem State.store_takeEntry (s : State) (c : Fin 4) (e : NoticeEntry) : (s.takeEntry c e).store = s.store := rfl
@[simp] theorem State.watch_takeEntry (s : State) (c : Fin 4) (e : NoticeEntry) : (s.takeEntry c e).watch = s.watch := rfl
@[simp] theorem State.bus_takeEntry (s : State) (c : Fin 4) (e : NoticeEntry) : (s.takeEntry c e).bus = s.bus := rfl
@[simp] theorem State.link_takeEntry (s : State) (c : Fin 4) (e : NoticeEntry) : (s.takeEntry c e).link = s.link := rfl
@[simp] theorem State.raceCount_takeEntry (s : State) (c : Fin 4) (e : NoticeEntry) : (s.takeEntry c e).raceCount = s.raceCount := rfl
@[simp] theorem State.pending_takeEntry (s : State) (c : Fin 4) (e : NoticeEntry) : (s.takeEntry c e).pending = s.pending := rfl

/-! ### modLine, through setLine -/

theorem State.modLine_eq (s : State) (n : LineNo) (f : Line → Line) : s.modLine n f = s.setLine n (f (s.line n)) := rfl
@[simp] theorem State.now_modLine (s : State) (n : LineNo) (f : Line → Line) : (s.modLine n f).now = s.now := rfl
@[simp] theorem State.profiles_modLine (s : State) (n : LineNo) (f : Line → Line) : (s.modLine n f).profiles = s.profiles := rfl
@[simp] theorem State.scan_modLine (s : State) (n : LineNo) (f : Line → Line) : (s.modLine n f).scan = s.scan := rfl
@[simp] theorem State.pool_modLine (s : State) (n : LineNo) (f : Line → Line) : (s.modLine n f).pool = s.pool := rfl
@[simp] theorem State.windows_modLine (s : State) (n : LineNo) (f : Line → Line) : (s.modLine n f).windows = s.windows := rfl
@[simp] theorem State.store_modLine (s : State) (n : LineNo) (f : Line → Line) : (s.modLine n f).store = s.store := rfl
@[simp] theorem State.watch_modLine (s : State) (n : LineNo) (f : Line → Line) : (s.modLine n f).watch = s.watch := rfl
@[simp] theorem State.bus_modLine (s : State) (n : LineNo) (f : Line → Line) : (s.modLine n f).bus = s.bus := rfl
@[simp] theorem State.notices_modLine (s : State) (n : LineNo) (f : Line → Line) : (s.modLine n f).notices = s.notices := rfl
@[simp] theorem State.link_modLine (s : State) (n : LineNo) (f : Line → Line) : (s.modLine n f).link = s.link := rfl
@[simp] theorem State.raceCount_modLine (s : State) (n : LineNo) (f : Line → Line) : (s.modLine n f).raceCount = s.raceCount := rfl
@[simp] theorem State.pending_modLine (s : State) (n : LineNo) (f : Line → Line) : (s.modLine n f).pending = s.pending := rfl

/-! ### raise -/

@[simp] theorem State.now_raise (s : State) (src : Source) (k : Kind) (t : Option Time) :
    (s.raise src k t).now = s.now := by
  unfold State.raise; split <;> rfl
@[simp] theorem State.lines_raise (s : State) (src : Source) (k : Kind) (t : Option Time) :
    (s.raise src k t).lines = s.lines := by
  unfold State.raise; split <;> rfl
@[simp] theorem State.profiles_raise (s : State) (src : Source) (k : Kind) (t : Option Time) :
    (s.raise src k t).profiles = s.profiles := by
  unfold State.raise; split <;> rfl
@[simp] theorem State.scan_raise (s : State) (src : Source) (k : Kind) (t : Option Time) :
    (s.raise src k t).scan = s.scan := by
  unfold State.raise; split <;> rfl
@[simp] theorem State.pool_raise (s : State) (src : Source) (k : Kind) (t : Option Time) :
    (s.raise src k t).pool = s.pool := by
  unfold State.raise; split <;> rfl
@[simp] theorem State.windows_raise (s : State) (src : Source) (k : Kind) (t : Option Time) :
    (s.raise src k t).windows = s.windows := by
  unfold State.raise; split <;> rfl
@[simp] theorem State.store_raise (s : State) (src : Source) (k : Kind) (t : Option Time) :
    (s.raise src k t).store = s.store := by
  unfold State.raise; split <;> rfl
@[simp] theorem State.watch_raise (s : State) (src : Source) (k : Kind) (t : Option Time) :
    (s.raise src k t).watch = s.watch := by
  unfold State.raise; split <;> rfl
@[simp] theorem State.bus_raise (s : State) (src : Source) (k : Kind) (t : Option Time) :
    (s.raise src k t).bus = s.bus := by
  unfold State.raise; split <;> rfl
@[simp] theorem State.link_raise (s : State) (src : Source) (k : Kind) (t : Option Time) :
    (s.raise src k t).link = s.link := by
  unfold State.raise; split <;> rfl
@[simp] theorem State.raceCount_raise (s : State) (src : Source) (k : Kind) (t : Option Time) :
    (s.raise src k t).raceCount = s.raceCount := by
  unfold State.raise; split <;> rfl
@[simp] theorem State.pending_raise (s : State) (src : Source) (k : Kind) (t : Option Time) :
    (s.raise src k t).pending = s.pending := by
  unfold State.raise; split <;> rfl

/-! ### setOutstanding -/

@[simp] theorem State.now_setOutstanding (s : State) (p : PairNo) (x : Option Time) : (s.setOutstanding p x).now = s.now := rfl
@[simp] theorem State.lines_setOutstanding (s : State) (p : PairNo) (x : Option Time) : (s.setOutstanding p x).lines = s.lines := rfl
@[simp] theorem State.profiles_setOutstanding (s : State) (p : PairNo) (x : Option Time) : (s.setOutstanding p x).profiles = s.profiles := rfl
@[simp] theorem State.pool_setOutstanding (s : State) (p : PairNo) (x : Option Time) : (s.setOutstanding p x).pool = s.pool := rfl
@[simp] theorem State.windows_setOutstanding (s : State) (p : PairNo) (x : Option Time) : (s.setOutstanding p x).windows = s.windows := rfl
@[simp] theorem State.store_setOutstanding (s : State) (p : PairNo) (x : Option Time) : (s.setOutstanding p x).store = s.store := rfl
@[simp] theorem State.watch_setOutstanding (s : State) (p : PairNo) (x : Option Time) : (s.setOutstanding p x).watch = s.watch := rfl
@[simp] theorem State.bus_setOutstanding (s : State) (p : PairNo) (x : Option Time) : (s.setOutstanding p x).bus = s.bus := rfl
@[simp] theorem State.notices_setOutstanding (s : State) (p : PairNo) (x : Option Time) : (s.setOutstanding p x).notices = s.notices := rfl
@[simp] theorem State.link_setOutstanding (s : State) (p : PairNo) (x : Option Time) : (s.setOutstanding p x).link = s.link := rfl
@[simp] theorem State.raceCount_setOutstanding (s : State) (p : PairNo) (x : Option Time) : (s.setOutstanding p x).raceCount = s.raceCount := rfl
@[simp] theorem State.pending_setOutstanding (s : State) (p : PairNo) (x : Option Time) : (s.setOutstanding p x).pending = s.pending := rfl
@[simp] theorem State.line_setOutstanding (s : State) (p : PairNo) (x : Option Time) (n : LineNo) :
    (s.setOutstanding p x).line n = s.line n := rfl
@[simp] theorem State.scanRec_setOutstanding (s : State) (p : PairNo) (x : Option Time) (q : PairNo) :
    (s.setOutstanding p x).scanRec q = s.scanRec q := rfl
@[simp] theorem State.fault_setOutstanding (s : State) (p : PairNo) (x : Option Time) (q : PairNo) :
    (s.setOutstanding p x).fault q = s.fault q := rfl
@[simp] theorem State.binder_setOutstanding (s : State) (p : PairNo) (x : Option Time) (b : BinderNo) :
    (s.setOutstanding p x).binder b = s.binder b := rfl
@[simp] theorem State.onBus_setOutstanding (s : State) (p : PairNo) (x : Option Time) (q : PairNo) :
    (s.setOutstanding p x).onBus q = s.onBus q := rfl
@[simp] theorem State.served_setOutstanding (s : State) (p : PairNo) (x : Option Time) (q : PairNo) :
    (s.setOutstanding p x).served q = s.served q := rfl

/-! ### enablePoints and disablePoints -/

@[simp] theorem State.now_enablePoints (s : State) (k : BitVec 8) (x : BitVec 145) : (s.enablePoints k x).now = s.now := by
  simp only [State.enablePoints]
@[simp] theorem State.lines_enablePoints (s : State) (k : BitVec 8) (x : BitVec 145) : (s.enablePoints k x).lines = s.lines := by
  simp only [State.enablePoints]
@[simp] theorem State.profiles_enablePoints (s : State) (k : BitVec 8) (x : BitVec 145) : (s.enablePoints k x).profiles = s.profiles := by
  simp only [State.enablePoints]
@[simp] theorem State.scan_enablePoints (s : State) (k : BitVec 8) (x : BitVec 145) : (s.enablePoints k x).scan = s.scan := by
  simp only [State.enablePoints]
@[simp] theorem State.pool_enablePoints (s : State) (k : BitVec 8) (x : BitVec 145) : (s.enablePoints k x).pool = s.pool := by
  simp only [State.enablePoints]
@[simp] theorem State.windows_enablePoints (s : State) (k : BitVec 8) (x : BitVec 145) : (s.enablePoints k x).windows = s.windows := by
  simp only [State.enablePoints]
@[simp] theorem State.store_enablePoints (s : State) (k : BitVec 8) (x : BitVec 145) : (s.enablePoints k x).store = s.store := by
  simp only [State.enablePoints]
@[simp] theorem State.watch_enablePoints (s : State) (k : BitVec 8) (x : BitVec 145) : (s.enablePoints k x).watch = s.watch := by
  simp only [State.enablePoints]
@[simp] theorem State.bus_enablePoints (s : State) (k : BitVec 8) (x : BitVec 145) : (s.enablePoints k x).bus = s.bus := by
  simp only [State.enablePoints]
@[simp] theorem State.link_enablePoints (s : State) (k : BitVec 8) (x : BitVec 145) : (s.enablePoints k x).link = s.link := by
  simp only [State.enablePoints]
@[simp] theorem State.raceCount_enablePoints (s : State) (k : BitVec 8) (x : BitVec 145) : (s.enablePoints k x).raceCount = s.raceCount := by
  simp only [State.enablePoints]
@[simp] theorem State.pending_enablePoints (s : State) (k : BitVec 8) (x : BitVec 145) : (s.enablePoints k x).pending = s.pending := by
  simp only [State.enablePoints]
@[simp] theorem State.line_enablePoints (s : State) (k : BitVec 8) (x : BitVec 145) (n : LineNo) :
    (s.enablePoints k x).line n = s.line n := by
  simp only [State.line, State.enablePoints]
@[simp] theorem State.detector_enablePoints (s : State) (k : BitVec 8) (x : BitVec 145) (d : DetectorNo) :
    (s.enablePoints k x).detector d = s.detector d := by
  simp only [State.detector, State.enablePoints]
@[simp] theorem State.onBus_enablePoints (s : State) (k : BitVec 8) (x : BitVec 145) (p : PairNo) :
    (s.enablePoints k x).onBus p = s.onBus p := by
  simp only [State.onBus, State.enablePoints]
@[simp] theorem State.now_disablePoints (s : State) (k : BitVec 8) (x : BitVec 145) : (s.disablePoints k x).now = s.now := by
  simp only [State.disablePoints]
@[simp] theorem State.lines_disablePoints (s : State) (k : BitVec 8) (x : BitVec 145) : (s.disablePoints k x).lines = s.lines := by
  simp only [State.disablePoints]
@[simp] theorem State.profiles_disablePoints (s : State) (k : BitVec 8) (x : BitVec 145) : (s.disablePoints k x).profiles = s.profiles := by
  simp only [State.disablePoints]
@[simp] theorem State.scan_disablePoints (s : State) (k : BitVec 8) (x : BitVec 145) : (s.disablePoints k x).scan = s.scan := by
  simp only [State.disablePoints]
@[simp] theorem State.pool_disablePoints (s : State) (k : BitVec 8) (x : BitVec 145) : (s.disablePoints k x).pool = s.pool := by
  simp only [State.disablePoints]
@[simp] theorem State.windows_disablePoints (s : State) (k : BitVec 8) (x : BitVec 145) : (s.disablePoints k x).windows = s.windows := by
  simp only [State.disablePoints]
@[simp] theorem State.store_disablePoints (s : State) (k : BitVec 8) (x : BitVec 145) : (s.disablePoints k x).store = s.store := by
  simp only [State.disablePoints]
@[simp] theorem State.watch_disablePoints (s : State) (k : BitVec 8) (x : BitVec 145) : (s.disablePoints k x).watch = s.watch := by
  simp only [State.disablePoints]
@[simp] theorem State.bus_disablePoints (s : State) (k : BitVec 8) (x : BitVec 145) : (s.disablePoints k x).bus = s.bus := by
  simp only [State.disablePoints]
@[simp] theorem State.link_disablePoints (s : State) (k : BitVec 8) (x : BitVec 145) : (s.disablePoints k x).link = s.link := by
  simp only [State.disablePoints]
@[simp] theorem State.raceCount_disablePoints (s : State) (k : BitVec 8) (x : BitVec 145) : (s.disablePoints k x).raceCount = s.raceCount := by
  simp only [State.disablePoints]
@[simp] theorem State.pending_disablePoints (s : State) (k : BitVec 8) (x : BitVec 145) : (s.disablePoints k x).pending = s.pending := by
  simp only [State.disablePoints]
@[simp] theorem State.line_disablePoints (s : State) (k : BitVec 8) (x : BitVec 145) (n : LineNo) :
    (s.disablePoints k x).line n = s.line n := by
  simp only [State.line, State.disablePoints]
@[simp] theorem State.detector_disablePoints (s : State) (k : BitVec 8) (x : BitVec 145) (d : DetectorNo) :
    (s.disablePoints k x).detector d = s.detector d := by
  simp only [State.detector, State.disablePoints]
@[simp] theorem State.onBus_disablePoints (s : State) (k : BitVec 8) (x : BitVec 145) (p : PairNo) :
    (s.disablePoints k x).onBus p = s.onBus p := by
  simp only [State.onBus, State.disablePoints]
@[simp] theorem State.entries_enablePoints (s : State) (k : BitVec 8) (x : BitVec 145) :
    (s.enablePoints k x).notices.entries = s.notices.entries := by
  simp only [State.enablePoints]

/-! ### Named reads after named writes of another component -/

@[simp] theorem State.line_setScanRec (s : State) (p : PairNo) (r : ScanRec) (m : LineNo) : (s.setScanRec p r).line m = s.line m := rfl
@[simp] theorem State.line_setFault (s : State) (p : PairNo) (r : FaultRec) (m : LineNo) : (s.setFault p r).line m = s.line m := rfl
@[simp] theorem State.line_setBinder (s : State) (b : BinderNo) (r : Binder) (m : LineNo) : (s.setBinder b r).line m = s.line m := rfl
@[simp] theorem State.line_setDetector (s : State) (d : DetectorNo) (x : Detector) (m : LineNo) : (s.setDetector d x).line m = s.line m := rfl
@[simp] theorem State.line_setDetectorQueue (s : State) (q : List Waiter) (m : LineNo) : (s.setDetectorQueue q).line m = s.line m := rfl
@[simp] theorem State.line_sendTest (s : State) (m : TestPortMsg) (m' : LineNo) : (s.sendTest m).line m' = s.line m' := rfl
@[simp] theorem State.line_sendSense (s : State) (m : SensePortMsg) (m' : LineNo) : (s.sendSense m).line m' = s.line m' := rfl
@[simp] theorem State.line_setTestQueue (s : State) (q : List TestEntry) (m : LineNo) : (s.setTestQueue q).line m = s.line m := rfl
@[simp] theorem State.line_setWanted (s : State) (p : PairNo) (k : Option TestKind) (m : LineNo) : (s.setWanted p k).line m = s.line m := rfl
@[simp] theorem State.line_setRun (s : State) (r : Option Run) (m : LineNo) : (s.setRun r).line m = s.line m := rfl
@[simp] theorem State.line_setOverrun (s : State) (n : LineNo) (b : Bool) (m : LineNo) : (s.setOverrun n b).line m = s.line m := rfl
@[simp] theorem State.line_setStoreWait (s : State) (n : LineNo) (b : Bool) (m : LineNo) : (s.setStoreWait n b).line m = s.line m := rfl
@[simp] theorem State.line_setCollected (s : State) (cs : List Byte) (m : LineNo) : (s.setCollected cs).line m = s.line m := rfl
@[simp] theorem State.line_transmit (s : State) (f : Frame) (m : LineNo) : (s.transmit f).line m = s.line m := rfl
@[simp] theorem State.line_pushReply (s : State) (f : Frame) (m : LineNo) : (s.pushReply f).line m = s.line m := rfl
@[simp] theorem State.line_takeEntry (s : State) (c : Fin 4) (e : NoticeEntry) (m : LineNo) : (s.takeEntry c e).line m = s.line m := rfl
@[simp] theorem State.line_raise (s : State) (src : Source) (k : Kind) (t : Option Time) (m : LineNo) :
    (s.raise src k t).line m = s.line m := by
  unfold State.raise; split <;> rfl

@[simp] theorem State.scanRec_setLine (s : State) (n : LineNo) (l : Line) (q : PairNo) : (s.setLine n l).scanRec q = s.scanRec q := rfl
@[simp] theorem State.scanRec_setFault (s : State) (p : PairNo) (r : FaultRec) (q : PairNo) : (s.setFault p r).scanRec q = s.scanRec q := rfl
@[simp] theorem State.scanRec_setBinder (s : State) (b : BinderNo) (r : Binder) (q : PairNo) : (s.setBinder b r).scanRec q = s.scanRec q := rfl
@[simp] theorem State.scanRec_setDetector (s : State) (d : DetectorNo) (x : Detector) (q : PairNo) : (s.setDetector d x).scanRec q = s.scanRec q := rfl
@[simp] theorem State.scanRec_setDetectorQueue (s : State) (q : List Waiter) (q' : PairNo) : (s.setDetectorQueue q).scanRec q' = s.scanRec q' := rfl
@[simp] theorem State.scanRec_sendTest (s : State) (m : TestPortMsg) (q : PairNo) : (s.sendTest m).scanRec q = s.scanRec q := rfl
@[simp] theorem State.scanRec_sendSense (s : State) (m : SensePortMsg) (q : PairNo) : (s.sendSense m).scanRec q = s.scanRec q := rfl
@[simp] theorem State.scanRec_setTestQueue (s : State) (q : List TestEntry) (q' : PairNo) : (s.setTestQueue q).scanRec q' = s.scanRec q' := rfl
@[simp] theorem State.scanRec_setWanted (s : State) (p : PairNo) (k : Option TestKind) (q : PairNo) : (s.setWanted p k).scanRec q = s.scanRec q := rfl
@[simp] theorem State.scanRec_setRun (s : State) (r : Option Run) (q : PairNo) : (s.setRun r).scanRec q = s.scanRec q := rfl
@[simp] theorem State.scanRec_setOverrun (s : State) (n : LineNo) (b : Bool) (q : PairNo) : (s.setOverrun n b).scanRec q = s.scanRec q := rfl
@[simp] theorem State.scanRec_setStoreWait (s : State) (n : LineNo) (b : Bool) (q : PairNo) : (s.setStoreWait n b).scanRec q = s.scanRec q := rfl
@[simp] theorem State.scanRec_setCollected (s : State) (cs : List Byte) (q : PairNo) : (s.setCollected cs).scanRec q = s.scanRec q := rfl
@[simp] theorem State.scanRec_transmit (s : State) (f : Frame) (q : PairNo) : (s.transmit f).scanRec q = s.scanRec q := rfl
@[simp] theorem State.scanRec_pushReply (s : State) (f : Frame) (q : PairNo) : (s.pushReply f).scanRec q = s.scanRec q := rfl
@[simp] theorem State.scanRec_takeEntry (s : State) (c : Fin 4) (e : NoticeEntry) (q : PairNo) : (s.takeEntry c e).scanRec q = s.scanRec q := rfl
@[simp] theorem State.scanRec_modLine (s : State) (n : LineNo) (f : Line → Line) (q : PairNo) : (s.modLine n f).scanRec q = s.scanRec q := rfl
@[simp] theorem State.scanRec_raise (s : State) (src : Source) (k : Kind) (t : Option Time) (q : PairNo) :
    (s.raise src k t).scanRec q = s.scanRec q := by
  unfold State.raise; split <;> rfl

@[simp] theorem State.fault_setLine (s : State) (n : LineNo) (l : Line) (q : PairNo) : (s.setLine n l).fault q = s.fault q := rfl
@[simp] theorem State.fault_setScanRec (s : State) (p : PairNo) (r : ScanRec) (q : PairNo) : (s.setScanRec p r).fault q = s.fault q := rfl
@[simp] theorem State.fault_setDetector (s : State) (d : DetectorNo) (x : Detector) (q : PairNo) : (s.setDetector d x).fault q = s.fault q := rfl
@[simp] theorem State.fault_setDetectorQueue (s : State) (q : List Waiter) (q' : PairNo) : (s.setDetectorQueue q).fault q' = s.fault q' := rfl
@[simp] theorem State.fault_sendTest (s : State) (m : TestPortMsg) (q : PairNo) : (s.sendTest m).fault q = s.fault q := rfl
@[simp] theorem State.fault_sendSense (s : State) (m : SensePortMsg) (q : PairNo) : (s.sendSense m).fault q = s.fault q := rfl
@[simp] theorem State.fault_setTestQueue (s : State) (q : List TestEntry) (q' : PairNo) : (s.setTestQueue q).fault q' = s.fault q' := rfl
@[simp] theorem State.fault_setWanted (s : State) (p : PairNo) (k : Option TestKind) (q : PairNo) : (s.setWanted p k).fault q = s.fault q := rfl
@[simp] theorem State.fault_setRun (s : State) (r : Option Run) (q : PairNo) : (s.setRun r).fault q = s.fault q := rfl
@[simp] theorem State.fault_setOverrun (s : State) (n : LineNo) (b : Bool) (q : PairNo) : (s.setOverrun n b).fault q = s.fault q := rfl
@[simp] theorem State.fault_setStoreWait (s : State) (n : LineNo) (b : Bool) (q : PairNo) : (s.setStoreWait n b).fault q = s.fault q := rfl
@[simp] theorem State.fault_setCollected (s : State) (cs : List Byte) (q : PairNo) : (s.setCollected cs).fault q = s.fault q := rfl
@[simp] theorem State.fault_transmit (s : State) (f : Frame) (q : PairNo) : (s.transmit f).fault q = s.fault q := rfl
@[simp] theorem State.fault_pushReply (s : State) (f : Frame) (q : PairNo) : (s.pushReply f).fault q = s.fault q := rfl
@[simp] theorem State.fault_takeEntry (s : State) (c : Fin 4) (e : NoticeEntry) (q : PairNo) : (s.takeEntry c e).fault q = s.fault q := rfl
@[simp] theorem State.fault_modLine (s : State) (n : LineNo) (f : Line → Line) (q : PairNo) : (s.modLine n f).fault q = s.fault q := rfl
@[simp] theorem State.fault_raise (s : State) (src : Source) (k : Kind) (t : Option Time) (q : PairNo) :
    (s.raise src k t).fault q = s.fault q := by
  unfold State.raise; split <;> rfl

@[simp] theorem State.binder_setLine (s : State) (n : LineNo) (l : Line) (c : BinderNo) : (s.setLine n l).binder c = s.binder c := rfl
@[simp] theorem State.binder_setScanRec (s : State) (p : PairNo) (r : ScanRec) (c : BinderNo) : (s.setScanRec p r).binder c = s.binder c := rfl
@[simp] theorem State.binder_setDetector (s : State) (d : DetectorNo) (x : Detector) (c : BinderNo) : (s.setDetector d x).binder c = s.binder c := rfl
@[simp] theorem State.binder_setDetectorQueue (s : State) (q : List Waiter) (c : BinderNo) : (s.setDetectorQueue q).binder c = s.binder c := rfl
@[simp] theorem State.binder_sendTest (s : State) (m : TestPortMsg) (c : BinderNo) : (s.sendTest m).binder c = s.binder c := rfl
@[simp] theorem State.binder_sendSense (s : State) (m : SensePortMsg) (c : BinderNo) : (s.sendSense m).binder c = s.binder c := rfl
@[simp] theorem State.binder_setTestQueue (s : State) (q : List TestEntry) (c : BinderNo) : (s.setTestQueue q).binder c = s.binder c := rfl
@[simp] theorem State.binder_setWanted (s : State) (p : PairNo) (k : Option TestKind) (c : BinderNo) : (s.setWanted p k).binder c = s.binder c := rfl
@[simp] theorem State.binder_setRun (s : State) (r : Option Run) (c : BinderNo) : (s.setRun r).binder c = s.binder c := rfl
@[simp] theorem State.binder_setOverrun (s : State) (n : LineNo) (b : Bool) (c : BinderNo) : (s.setOverrun n b).binder c = s.binder c := rfl
@[simp] theorem State.binder_setStoreWait (s : State) (n : LineNo) (b : Bool) (c : BinderNo) : (s.setStoreWait n b).binder c = s.binder c := rfl
@[simp] theorem State.binder_setCollected (s : State) (cs : List Byte) (c : BinderNo) : (s.setCollected cs).binder c = s.binder c := rfl
@[simp] theorem State.binder_transmit (s : State) (f : Frame) (c : BinderNo) : (s.transmit f).binder c = s.binder c := rfl
@[simp] theorem State.binder_pushReply (s : State) (f : Frame) (c : BinderNo) : (s.pushReply f).binder c = s.binder c := rfl
@[simp] theorem State.binder_takeEntry (s : State) (i : Fin 4) (e : NoticeEntry) (c : BinderNo) : (s.takeEntry i e).binder c = s.binder c := rfl
@[simp] theorem State.binder_modLine (s : State) (n : LineNo) (f : Line → Line) (c : BinderNo) : (s.modLine n f).binder c = s.binder c := rfl
@[simp] theorem State.binder_raise (s : State) (src : Source) (k : Kind) (t : Option Time) (c : BinderNo) :
    (s.raise src k t).binder c = s.binder c := by
  unfold State.raise; split <;> rfl

@[simp] theorem State.detector_setLine (s : State) (n : LineNo) (l : Line) (e : DetectorNo) : (s.setLine n l).detector e = s.detector e := rfl
@[simp] theorem State.detector_setScanRec (s : State) (p : PairNo) (r : ScanRec) (e : DetectorNo) : (s.setScanRec p r).detector e = s.detector e := rfl
@[simp] theorem State.detector_setFault (s : State) (p : PairNo) (r : FaultRec) (e : DetectorNo) : (s.setFault p r).detector e = s.detector e := rfl
@[simp] theorem State.detector_setBinder (s : State) (b : BinderNo) (r : Binder) (e : DetectorNo) : (s.setBinder b r).detector e = s.detector e := rfl
@[simp] theorem State.detector_sendTest (s : State) (m : TestPortMsg) (e : DetectorNo) : (s.sendTest m).detector e = s.detector e := rfl
@[simp] theorem State.detector_sendSense (s : State) (m : SensePortMsg) (e : DetectorNo) : (s.sendSense m).detector e = s.detector e := rfl
@[simp] theorem State.detector_setTestQueue (s : State) (q : List TestEntry) (e : DetectorNo) : (s.setTestQueue q).detector e = s.detector e := rfl
@[simp] theorem State.detector_setWanted (s : State) (p : PairNo) (k : Option TestKind) (e : DetectorNo) : (s.setWanted p k).detector e = s.detector e := rfl
@[simp] theorem State.detector_setRun (s : State) (r : Option Run) (e : DetectorNo) : (s.setRun r).detector e = s.detector e := rfl
@[simp] theorem State.detector_setOverrun (s : State) (n : LineNo) (b : Bool) (e : DetectorNo) : (s.setOverrun n b).detector e = s.detector e := rfl
@[simp] theorem State.detector_setStoreWait (s : State) (n : LineNo) (b : Bool) (e : DetectorNo) : (s.setStoreWait n b).detector e = s.detector e := rfl
@[simp] theorem State.detector_setCollected (s : State) (cs : List Byte) (e : DetectorNo) : (s.setCollected cs).detector e = s.detector e := rfl
@[simp] theorem State.detector_transmit (s : State) (f : Frame) (e : DetectorNo) : (s.transmit f).detector e = s.detector e := rfl
@[simp] theorem State.detector_pushReply (s : State) (f : Frame) (e : DetectorNo) : (s.pushReply f).detector e = s.detector e := rfl
@[simp] theorem State.detector_takeEntry (s : State) (c : Fin 4) (x : NoticeEntry) (e : DetectorNo) : (s.takeEntry c x).detector e = s.detector e := rfl
@[simp] theorem State.detector_modLine (s : State) (n : LineNo) (f : Line → Line) (e : DetectorNo) : (s.modLine n f).detector e = s.detector e := rfl
@[simp] theorem State.detector_raise (s : State) (src : Source) (k : Kind) (t : Option Time) (e : DetectorNo) :
    (s.raise src k t).detector e = s.detector e := by
  unfold State.raise; split <;> rfl

@[simp] theorem State.onBus_setLine (s : State) (n : LineNo) (l : Line) (q : PairNo) : (s.setLine n l).onBus q = s.onBus q := rfl
@[simp] theorem State.onBus_setScanRec (s : State) (p : PairNo) (r : ScanRec) (q : PairNo) : (s.setScanRec p r).onBus q = s.onBus q := rfl
@[simp] theorem State.onBus_setFault (s : State) (p : PairNo) (r : FaultRec) (q : PairNo) : (s.setFault p r).onBus q = s.onBus q := rfl
@[simp] theorem State.onBus_setBinder (s : State) (b : BinderNo) (r : Binder) (q : PairNo) : (s.setBinder b r).onBus q = s.onBus q := rfl
@[simp] theorem State.onBus_setDetector (s : State) (d : DetectorNo) (x : Detector) (q : PairNo) : (s.setDetector d x).onBus q = s.onBus q := rfl
@[simp] theorem State.onBus_setDetectorQueue (s : State) (q : List Waiter) (q' : PairNo) : (s.setDetectorQueue q).onBus q' = s.onBus q' := rfl
@[simp] theorem State.onBus_setOverrun (s : State) (n : LineNo) (b : Bool) (q : PairNo) : (s.setOverrun n b).onBus q = s.onBus q := rfl
@[simp] theorem State.onBus_setStoreWait (s : State) (n : LineNo) (b : Bool) (q : PairNo) : (s.setStoreWait n b).onBus q = s.onBus q := rfl
@[simp] theorem State.onBus_setCollected (s : State) (cs : List Byte) (q : PairNo) : (s.setCollected cs).onBus q = s.onBus q := rfl
@[simp] theorem State.onBus_transmit (s : State) (f : Frame) (q : PairNo) : (s.transmit f).onBus q = s.onBus q := rfl
@[simp] theorem State.onBus_pushReply (s : State) (f : Frame) (q : PairNo) : (s.pushReply f).onBus q = s.onBus q := rfl
@[simp] theorem State.onBus_takeEntry (s : State) (c : Fin 4) (e : NoticeEntry) (q : PairNo) : (s.takeEntry c e).onBus q = s.onBus q := rfl
@[simp] theorem State.onBus_modLine (s : State) (n : LineNo) (f : Line → Line) (q : PairNo) : (s.modLine n f).onBus q = s.onBus q := rfl
@[simp] theorem State.onBus_raise (s : State) (src : Source) (k : Kind) (t : Option Time) (q : PairNo) :
    (s.raise src k t).onBus q = s.onBus q := by
  unfold State.raise; split <;> rfl

@[simp] theorem State.barred_setLine (s : State) (n : LineNo) (l : Line) (m : LineNo) : (s.setLine n l).barred m = s.barred m := rfl
@[simp] theorem State.barred_setScanRec (s : State) (p : PairNo) (r : ScanRec) (m : LineNo) : (s.setScanRec p r).barred m = s.barred m := rfl
@[simp] theorem State.barred_setFault (s : State) (p : PairNo) (r : FaultRec) (m : LineNo) : (s.setFault p r).barred m = s.barred m := rfl
@[simp] theorem State.barred_setBinder (s : State) (b : BinderNo) (r : Binder) (m : LineNo) : (s.setBinder b r).barred m = s.barred m := rfl
@[simp] theorem State.barred_setDetector (s : State) (d : DetectorNo) (x : Detector) (m : LineNo) : (s.setDetector d x).barred m = s.barred m := rfl
@[simp] theorem State.barred_setDetectorQueue (s : State) (q : List Waiter) (m : LineNo) : (s.setDetectorQueue q).barred m = s.barred m := rfl
@[simp] theorem State.barred_sendTest (s : State) (m : TestPortMsg) (m' : LineNo) : (s.sendTest m).barred m' = s.barred m' := rfl
@[simp] theorem State.barred_sendSense (s : State) (m : SensePortMsg) (m' : LineNo) : (s.sendSense m).barred m' = s.barred m' := rfl
@[simp] theorem State.barred_setTestQueue (s : State) (q : List TestEntry) (m : LineNo) : (s.setTestQueue q).barred m = s.barred m := rfl
@[simp] theorem State.barred_setWanted (s : State) (p : PairNo) (k : Option TestKind) (m : LineNo) : (s.setWanted p k).barred m = s.barred m := rfl
@[simp] theorem State.barred_setRun (s : State) (r : Option Run) (m : LineNo) : (s.setRun r).barred m = s.barred m := rfl
@[simp] theorem State.barred_setCollected (s : State) (cs : List Byte) (m : LineNo) : (s.setCollected cs).barred m = s.barred m := rfl
@[simp] theorem State.barred_transmit (s : State) (f : Frame) (m : LineNo) : (s.transmit f).barred m = s.barred m := rfl
@[simp] theorem State.barred_pushReply (s : State) (f : Frame) (m : LineNo) : (s.pushReply f).barred m = s.barred m := rfl
@[simp] theorem State.barred_takeEntry (s : State) (c : Fin 4) (e : NoticeEntry) (m : LineNo) : (s.takeEntry c e).barred m = s.barred m := rfl
@[simp] theorem State.barred_modLine (s : State) (n : LineNo) (f : Line → Line) (m : LineNo) : (s.modLine n f).barred m = s.barred m := rfl
@[simp] theorem State.barred_raise (s : State) (src : Source) (k : Kind) (t : Option Time) (m : LineNo) :
    (s.raise src k t).barred m = s.barred m := by
  unfold State.raise; split <;> rfl

@[simp] theorem State.served_setScanRec (s : State) (p : PairNo) (r : ScanRec) (q : PairNo) : (s.setScanRec p r).served q = s.served q := rfl
@[simp] theorem State.served_setFault (s : State) (p : PairNo) (r : FaultRec) (q : PairNo) : (s.setFault p r).served q = s.served q := rfl
@[simp] theorem State.served_setBinder (s : State) (b : BinderNo) (r : Binder) (q : PairNo) : (s.setBinder b r).served q = s.served q := rfl
@[simp] theorem State.served_setDetector (s : State) (d : DetectorNo) (x : Detector) (q : PairNo) : (s.setDetector d x).served q = s.served q := rfl
@[simp] theorem State.served_setDetectorQueue (s : State) (q : List Waiter) (q' : PairNo) : (s.setDetectorQueue q).served q' = s.served q' := rfl
@[simp] theorem State.served_sendTest (s : State) (m : TestPortMsg) (q : PairNo) : (s.sendTest m).served q = s.served q := rfl
@[simp] theorem State.served_sendSense (s : State) (m : SensePortMsg) (q : PairNo) : (s.sendSense m).served q = s.served q := rfl
@[simp] theorem State.served_setTestQueue (s : State) (q : List TestEntry) (q' : PairNo) : (s.setTestQueue q).served q' = s.served q' := rfl
@[simp] theorem State.served_setWanted (s : State) (p : PairNo) (k : Option TestKind) (q : PairNo) : (s.setWanted p k).served q = s.served q := rfl
@[simp] theorem State.served_setRun (s : State) (r : Option Run) (q : PairNo) : (s.setRun r).served q = s.served q := rfl
@[simp] theorem State.served_setOverrun (s : State) (n : LineNo) (b : Bool) (q : PairNo) : (s.setOverrun n b).served q = s.served q := rfl
@[simp] theorem State.served_setStoreWait (s : State) (n : LineNo) (b : Bool) (q : PairNo) : (s.setStoreWait n b).served q = s.served q := rfl
@[simp] theorem State.served_setCollected (s : State) (cs : List Byte) (q : PairNo) : (s.setCollected cs).served q = s.served q := rfl
@[simp] theorem State.served_transmit (s : State) (f : Frame) (q : PairNo) : (s.transmit f).served q = s.served q := rfl
@[simp] theorem State.served_pushReply (s : State) (f : Frame) (q : PairNo) : (s.pushReply f).served q = s.served q := rfl
@[simp] theorem State.served_takeEntry (s : State) (c : Fin 4) (e : NoticeEntry) (q : PairNo) : (s.takeEntry c e).served q = s.served q := rfl
@[simp] theorem State.served_raise (s : State) (src : Source) (k : Kind) (t : Option Time) (q : PairNo) :
    (s.raise src k t).served q = s.served q := by
  unfold State.raise; split <;> rfl

@[simp] theorem State.inHold_setLine (s : State) (n : LineNo) (l : Line) (q : PairNo) : (s.setLine n l).inHold q = s.inHold q := rfl
@[simp] theorem State.inHold_setScanRec (s : State) (p : PairNo) (r : ScanRec) (q : PairNo) : (s.setScanRec p r).inHold q = s.inHold q := rfl
@[simp] theorem State.inHold_setDetector (s : State) (d : DetectorNo) (x : Detector) (q : PairNo) : (s.setDetector d x).inHold q = s.inHold q := rfl
@[simp] theorem State.inHold_setDetectorQueue (s : State) (q : List Waiter) (q' : PairNo) : (s.setDetectorQueue q).inHold q' = s.inHold q' := rfl
@[simp] theorem State.inHold_sendTest (s : State) (m : TestPortMsg) (q : PairNo) : (s.sendTest m).inHold q = s.inHold q := rfl
@[simp] theorem State.inHold_sendSense (s : State) (m : SensePortMsg) (q : PairNo) : (s.sendSense m).inHold q = s.inHold q := rfl
@[simp] theorem State.inHold_setTestQueue (s : State) (q : List TestEntry) (q' : PairNo) : (s.setTestQueue q).inHold q' = s.inHold q' := rfl
@[simp] theorem State.inHold_setWanted (s : State) (p : PairNo) (k : Option TestKind) (q : PairNo) : (s.setWanted p k).inHold q = s.inHold q := rfl
@[simp] theorem State.inHold_setRun (s : State) (r : Option Run) (q : PairNo) : (s.setRun r).inHold q = s.inHold q := rfl
@[simp] theorem State.inHold_setOverrun (s : State) (n : LineNo) (b : Bool) (q : PairNo) : (s.setOverrun n b).inHold q = s.inHold q := rfl
@[simp] theorem State.inHold_setStoreWait (s : State) (n : LineNo) (b : Bool) (q : PairNo) : (s.setStoreWait n b).inHold q = s.inHold q := rfl
@[simp] theorem State.inHold_setCollected (s : State) (cs : List Byte) (q : PairNo) : (s.setCollected cs).inHold q = s.inHold q := rfl
@[simp] theorem State.inHold_transmit (s : State) (f : Frame) (q : PairNo) : (s.transmit f).inHold q = s.inHold q := rfl
@[simp] theorem State.inHold_pushReply (s : State) (f : Frame) (q : PairNo) : (s.pushReply f).inHold q = s.inHold q := rfl
@[simp] theorem State.inHold_takeEntry (s : State) (c : Fin 4) (e : NoticeEntry) (q : PairNo) : (s.takeEntry c e).inHold q = s.inHold q := rfl
@[simp] theorem State.inHold_modLine (s : State) (n : LineNo) (f : Line → Line) (q : PairNo) : (s.modLine n f).inHold q = s.inHold q := rfl
@[simp] theorem State.inHold_raise (s : State) (src : Source) (k : Kind) (t : Option Time) (q : PairNo) :
    (s.raise src k t).inHold q = s.inHold q := by
  unfold State.raise; split <;> rfl

/-! ### Named reads after writes of their own component -/

@[simp] theorem State.line_setLine_self (s : State) (n : LineNo) (l : Line) : (s.setLine n l).line n = l := by
  simp [State.line, State.setLine]

theorem State.line_setLine_ne (s : State) {n m : LineNo} (l : Line) (h : n ≠ m) : (s.setLine n l).line m = s.line m := by
  simp [State.line, State.setLine, Vector.getElem_set_ne, Fin.val_ne_of_ne h]

theorem State.line_setLine (s : State) (n m : LineNo) (l : Line) :
    (s.setLine n l).line m = if m = n then l else s.line m := by
  by_cases h : m = n
  · subst h; simp
  · simp [h, State.line_setLine_ne s l (Ne.symm h)]

@[simp] theorem State.line_modLine_self (s : State) (n : LineNo) (f : Line → Line) :
    (s.modLine n f).line n = f (s.line n) := State.line_setLine_self s n _

theorem State.line_modLine_ne (s : State) {n m : LineNo} (f : Line → Line) (h : n ≠ m) :
    (s.modLine n f).line m = s.line m := State.line_setLine_ne s _ h

@[simp] theorem State.setLine_setLine (s : State) (n : LineNo) (a b : Line) :
    (s.setLine n a).setLine n b = s.setLine n b := by
  simp [State.setLine, Vector.set_set]

@[simp] theorem State.setLine_line (s : State) (n : LineNo) : s.setLine n (s.line n) = s := by
  simp [State.setLine, State.line]

@[simp] theorem State.modLine_modLine (s : State) (n : LineNo) (f g : Line → Line) :
    (s.modLine n f).modLine n g = s.modLine n fun l => g (f l) := by
  simp [State.modLine]

@[simp] theorem State.scanRec_setScanRec_self (s : State) (p : PairNo) (r : ScanRec) :
    (s.setScanRec p r).scanRec p = r := by
  simp [State.scanRec, State.setScanRec]

theorem State.scanRec_setScanRec_ne (s : State) {p q : PairNo} (r : ScanRec) (h : p ≠ q) :
    (s.setScanRec p r).scanRec q = s.scanRec q := by
  simp [State.scanRec, State.setScanRec, Vector.getElem_set_ne, Fin.val_ne_of_ne h]

@[simp] theorem State.fault_setFault_self (s : State) (p : PairNo) (r : FaultRec) : (s.setFault p r).fault p = r := by
  simp [State.fault, State.setFault]

theorem State.fault_setFault_ne (s : State) {p q : PairNo} (r : FaultRec) (h : p ≠ q) :
    (s.setFault p r).fault q = s.fault q := by
  simp [State.fault, State.setFault, Vector.getElem_set_ne, Fin.val_ne_of_ne h]

@[simp] theorem State.binder_setFault (s : State) (p : PairNo) (r : FaultRec) (b : BinderNo) :
    (s.setFault p r).binder b = s.binder b := rfl

@[simp] theorem State.fault_setBinder (s : State) (b : BinderNo) (r : Binder) (p : PairNo) :
    (s.setBinder b r).fault p = s.fault p := rfl

@[simp] theorem State.settings_setFault (s : State) (p : PairNo) (r : FaultRec) :
    (s.setFault p r).watch.settings = s.watch.settings := rfl

@[simp] theorem State.settings_setBinder (s : State) (b : BinderNo) (r : Binder) :
    (s.setBinder b r).watch.settings = s.watch.settings := rfl

@[simp] theorem State.binder_setBinder_self (s : State) (b : BinderNo) (r : Binder) :
    (s.setBinder b r).binder b = r := by
  simp [State.binder, State.setBinder]

theorem State.binder_setBinder_ne (s : State) {b c : BinderNo} (r : Binder) (h : b ≠ c) :
    (s.setBinder b r).binder c = s.binder c := by
  simp [State.binder, State.setBinder, Vector.getElem_set_ne, Fin.val_ne_of_ne h]

@[simp] theorem State.detector_setDetector_self (s : State) (d : DetectorNo) (x : Detector) :
    (s.setDetector d x).detector d = x := by
  simp [State.detector, State.setDetector]

theorem State.detector_setDetector_ne (s : State) {d e : DetectorNo} (x : Detector) (h : d ≠ e) :
    (s.setDetector d x).detector e = s.detector e := by
  simp [State.detector, State.setDetector, Vector.getElem_set_ne, Fin.val_ne_of_ne h]

@[simp] theorem State.detector_setDetectorQueue (s : State) (q : List Waiter) (d : DetectorNo) :
    (s.setDetectorQueue q).detector d = s.detector d := rfl

@[simp] theorem State.queue_setDetector (s : State) (d : DetectorNo) (x : Detector) :
    (s.setDetector d x).pool.queue = s.pool.queue := rfl

@[simp] theorem State.queue_setDetectorQueue (s : State) (q : List Waiter) : (s.setDetectorQueue q).pool.queue = q := rfl

@[simp] theorem State.onBus_sendTest (s : State) (m : TestPortMsg) (p : PairNo) : (s.sendTest m).onBus p = s.onBus p := rfl
@[simp] theorem State.onBus_sendSense (s : State) (m : SensePortMsg) (p : PairNo) : (s.sendSense m).onBus p = s.onBus p := rfl

@[simp] theorem State.onBus_setTestQueue (s : State) (q : List TestEntry) (p : PairNo) :
    (s.setTestQueue q).onBus p = s.onBus p := rfl

@[simp] theorem State.onBus_setWanted (s : State) (q : PairNo) (k : Option TestKind) (p : PairNo) :
    (s.setWanted q k).onBus p = s.onBus p := rfl

/-! ### Due timers, and a raise beside a line -/

/-- The expiry of a timer that is due receives its expiry time (R1). -/
theorem State.whenDue_due {s : State} {t : Option Time} {e : Time} (act : Time → State) (h : t = some e)
    (hd : later e s.now = false) : s.whenDue t act = act e := by
  unfold State.whenDue due
  simp [h, hd]

/-- The pair on the test bus is the occupant's (R153). -/
theorem State.onBus_iff (s : State) (p : PairNo) : s.onBus p = true ↔ ∃ r, s.bus.run = some r ∧ r.pair = p := by
  unfold State.onBus
  cases s.bus.run <;> simp

/-- A raise and a change of a line do not meet. -/
theorem State.raise_setLine (s : State) (n : LineNo) (l : Line) (src : Source) (k : Kind) (t : Option Time) :
    (s.setLine n l).raise src k t = (s.raise src k t).setLine n l := by
  unfold State.raise
  rw [State.notices_setLine]
  split <;> rfl

end Sys2Proof.Machine
end

