-- ==== Sys2Proof/Laws/Effects.lean ====
section
/-! SUPPORT. What the operations can do, said once. A property that the elementary changes keep is kept by every
operation built from them: `ClosedLine` for the operations on a line, `Closed` for all events. With a property
that says a component stands as it did, the same lemmas are the operations' frames. -/

namespace Sys2Proof.Machine

/-- The elementary changes that operations on a line make keep P. -/
structure ClosedLine (P : State → Prop) : Prop where
  /-- A line changes, but not its binding. -/
  line : ∀ (s : State) (n : LineNo) (l : Line), l.binding = (s.line n).binding → P s → P (s.setLine n l)
  raise : ∀ (s : State) (src : Source) (k : Kind) (t : Option Time), P s → P (s.raise src k t)
  arrive : ∀ (s : State) (r : DialRecord), P s → P (s.arrive r)
  request : ∀ (s : State) (n : LineNo), P s → P (s.requestDetector n)
  drop : ∀ (s : State) (n : LineNo), P s → P (s.dropDetector n)

/-- The elementary changes of events keep P. -/
structure Closed (P : State → Prop) : Prop extends ClosedLine P where
  record : ∀ (s : State) (p : PairNo) (r : ScanRec), P s → P (s.setScanRec p r)
  answered : ∀ (s : State) (p : PairNo), P s → P (s.setOutstanding p none)
  fault : ∀ (s : State) (p : PairNo) (r : FaultRec), P s → P (s.setFault p r)
  binder : ∀ (s : State) (b : BinderNo) (r : Binder), P s → P (s.setBinder b r)
  overrun : ∀ (s : State) (n : LineNo) (b : Bool), P s → P (s.setOverrun n b)
  want : ∀ (s : State) (p : PairNo), P s → P (s.want p)
  withdraw : ∀ (s : State) (p : PairNo), P s → P (s.withdraw p)
  /-- The test bus changes, but not its queue, its wanted set or its occupant. -/
  bus : ∀ (s : State) (b : TestBus), b.queue = s.bus.queue → b.wanted = s.bus.wanted →
    b.run.map (·.pair) = s.bus.run.map (·.pair) → P s → P { s with bus := b }
  free : ∀ s : State, P s → P (s.setRun none)
  /-- A queued test is taken onto the free bus. -/
  occupy : ∀ (s : State) (e : TestEntry), s.bus.run = none → e ∈ s.bus.queue → P s →
    ∀ r : Run, r.pair = e.pair → P ((s.removeEntry fun x => decide (x = e)).setRun (some r))

variable {P : State → Prop}

theorem ClosedLine.mod (h : ClosedLine P) {s : State} {n : LineNo} {f : Line → Line} (hs : P s)
    (hf : ∀ l : Line, (f l).binding = l.binding) : P (s.modLine n f) :=
  h.line s n _ (hf _) hs

theorem foldl_keeps {α : Type} {f : State → α → State} (hf : ∀ s a, P s → P (f s a)) :
    ∀ (l : List α) {s : State}, P s → P (l.foldl f s)
  | [], _, hs => hs
  | a :: l, s, hs => foldl_keeps hf l (hf s a hs)

/-! ### Line changes that keep the binding -/

@[simp] theorem Line.binding_mark (l : Line) (f : Marks → Marks) : (l.mark f).binding = l.binding := rfl

@[simp] theorem Line.binding_endDigitLearning (l : Line) : l.endDigitLearning.binding = l.binding := by
  unfold Line.endDigitLearning; split <;> rfl

@[simp] theorem Line.binding_discardPulse (l : Line) : l.discardPulse.binding = l.binding := by
  simp [Line.discardPulse, Line.markMutilated]

@[simp] theorem Line.binding_discardAnyPulse (l : Line) : l.discardAnyPulse.binding = l.binding := by
  unfold Line.discardAnyPulse; split <;> simp

@[simp] theorem Line.binding_learnOverflow (l : Line) : l.learnOverflow.binding = l.binding := by
  unfold Line.learnOverflow; split <;> rfl

@[simp] theorem Line.binding_offerOnset (l : Line) (p : Profile) (now onset : Time) (b : Bool) :
    (l.offerOnset p now onset b).binding = l.binding := by
  unfold Line.offerOnset; repeat' (first | rfl | split | simp)

@[simp] theorem Line.binding_setPhase (l : Line) (ph : OffHook) : (l.setPhase ph).binding = l.binding := by
  unfold Line.setPhase; split <;> rfl

@[simp] theorem Line.binding_endBreak (l : Line) (st : OffHook) : (l.endBreak st).binding = l.binding := rfl

@[simp] theorem Line.binding_clearCall (l : Line) : l.clearCall.binding = l.binding := rfl

/-! ### Records and collections -/

theorem ClosedLine.closeCollection (h : ClosedLine P) {s : State} (n : LineNo) (c : Cause) (t : Time) (hs : P s) :
    P (s.closeCollection n c t) := by
  unfold State.closeCollection
  split
  · exact hs
  · exact h.mod (h.arrive _ _ (h.mod hs fun _ => rfl)) fun _ => rfl

theorem ClosedLine.acceptDigit (h : ClosedLine P) {s : State} (n : LineNo) (d : Digit) (hs : P s) : P (s.acceptDigit n d) := by
  unfold State.acceptDigit
  split
  · exact hs
  · dsimp only
    split
    · exact h.closeCollection _ _ _ (h.mod hs fun _ => rfl)
    · split
      · exact h.closeCollection _ _ _ (h.mod hs fun _ => rfl)
      · exact h.mod hs fun _ => rfl

/-! ### Hook supervision -/

theorem ClosedLine.requestIfTone (h : ClosedLine P) {s : State} (n : LineNo) (hs : P s) : P (s.requestIfTone n) := by
  unfold State.requestIfTone
  split
  · exact hs
  · exact h.request _ _ hs

theorem ClosedLine.seizeLine (h : ClosedLine P) {s : State} (n : LineNo) (e : Time) (hs : P s) : P (s.seizeLine n e) := by
  unfold State.seizeLine
  dsimp only
  split
  · exact h.mod (h.raise _ _ _ _ hs) fun _ => rfl
  · exact h.requestIfTone _ (h.mod (h.raise _ _ _ _ hs) fun _ => rfl)

theorem ClosedLine.enterSeizing (h : ClosedLine P) {s : State} (n : LineNo) (t : Time) (hs : P s) : P (s.enterSeizing n t) := by
  unfold State.enterSeizing
  dsimp only
  split
  · exact h.seizeLine _ _ (h.mod hs fun _ => rfl)
  · exact h.mod hs fun _ => rfl

theorem ClosedLine.settleLine (h : ClosedLine P) {s : State} (n : LineNo) (e : Time) (hs : P s) : P (s.settleLine n e) := by
  unfold State.settleLine
  dsimp only
  have h1 : P (s.modLine n fun l => { l with settleTimer := none }) := h.mod hs fun _ => rfl
  split
  · exact h.mod h1 fun _ => rfl
  · split
    · exact h.enterSeizing _ _ h1
    · exact h.mod h1 fun _ => rfl

theorem ClosedLine.enterSettling (h : ClosedLine P) {s : State} (n : LineNo) (hs : P s) : P (s.enterSettling n) := by
  unfold State.enterSettling
  dsimp only
  split
  · exact h.settleLine _ _ (h.mod hs fun _ => rfl)
  · exact h.mod hs fun _ => rfl

theorem ClosedLine.endSupervision (h : ClosedLine P) {s : State} (n : LineNo) (t : Time) (hs : P s) :
    P (s.endSupervision n t) := by
  unfold State.endSupervision
  dsimp only
  have h1 : P (s.modLine n .discardAnyPulse) := h.mod hs fun _ => by simp
  split
  · exact h.mod (h.drop _ _ (h.mod (h.closeCollection _ _ _ h1) fun _ => rfl)) fun _ => rfl
  · exact h.mod (h.drop _ _ (h.mod (h.mod h1 fun _ => rfl) fun _ => rfl)) fun _ => rfl

theorem ClosedLine.releaseLine (h : ClosedLine P) {s : State} (n : LineNo) (e : Time) (hs : P s) : P (s.releaseLine n e) := by
  unfold State.releaseLine
  dsimp only
  exact h.mod (h.raise _ _ _ _ (h.endSupervision n e hs)) fun _ => rfl

theorem ClosedLine.faultLine (h : ClosedLine P) {s : State} (n : LineNo) (hs : P s) : P (s.faultLine n) := by
  unfold State.faultLine
  split
  · exact h.mod hs fun _ => rfl
  · exact h.mod hs fun _ => rfl
  · exact h.mod hs fun _ => rfl
  · exact hs
  · exact hs
  · exact hs
  · exact h.mod (h.raise _ _ _ _ (h.endSupervision _ _ hs)) fun _ => rfl

theorem ClosedLine.permanentLoop (h : ClosedLine P) {s : State} (n : LineNo) (e : Time) (hs : P s) : P (s.permanentLoop n e) :=
  h.mod (h.drop _ _ (h.mod (h.raise _ _ _ _ (h.mod hs fun _ => rfl)) fun _ => rfl)) fun _ => by simp

theorem ClosedLine.collectTimeout (h : ClosedLine P) {s : State} (n : LineNo) (e : Time) (hs : P s) :
    P (s.collectTimeout n e) :=
  h.mod (h.drop _ _ (h.closeCollection _ _ _ (h.mod hs fun _ => by simp))) fun _ => by simp

theorem ClosedLine.phaseAfterDigit (h : ClosedLine P) {s : State} (n : LineNo) (hs : P s) : P (s.phaseAfterDigit n) := by
  unfold State.phaseAfterDigit
  split
  · exact h.mod (h.drop _ _ hs) fun _ => by simp
  · split
    · exact h.mod hs fun _ => by simp
    · exact h.mod hs fun _ => by simp

theorem ClosedLine.completePulse (h : ClosedLine P) {s : State} (n : LineNo) (hs : P s) : P (s.completePulse n) := by
  unfold State.completePulse
  dsimp only
  have h1 : P (s.modLine n fun l => { l.endDigitLearning with pulseCount := none, gapTimer := none }) :=
    h.mod hs fun _ => by simp
  split
  · exact h.phaseAfterDigit _ (h.acceptDigit _ _ h1)
  · exact h.phaseAfterDigit _ (h.mod h1 fun _ => rfl)

theorem ClosedLine.openBreak (h : ClosedLine P) {s : State} (n : LineNo) (ph : OffHook) (t : Time) (hs : P s) :
    P (s.openBreak n ph t) := by
  unfold State.openBreak
  dsimp only
  split
  · exact h.releaseLine _ _ (h.mod hs fun _ => rfl)
  · exact h.mod hs fun _ => rfl

theorem ClosedLine.hit (h : ClosedLine P) {s : State} (n : LineNo) (rs : OffHook) (hs : P s) : P (s.hit n rs) :=
  h.mod hs fun _ => rfl

theorem ClosedLine.pulseBreak (h : ClosedLine P) {s : State} (n : LineNo) (rs : OffHook) (a b : Time) (hs : P s) :
    P (s.pulseBreak n rs a b) := by
  have key : ∀ (l : Line) (e : Time), l.binding = (s.line n).binding →
      P (if due e s.now then (s.setLine n l).completePulse n else s.setLine n l) := by
    intro l e hl
    split
    · exact h.completePulse _ (h.line _ _ _ hl hs)
    · exact h.line _ _ _ hl hs
  unfold State.pulseBreak
  exact key _ _ (Line.binding_offerOnset _ _ _ _ _)

theorem ClosedLine.invalidBreak (h : ClosedLine P) {s : State} (n : LineNo) (rs : OffHook) (t : Time) (hs : P s) :
    P (s.invalidBreak n rs t) := by
  unfold State.invalidBreak
  dsimp only
  have h1 : P (s.modLine n .discardPulse) := h.mod hs fun _ => by simp
  split
  · split
    · exact h.mod h1 fun _ => rfl
    · exact h.mod h1 fun _ => rfl
  · exact h.hit _ _ hs

theorem ClosedLine.flashFromSeized (h : ClosedLine P) {s : State} (n : LineNo) (t : Time) (hs : P s) :
    P (s.flashFromSeized n t) :=
  h.mod (h.raise _ _ _ _ hs) fun _ => rfl

theorem ClosedLine.openAtFlash (h : ClosedLine P) {s : State} (n : LineNo) (t : Time) (hs : P s) : P (s.openAtFlash n t) :=
  h.mod hs fun _ => rfl

theorem ClosedLine.flashFromHeld (h : ClosedLine P) {s : State} (n : LineNo) (t : Time) (hs : P s) : P (s.flashFromHeld n t) := by
  unfold State.flashFromHeld
  dsimp only
  split
  · exact h.hit _ _ (h.raise _ _ _ _ hs)
  · exact h.requestIfTone _ (h.mod (h.openAtFlash _ _ (h.raise _ _ _ _ hs)) fun _ => rfl)

theorem ClosedLine.flashFromDialling (h : ClosedLine P) {s : State} (n : LineNo) (t : Time) (hs : P s) :
    P (s.flashFromDialling n t) := by
  unfold State.flashFromDialling
  dsimp only
  have h1 : P (s.modLine n .discardAnyPulse) := h.mod hs fun _ => by simp
  split
  · split
    · exact h.drop _ _ (h.hit _ _ (h.raise _ _ _ _ (h.closeCollection _ _ _ h1)))
    · exact h.openAtFlash _ _ (h.raise _ _ _ _ (h.closeCollection _ _ _ h1))
  · exact h.flashFromSeized _ _ h1

theorem ClosedLine.classifyBreak (h : ClosedLine P) {s : State} (n : LineNo) (rs : OffHook) (a b : Time) (hs : P s) :
    P (s.classifyBreak n rs a b) := by
  unfold State.classifyBreak
  dsimp only
  split
  · exact h.hit _ _ hs
  · split
    · split
      · exact h.pulseBreak _ _ _ _ hs
      · exact h.hit _ _ hs
    · split
      · exact h.invalidBreak _ _ _ hs
      · split
        · exact h.flashFromSeized _ _ hs
        · exact h.flashFromHeld _ _ hs
        · exact h.flashFromDialling _ _ hs

theorem ClosedLine.loopMade (h : ClosedLine P) {s : State} (n : LineNo) (t : Time) (hs : P s) : P (s.loopMade n t) := by
  unfold State.loopMade
  split
  · exact h.enterSeizing _ _ hs
  · split
    · exact h.classifyBreak _ _ _ _ hs
    · exact hs
  · exact hs

theorem ClosedLine.loopBroken (h : ClosedLine P) {s : State} (n : LineNo) (t : Time) (hs : P s) : P (s.loopBroken n t) := by
  unfold State.loopBroken
  split
  · exact h.mod hs fun _ => rfl
  · exact h.openBreak _ _ _ hs
  · exact h.openBreak _ _ _ hs
  · exact h.openBreak _ _ _ hs
  · exact h.openBreak _ _ _ hs
  · exact hs

theorem ClosedLine.toneAtLine (h : ClosedLine P) {s : State} (n : LineNo) (x : Symbol) (hs : P s) : P (s.toneAtLine n x) := by
  unfold State.toneAtLine
  split
  · exact h.phaseAfterDigit _ (h.acceptDigit _ _ hs)
  · exact h.phaseAfterDigit _ (h.acceptDigit _ _ hs)
  · exact h.mod hs fun _ => rfl
  · exact hs

theorem ClosedLine.takeOnset (h : ClosedLine P) {s : State} (d : DetectorNo) (x : Symbol) (hs : P s) : P (s.takeOnset d x) := by
  unfold State.takeOnset
  split
  · split
    · exact hs
    · split
      · exact hs
      · exact h.toneAtLine _ _ hs
  · exact hs

/-! ### Fault watch -/

theorem Closed.setScanRec (h : Closed P) {s : State} (p : PairNo) (r : ScanRec) (hs : P s) : P (s.setScanRec p r) :=
  h.record s p r hs

theorem Closed.setOutstanding (h : Closed P) {s : State} (p : PairNo) (hs : P s) : P (s.setOutstanding p none) :=
  h.answered s p hs

theorem Closed.setFault (h : Closed P) {s : State} (p : PairNo) (r : FaultRec) (hs : P s) : P (s.setFault p r) :=
  h.fault s p r hs

theorem Closed.setBinder (h : Closed P) {s : State} (b : BinderNo) (r : Binder) (hs : P s) : P (s.setBinder b r) :=
  h.binder s b r hs

theorem Closed.countChange (h : Closed P) {s : State} (b : BinderNo) (up : Bool) (hs : P s) : P (s.countChange b up) := by
  unfold State.countChange
  dsimp only
  generalize (if up = true then (s.binder b).count + 1 else (s.binder b).count - 1) = count
  split
  · split
    · exact h.raise _ _ _ _ (h.setBinder _ _ hs)
    · exact h.setBinder _ _ hs
  · split
    · exact h.raise _ _ _ _ (h.setBinder _ _ hs)
    · exact h.setBinder _ _ hs

theorem Closed.endHold (h : Closed P) {s : State} (b : BinderNo) (hs : P s) : P (s.endHold b) :=
  h.raise _ _ _ _ (h.setBinder _ _ hs)

theorem Closed.alignBinder (h : Closed P) {s : State} (b : BinderNo) (hs : P s) : P (s.alignBinder b) := by
  unfold State.alignBinder
  dsimp only
  split
  · split
    · exact h.setBinder _ _ hs
    · exact h.raise _ _ _ _ (h.setBinder _ _ hs)
  · split
    · exact h.setBinder _ _ hs
    · exact hs

theorem Closed.changeFault (h : Closed P) {s : State} (p : PairNo) (r : FaultRec) (hs : P s) : P (s.changeFault p r) := by
  unfold State.changeFault
  dsimp only
  split
  · exact h.setFault _ _ hs
  · exact h.countChange _ _ (h.setFault _ _ hs)

theorem Closed.passFault (h : Closed P) {s : State} (p : PairNo) (hs : P s) : P (s.passFault p) := by
  unfold State.passFault
  split
  · exact h.faultLine _ hs
  · exact hs

theorem Closed.releasePair (h : Closed P) {s : State} (p : PairNo) (hs : P s) : P (s.releasePair p) := by
  unfold State.releasePair
  split
  · split
    · exact h.enterSettling _ hs
    · exact hs
  · exact hs

theorem Closed.sustainEnd (h : Closed P) {s : State} (p : PairNo) (hs : P s) : P (s.sustainEnd p) := by
  unfold State.sustainEnd
  dsimp only
  split
  · exact h.withdraw _ _ (h.raise _ _ _ _ (h.changeFault _ _ hs))
  · exact h.want _ _ (h.raise _ _ _ _ (h.passFault _ (h.changeFault _ _ hs)))
  · exact h.setFault _ _ hs

theorem Closed.sustainAtOnce (h : Closed P) {s : State} (p : PairNo) (hs : P s) : P (s.sustainAtOnce p) := by
  unfold State.sustainAtOnce
  split
  · exact h.sustainEnd _ hs
  · exact hs

theorem Closed.guardEnd (h : Closed P) {s : State} (p : PairNo) (hs : P s) : P (s.guardEnd p) := by
  unfold State.guardEnd
  dsimp only
  split
  · exact h.want _ _ (h.setFault _ _ hs)
  · exact h.want _ _ (h.setFault _ _ hs)
  · exact h.setFault _ _ hs

theorem Closed.guardAtOnce (h : Closed P) {s : State} (p : PairNo) (hs : P s) : P (s.guardAtOnce p) := by
  unfold State.guardAtOnce
  split
  · exact h.guardEnd _ hs
  · exact hs

theorem Closed.enterSuspect (h : Closed P) {s : State} (p : PairNo) (r : FaultRec) (hs : P s) :
    P (s.enterSuspect p r) := by
  unfold State.enterSuspect
  dsimp only
  split
  · exact h.want _ _ (h.raise _ _ _ _ (h.changeFault _ _ hs))
  · exact h.raise _ _ _ _ (h.changeFault _ _ hs)

theorem Closed.backToConfirmed (h : Closed P) {s : State} (p : PairNo) (r : FaultRec) (hs : P s) :
    P (s.backToConfirmed p r) :=
  h.withdraw _ _ (h.raise _ _ _ _ (h.passFault _ (h.changeFault _ _ hs)))

theorem Closed.score (h : Closed P) {s : State} (p : PairNo) (a b c : Int) (hs : P s) : P (s.score p a b c) := by
  unfold State.score
  split
  · dsimp only
    split
    · exact h.enterSuspect _ _ hs
    · exact h.backToConfirmed _ _ hs
    · exact h.sustainAtOnce _ (h.changeFault _ _ hs)
  · exact hs

theorem Closed.senseLost (h : Closed P) {s : State} (p : PairNo) (hs : P s) : P (s.senseLost p) :=
  h.raise _ _ _ _ (h.passFault _ (h.changeFault _ _ hs))

theorem Closed.senseRegained (h : Closed P) {s : State} (p : PairNo) (hs : P s) : P (s.senseRegained p) := by
  unfold State.senseRegained
  dsimp only
  have h1 : P (s.changeFault p { s.fault p with senseLost := false }) := h.changeFault _ _ hs
  split
  · exact h.sustainAtOnce _ (h.raise _ _ _ _ (h.releasePair _ h1))
  · exact h.sustainAtOnce _ (h.raise _ _ _ _ (h.releasePair _ h1))
  · exact h.sustainAtOnce _ (h.raise _ _ _ _ h1)

theorem Closed.testEnd (h : Closed P) {s : State} (p : PairNo) (t : LastTest) (hs : P s) : P (s.testEnd p t) := by
  have key : ∀ (u : State) (c : Prop) (g : Bool) [Decidable c], P u →
      P (let s := if c then u.passFault p else u
         let s := (s.raiseFault p).sustainAtOnce p
         if g then s.guardAtOnce p else s) := by
    intro u c g _ hu
    have h1 : P (if c then u.passFault p else u) := by
      split
      · exact h.passFault _ hu
      · exact hu
    dsimp only
    split
    · exact h.guardAtOnce _ (h.sustainAtOnce _ (h.raise _ _ _ _ h1))
    · exact h.sustainAtOnce _ (h.raise _ _ _ _ h1)
  unfold State.testEnd
  exact key _ _ _ (h.changeFault _ _ hs)

/-! ### The test bus -/

theorem Closed.setRun (h : Closed P) {s : State} {r : Run} (hr : s.bus.run.map (·.pair) = some r.pair) (hs : P s) :
    P (s.setRun (some r)) :=
  h.bus s { s.bus with run := some r } rfl rfl hr.symm hs

theorem Closed.sendTest (h : Closed P) {s : State} (m : TestPortMsg) (hs : P s) : P (s.sendTest m) :=
  h.bus s { s.bus with sent := s.bus.sent ++ [m] } rfl rfl rfl hs

theorem Closed.claim (h : Closed P) {s : State} (e : TestEntry) (hfree : s.bus.run = none) (he : e ∈ s.bus.queue)
    (hs : P s) : P (s.claim e) := by
  unfold State.claim
  dsimp only
  have h1 := h.occupy s e hfree he hs
  split
  · exact h.sendTest _ (h.setScanRec _ _ (h.mod (h1 _ rfl) fun _ => rfl))
  · exact h.sendTest _ (h.setScanRec _ _ (h1 _ rfl))

theorem Closed.look (h : Closed P) {s : State} (hs : P s) : P s.look := by
  unfold State.look
  split
  · exact hs
  · rename_i hfree
    split
    · rename_i e he
      exact h.claim e hfree (List.mem_of_find?_eq_some he) hs
    · exact hs

theorem Closed.leaveTest (h : Closed P) {s : State} (p : PairNo) (n : LineNo) (hs : P s) : P (s.leaveTest p n) := by
  unfold State.leaveTest
  split
  · split
    · exact h.mod hs fun _ => rfl
    · exact h.enterSettling _ hs
  · exact hs

theorem Closed.writeResult (h : Closed P) {s : State} (r : Run) (o : TestOutcome) (hs : P s) : P (s.writeResult r o) := by
  unfold State.writeResult
  split
  · exact hs
  · exact h.raise _ _ _ _ (h.bus s _ rfl rfl rfl hs)

theorem Closed.endTest (h : Closed P) {s : State} (r : Run) (o : TestOutcome)
    (hr : s.bus.run.map (·.pair) = some r.pair) (hs : P s) : P (s.endTest r o) := by
  unfold State.endTest
  dsimp only
  refine foldl_keeps (fun s n hs => h.leaveTest _ _ hs) _ (h.free _ (h.writeResult _ _ (h.testEnd _ _ ?_)))
  exact h.sendTest _ (h.setRun hr hs)

theorem Closed.sendRead (h : Closed P) {s : State} (r : Run) (hr : s.bus.run.map (·.pair) = some r.pair) (hs : P s) :
    P (s.sendRead r) := by
  unfold State.sendRead
  dsimp only
  refine h.sendTest _ (h.bus (s.setRun (some _)) _ rfl rfl rfl (h.setRun ?_ hs))
  exact hr

theorem Closed.endAttempt (h : Closed P) {s : State} (r : Run) (hr : s.bus.run.map (·.pair) = some r.pair) (hs : P s) :
    P (s.endAttempt r) := by
  unfold State.endAttempt
  dsimp only
  split
  · exact h.setRun hr hs
  · exact h.endTest _ _ hr hs

theorem Closed.judgeReading (h : Closed P) {s : State} (r : Run) (m : Measured)
    (hr : s.bus.run.map (·.pair) = some r.pair) (hs : P s) : P (s.judgeReading r m) := by
  unfold State.judgeReading
  dsimp only
  split
  · exact h.endTest _ _ hr hs
  · split
    · exact h.sendRead _ hr hs
    · exact h.endAttempt _ hr hs

theorem Closed.takeReading (h : Closed P) {s : State} (m : MeterReading) (hs : P s) : P (s.takeReading m) := by
  unfold State.takeReading
  split
  · exact hs
  · rename_i r hr
    split
    · exact h.judgeReading _ _ (by simp [hr]) hs
    · exact hs

/-! ### Scanning -/

theorem Closed.invalidSample (h : Closed P) {s : State} (p : PairNo) (hs : P s) : P (s.invalidSample p) := by
  unfold State.invalidSample
  dsimp only
  split
  · exact hs
  · split
    · exact h.senseLost _ (h.setScanRec _ _ hs)
    · exact h.setScanRec _ _ hs

theorem Closed.noResponse (h : Closed P) {s : State} (p : PairNo) (hs : P s) : P (s.noResponse p) := by
  unfold State.noResponse State.takeInvalid
  split
  · exact hs
  · split
    · exact h.setOutstanding _ hs
    · exact h.invalidSample _ (h.setOutstanding _ hs)

theorem Closed.noResponses (h : Closed P) {s : State} (hs : P s) :
    P (allPairs.foldl (fun s p => s.noResponse p) s) :=
  foldl_keeps (fun _ p hs => h.noResponse p hs) _ hs

theorem Closed.qualify (h : Closed P) {s : State} (p : PairNo) (n : LineNo) (c : LoopClass) (t : Time) (hs : P s) :
    P (s.qualify p n c t) := by
  unfold State.qualify
  dsimp only
  split
  · exact h.loopBroken _ _ (h.setScanRec _ _ hs)
  · exact h.setScanRec _ _ hs
  · exact h.setScanRec _ _ hs
  · exact h.setScanRec _ _ hs
  · exact h.loopMade _ _ (h.setScanRec _ _ hs)

theorem Closed.filterSample (h : Closed P) {s : State} (p : PairNo) (n : LineNo) (c : LoopClass) (t : Time) (hs : P s) :
    P (s.filterSample p n c t) := by
  unfold State.filterSample
  dsimp only
  split
  · exact h.qualify _ _ _ _ hs
  · split
    · exact h.setScanRec _ _ hs
    · split
      · exact h.qualify _ _ _ _ hs
      · exact h.setScanRec _ _ hs

theorem Closed.judgeLoop (h : Closed P) {s : State} (p : PairNo) (n : LineNo) (i : Int) (t : Time) (hs : P s) :
    P (s.judgeLoop p n i t) := by
  unfold State.judgeLoop
  split
  · exact hs
  · exact h.filterSample _ _ _ _ (h.setScanRec _ _ hs)

theorem Closed.validSample (h : Closed P) {s : State} (p : PairNo) (r : SampleReply) (t : Time) (hs : P s) :
    P (s.validSample p r t) := by
  unfold State.validSample
  dsimp only
  have h1 : P (s.setScanRec p { s.scanRec p with invalidRun := 0 }) := h.setScanRec _ _ hs
  have h2 : ∀ {u : State}, P u → P (if (u.fault p).senseLost = true then u else
      (match u.served p with
        | some n => u.judgeLoop p n r.loopMa t
        | none => u).score p r.tipV r.ringV r.longMa) := by
    intro u hu
    split
    · exact hu
    · split
      · exact h.score _ _ _ _ (h.judgeLoop _ _ _ _ hu)
      · exact h.score _ _ _ _ hu
  apply h2
  split
  · exact h.senseRegained _ h1
  · exact h1

theorem Closed.takeReply (h : Closed P) {s : State} (r : SampleReply) (hs : P s) : P (s.takeReply r) := by
  unfold State.takeReply
  split
  · dsimp only
    split
    · exact hs
    · split
      · exact h.setOutstanding _ hs
      · split
        · exact h.validSample _ _ _ (h.setOutstanding _ hs)
        · exact h.invalidSample _ (h.setOutstanding _ hs)
  · exact hs

end Sys2Proof.Machine
end

