-- ==== Sys2Proof/Laws/Steps.lean ====
section
/-! SUPPORT. From the elementary changes to requests, commands and steps: a property that they keep is kept by
every request (`ClosedRequest`), every command (`ClosedPart`) and every step (`ClosedStep`). -/

namespace Sys2Proof.Machine

/-- The elementary changes that requests make besides those of `Closed` keep P. -/
structure ClosedRequest (P : State → Prop) : Prop extends Closed P where
  scan : ∀ (s : State) (x : Scan), P s → P { s with scan := x }
  watch : ∀ (s : State) (x : Watch), P s → P { s with watch := x }
  profile : ∀ (s : State) (f : Fin 8) (a : ProfileArgs) (p : Profile), profileArg a = some p → P s →
    P { s with profiles := s.profiles.set f p }
  window : ∀ (s : State) (i : Fin 8) (a : WindowArgs) (w : Window), windowArg a = some w → P s →
    P { s with windows := { s.windows with table := s.windows.table.set i w } }
  defaultClass : ∀ (s : State) (c : Fin 16), P s → P { s with windows := { s.windows with defaultClass := c } }
  dropPending : ∀ (s : State) (n : LineNo), P s → P (s.dropPending n)
  take : ∀ (s : State) (i : Fin 16) (sl : Slot), s.store.slots[i] = some sl → P s → P (s.takeSlot i sl)
  out : ∀ (s : State) (d : DetectorNo), P s → P (s.serviceOut d)
  back : ∀ (s : State) (d : DetectorNo), P s → P (s.serviceIn d)
  order : ∀ (s : State) (p : PairNo) (k : TestKind) (tag : Byte), s.onBus p = false →
    (s.bus.queued p = true ∨ s.bus.queue.length < 16) → P s → P (s.orderTest p k tag)
  cancel : ∀ (s : State) (p : PairNo), s.onBus p = false → P s → P (s.removeEntry fun e => decide (e.pair = p))
  unwant : ∀ (s : State) (p : PairNo), P s → P (s.setWanted p none)
  routes : ∀ (s : State) (x : Vector (Fin 4) 8), P s → P { s with notices := { s.notices with routes := x } }
  enable : ∀ (s : State) (k : BitVec 8) (x : BitVec 145), P s → P (s.enablePoints k x)
  disable : ∀ (s : State) (k : BitVec 8) (x : BitVec 145), P s → P (s.disablePoints k x)
  takeEntry : ∀ (s : State) (c : Fin 4) (e : NoticeEntry), P s → P (s.takeEntry c e)
  ordered : ∀ s : State, P s → P { s with link := { s.link with resetOrdered := true } }

variable {P : State → Prop}

/-! ### Requests -/

theorem accepted {s : State} (hs : P s) : P (accept s).1 := hs

theorem answered {s : State} {r : Reply} (hs : P s) : P (s, r).1 := hs

theorem ClosedRequest.enableLine (h : ClosedRequest P) {s : State} (n : LineNo) (hs : P s) : P (s.enableLine n) := by
  unfold State.enableLine
  dsimp only
  split
  · exact hs
  · split
    · exact h.mod (h.setScanRec _ _ hs) fun _ => rfl
    · exact h.enterSettling _ (h.setScanRec _ _ hs)

theorem ClosedRequest.disableLine (h : ClosedRequest P) {s : State} (n : LineNo) (hs : P s) : P (s.disableLine n) := by
  unfold State.disableLine
  dsimp only
  split
  · exact h.setScanRec _ _ (h.overrun _ _ _ (h.mod (h.drop _ _ (h.mod hs fun _ => rfl)) fun _ => rfl))
  · exact hs

theorem ClosedRequest.settleIfEnabled (h : ClosedRequest P) {s : State} (n : LineNo) (hs : P s) :
    P (s.settleIfEnabled n) := by
  unfold State.settleIfEnabled
  split
  · exact h.enterSettling _ hs
  · exact hs

theorem ClosedRequest.mapLine (h : ClosedRequest P) {s : State} (n : LineNo) (p : PairNo) (f : Fin 8) (hs : P s) :
    P (s.mapLine n p f) := by
  unfold State.mapLine
  exact h.look (h.settleIfEnabled _ (h.scan _ _ (h.mod hs fun _ => rfl)))

theorem ClosedRequest.swapLines (h : ClosedRequest P) {s : State} (a b : LineNo) (hs : P s) : P (s.swapLines a b) := by
  unfold State.swapLines
  exact h.look (h.settleIfEnabled _ (h.settleIfEnabled _ (h.scan _ _ (h.mod (h.mod hs fun _ => rfl) fun _ => rfl))))

theorem ClosedRequest.resetLine (h : ClosedRequest P) {s : State} (n : LineNo) (hs : P s) : P (s.resetLine n) := by
  unfold State.resetLine
  have h1 : P (((s.modLine n .clearCall).dropDetector n).dropPending n) :=
    h.dropPending _ _ (h.drop _ _ (h.mod hs fun _ => rfl))
  dsimp only
  split
  · exact h1
  · split
    · exact h.mod h1 fun _ => rfl
    · exact h.enterSettling _ h1

theorem ClosedRequest.poll (h : ClosedRequest P) : ∀ (k : Nat) {s : State}, P s → P (s.poll k).1
  | 0, _, hs => hs
  | k + 1, s, hs => by
    unfold State.poll
    split
    · exact hs
    · exact h.poll k (h.takeEntry _ _ _ hs)

theorem ClosedRequest.runTestCancel (h : ClosedRequest P) {s : State} (pair : Byte) (hs : P s) :
    P (runTestCancel pair s).1 := by
  unfold Machine.runTestCancel
  split
  · exact hs
  · rename_i p _
    have rest (hb : s.onBus p = false) : P (if s.bus.queued p then accept (s.removeEntry fun e => decide (e.pair = p)).look
        else if s.bus.wanted[p].isSome then accept (s.setWanted p none) else refuse .notFound s).1 := by
      split
      · exact accepted (h.look (h.cancel _ _ hb hs))
      · split
        · exact accepted (h.unwant _ _ hs)
        · exact hs
    split
    · rename_i r hr
      split
      · exact accepted (h.look (h.endTest _ _ (by simp [hr]) hs))
      · rename_i hne
        exact rest (by simp [State.onBus, hr, hne])
    · rename_i hr
      exact rest (by simp [State.onBus, hr])

/-- A property kept by the elementary changes is kept by every request. -/
theorem ClosedRequest.run (h : ClosedRequest P) {s : State} (r : Request) (tag : Byte) (hs : P s) :
    P (runRequest r tag s).1 := by
  cases r <;> dsimp only [runRequest]
  case lineEnable lines =>
    unfold runLineEnable
    split
    · exact hs
    · refine accepted (h.look (foldl_keeps (fun s n hs => ?_) _ hs))
      split
      · exact h.enableLine n hs
      · exact hs
  case lineDisable lines =>
    refine accepted (h.look (foldl_keeps (fun s n hs => ?_) _ hs))
    split
    · exact h.disableLine n hs
    · exact hs
  case lineMap =>
    unfold runLineMap
    repeat' split
    all_goals first | exact hs | exact accepted (h.mapLine _ _ _ hs)
  case lineSwap =>
    unfold runLineSwap
    repeat' split
    all_goals first | exact hs | exact accepted (h.swapLines _ _ hs)
  case lineReset =>
    unfold runLineReset
    split
    · exact accepted (h.look (h.resetLine _ hs))
    · exact hs
  case lineQuery => unfold runLineQuery; split <;> exact hs
  case profileWrite =>
    unfold runProfileWrite
    split
    · exact accepted (h.profile _ _ _ _ ‹_› hs)
    · exact hs
  case profileRead => unfold runProfileRead; split <;> exact hs
  case scanMode =>
    unfold runScanMode
    split
    · exact accepted (h.scan _ _ hs)
    · exact hs
  case detectorService =>
    unfold runDetectorService
    repeat' split
    all_goals first | exact hs | exact accepted (h.back _ _ hs) | exact accepted (h.out _ _ hs)
  case detectorQuery => exact hs
  case windowWrite =>
    unfold runWindowWrite
    repeat' split
    all_goals first | exact hs | exact accepted (h.window _ _ _ _ ‹_› hs) | exact accepted (h.defaultClass _ _ hs)
  case windowRead =>
    unfold runWindowRead
    repeat' split
    all_goals exact hs
  case recordTake =>
    unfold runRecordTake
    split
    · exact hs
    · split
      · exact hs
      · split
        · exact hs
        · exact answered (h.take _ _ _ ‹_› hs)
  case recordList => exact hs
  case overrunClear =>
    unfold runOverrunClear
    split
    · exact accepted (h.overrun _ _ _ hs)
    · exact hs
  case faultLimits =>
    unfold runFaultLimits
    split
    · exact accepted (h.watch _ _ hs)
    · exact hs
  case watchSet =>
    unfold runWatchSet
    split
    · exact hs
    · dsimp only
      split
      · exact accepted (h.watch _ _ hs)
      · exact accepted (foldl_keeps (fun s b hs => h.alignBinder b hs) _ (h.watch _ _ hs))
  case pairQuery => unfold runPairQuery; split <;> exact hs
  case testOrder pair kind =>
    unfold runTestOrder
    split
    · split
      · exact hs
      · rename_i hb
        split
        · exact hs
        · rename_i hq
          refine answered (h.look (h.order _ _ _ _ (by simpa using hb) ?_ hs))
          simp only [Config.testQueueMax, Bool.and_eq_true, Bool.not_eq_true', not_and] at hq
          cases hc : s.bus.queued _
          · exact .inr (Nat.lt_of_not_le fun hle => hq hc (decide_eq_true hle))
          · exact .inl rfl
    · exact hs
  case testCancel => exact h.runTestCancel _ hs
  case testSet =>
    unfold runTestSet
    split
    · exact accepted (h.bus _ _ rfl rfl rfl hs)
    · exact hs
  case testQuery => exact hs
  case routeWrite =>
    unfold runRouteWrite
    split
    · exact accepted (h.routes _ _ hs)
    · exact hs
  case noticeEnable => exact accepted (h.enable _ _ _ hs)
  case noticeDisable => exact accepted (h.disable _ _ _ hs)
  case noticePoll => exact h.poll Config.pollMax hs
  case identify => exact hs
  case partReset => exact accepted (h.ordered _ hs)

/-- What every request keeps, the execution of a request frame keeps. -/
theorem perform_keeps (h : ∀ (s : State) (r : Request) (tag : Byte), P s → P (runRequest r tag s).1) {s : State}
    (f : Frame) (hs : P s) : P (s.perform f).1 := by
  unfold State.perform
  split
  · exact hs
  · exact hs
  · exact h _ _ _ hs

theorem ClosedRequest.perform (h : ClosedRequest P) {s : State} (f : Frame) (hs : P s) : P (s.perform f).1 :=
  perform_keeps (fun _ r tag hs => h.run r tag hs) f hs

/-! ### Commands and steps -/

/-- The changes that the link makes, and every request, keep P. -/
structure ClosedLink (P : State → Prop) : Prop where
  link : ∀ (s : State) (x : Link), P s → P { s with link := x }
  takeEntry : ∀ (s : State) (c : Fin 4) (e : NoticeEntry), P s → P (s.takeEntry c e)
  request : ∀ (s : State) (r : Request) (tag : Byte), P s → P (runRequest r tag s).1
  reset : ∀ (s : State) (c : ResetCause) (x : Straps) (k : Nat), P s → P { s.resetPart c x with raceCount := k }

/-- The elementary changes of the whole part keep P. -/
structure ClosedPart (P : State → Prop) : Prop extends ClosedRequest P where
  link : ∀ (s : State) (x : Link), P s → P { s with link := x }
  reset : ∀ (s : State) (c : ResetCause) (x : Straps) (k : Nat), P s → P { s.resetPart c x with raceCount := k }

theorem ClosedPart.closedLink (h : ClosedPart P) : ClosedLink P :=
  ⟨h.link, h.takeEntry, fun _ r tag hs => h.run r tag hs, h.reset⟩

/-- The elementary changes of a step keep P. -/
structure ClosedStep (P : State → Prop) : Prop extends ClosedPart P where
  now : ∀ (s : State) (x : Time), P s → P { s with now := x }
  queue : ∀ (s : State) (x : List Instr) (k : Nat), P s → P { s with pending := x, raceCount := k }

theorem ClosedRequest.beginPass (h : ClosedRequest P) {s : State} (hs : P s) : P s.beginPass :=
  foldl_keeps (fun _ _ hs => h.scan _ _ hs) _ (h.scan _ _ (h.noResponses hs))

theorem ClosedLink.sendNotice (h : ClosedLink P) {s : State} (c : Fin 4) (e : NoticeEntry) (hs : P s) :
    P (s.sendNotice c e) :=
  h.link _ _ (h.takeEntry _ _ _ hs)

theorem ClosedLink.choose (h : ClosedLink P) {s : State} (hs : P s) : P s.choose := by
  unfold State.choose State.chooseNotice
  repeat' split
  all_goals first | exact hs | exact h.link _ _ hs | exact h.sendNotice _ _ hs

theorem ClosedLink.executeFrame (h : ClosedLink P) {s : State} (f : Frame) (hs : P s) : P (s.executeFrame f) :=
  h.link _ _ (perform_keeps h.request f hs)

theorem ClosedLink.pump (h : ClosedLink P) : ∀ (k : Nat) {s : State}, P s → P (s.pump k)
  | 0, _, hs => hs
  | k + 1, s, hs => by
    unfold State.pump
    split
    · exact hs
    · split
      · exact h.pump k (h.choose (h.executeFrame _ (h.link _ _ hs)))
      · exact hs

theorem ClosedLink.serve (h : ClosedLink P) {s : State} (hs : P s) : P s.serve := h.choose (h.pump _ hs)

theorem ClosedLink.submit (h : ClosedLink P) {s : State} (f : Frame) (hs : P s) : P (s.submit f) := by
  unfold State.submit State.deliver
  split
  · exact h.serve (h.link _ _ hs)
  · exact h.serve hs

theorem ClosedLink.receiveFrame (h : ClosedLink P) {s : State} (f : Frame) (hs : P s) : P (s.receiveFrame f) := by
  unfold State.receiveFrame
  split
  · exact hs
  · exact h.submit _ (h.link _ _ hs)

theorem ClosedLink.receiveChars (h : ClosedLink P) {s : State} (cs : List Byte) (hs : P s) : P (s.receiveChars cs) :=
  foldl_keeps (fun _ f hs => h.submit f hs) _ (h.link _ _ hs)

theorem ClosedLink.frameEnd (h : ClosedLink P) {s : State} (f : Frame) (hs : P s) : P (s.frameEnd f) := by
  unfold State.frameEnd
  split
  · exact h.choose (h.reset _ _ _ _ hs)
  · exact h.serve (h.choose (h.link _ _ hs))

theorem ClosedLink.arrival (h : ClosedLink P) {s : State} (f : Frame) (hs : P s) : P (s.receiveFrame f).choose :=
  h.choose (h.receiveFrame f hs)

theorem ClosedPart.finish (h : ClosedPart P) {s : State} (hs : P s) : P s.finish :=
  h.closedLink.choose (h.look hs)

theorem ClosedPart.whenDue (_ : ClosedPart P) {s : State} {t : Option Time} {act : Time → State} (hs : P s)
    (ha : ∀ e, P (act e)) : P (s.whenDue t act) := by
  unfold State.whenDue
  split
  · split
    · exact ha _
    · exact hs
  · exact hs

/-- A property kept by the elementary changes is kept by every command. -/
theorem ClosedPart.exec (h : ClosedPart P) {c : Instr} {s t : State} (hs : P s) (ht : exec c s = .next t) : P t := by
  have k := h.closedLink
  cases c
  case powerOnReset => cases ht; exact k.choose (h.reset s _ _ s.raceCount hs)
  case resetPin => cases ht; exact k.choose (h.reset s _ _ s.raceCount hs)
  case pass =>
    cases ht
    refine h.finish ?_
    split
    · exact h.beginPass hs
    · exact hs
  case sampleReply => cases ht; exact h.finish (h.takeReply _ hs)
  case settleExpiry =>
    cases ht
    refine h.finish (h.whenDue hs fun e => ?_)
    split
    · exact h.settleLine _ _ hs
    · exact h.mod hs fun _ => rfl
  case seizeExpiry =>
    cases ht
    refine h.finish (h.whenDue hs fun e => ?_)
    split
    · exact h.seizeLine _ _ hs
    · exact h.mod hs fun _ => rfl
  case firstDigitExpiry =>
    cases ht
    refine h.finish (h.whenDue hs fun e => ?_)
    split
    · exact h.permanentLoop _ _ hs
    · exact h.mod hs fun _ => rfl
  case release =>
    cases ht
    refine h.finish (h.whenDue hs fun e => ?_)
    split
    · exact h.releaseLine _ _ hs
    · exact h.mod hs fun _ => rfl
  case gapExpiry =>
    cases ht
    refine h.finish (h.whenDue hs fun e => ?_)
    split
    · exact h.completePulse _ hs
    · exact h.mod hs fun _ => rfl
  case collectExpiry =>
    cases ht
    refine h.finish (h.whenDue hs fun e => ?_)
    split
    · exact h.collectTimeout _ _ hs
    · exact h.mod hs fun _ => rfl
  case learnExpiry => cases ht; exact h.finish (h.whenDue hs fun _ => h.mod hs fun _ => by simp)
  case toneOnset => cases ht; exact h.finish (h.takeOnset _ _ hs)
  case toneOffset => cases ht; exact h.finish hs
  case sustainExpiry => cases ht; exact h.finish (h.whenDue hs fun _ => h.sustainEnd _ hs)
  case guardExpiry => cases ht; exact h.finish (h.whenDue hs fun _ => h.guardEnd _ hs)
  case holdExpiry => cases ht; exact h.finish (h.whenDue hs fun _ => h.endHold _ hs)
  case quietExpiry =>
    cases ht
    refine h.finish (h.whenDue hs fun _ => ?_)
    split
    · exact h.sendRead _ (by simp [*]) hs
    · exact hs
  case reading => cases ht; exact h.finish (h.takeReading _ hs)
  case readingTimeout =>
    cases ht
    refine h.finish (h.whenDue hs fun _ => ?_)
    split
    · exact h.endTest _ _ (by simp [*]) hs
    · exact hs
  case characterError => cases ht; exact k.choose (h.link _ _ hs)
  case characterGap => cases ht; exact k.choose (h.link _ _ hs)
  case badFrame =>
    cases ht
    refine k.choose ?_
    split
    · exact hs
    · exact k.receiveChars _ (h.link _ _ hs)
  case frameSent =>
    cases ht
    split
    · exact k.frameEnd _ hs
    · exact k.choose hs
  case receivedCharacter =>
    cases ht
    refine k.choose ?_
    split
    · exact hs
    · exact k.receiveChars _ (h.link _ _ hs)
  all_goals cases ht; exact k.arrival _ hs

theorem ClosedStep.tick (h : ClosedStep P) {s : State} (hs : P s) : P s.tick := by
  unfold State.tick
  split
  · exact h.now _ _ hs
  · exact h.queue _ _ _ hs
  · exact h.queue _ _ _ hs

/-- A property kept by the elementary changes is kept by every step. -/
theorem ClosedStep.step (h : ClosedStep P) {s t : State} (hs : P s) (ht : step s = .next t) : P t := by
  unfold Machine.step at ht
  split at ht
  · cases ht
    exact h.tick hs
  · exact h.exec (h.queue _ _ _ hs) ht

end Sys2Proof.Machine
end

