-- ==== Sys2Proof/Laws/Frames.lean ====
section
/-! SUPPORT. The components that the pool's, the test queue's and the store's operations leave alone. -/

namespace Sys2Proof.Machine

/-- The operation changes lines and the pool alone. -/
structure SamePool (s t : State) : Prop where
  now : t.now = s.now
  profiles : t.profiles = s.profiles
  scan : t.scan = s.scan
  windows : t.windows = s.windows
  store : t.store = s.store
  watch : t.watch = s.watch
  bus : t.bus = s.bus
  notices : t.notices = s.notices
  link : t.link = s.link
  raceCount : t.raceCount = s.raceCount
  pending : t.pending = s.pending

theorem SamePool.refl (s : State) : SamePool s s := by constructor <;> rfl

theorem SamePool.trans {s t u : State} (h : SamePool s t) (k : SamePool t u) : SamePool s u :=
  ⟨k.now.trans h.now, k.profiles.trans h.profiles, k.scan.trans h.scan, k.windows.trans h.windows,
    k.store.trans h.store, k.watch.trans h.watch, k.bus.trans h.bus, k.notices.trans h.notices, k.link.trans h.link,
    k.raceCount.trans h.raceCount, k.pending.trans h.pending⟩

theorem samePool_modLine (s : State) (n : LineNo) (f : Line → Line) : SamePool s (s.modLine n f) := by
  constructor <;> rfl

theorem samePool_setDetector (s : State) (d : DetectorNo) (x : Detector) : SamePool s (s.setDetector d x) := by
  constructor <;> rfl

theorem samePool_setDetectorQueue (s : State) (q : List Waiter) : SamePool s (s.setDetectorQueue q) := by
  constructor <;> rfl

theorem samePool_bindDetector (s : State) (d : DetectorNo) (n : LineNo) : SamePool s (s.bindDetector d n) :=
  (samePool_setDetector _ _ _).trans (samePool_modLine _ _ _)

theorem samePool_requestDetector (s : State) (n : LineNo) : SamePool s (s.requestDetector n) := by
  unfold State.requestDetector
  split
  · split
    · exact samePool_bindDetector _ _ _
    · exact (samePool_setDetectorQueue _ _).trans (samePool_modLine _ _ _)
  · exact .refl s

theorem samePool_grantHead (s : State) (d : DetectorNo) : SamePool s (s.grantHead d) := by
  unfold State.grantHead
  split
  · exact .refl s
  · exact ((samePool_setDetectorQueue _ _).trans (samePool_bindDetector _ _ _)).trans (samePool_modLine _ _ _)

theorem samePool_dropDetector (s : State) (n : LineNo) : SamePool s (s.dropDetector n) := by
  unfold State.dropDetector
  split
  · exact .refl s
  · exact (samePool_setDetectorQueue _ _).trans (samePool_modLine _ _ _)
  · dsimp only
    have h (d : DetectorNo) (x : Detector) (f : Line → Line) : SamePool s ((s.setDetector d x).modLine n f) :=
      (samePool_setDetector _ _ _).trans (samePool_modLine _ _ _)
    split
    · exact (h _ _ _).trans (samePool_grantHead _ _)
    · exact h _ _ _

theorem samePool_serviceIn (s : State) (d : DetectorNo) : SamePool s (s.serviceIn d) := by
  unfold State.serviceIn
  split
  · exact .refl s
  · exact (samePool_setDetector _ _ _).trans (samePool_grantHead _ _)

theorem samePool_serviceOut (s : State) (d : DetectorNo) : SamePool s (s.serviceOut d) := by
  unfold State.serviceOut
  split
  · split
    · exact samePool_setDetector _ _ _
    · dsimp only
      have h (x : Detector) (q : List Waiter) (n : LineNo) (f : Line → Line) :
          SamePool s (((s.setDetector d x).setDetectorQueue q).modLine n f) :=
        ((samePool_setDetector _ _ _).trans (samePool_setDetectorQueue _ _)).trans (samePool_modLine _ _ _)
      split
      · exact (h _ _ _ _).trans (samePool_grantHead _ _)
      · exact h _ _ _ _
  · exact .refl s

/-- The operation changes the test bus alone. -/
structure SameBus (s t : State) : Prop where
  same : { t with bus := s.bus } = s

theorem SameBus.refl (s : State) : SameBus s s := ⟨rfl⟩

theorem sameBus_of {s : State} (b : TestBus) : SameBus s { s with bus := b } := ⟨rfl⟩

theorem SameBus.eq {s t : State} (h : SameBus s t) : t = { s with bus := t.bus } := by
  rw [← h.same]

theorem sameBus_admitWanted (s : State) : SameBus s s.admitWanted := by
  unfold State.admitWanted
  split
  · exact .refl s
  · exact ⟨rfl⟩

theorem sameBus_removeEntry (s : State) (q : TestEntry → Bool) : SameBus s (s.removeEntry q) := by
  unfold State.removeEntry State.admitWanted
  repeat' split
  all_goals exact ⟨rfl⟩

theorem sameBus_want (s : State) (p : PairNo) : SameBus s (s.want p) := by
  unfold State.want State.placeWant
  repeat' split
  all_goals exact ⟨rfl⟩

theorem sameBus_withdraw (s : State) (p : PairNo) : SameBus s (s.withdraw p) := by
  unfold State.withdraw State.removeEntry State.admitWanted
  repeat' split
  all_goals exact ⟨rfl⟩

theorem sameBus_orderTest (s : State) (p : PairNo) (k : TestKind) (tag : Byte) : SameBus s (s.orderTest p k tag) := by
  unfold State.orderTest
  split <;> exact ⟨rfl⟩

/-- The operation changes the store and raises notices, and does nothing else. -/
structure SameStore (s t : State) : Prop where
  same : { t with store := s.store, notices := { t.notices with entries := s.notices.entries } } = s

theorem SameStore.eq {s t : State} (h : SameStore s t) :
    t = { s with store := t.store, notices := { s.notices with entries := t.notices.entries } } := by
  have := h.same
  rw [← this]

theorem sameStore_raise {s t : State} (h : SameStore s t) (src : Source) (k : Kind) (x : Option Time) :
    SameStore s (t.raise src k x) := by
  unfold State.raise
  split
  · exact ⟨h.same⟩
  · exact h

theorem sameStore_arrive (s : State) (r : DialRecord) : SameStore s (s.arrive r) := by
  unfold State.arrive State.admitRecord
  split
  · exact sameStore_raise ⟨rfl⟩ _ _ _
  · split
    · split
      · exact ⟨rfl⟩
      · exact sameStore_raise ⟨rfl⟩ _ _ _
    · exact ⟨rfl⟩

theorem sameStore_admitWaiting {s t : State} (h : SameStore s t) : SameStore s t.admitWaiting := by
  unfold State.admitWaiting State.admitRecord
  split
  · exact h
  · split
    · split
      · exact ⟨h.same⟩
      · apply sameStore_raise
        exact ⟨h.same⟩
    · exact h

theorem sameStore_store (s : State) (x : Store) : SameStore s { s with store := x } := ⟨rfl⟩

theorem sameStore_takeSlot (s : State) (i : Fin 16) (sl : Slot) : SameStore s (s.takeSlot i sl) := by
  unfold State.takeSlot
  dsimp only
  split
  · apply sameStore_admitWaiting
    exact sameStore_store s _
  · apply sameStore_admitWaiting
    exact sameStore_store s _

theorem sameStore_dropPending (s : State) (n : LineNo) : SameStore s (s.dropPending n) := ⟨rfl⟩

/-! ### Frames of whole operations -/

/-- What store, pool and line changes leave alone, every operation on a line leaves alone. -/
theorem ClosedLine.of_frame {α : Type} {f : State → α} (line : ∀ s n l, f (s.setLine n l) = f s)
    (store : ∀ s t, SameStore s t → f t = f s) (pool : ∀ s t, SamePool s t → f t = f s) (a : α) :
    ClosedLine fun s => f s = a where
  line s n l _ h := (line s n l).trans h
  raise _ src k x h := (store _ _ (sameStore_raise ⟨rfl⟩ src k x)).trans h
  arrive s r h := (store _ _ (sameStore_arrive s r)).trans h
  request s n h := (pool _ _ (samePool_requestDetector s n)).trans h
  drop s n h := (pool _ _ (samePool_dropDetector s n)).trans h

/-- What store, pool, line, bus, scan record and fault record changes leave alone, every event leaves alone. -/
theorem Closed.of_frame {α : Type} {f : State → α} (line : ∀ s n l, f (s.setLine n l) = f s)
    (store : ∀ s t, SameStore s t → f t = f s) (pool : ∀ s t, SamePool s t → f t = f s)
    (bus : ∀ s t, SameBus s t → f t = f s) (record : ∀ s p r, f (s.setScanRec p r) = f s)
    (answered : ∀ s p, f (s.setOutstanding p none) = f s) (fault : ∀ s p r, f (s.setFault p r) = f s)
    (binder : ∀ s b r, f (s.setBinder b r) = f s) (a : α) : Closed fun s => f s = a where
  toClosedLine := .of_frame line store pool a
  record s p r h := (record s p r).trans h
  answered s p h := (answered s p).trans h
  fault s p r h := (fault s p r).trans h
  binder s b r h := (binder s b r).trans h
  overrun s n b h := (store _ (s.setOverrun n b) ⟨rfl⟩).trans h
  want s p h := (bus _ _ (sameBus_want s p)).trans h
  withdraw s p h := (bus _ _ (sameBus_withdraw s p)).trans h
  bus _ b _ _ _ h := (bus _ _ (sameBus_of b)).trans h
  free s h := (bus s (s.setRun none) ⟨rfl⟩).trans h
  occupy s e _ _ h r _ :=
    (bus _ ((s.removeEntry fun x => decide (x = e)).setRun (some r)) ⟨rfl⟩).trans
      ((bus _ _ (sameBus_removeEntry s fun x => decide (x = e))).trans h)

/-! ### Raises and the binders -/

/-- What a raise leaves of the notices depends on the notices alone (R172, R174). -/
theorem State.raise_notices_congr {s t : State} (h : s.notices = t.notices) (src : Source) (k : Kind) (at_ : Option Time) :
    (s.raise src k at_).notices = (t.raise src k at_).notices := by
  unfold State.raise
  rw [h]
  split
  · rfl
  · exact h

/-- Bringing a binder into line with a changed binder_k touches no other binder, and raises BINDER exactly where
the binder goes on hold by it (R149, R150). -/
theorem State.alignBinder_effect (s : State) (b : BinderNo) :
    (s.alignBinder b).watch.settings = s.watch.settings ∧
    (∀ c, c ≠ b → (s.alignBinder b).binder c = s.binder c) ∧
    (s.alignBinder b).notices =
      if s.watch.settings.binderK ≤ (s.binder b).count ∧ (s.binder b).hold = false then
        (s.raise (.binder b) .binder none).notices
      else s.notices := by
  have other : ∀ (r : Binder) c, c ≠ b → (s.setBinder b r).binder c = s.binder c := fun r c hc => by
    simp [State.setBinder, State.binder, Vector.getElem_set_ne, Fin.val_ne_of_ne (Ne.symm hc)]
  unfold State.alignBinder State.raiseBinder
  dsimp only
  split
  · rename_i h
    split
    · rename_i h2
      refine ⟨rfl, fun c hc => other _ c hc, ?_⟩
      rw [if_neg (by simp [h2])]
      rfl
    · rename_i h2
      refine ⟨by simp, fun c hc => ?_, ?_⟩
      · have stays : ∀ u : State, (u.raise (.binder b) .binder none).binder c = u.binder c := fun u => by simp
        rw [stays]
        exact other _ c hc
      · rw [if_pos ⟨h, by simpa using h2⟩]
        exact State.raise_notices_congr (s := s.setBinder b _) (t := s) rfl _ _ _
  · rename_i h
    have out : ¬(s.watch.settings.binderK ≤ (s.binder b).count ∧ (s.binder b).hold = false) := fun x => h x.1
    rw [if_neg out]
    split
    · exact ⟨rfl, fun c hc => other _ c hc, rfl⟩
    · exact ⟨rfl, fun _ _ => rfl, rfl⟩

end Sys2Proof.Machine
end

