-- ==== Sys2Proof/Laws/Wire.lean ====
section
/-! SUPPORT. The wire forms read back: two and four byte numbers, and sets. -/

namespace Sys2Proof.Machine

/-- Two neighbouring pieces of a number, joined. -/
theorem extract_append {w : Nat} (x : BitVec w) (a m n : Nat) :
    (x.extractLsb' (a + n) m ++ x.extractLsb' a n : BitVec (m + n)) = x.extractLsb' a (m + n) := by
  apply BitVec.eq_of_getLsbD_eq
  intro i hi
  simp only [BitVec.getLsbD_append, BitVec.getLsbD_extractLsb', decide_eq_true hi, Bool.true_and]
  split
  · rename_i h
    rw [decide_eq_true h, Bool.true_and]
  · rename_i h
    rw [decide_eq_true (show i - n < m by omega), Bool.true_and]
    congr 1
    omega

@[simp] theorem half_halfBytes (x : Half) : half (x.extractLsb' 8 8) (x.extractLsb' 0 8) = x := by
  show (x.extractLsb' (0 + 8) 8 ++ x.extractLsb' 0 8 : BitVec (8 + 8)) = x
  rw [extract_append]
  simp

@[simp] theorem quad_quadBytes (x : Quad) :
    quad (x.extractLsb' 24 8) (x.extractLsb' 16 8) (x.extractLsb' 8 8) (x.extractLsb' 0 8) = x := by
  show ((x.extractLsb' (16 + 8) 8 ++ x.extractLsb' 16 8 : BitVec (8 + 8)) ++
    (x.extractLsb' (0 + 8) 8 ++ x.extractLsb' 0 8 : BitVec (8 + 8)) : BitVec (16 + 16)) = x
  rw [extract_append, extract_append]
  show (x.extractLsb' (0 + 16) 16 ++ x.extractLsb' 0 16 : BitVec (16 + 16)) = x
  rw [extract_append]
  simp

/-- The four bytes of a number of 32 bits, by their places (R193). -/
theorem bytes4_toNat (t : BitVec 32) :
    bytes4 t.toNat = [t.extractLsb' 24 8, t.extractLsb' 16 8, t.extractLsb' 8 8, t.extractLsb' 0 8] := by
  unfold bytes4 byte BitVec.extractLsb'
  simp [Nat.shiftRight_eq_div_pow]

theorem length_setBytes : ∀ n v : Nat, (setBytes n v).length = n
  | 0, _ => rfl
  | n + 1, v => by rw [setBytes, List.length_cons, length_setBytes n]

theorem setValue_setBytes : ∀ n v : Nat, v < 256 ^ n → setValue (setBytes n v) = v
  | 0, v, h => by
    simp only [Nat.pow_zero] at h
    simp [setBytes, setValue]
    omega
  | n + 1, v, h => by
    have h' : v / 256 < 256 ^ n := by
      rw [Nat.pow_succ] at h
      exact Nat.div_lt_of_lt_mul (by rw [Nat.mul_comm]; exact h)
    simp only [setBytes, setValue, setValue_setBytes n _ h', byte, BitVec.toNat_ofNat]
    omega

/-- A set of `w` members in enough bytes is read back (R193). -/
theorem set_setBytes {w n : Nat} (x : BitVec w) (h : 2 ^ w ≤ 256 ^ n) :
    BitVec.ofNat w (setValue (setBytes n x.toNat)) = x := by
  rw [setValue_setBytes n _ (Nat.lt_of_lt_of_le x.isLt h)]
  simp

/-- The bytes of a set, by their places (R193). -/
theorem setBytes_eq (n v : Nat) : setBytes n v = (List.range n).map fun i => BitVec.ofNat 8 (v / 256 ^ i) := by
  induction n generalizing v with
  | zero => rfl
  | succ n ih =>
    rw [setBytes, ih, List.range_succ_eq_map, List.map_cons, List.map_map]
    congr 1
    · simp [byte]
    · apply List.map_congr_left
      intro i _
      simp only [Function.comp]
      rw [Nat.div_div_eq_div_mul, Nat.pow_succ, Nat.mul_comm]

end Sys2Proof.Machine
end

