-- ==== Sys2Proof/Laws/Link.lean ====
section
/-! SUPPORT. The Cabinet Link Port: the choice, what a request leaves of the link, and a request that is
answered at once. -/

namespace Sys2Proof.Machine

/-- A choice that leaves the transmitter idle found nothing to send (R178). -/
theorem State.choose_idle {s : State} (h : s.choose.link.inFlight = none) :
    s.choose = s ∧ s.link.inFlight = none ∧ s.link.started = none ∧ s.link.replies = [] := by
  unfold State.choose at h ⊢
  split at h
  · rename_i hf
    rw [hf] at h
    cases h
  · split at h
    · cases h
    · split at h
      · cases h
      · rename_i hi _ hs _ hr
        unfold State.chooseNotice at h ⊢
        simp only [hi, hs, hr]
        split at h
        · cases h
        · rename_i h0
          split at h
          · cases h
          · rename_i h1
            split at h
            · cases h
            · rename_i h2
              exact ⟨rfl, trivial, trivial, trivial⟩

/-- A second choice finds the transmitter busy or nothing to send. -/
@[simp] theorem State.choose_choose (s : State) : s.choose.choose = s.choose := by
  cases h : s.choose.link.inFlight with
  | none =>
    rw [(State.choose_idle h).1]
    exact (State.choose_idle h).1
  | some f =>
    generalize s.choose = t at h
    unfold State.choose
    rw [h]

/-- Nothing of the link changes but that a reset may be ordered. -/
structure SameLink (l : Link) (s : State) : Prop where
  same : { s.link with resetOrdered := l.resetOrdered } = l
  ordered : l.resetOrdered = true → s.link.resetOrdered = true

theorem SameLink.of_eq {l : Link} {s t : State} (h : SameLink l s) (e : t.link = s.link) : SameLink l t := by
  refine ⟨?_, ?_⟩
  · rw [e]; exact h.same
  · rw [e]; exact h.ordered

/-- No request touches the link but by ordering a reset (R191, R196). -/
theorem sameLink_closed (l : Link) : ClosedRequest (SameLink l) where
  line _ _ _ _ h := h.of_eq rfl
  record _ _ _ h := h.of_eq rfl
  answered _ _ h := h.of_eq rfl
  fault _ _ _ h := h.of_eq rfl
  binder _ _ _ h := h.of_eq rfl
  scan _ _ h := h.of_eq rfl
  watch _ _ h := h.of_eq rfl
  raise _ _ _ _ h := h.of_eq (by simp)
  overrun _ _ _ h := h.of_eq rfl
  arrive s r h := h.of_eq (by rw [(sameStore_arrive s r).eq])
  request s n h := h.of_eq (samePool_requestDetector s n).link
  drop s n h := h.of_eq (samePool_dropDetector s n).link
  want s p h := h.of_eq (by rw [(sameBus_want s p).eq])
  withdraw s p h := h.of_eq (by rw [(sameBus_withdraw s p).eq])
  bus _ _ _ _ _ h := h.of_eq rfl
  free _ h := h.of_eq rfl
  occupy s e _ _ h r _ := (h.of_eq (by rw [(sameBus_removeEntry s fun x => decide (x = e)).eq]) :
    SameLink l (s.removeEntry fun x => decide (x = e))).of_eq (by simp)
  profile _ _ _ _ _ h := h.of_eq rfl
  window _ _ _ _ _ h := h.of_eq rfl
  defaultClass _ _ h := h.of_eq rfl
  dropPending _ _ h := h.of_eq rfl
  take s i sl _ h := h.of_eq (by rw [(sameStore_takeSlot s i sl).eq])
  out s d h := h.of_eq (samePool_serviceOut s d).link
  back s d h := h.of_eq (samePool_serviceIn s d).link
  order s p k tag _ _ h := h.of_eq (by rw [(sameBus_orderTest s p k tag).eq])
  cancel s p _ h := h.of_eq (by rw [(sameBus_removeEntry s _).eq])
  unwant _ _ h := h.of_eq rfl
  routes _ _ h := h.of_eq rfl
  enable _ _ _ h := h.of_eq (by simp)
  disable _ _ _ h := h.of_eq (by simp)
  takeEntry _ _ _ h := h.of_eq rfl
  ordered _ h := ⟨h.same, fun _ => rfl⟩

/-- No operation of the other blocks touches the link. -/
theorem linkStays_closed (l : Link) : Closed fun s => s.link = l where
  line _ _ _ _ h := h
  record _ _ _ h := h
  answered _ _ h := h
  fault _ _ _ h := h
  binder _ _ _ h := h
  raise _ _ _ _ h := by simpa using h
  overrun _ _ _ h := h
  arrive s r h := by rw [(sameStore_arrive s r).eq]; exact h
  request s n h := (samePool_requestDetector s n).link.trans h
  drop s n h := (samePool_dropDetector s n).link.trans h
  want s p h := by rw [(sameBus_want s p).eq]; exact h
  withdraw s p h := by rw [(sameBus_withdraw s p).eq]; exact h
  bus _ _ _ _ _ h := h
  free _ h := h
  occupy s e _ _ h r _ := by rw [State.link_setRun, (sameBus_removeEntry s _).eq]; exact h

theorem State.perform_link (s : State) (f : Frame) : SameLink s.link (s.perform f).1 :=
  (sameLink_closed s.link).perform f ⟨rfl, id⟩

/-- What an execution leaves of the link: one more reply, and a reset ordered if it was or if this is its
order (R191, R192, R196). -/
theorem State.executeFrame_link (s : State) (f : Frame) :
    ∃ (r : Frame) (b : Bool), (s.executeFrame f).link = { s.link with replies := s.link.replies ++ [r], resetOrdered := b } ∧
      (s.link.resetOrdered = true → b = true) := by
  have h := s.perform_link f
  refine ⟨(s.perform f).2.frame f.type f.tag, (s.perform f).1.link.resetOrdered, ?_, h.ordered⟩
  unfold State.executeFrame State.pushReply
  dsimp only
  have hs := h.same
  generalize (s.perform f).1.link = x at hs ⊢
  generalize s.link = y at hs ⊢
  obtain ⟨a1, a2, a3, a4, a5, a6, a7, a8, a9⟩ := x
  obtain ⟨b1, b2, b3, b4, b5, b6, b7, b8, b9⟩ := y
  simp only [Link.mk.injEq] at hs
  obtain ⟨rfl, rfl, rfl, rfl, rfl, rfl, rfl, rfl, -⟩ := hs
  rfl

/-! ### A request that is answered at once -/

theorem State.pump_nil {s : State} (h : s.link.inbox = []) (k : Nat) : s.pump k = s := by
  cases k with
  | zero => rfl
  | succ k =>
    unfold State.pump
    rw [h]

theorem State.pump_one {s : State} {f : Frame} (h : s.link.inbox = [f]) (hm : s.mayExecute = true) :
    s.pump 1 = (State.executeFrame { s with link := { s.link with inbox := [] } } f).choose := by
  unfold State.pump
  rw [h]
  simp only [hm, if_true]
  rfl

/-- A ready part executes a request frame at once and answers it (R190, R191, R192). -/
theorem State.receiveFrame_ready {s : State} (h : s.ready) (f : Frame) (ht : isRequestType f.type = true)
    (hp : f.payload.length ≤ 250) : (s.receiveFrame f).choose = (s.heard.executeFrame f).choose := by
  obtain ⟨hin, hrep, hord, hdeaf⟩ := h
  have hd : (s.setCollected []).deliver f =
      { s with link := { s.link with collected := [], inbox := [f] } } := by
    unfold State.deliver State.setCollected
    simp [hin, ht, Config.inboxMax]
  have hsame : ({ s with link := { s.link with collected := [], inbox := [] } } : State) = s.heard := by
    unfold State.heard
    rw [← hin]
  have hserve : State.serve { s with link := { s.link with collected := [], inbox := [f] } } =
      (s.heard.executeFrame f).choose := by
    unfold State.serve
    simp only [List.length_singleton]
    rw [State.pump_one (f := f) rfl (by simp [State.mayExecute, Config.replyMax, hrep, hord])]
    rw [State.choose_choose]
    simp only
    rw [hsame]
  unfold State.receiveFrame State.submit
  rw [hdeaf, hd, hserve]
  simp [Config.payloadMax, Nat.not_lt.mpr hp]

/-- The reply of a request that a ready part executes (R191, R192). -/
theorem arriveRequest_ready {s : State} (h : s.ready) (r : Request) (tag : Byte)
    (hd : decodeRequest r.type r.payload = .request r) (ht : isRequestType r.type = true) (hp : r.payload.length ≤ 250) :
    arriveRequest r tag s = .next ((runRequest r tag s.heard).1.answer (r.type + 0x80#8) tag
      (runRequest r tag s.heard).2.payload) := by
  unfold arriveRequest
  rw [State.receiveFrame_ready h _ ht hp]
  unfold State.executeFrame State.perform Request.frame Reply.frame State.answer
  rw [hd]

/-! ### The framer -/

/-- The characters behind a good frame are fewer than those examined (R188). -/
theorem takeFrame_good_length {cs rest : List Byte} {f : Frame} (h : takeFrame cs = .good f rest) :
    rest.length ≤ cs.length := by
  unfold takeFrame at h
  split at h
  · cases h
  · split at h
    · cases h
    · unfold takeBody at h
      split at h
      · cases h
      · dsimp only at h
        split at h
        · split at h
          · cases h
            simp only [List.length_drop, List.length_cons]
            omega
          · cases h
        · cases h

/-- More fuel than characters makes no difference. -/
theorem examine_fuel : ∀ (n m : Nat) (cs : List Byte), cs.length ≤ n → cs.length ≤ m → examine n cs = examine m cs := by
  intro n
  induction n using Nat.strongRecOn with
  | _ n ih =>
    intro m cs hn hm
    match n, m, cs with
    | 0, 0, [] => rfl
    | 0, m + 1, [] => rfl
    | n + 1, 0, [] => rfl
    | n + 1, m + 1, [] => rfl
    | n + 1, m + 1, c :: rest =>
      simp only [List.length_cons] at hn hm
      have key : ∀ r : List Byte, r.length ≤ rest.length → examine n r = examine m r :=
        fun r hr => ih n (by omega) m r (by omega) (by omega)
      unfold examine
      split
      · split
        · rfl
        · exact key rest (Nat.le_refl _)
        · rename_i f r h
          rw [key r (takeFrame_good_length h)]
      · exact key rest (Nat.le_refl _)

/-! ### The bounds of the inbox and the reply queue -/

theorem State.sendNotice_link (s : State) (c : Fin 4) (e : NoticeEntry) :
    (s.sendNotice c e).link = { s.link with inFlight := some (s.noticeFrame e) } := rfl

/-- What a choice does to the link: nothing but start a frame, taking the oldest reply when it starts one
(R178). -/
theorem State.choose_link (s : State) :
    s.choose.link.inbox = s.link.inbox ∧ s.choose.link.resetOrdered = s.link.resetOrdered ∧
      (s.choose.link.replies = s.link.replies ∨ ∃ r, s.link.replies = r :: s.choose.link.replies) ∧
      (s.choose.link.inFlight = none → s.choose.link.replies = []) := by
  refine ⟨?_, ?_, ?_, fun h => ?_⟩
  · unfold State.choose State.chooseNotice
    repeat' split
    all_goals rfl
  · unfold State.choose State.chooseNotice
    repeat' split
    all_goals rfl
  · unfold State.choose
    split
    · exact .inl rfl
    · split
      · exact .inl rfl
      · split
        · rename_i r rest hr
          exact .inr ⟨r, hr⟩
        · left
          unfold State.chooseNotice
          repeat' split
          all_goals rfl
  · rw [(State.choose_idle h).1]
    exact (State.choose_idle h).2.2.2

/-- The bounds without the clause on waiting requests, and with room in the inbox. -/
structure Link.Fits (l : Link) : Prop where
  inbox : l.inbox.length ≤ 4
  replies : l.replies.length ≤ 4
  idle : l.inFlight = none → l.replies = []

theorem State.choose_fits {s : State} (hi : s.link.inbox.length ≤ 4) (hr : s.link.replies.length ≤ 4) :
    s.choose.link.Fits := by
  obtain ⟨h1, -, h3, h4⟩ := s.choose_link
  refine ⟨by rw [h1]; exact hi, ?_, h4⟩
  rcases h3 with h3 | ⟨r, h3⟩
  · rw [h3]; exact hr
  · rw [h3] at hr
    simp only [List.length_cons] at hr
    omega

/-- Executing what can be executed leaves no request that could be (R191). -/
theorem State.pump_ok : ∀ (k : Nat) {s : State}, s.link.Fits → s.link.inbox.length ≤ k →
    (s.pump k).link.Fits ∧
      ((s.pump k).link.inbox ≠ [] → (s.pump k).link.replies.length = 4 ∨ (s.pump k).link.resetOrdered = true)
  | 0, s, h, hk => ⟨h, fun hne => absurd (List.length_eq_zero_iff.mp (Nat.le_zero.mp hk)) hne⟩
  | k + 1, s, h, hk => by
    unfold State.pump
    split
    · rename_i hnil
      exact ⟨h, fun hne => absurd hnil hne⟩
    · rename_i f rest hcons
      have hlen : rest.length ≤ k := by
        rw [hcons] at hk
        simpa using hk
      split
      · rename_i hm
        unfold State.mayExecute at hm
        simp only [Config.replyMax, Bool.and_eq_true] at hm
        have hroom := of_decide_eq_true hm.1
        obtain ⟨r, b, hl, -⟩ := State.executeFrame_link { s with link := { s.link with inbox := rest } } f
        have hin := h.inbox
        rw [hcons] at hin
        simp only [List.length_cons] at hin
        refine State.pump_ok k (State.choose_fits ?_ ?_) ?_
        · rw [hl]
          show rest.length ≤ 4
          omega
        · rw [hl]
          simp only [List.length_append, List.length_singleton]
          omega
        · rw [(State.choose_link _).1, hl]
          exact hlen
      · rename_i hm
        refine ⟨h, fun _ => ?_⟩
        unfold State.mayExecute at hm
        have := h.replies
        simp only [Config.replyMax, Bool.and_eq_true, Bool.not_eq_true', not_and, Bool.not_eq_false] at hm
        by_cases hr : s.link.replies.length < 4
        · exact .inr (hm (decide_eq_true hr))
        · exact .inl (by omega)

/-- Serving keeps the bounds and leaves no request that could be executed. -/
theorem State.serve_ok {s : State} (h : s.link.Fits) : s.serve.LinkOk := by
  obtain ⟨hf, hw⟩ := State.pump_ok s.link.inbox.length h (Nat.le_refl _)
  unfold State.serve
  have hc := State.choose_fits hf.inbox hf.replies
  obtain ⟨h1, h2, h3, -⟩ := State.choose_link (s.pump s.link.inbox.length)
  refine ⟨hc.inbox, hc.replies, hc.idle, fun hne => ?_⟩
  rw [h1] at hne
  rcases hw hne with h4 | h4
  · rcases h3 with h3 | ⟨r, h3⟩
    · exact .inl (by rw [h3]; exact h4)
    · left
      exfalso
      -- a reply was taken, so the transmitter was idle: then no reply waited
      have hidle : (s.pump s.link.inbox.length).link.inFlight = none := by
        cases hf' : (s.pump s.link.inbox.length).link.inFlight with
        | none => rfl
        | some g =>
          generalize s.pump s.link.inbox.length = t at *
          unfold State.choose at h3
          rw [hf'] at h3
          simp only at h3
          exact absurd (congrArg List.length h3) (by simp)
      have := hf.idle hidle
      rw [h3] at this
      cases this
  · exact .inr (by rw [h2]; exact h4)

/-! ### The CRC bit by bit, and whole frames -/

/-- A bit of the CRC, with the bit that comes in taken out of the register (R187). -/
theorem crcBit_xor (r x : BitVec 16) :
    crcBit (r ^^^ x) = (if r.msb = x.msb then r <<< 1 else (r <<< 1) ^^^ 0x1021) ^^^ (x <<< 1) := by
  unfold crcBit
  rw [BitVec.msb_xor, BitVec.shiftLeft_xor_distrib]
  cases r.msb <;> cases x.msb <;> simp <;> ac_rfl

/-- The two CRC bytes of a frame match exactly when their number is the CRC (R187). -/
theorem crcBytes_eq (bs : List Byte) (hi lo : Byte) : [hi, lo] = crcBytes bs ↔ crc bs = (hi ++ lo : BitVec 16) := by
  have h1 : BitVec.extractLsb' 8 8 (hi ++ lo : BitVec (8 + 8)) = hi := by
    apply BitVec.eq_of_getLsbD_eq
    intro i hi
    rw [BitVec.getLsbD_extractLsb', BitVec.getLsbD_append]
    simp [hi]
  have h2 : BitVec.extractLsb' 0 8 (hi ++ lo : BitVec (8 + 8)) = lo := by
    apply BitVec.eq_of_getLsbD_eq
    intro i hi
    rw [BitVec.getLsbD_extractLsb', BitVec.getLsbD_append]
    simp [hi]
  unfold crcBytes
  constructor
  · intro e
    simp only [List.cons.injEq, and_true] at e
    rw [e.1, e.2]
    exact (half_halfBytes _).symm
  · intro e
    rw [e, h1, h2]

/-- A frame with a length out of range is false (R188 step 1). -/
theorem takeFrame_illegal {len : Byte} {rest : List Byte} (h : len.toNat < 2 ∨ 252 < len.toNat) :
    takeFrame (len :: rest) = .bad := by
  unfold takeFrame
  exact if_pos h

/-- A frame is incomplete until its body and CRC have arrived (R188 steps 2 and 3). -/
theorem takeFrame_short {len : Byte} {rest : List Byte} (h : 2 ≤ len.toNat) (h' : len.toNat ≤ 252)
    (hl : rest.length < len.toNat + 2) : takeFrame (len :: rest) = .incomplete := by
  unfold takeFrame takeBody
  simp only
  rw [if_neg (by omega), if_pos hl]

/-- A whole frame is good exactly when its CRC matches (R188 step 3). -/
theorem takeFrame_whole {len type tag hi lo : Byte} {payload behind : List Byte} (h : len.toNat ≤ 252)
    (hl : payload.length + 2 = len.toNat) :
    takeFrame (len :: type :: tag :: (payload ++ hi :: lo :: behind)) =
      if crc (len :: type :: tag :: payload) = (hi ++ lo : BitVec 16) then .good ⟨type, tag, payload⟩ behind else .bad := by
  have hb : (type :: tag :: payload).length = len.toNat := by simpa using hl
  unfold takeFrame takeBody
  simp only
  rw [if_neg (by omega), show type :: tag :: (payload ++ hi :: lo :: behind) =
    (type :: tag :: payload) ++ (hi :: lo :: behind) from rfl, List.take_left' hb, List.drop_left' hb,
    if_neg (by simp; omega)]
  simp only [List.take_succ_cons, List.take_zero, List.drop_succ_cons, List.drop_zero, crcBytes_eq]

/-! ### The service of the inbox, one request at a time -/

/-- With no request, or none that may be executed, serving is the choice alone (R191). -/
theorem State.serve_idle {s : State} (h : s.link.inbox = [] ∨ s.mayExecute = false) : s.serve = s.choose := by
  unfold State.serve
  congr 1
  cases hi : s.link.inbox with
  | nil => exact State.pump_nil hi _
  | cons f rest =>
    have hm : s.mayExecute = false := h.resolve_left (by simp [hi])
    rw [List.length_cons, State.pump]
    simp [hi, hm]

/-- The request at the head is executed, the transmitter chooses, and the rest is served (R178, R191). -/
theorem State.serve_cons {s : State} {f : Frame} {rest : List Frame} (h : s.link.inbox = f :: rest)
    (hm : s.mayExecute = true) :
    s.serve = (State.executeFrame { s with link := { s.link with inbox := rest } } f).choose.serve := by
  have hl : (State.executeFrame { s with link := { s.link with inbox := rest } } f).choose.link.inbox = rest := by
    rw [(State.choose_link _).1]
    obtain ⟨r, b, hr, -⟩ := State.executeFrame_link { s with link := { s.link with inbox := rest } } f
    rw [hr]
  unfold State.serve
  rw [hl, h, List.length_cons]
  conv => lhs; unfold State.pump
  simp [h, hm]

end Sys2Proof.Machine
end

