-- ==== Sys2Proof/Laws/Finish.lean ====
section
/-! SUPPORT. The end of an event: what a look and the transmitter's choice can do. -/

namespace Sys2Proof.Machine

/-! ### The choice (R178, R180) -/

/-- A choice changes only the pending notices with their cursors, and of the link only the STARTED frame, the reply
queue and the frame in flight. -/
theorem State.choose_eq (s : State) : s.choose = { s with
    notices := { s.notices with entries := s.choose.notices.entries, cursors := s.choose.notices.cursors }
    link := { s.link with
      started := s.choose.link.started, replies := s.choose.link.replies, inFlight := s.choose.link.inFlight } } := by
  unfold State.choose State.chooseNotice
  repeat' split
  all_goals rfl

/-- With a frame in flight there is no choice (R178). -/
theorem State.choose_busy {s : State} (h : s.link.inFlight.isSome = true) : s.choose = s := by
  obtain ⟨f, hf⟩ := Option.isSome_iff_exists.mp h
  unfold State.choose
  rw [hf]

/-! ### The look (R158 to R160) -/

/-- A look claims the first eligible entry of a free bus, or does nothing (R159). -/
theorem State.look_cases (s : State) : s.look = s ∨
    ∃ e, s.bus.run = none ∧ s.bus.queue.find? s.eligible = some e ∧ s.look = s.claim e := by
  unfold State.look
  split
  · exact .inl rfl
  · split
    · exact .inr ⟨_, ‹_›, ‹_›, rfl⟩
    · exact .inl rfl

theorem State.removeEntry_eq (s : State) (q : TestEntry → Bool) : s.removeEntry q = { s with
    bus := { s.bus with queue := (s.removeEntry q).bus.queue, wanted := (s.removeEntry q).bus.wanted } } := by
  unfold State.removeEntry State.admitWanted
  repeat' split
  all_goals rfl

/-- A claim changes only the lines, the scan records, and of the test bus the run, the queue, the wanted set and the
messages sent (R160). -/
theorem State.claim_eq (s : State) (e : TestEntry) : s.claim e = { s with
    lines := (s.claim e).lines
    scan := { s.scan with recs := (s.claim e).scan.recs }
    bus := { s.bus with
      run := (s.claim e).bus.run, queue := (s.claim e).bus.queue, wanted := (s.claim e).bus.wanted
      sent := (s.claim e).bus.sent } } := by
  unfold State.claim
  rw [State.removeEntry_eq]
  dsimp only
  split <;> rfl

/-- The line that a claim changes is the served line of the pair, which goes UNDER_TEST (R160). -/
theorem State.line_claim (s : State) (e : TestEntry) (n : LineNo) : (s.claim e).line n = s.line n ∨
    s.served e.pair = some n ∧ (s.claim e).line n = { s.line n with
      state := .underTest, settleTimer := none, wasFaulted := some (decide ((s.line n).state = .faulted)) } := by
  have hs : ∀ r, ((s.removeEntry fun x => decide (x = e)).setRun r).served e.pair = s.served e.pair := by
    intro r
    rw [State.removeEntry_eq]
    rfl
  have hl : ∀ r m, ((s.removeEntry fun x => decide (x = e)).setRun r).line m = s.line m := by
    intro r m
    rw [State.removeEntry_eq]
    rfl
  unfold State.claim
  dsimp only
  rw [hs]
  split
  · rename_i m hm
    by_cases h : m = n
    · subst h
      refine .inr ⟨hm, ?_⟩
      simp [State.claimLine, hl]
    · exact .inl ((State.line_setLine_ne _ _ h).trans (hl _ n))
  · exact .inl (by simp [hl])

/-- The scan record that a claim changes is that of the pair, which loses its glitch run and sample class (R160). -/
theorem State.scanRec_claim (s : State) (e : TestEntry) (p : PairNo) : (s.claim e).scanRec p =
    if e.pair = p then { s.scanRec p with run := none, sampleClass := none } else s.scanRec p := by
  have key : ∀ v : State, v.scan = s.scan →
      ((v.setScanRec e.pair { v.scanRec e.pair with run := none, sampleClass := none }).sendTest
        (.connect e.pair)).scanRec p =
      if e.pair = p then { s.scanRec p with run := none, sampleClass := none } else s.scanRec p := by
    intro v hv
    have hq : ∀ q, v.scanRec q = s.scanRec q := fun q => by unfold State.scanRec; rw [hv]
    split
    · subst_vars
      simp [hq]
    · rename_i h
      simp [State.scanRec_setScanRec_ne _ _ h, hq]
  unfold State.claim
  rw [State.removeEntry_eq]
  dsimp only
  split <;> exact key _ rfl

end Sys2Proof.Machine
end

