-- ==== Sys2Proof/Laws/TestQueue.lean ====
section
/-! SUPPORT. The test queue and the test wanted set: what a want, a withdrawal, a claim, an order and a
cancellation do to their bounds. -/

namespace Sys2Proof.Machine

theorem State.onBus_eq (s : State) (p : PairNo) : s.onBus p = true ↔ s.bus.run.map (·.pair) = some p := by
  unfold State.onBus
  cases h : s.bus.run <;> simp

/-- The invariant depends on the queue, the wanted set and the occupant alone. -/
theorem State.TestsOk.congr {s t : State} (h : s.TestsOk) (hq : t.bus.queue = s.bus.queue)
    (hw : t.bus.wanted = s.bus.wanted) (hb : ∀ p, t.onBus p = true → s.onBus p = true) : t.TestsOk := by
  have hb' (p : PairNo) (hs : s.onBus p = false) : t.onBus p = false := by
    cases ht : t.onBus p with
    | false => rfl
    | true => rw [hb p ht] at hs; cases hs
  refine ⟨by rw [hq]; exact h.size, by rw [hq]; exact h.once, ?_, ?_⟩
  · rw [hq]
    exact fun e he => hb' _ (h.offBus e he)
  · rw [hw, hq]
    exact fun p hp => ⟨hb' _ (h.wanted p hp).1, (h.wanted p hp).2⟩

theorem State.TestsOk.bus {s : State} (h : s.TestsOk) (b : TestBus) (hq : b.queue = s.bus.queue)
    (hw : b.wanted = s.bus.wanted) (hr : b.run.map (·.pair) = s.bus.run.map (·.pair)) :
    State.TestsOk { s with bus := b } :=
  h.congr hq hw fun p hp => by
    rw [State.onBus_eq] at hp ⊢
    rw [← hr]
    exact hp

theorem State.TestsOk.free {s : State} (h : s.TestsOk) : (s.setRun none).TestsOk :=
  h.congr rfl rfl fun p hp => by
    rw [State.onBus_eq] at hp
    cases hp

theorem TestBus.queued_iff {b : TestBus} {p : PairNo} : b.queued p = true ↔ ∃ e ∈ b.queue, e.pair = p := by
  simp [TestBus.queued]

theorem TestBus.queued_false {b : TestBus} {p : PairNo} : b.queued p = false ↔ ∀ e ∈ b.queue, e.pair ≠ p := by
  simp [TestBus.queued]

/-- Entries change, but not the pairs they stand for. -/
theorem State.TestsOk.map {s : State} (h : s.TestsOk) (f : TestEntry → TestEntry) (hf : ∀ e, (f e).pair = e.pair) :
    (s.setTestQueue (s.bus.queue.map f)).TestsOk := by
  refine ⟨?_, ?_, ?_, fun p hp => ⟨(h.wanted p hp).1, ?_, ?_⟩⟩
  · show (s.bus.queue.map f).length ≤ 16
    rw [List.length_map]
    exact h.size
  · show (s.bus.queue.map f).Pairwise _
    rw [List.pairwise_map]
    exact h.once.imp fun hab => by rw [hf, hf]; exact hab
  · show ∀ e ∈ s.bus.queue.map f, s.onBus e.pair = false
    intro e he
    obtain ⟨x, hx, rfl⟩ := List.mem_map.mp he
    rw [hf]
    exact h.offBus x hx
  · show ∀ e ∈ s.bus.queue.map f, e.pair ≠ p
    intro e he
    obtain ⟨x, hx, rfl⟩ := List.mem_map.mp he
    rw [hf]
    exact (h.wanted p hp).2.1 x hx
  · show (s.bus.queue.map f).length = 16
    rw [List.length_map]
    exact (h.wanted p hp).2.2

/-- An entry for a new pair joins the tail. -/
theorem State.TestsOk.append {s : State} (h : s.TestsOk) (e : TestEntry) (hb : s.onBus e.pair = false)
    (hq : ∀ x ∈ s.bus.queue, x.pair ≠ e.pair) (hl : s.bus.queue.length < 16) :
    (s.setTestQueue (s.bus.queue ++ [e])).TestsOk := by
  have hw : ∀ p : PairNo, s.bus.wanted[p] = none := fun p => by
    cases hp : s.bus.wanted[p] with
    | none => rfl
    | some _ =>
      have := (h.wanted p (by simp [hp])).2.2
      omega
  refine ⟨?_, ?_, ?_, fun p hp => absurd (hw p) hp⟩
  · show (s.bus.queue ++ [e]).length ≤ 16
    simp
    omega
  · show (s.bus.queue ++ [e]).Pairwise _
    rw [List.pairwise_append]
    refine ⟨h.once, by simp, fun a ha b hb' => ?_⟩
    rw [List.mem_singleton.mp hb']
    exact hq a ha
  · show ∀ x ∈ s.bus.queue ++ [e], s.onBus x.pair = false
    intro x hx
    rcases List.mem_append.mp hx with hx | hx
    · exact h.offBus x hx
    · rw [List.mem_singleton.mp hx]
      exact hb

theorem State.TestsOk.unwant {s : State} (h : s.TestsOk) (p : PairNo) : (s.setWanted p none).TestsOk := by
  refine ⟨h.size, h.once, h.offBus, fun q hq => h.wanted q ?_⟩
  intro hn
  apply hq
  show (s.bus.wanted.set p none)[q] = none
  by_cases hpq : p = q
  · subst hpq; simp
  · simp [Vector.getElem_set_ne, Fin.val_ne_of_ne hpq]
    simpa using hn

theorem TestBus.lowestWanted_some {b : TestBus} {p : PairNo} {k : TestKind} (h : b.lowestWanted = some (p, k)) :
    b.wanted[p] = some k := by
  obtain ⟨q, -, hq⟩ := List.exists_of_findSome?_eq_some h
  obtain ⟨k', hk', heq⟩ := Option.map_eq_some_iff.mp hq
  cases heq
  exact hk'

theorem TestBus.lowestWanted_none {b : TestBus} (h : b.lowestWanted = none) (p : PairNo) : b.wanted[p] = none := by
  have := List.findSome?_eq_none_iff.mp h p (List.mem_finRange p)
  simpa using this

/-- No pair comes out of the wanted set exactly when it is empty (R157). -/
theorem TestBus.lowestWanted_eq_none {b : TestBus} : b.lowestWanted = none ↔ ∀ p : PairNo, b.wanted[p] = none := by
  unfold TestBus.lowestWanted allPairs
  simp [List.findSome?_eq_none_iff]

/-- The first number of a row that has a value, when no lower one has. -/
theorem findSome_finRange {n : Nat} {f : Fin n → Option α} {q : Fin n} {a : α} (h : f q = some a)
    (low : ∀ x < q, f x = none) : (List.finRange n).findSome? f = some a := by
  obtain ⟨front, back, e⟩ := List.append_of_mem (List.mem_finRange q)
  have hp := List.pairwise_lt_finRange n
  rw [e] at hp ⊢
  have hf : front.findSome? f = none :=
    List.findSome?_eq_none_iff.mpr fun x hx => low x ((List.pairwise_append.mp hp).2.2 x hx q (by simp))
  rw [List.findSome?_append, hf]
  simp [h]

/-- The lowest-numbered pair of the wanted set comes out of it (R157). -/
theorem TestBus.lowestWanted_eq_some {b : TestBus} {p : PairNo} {k : TestKind} (h : b.wanted[p] = some k)
    (low : ∀ x < p, b.wanted[x] = none) : b.lowestWanted = some (p, k) :=
  findSome_finRange (f := fun p : PairNo => b.wanted[p].map fun k => (p, k)) (q := p) (by simp [h]) fun x hx => by simp [low x hx]

/-- An entry leaves the queue and a wanted pair takes the room (R157). -/
theorem State.TestsOk.removeEntry {s : State} (h : s.TestsOk) (q : TestEntry → Bool) : (s.removeEntry q).TestsOk := by
  unfold State.removeEntry
  split
  · rename_i hany
    have hlen : (s.bus.queue.eraseP q).length = s.bus.queue.length - 1 := by
      obtain ⟨e, he, hqe⟩ := List.any_eq_true.mp hany
      exact List.length_eraseP_of_mem he hqe
    have hpos : 0 < s.bus.queue.length := by
      obtain ⟨e, he, -⟩ := List.any_eq_true.mp hany
      exact List.length_pos_of_mem he
    have hsub : (s.bus.queue.eraseP q).Sublist s.bus.queue := List.eraseP_sublist
    have honce := h.once.sublist hsub
    have hoff : ∀ e ∈ s.bus.queue.eraseP q, s.onBus e.pair = false := fun e he => h.offBus e (hsub.subset he)
    have hsize := h.size
    unfold State.admitWanted
    split
    · rename_i hnone
      refine ⟨?_, honce, hoff, fun p hp => absurd (TestBus.lowestWanted_none hnone p) hp⟩
      show (s.bus.queue.eraseP q).length ≤ 16
      omega
    · rename_i p k hsome
      have hp : s.bus.wanted[p] = some k := TestBus.lowestWanted_some (b := s.bus) hsome
      obtain ⟨hpb, hpq, hp16⟩ := h.wanted p (by simp [hp])
      refine ⟨?_, ?_, ?_, fun r hr => ?_⟩
      · show (s.bus.queue.eraseP q ++ [_]).length ≤ 16
        rw [List.length_append, List.length_singleton]
        omega
      · show (s.bus.queue.eraseP q ++ [_]).Pairwise _
        rw [List.pairwise_append]
        refine ⟨honce, by simp, fun a ha b hb => ?_⟩
        rw [List.mem_singleton.mp hb]
        exact hpq a (hsub.subset ha)
      · show ∀ x ∈ s.bus.queue.eraseP q ++ [_], s.onBus x.pair = false
        intro x hx
        rcases List.mem_append.mp hx with hx | hx
        · exact hoff x hx
        · rw [List.mem_singleton.mp hx]
          exact hpb
      · have hr' : (s.bus.wanted.set p none)[r] ≠ none := hr
        have hpr : p ≠ r := by
          rintro rfl
          simp at hr'
        have hwr : s.bus.wanted[r] ≠ none := by
          intro hn
          apply hr'
          simp [Vector.getElem_set_ne, Fin.val_ne_of_ne hpr]
          simpa using hn
        obtain ⟨hrb, hrq, hr16⟩ := h.wanted r hwr
        refine ⟨hrb, ?_, ?_⟩
        · show ∀ x ∈ s.bus.queue.eraseP q ++ [_], x.pair ≠ r
          intro x hx
          rcases List.mem_append.mp hx with hx | hx
          · exact hrq x (hsub.subset hx)
          · rw [List.mem_singleton.mp hx]
            exact hpr
        · show (s.bus.queue.eraseP q ++ [_]).length = 16
          rw [List.length_append, List.length_singleton]
          omega
  · exact h

/-- A want of a pair off the bus keeps the bounds (R156). -/
theorem State.TestsOk.want {s : State} (h : s.TestsOk) (p : PairNo) : (s.want p).TestsOk := by
  unfold State.want
  split
  · exact h
  · rename_i hb
    have hb : s.onBus p = false := by simpa using hb
    generalize s.wantedKind p = k
    unfold State.placeWant
    split
    · exact h.map _ fun e => by split <;> rfl
    · rename_i hq
      have hq : ∀ e ∈ s.bus.queue, e.pair ≠ p := TestBus.queued_false.mp (by simpa using hq)
      have put (x : TestKind) (hl : s.bus.queue.length = 16) : (s.setWanted p (some x)).TestsOk := by
        refine ⟨h.size, h.once, h.offBus, fun q hq' => ?_⟩
        by_cases hpq : p = q
        · subst hpq
          exact ⟨hb, hq, hl⟩
        · refine h.wanted q fun hn => hq' ?_
          show (s.bus.wanted.set p (some x))[q] = none
          simp [Vector.getElem_set_ne, Fin.val_ne_of_ne hpq]
          simpa using hn
      split
      · rename_i k' hk'
        exact put _ (h.wanted p (by simp [hk'])).2.2
      · split
        · rename_i hl
          exact h.append ⟨p, k, .watch⟩ hb hq hl
        · rename_i hl
          have := h.size
          exact put _ (by simp only [Config.testQueueMax] at hl; omega)

theorem State.TestsOk.withdraw {s : State} (h : s.TestsOk) (p : PairNo) : (s.withdraw p).TestsOk := by
  unfold State.withdraw
  split
  · exact h
  · exact (h.unwant p).removeEntry _

/-- An accepted order keeps the bounds (R167). -/
theorem State.TestsOk.order {s : State} (h : s.TestsOk) (p : PairNo) (k : TestKind) (tag : Byte)
    (hb : s.onBus p = false) (hl : s.bus.queued p = true ∨ s.bus.queue.length < 16) : (s.orderTest p k tag).TestsOk := by
  unfold State.orderTest
  split
  · exact h.map _ fun e => by split <;> rfl
  · rename_i hq
    have hq : s.bus.queued p = false := by simpa using hq
    refine h.append ⟨p, k, .controller tag⟩ hb (TestBus.queued_false.mp hq) ?_
    rcases hl with hl | hl
    · rw [hq] at hl; cases hl
    · exact hl

/-- A claimed entry's pair is nowhere else (R155, R160). -/
theorem State.TestsOk.occupy {s : State} (h : s.TestsOk) (e : TestEntry) (_ : s.bus.run = none) (he : e ∈ s.bus.queue)
    (r : Run) (hr : r.pair = e.pair) : ((s.removeEntry fun x => decide (x = e)).setRun (some r)).TestsOk := by
  have h1 := h.removeEntry fun x => decide (x = e)
  generalize hu : (s.removeEntry fun x => decide (x = e)) = u at h1
  have hq : ∀ x ∈ u.bus.queue, x.pair ≠ e.pair := by
    intro x hx
    have herase : ∀ y ∈ s.bus.queue.eraseP (fun x => decide (x = e)), y.pair ≠ e.pair := by
      intro y hy hye
      have hsub : y ∈ s.bus.queue := List.eraseP_sublist.subset hy
      have hyne : y = e := by
        by_cases heq : y = e
        · exact heq
        · obtain ⟨i, hi, hyi⟩ := List.mem_iff_getElem.mp hsub
          obtain ⟨j, hj, hej⟩ := List.mem_iff_getElem.mp he
          have hp := List.pairwise_iff_getElem.mp h.once
          rcases Nat.lt_trichotomy i j with hij | hij | hij
          · exact absurd (by rw [hyi, hej]; exact hye) (hp i j hi hj hij)
          · subst hij
            exact hyi.symm.trans hej
          · exact absurd (by rw [hyi, hej]; exact hye.symm) (hp j i hj hi hij)
      subst hyne
      obtain ⟨a, l1, l2, hnot, ha, heq, herase⟩ := List.exists_of_eraseP (p := fun x => decide (x = y)) he (decide_eq_true rfl)
      have ha := of_decide_eq_true ha
      subst ha
      rw [herase] at hy
      have honce := h.once
      rw [heq, List.pairwise_append, List.pairwise_cons] at honce
      rcases List.mem_append.mp hy with hy | hy
      · exact hnot _ hy (by simp)
      · exact honce.2.1.1 _ hy rfl
    have hin : x ∈ s.bus.queue.eraseP (fun x => decide (x = e)) ∨ x.pair ≠ e.pair := by
      rw [← hu] at hx
      unfold State.removeEntry at hx
      rw [if_pos (List.any_eq_true.mpr ⟨e, he, by simp⟩)] at hx
      unfold State.admitWanted at hx
      split at hx
      · exact .inl hx
      · rename_i p k hsome
        rcases List.mem_append.mp hx with hx | hx
        · exact .inl hx
        · right
          rw [List.mem_singleton.mp hx]
          have hp : s.bus.wanted[p] = some k := TestBus.lowestWanted_some (b := s.bus) hsome
          exact fun heq => (h.wanted p (by simp [hp])).2.1 e he heq.symm
    rcases hin with hin | hin
    · exact herase x hin
    · exact hin
  have hw : u.bus.wanted[e.pair] = none := by
    cases hw : u.bus.wanted[e.pair] with
    | none => rfl
    | some k =>
      exfalso
      have hle : s.bus.wanted[e.pair] ≠ none := by
        rw [← hu] at hw
        unfold State.removeEntry State.admitWanted at hw
        split at hw
        · split at hw
          · intro hn
            have : s.bus.wanted[e.pair] = some k := hw
            rw [hn] at this
            cases this
          · rename_i p k' _
            have hw' : (s.bus.wanted.set p none)[e.pair] = some k := hw
            intro hn
            by_cases hpe : p = e.pair
            · subst hpe
              simp at hw'
            · simp [Vector.getElem_set_ne, Fin.val_ne_of_ne hpe] at hw'
              simp at hn
              rw [hn] at hw'
              cases hw'
        · intro hn
          rw [hn] at hw
          cases hw
      exact (h.wanted _ hle).2.1 e he rfl
  have hbus (p : PairNo) (hp : p ≠ e.pair) : (u.setRun (some r)).onBus p = false := by
    simp [State.onBus, State.setRun, hr, Ne.symm hp]
  refine ⟨h1.size, h1.once, fun x hx => hbus _ (hq x hx), fun p hp => ?_⟩
  obtain ⟨-, h2, h3⟩ := h1.wanted p hp
  refine ⟨hbus p fun heq => hp ?_, h2, h3⟩
  rw [heq]
  exact hw

end Sys2Proof.Machine
end

