-- ==== Sys2Proof/Laws/Lines.lean ====
section
/-! SUPPORT. The standing of the lines: which lines are enabled, on which pairs, and which are UNDER_TEST.
`SameTest` is what an event inside supervision keeps of it; the events that change it keep `State.LinesOk`. -/

namespace Sys2Proof.Machine

/-! ### Standing -/

/-- What R4 and R55 speak of: the line's pair, whether it is disabled, and whether it is UNDER_TEST. -/
def Line.standing (l : Line) : PairNo × Bool × Bool :=
  (l.pair, decide (l.state = .disabled), decide (l.state = .underTest))

/-- The line is enabled and not UNDER_TEST. -/
def Line.active (l : Line) : Prop := l.state ≠ .disabled ∧ l.state ≠ .underTest

theorem Line.standing_eq {l k : Line} : l.standing = k.standing ↔
    l.pair = k.pair ∧ (l.state = .disabled ↔ k.state = .disabled) ∧ (l.state = .underTest ↔ k.state = .underTest) := by
  simp [Line.standing]

theorem Line.standing_of_active {l k : Line} (hl : l.active) (hk : k.active) (hp : l.pair = k.pair) :
    l.standing = k.standing := by
  rw [Line.standing_eq]
  simp [hp, hl.1, hl.2, hk.1, hk.2]

theorem OffHook.active (l : Line) (ph : OffHook) : ({ l with state := ph.toState } : Line).active := by
  cases ph <;> exact ⟨nofun, nofun⟩

@[simp] theorem Line.standing_mark (l : Line) (f : Marks → Marks) : (l.mark f).standing = l.standing := rfl

@[simp] theorem Line.standing_endDigitLearning (l : Line) : l.endDigitLearning.standing = l.standing := by
  unfold Line.endDigitLearning; split <;> rfl

@[simp] theorem Line.standing_discardPulse (l : Line) : l.discardPulse.standing = l.standing := by
  unfold Line.discardPulse Line.markMutilated
  rw [Line.standing_mark]
  exact Line.standing_endDigitLearning ({ l with gapTimer := none } : Line)

@[simp] theorem Line.standing_discardAnyPulse (l : Line) : l.discardAnyPulse.standing = l.standing := by
  unfold Line.discardAnyPulse; split <;> simp

@[simp] theorem Line.standing_learnOverflow (l : Line) : l.learnOverflow.standing = l.standing := by
  unfold Line.learnOverflow; split <;> rfl

@[simp] theorem Line.standing_offerOnset (l : Line) (p : Profile) (a b : Time) (c : Bool) :
    (l.offerOnset p a b c).standing = l.standing := by
  unfold Line.offerOnset Line.markRateOutOfRange
  repeat' (first | split | dsimp only)
  all_goals rfl

theorem Line.active_of_standing {l k : Line} (h : l.standing = k.standing) (hk : k.active) : l.active := by
  rw [Line.standing_eq] at h
  exact ⟨fun x => hk.1 (h.2.1.mp x), fun x => hk.2 (h.2.2.mp x)⟩

theorem Line.pair_of_standing {l k : Line} (h : l.standing = k.standing) : l.pair = k.pair := congrArg (·.1) h

@[simp] theorem Line.pair_offerOnset (l : Line) (p : Profile) (a b : Time) (c : Bool) :
    (l.offerOnset p a b c).pair = l.pair :=
  Line.pair_of_standing (Line.standing_offerOnset l p a b c)

theorem Line.active_of_phase {l : Line} {ph : OffHook} (h : l.phase = some ph) : l.active := by
  unfold Line.phase at h
  unfold Line.active
  split at h <;> simp_all

/-! ### Events that leave the standing of every line as it is -/

/-- Every line has the standing it had, and the pair on the test bus is the same. -/
structure SameTest (s t : State) : Prop where
  lines : ∀ n, (t.line n).standing = (s.line n).standing
  bus : t.bus.run.map (·.pair) = s.bus.run.map (·.pair)

variable {s t : State}

theorem SameTest.refl (s : State) : SameTest s s := ⟨fun _ => rfl, rfl⟩

theorem SameTest.trans {u : State} (h : SameTest s t) (k : SameTest t u) : SameTest s u :=
  ⟨fun n => (k.lines n).trans (h.lines n), k.bus.trans h.bus⟩

theorem SameTest.active (h : SameTest s t) {n : LineNo} (hn : (s.line n).active) : (t.line n).active :=
  Line.active_of_standing (h.lines n) hn

/-- A change that leaves the lines and the run record alone. -/
theorem SameTest.same {u : State} (h : SameTest s t) (hl : u.lines = t.lines) (hb : u.bus.run = t.bus.run) :
    SameTest s u :=
  ⟨fun n => by rw [← h.lines n, State.line, State.line, hl], by rw [hb, h.bus]⟩

theorem SameTest.set (h : SameTest s t) {n : LineNo} {l : Line} (hl : l.standing = (t.line n).standing) :
    SameTest s (t.setLine n l) := by
  refine ⟨fun m => ?_, h.bus⟩
  rw [State.line_setLine]
  split
  · subst_vars; exact hl.trans (h.lines _)
  · exact h.lines m

theorem SameTest.mod (h : SameTest s t) {n : LineNo} {f : Line → Line}
    (hf : (f (t.line n)).standing = (t.line n).standing) : SameTest s (t.modLine n f) := h.set hf

/-- An active line stays active on its pair. -/
theorem SameTest.move (h : SameTest s t) {n : LineNo} {l : Line} (hn : (t.line n).active)
    (hp : l.pair = (t.line n).pair) (ha : l.active) : SameTest s (t.setLine n l) :=
  h.set (Line.standing_of_active ha hn hp)

theorem SameTest.raise (h : SameTest s t) (src : Source) (k : Kind) (x : Option Time) : SameTest s (t.raise src k x) :=
  h.same (by simp) (by simp)

theorem SameTest.arrive (h : SameTest s t) (r : DialRecord) : SameTest s (t.arrive r) := by
  have e := (sameStore_arrive t r).eq
  exact h.same (by rw [e]) (by rw [e])

theorem SameTest.queue (h : SameTest s t) (q : List Waiter) : SameTest s (t.setDetectorQueue q) := h.same rfl rfl

theorem SameTest.detector (h : SameTest s t) (d : DetectorNo) (x : Detector) : SameTest s (t.setDetector d x) :=
  h.same rfl rfl

theorem SameTest.bindDetector (h : SameTest s t) (d : DetectorNo) (n : LineNo) : SameTest s (t.bindDetector d n) :=
  (h.detector d _).mod (by rfl)

theorem SameTest.requestDetector (h : SameTest s t) (n : LineNo) : SameTest s (t.requestDetector n) := by
  unfold State.requestDetector
  repeat' split
  · exact h.bindDetector _ _
  · exact (h.queue _).mod (by rfl)
  · exact h

theorem SameTest.grantHead (h : SameTest s t) (d : DetectorNo) : SameTest s (t.grantHead d) := by
  unfold State.grantHead
  split
  · exact h
  · exact ((h.queue _).bindDetector _ _).mod (by rfl)

theorem SameTest.dropDetector (h : SameTest s t) (n : LineNo) : SameTest s (t.dropDetector n) := by
  unfold State.dropDetector
  split
  · exact h
  · exact (h.queue _).mod (by rfl)
  · dsimp only
    split
    · exact ((h.detector _ _).mod (by rfl)).grantHead _
    · exact (h.detector _ _).mod (by rfl)

theorem SameTest.closeCollection (h : SameTest s t) (n : LineNo) (c : Cause) (x : Time) :
    SameTest s (t.closeCollection n c x) := by
  unfold State.closeCollection
  split
  · exact h
  · exact ((h.mod (by rfl)).arrive _).mod (by rfl)

theorem SameTest.acceptDigit (h : SameTest s t) (n : LineNo) (d : Digit) : SameTest s (t.acceptDigit n d) := by
  unfold State.acceptDigit
  split
  · exact h
  · dsimp only
    repeat' split
    · exact (h.mod (by rfl)).closeCollection _ _ _
    · exact (h.mod (by rfl)).closeCollection _ _ _
    · exact h.mod (by rfl)

theorem SameTest.requestIfTone (h : SameTest s t) (n : LineNo) : SameTest s (t.requestIfTone n) := by
  unfold State.requestIfTone
  split
  · exact h
  · exact h.requestDetector _

theorem SameTest.seizeLine (h : SameTest s t) {n : LineNo} (e : Time) (hn : (t.line n).active) :
    SameTest s (t.seizeLine n e) := by
  unfold State.seizeLine
  have k := h.raise (.line n) .hook (some ((t.line n).seizeFrom.getD e))
  have hn' : ((t.raise (.line n) .hook (some ((t.line n).seizeFrom.getD e))).line n).active := by simpa using hn
  dsimp only
  split
  · exact k.move hn' (by rfl) (by exact ⟨nofun, nofun⟩)
  · exact (k.move hn' (by rfl) (by exact ⟨nofun, nofun⟩)).requestIfTone n

theorem SameTest.enterSeizing (h : SameTest s t) {n : LineNo} (x : Time) (hn : (t.line n).active) :
    SameTest s (t.enterSeizing n x) := by
  unfold State.enterSeizing
  dsimp only
  split
  · exact (h.move hn (by rfl) (by exact ⟨nofun, nofun⟩)).seizeLine _ (by simp [Line.active])
  · exact h.move hn (by rfl) (by exact ⟨nofun, nofun⟩)

theorem SameTest.settleLine (h : SameTest s t) {n : LineNo} (e : Time) (hn : (t.line n).active) :
    SameTest s (t.settleLine n e) := by
  unfold State.settleLine
  dsimp only
  have k : SameTest s (t.modLine n fun l => { l with settleTimer := none }) := h.mod (by rfl)
  have hn' : ((t.modLine n fun l => { l with settleTimer := none }).line n).active := by simpa [Line.active] using hn
  repeat' split
  · exact k.move hn' (by rfl) (by exact ⟨nofun, nofun⟩)
  · exact k.enterSeizing _ hn'
  · exact k.move hn' (by rfl) (by exact ⟨nofun, nofun⟩)

/-- A line enters SETTLING: it goes on as an active line that has just been put there. -/
theorem sameTest_enterSettling (s : State) (n : LineNo) :
    SameTest (s.setLine n { s.line n with state := .settling }) (s.enterSettling n) := by
  have k : SameTest (s.setLine n { s.line n with state := .settling }) (s.modLine n fun l =>
      { l.forgetCall with
        state := .settling
        settleTimer := some (after s.now (s.liveProfile n).settleMs)
        wasFaulted := none }) := by
    refine ⟨fun m => ?_, rfl⟩
    simp only [State.modLine, State.line_setLine]
    split <;> rfl
  unfold State.enterSettling
  dsimp only
  split
  · exact k.settleLine _ (by simp [Line.active])
  · exact k

theorem SameTest.enterSettling (h : SameTest s t) {n : LineNo} (hn : (t.line n).active) : SameTest s (t.enterSettling n) :=
  (h.move hn (by rfl) (by exact ⟨nofun, nofun⟩)).trans (sameTest_enterSettling t n)

theorem SameTest.endSupervision (h : SameTest s t) (n : LineNo) (x : Time) : SameTest s (t.endSupervision n x) := by
  unfold State.endSupervision
  dsimp only
  have k : SameTest s (t.modLine n .discardAnyPulse) := h.mod (by simp)
  refine SameTest.mod (SameTest.dropDetector (SameTest.mod ?_ (by rfl)) n) (by rfl)
  split
  · exact k.closeCollection _ _ _
  · exact k.mod (by rfl)

theorem SameTest.releaseLine (h : SameTest s t) {n : LineNo} (e : Time) (hn : (t.line n).active) :
    SameTest s (t.releaseLine n e) := by
  unfold State.releaseLine
  dsimp only
  have k := ((SameTest.refl t).endSupervision n e).raise (.line n) .hook (some ((t.line n).breakTime.getD e))
  generalize (t.endSupervision n e).raise (.line n) .hook (some ((t.line n).breakTime.getD e)) = u at k ⊢
  exact h.trans (k.move (k.active hn) (by rfl) (by exact ⟨nofun, nofun⟩))

theorem SameTest.faultLine (h : SameTest s t) (n : LineNo) : SameTest s (t.faultLine n) := by
  unfold State.faultLine
  split
  case h_7 _ h1 h2 h3 h4 h5 h6 =>
    have hn : (t.line n).active := ⟨h6, h5⟩
    have k := ((SameTest.refl t).endSupervision n t.now).raise (.line n) .hook (some t.now)
    generalize (t.endSupervision n t.now).raise (.line n) .hook (some t.now) = u at k ⊢
    exact h.trans (k.move (k.active hn) (by rfl) (by exact ⟨nofun, nofun⟩))
  all_goals first
    | exact h
    | exact h.move (by simp [Line.active, *]) (by rfl) (by exact ⟨nofun, nofun⟩)

theorem Line.pair_setPhase (l : Line) (ph : OffHook) : (l.setPhase ph).pair = l.pair := by
  unfold Line.setPhase; split <;> rfl

theorem Line.active_setPhase {l : Line} (ph : OffHook) : (l.setPhase ph).active := by
  unfold Line.setPhase
  split
  · rename_i h; exact ⟨by simp [h], by simp [h]⟩
  · exact OffHook.active _ _

/-- An off-hook line goes to another phase. -/
theorem SameTest.phase (h : SameTest s t) {n : LineNo} (ph : OffHook) (hn : (t.line n).active) :
    SameTest s (t.modLine n (Line.setPhase · ph)) :=
  h.move hn (Line.pair_setPhase _ _) (Line.active_setPhase ph)

theorem SameTest.permanentLoop (h : SameTest s t) {n : LineNo} (e : Time) (hn : (t.line n).active) :
    SameTest s (t.permanentLoop n e) := by
  unfold State.permanentLoop
  have k := ((((SameTest.refl t).mod (n := n) (f := fun l => { l with permanentLoop := true, firstDigitTimer := none })
    (by rfl)).raise (.line n) .loopHeld (some e)).mod (n := n) (f := fun l => { l with collection := none }) (by rfl)).dropDetector n
  exact h.trans (k.phase _ (k.active hn))

theorem SameTest.collectTimeout (h : SameTest s t) {n : LineNo} (e : Time) (hn : (t.line n).active) :
    SameTest s (t.collectTimeout n e) := by
  unfold State.collectTimeout
  have k := (((SameTest.refl t).mod (n := n) (f := .discardAnyPulse) (by simp)).closeCollection n .timeout e).dropDetector n
  exact h.trans (k.phase _ (k.active hn))

theorem SameTest.phaseAfterDigit (h : SameTest s t) {n : LineNo} (hn : (t.line n).active) :
    SameTest s (t.phaseAfterDigit n) := by
  unfold State.phaseAfterDigit
  split
  · have k := (SameTest.refl t).dropDetector n
    exact h.trans (k.phase _ (k.active hn))
  · split
    · exact h.move hn (Line.pair_setPhase _ _) (Line.active_setPhase (l := t.line n) .seized)
    · exact h.phase _ hn

theorem SameTest.completePulse (h : SameTest s t) {n : LineNo} (hn : (t.line n).active) :
    SameTest s (t.completePulse n) := by
  unfold State.completePulse
  dsimp only
  have k : SameTest t (t.modLine n fun l => { l.endDigitLearning with pulseCount := none, gapTimer := none }) :=
    (SameTest.refl t).mod (Line.standing_endDigitLearning _)
  split
  · have k := k.acceptDigit n ⟨‹_›, .pulse⟩
    exact h.trans (k.phaseAfterDigit (k.active hn))
  · have k : SameTest t _ := k.mod (n := n) (f := .markBadPulseCount) (by rfl)
    exact h.trans (k.phaseAfterDigit (k.active hn))

theorem SameTest.openBreak (h : SameTest s t) {n : LineNo} (ph : OffHook) (x : Time) (hn : (t.line n).active) :
    SameTest s (t.openBreak n ph x) := by
  unfold State.openBreak
  dsimp only
  split
  · exact (h.move hn (by rfl) (by exact ⟨nofun, nofun⟩)).releaseLine _ (by simp [Line.active])
  · exact h.move hn (by rfl) (by exact ⟨nofun, nofun⟩)

theorem SameTest.endBreak (h : SameTest s t) {n : LineNo} (rs : OffHook) {l : Line} (hn : (t.line n).active)
    (hl : l = { l with state := rs.toState }) (hp : l.pair = (t.line n).pair) : SameTest s (t.setLine n l) :=
  h.move hn hp (by rw [hl]; exact OffHook.active _ _)

theorem SameTest.hit (h : SameTest s t) {n : LineNo} (rs : OffHook) (hn : (t.line n).active) : SameTest s (t.hit n rs) :=
  h.endBreak rs hn rfl rfl

theorem SameTest.pulseBreak (h : SameTest s t) {n : LineNo} (rs : OffHook) (a b : Time) (hn : (t.line n).active) :
    SameTest s (t.pulseBreak n rs a b) := by
  unfold State.pulseBreak
  dsimp only
  have ha (l : Line) : (l.endBreak .pulsing).active := ⟨nofun, nofun⟩
  repeat' split
  all_goals first
    | refine SameTest.completePulse (SameTest.move h hn ?_ (ha _)) ?_
      · simp [Line.endBreak]
      · simpa using ha _
    | refine SameTest.move h hn ?_ (ha _)
      simp [Line.endBreak]

theorem SameTest.invalidBreak (h : SameTest s t) {n : LineNo} (rs : OffHook) (x : Time) (hn : (t.line n).active) :
    SameTest s (t.invalidBreak n rs x) := by
  unfold State.invalidBreak
  split
  · have k : SameTest t (t.modLine n .discardPulse) := (SameTest.refl t).mod (by simp)
    dsimp only
    split
    · exact h.trans (k.endBreak .collecting (k.active hn) (by rfl) (by rfl))
    · exact h.trans (k.endBreak .seized (k.active hn) (by rfl) (by rfl))
  · exact h.hit _ hn

theorem SameTest.raiseFlash (h : SameTest s t) (n : LineNo) (x : Time) : SameTest s (t.raiseFlash n x) := h.raise _ _ _

theorem SameTest.flashFromSeized (h : SameTest s t) {n : LineNo} (x : Time) (hn : (t.line n).active) :
    SameTest s (t.flashFromSeized n x) := by
  have k := (SameTest.refl t).raiseFlash n x
  exact h.trans (k.endBreak .seized (k.active hn) (by rfl) (by rfl))

theorem SameTest.openAtFlash (h : SameTest s t) {n : LineNo} (x : Time) (hn : (t.line n).active) :
    SameTest s (t.openAtFlash n x) :=
  h.endBreak .seized hn (by rfl) (by rfl)

theorem SameTest.flashFromHeld (h : SameTest s t) {n : LineNo} (x : Time) (hn : (t.line n).active) :
    SameTest s (t.flashFromHeld n x) := by
  unfold State.flashFromHeld
  have k := (SameTest.refl t).raiseFlash n x
  dsimp only
  split
  · exact h.trans (k.hit _ (k.active hn))
  · exact h.trans (((k.openAtFlash x (k.active hn)).mod (by rfl)).requestIfTone n)

theorem SameTest.flashFromDialling (h : SameTest s t) {n : LineNo} (x : Time) (hn : (t.line n).active) :
    SameTest s (t.flashFromDialling n x) := by
  unfold State.flashFromDialling
  have k : SameTest t (t.modLine n .discardAnyPulse) := (SameTest.refl t).mod (by simp)
  dsimp only
  split
  · have k := (k.closeCollection n .flash x).raiseFlash n x
    split
    · exact h.trans ((k.hit _ (k.active hn)).dropDetector n)
    · exact h.trans (k.openAtFlash x (k.active hn))
  · exact h.trans (k.flashFromSeized x (k.active hn))

theorem SameTest.classifyBreak (h : SameTest s t) {n : LineNo} (rs : OffHook) (a b : Time) (hn : (t.line n).active) :
    SameTest s (t.classifyBreak n rs a b) := by
  unfold State.classifyBreak
  dsimp only
  repeat' split
  all_goals first
    | exact h.hit _ hn
    | exact h.pulseBreak _ _ _ hn
    | exact h.invalidBreak _ _ hn
    | exact h.flashFromSeized _ hn
    | exact h.flashFromHeld _ hn
    | exact h.flashFromDialling _ hn

theorem SameTest.loopMade (h : SameTest s t) (n : LineNo) (x : Time) : SameTest s (t.loopMade n x) := by
  unfold State.loopMade
  repeat' split
  · exact h.enterSeizing _ (by simp [Line.active, *])
  · exact h.classifyBreak _ _ _ (by simp [Line.active, *])
  all_goals exact h

theorem SameTest.loopBroken (h : SameTest s t) (n : LineNo) (x : Time) : SameTest s (t.loopBroken n x) := by
  unfold State.loopBroken
  split
  · exact h.move (by simp [Line.active, *]) (by rfl) (by exact ⟨nofun, nofun⟩)
  all_goals first
    | exact h
    | exact h.openBreak _ _ (by simp [Line.active, *])

theorem SameTest.toneAtLine (h : SameTest s t) (n : LineNo) (x : Symbol) : SameTest s (t.toneAtLine n x) := by
  have dial (hn : (t.line n).active) : SameTest s ((t.acceptDigit n ⟨x, .tone⟩).phaseAfterDigit n) :=
    have k := (SameTest.refl t).acceptDigit n ⟨x, .tone⟩
    h.trans (k.phaseAfterDigit (k.active hn))
  unfold State.toneAtLine
  split
  · exact dial (by simp [Line.active, *])
  · exact dial (by simp [Line.active, *])
  · exact h.mod (by rfl)
  · exact h

theorem SameTest.takeOnset (h : SameTest s t) (d : DetectorNo) (x : Symbol) : SameTest s (t.takeOnset d x) := by
  unfold State.takeOnset
  repeat' split
  all_goals first
    | exact h
    | exact h.toneAtLine _ _

/-! ### The fault watch and the samples -/

theorem SameTest.fault (h : SameTest s t) (p : PairNo) (r : FaultRec) : SameTest s (t.setFault p r) := h.same rfl rfl

theorem SameTest.binder (h : SameTest s t) (b : BinderNo) (r : Binder) : SameTest s (t.setBinder b r) := h.same rfl rfl

theorem SameTest.scanRec (h : SameTest s t) (p : PairNo) (r : ScanRec) : SameTest s (t.setScanRec p r) := h.same rfl rfl

theorem SameTest.countChange (h : SameTest s t) (b : BinderNo) (up : Bool) : SameTest s (t.countChange b up) := by
  unfold State.countChange State.raiseBinder
  dsimp only
  repeat' split
  all_goals first
    | exact h.binder _ _
    | exact (h.binder _ _).raise _ _ _

theorem SameTest.alignBinder (h : SameTest s t) (b : BinderNo) : SameTest s (t.alignBinder b) := by
  unfold State.alignBinder State.raiseBinder
  dsimp only
  repeat' split
  all_goals first
    | exact h
    | exact h.binder _ _
    | exact (h.binder _ _).raise _ _ _

theorem SameTest.endHold (h : SameTest s t) (b : BinderNo) : SameTest s (t.endHold b) := (h.binder _ _).raise _ _ _

theorem SameTest.changeFault (h : SameTest s t) (p : PairNo) (r : FaultRec) : SameTest s (t.changeFault p r) := by
  unfold State.changeFault
  dsimp only
  split
  · exact h.fault _ _
  · exact (h.fault _ _).countChange _ _

theorem run_admitWanted (s : State) : s.admitWanted.bus.run = s.bus.run := by
  unfold State.admitWanted; split <;> rfl

theorem run_removeEntry (s : State) (q : TestEntry → Bool) : (s.removeEntry q).bus.run = s.bus.run := by
  unfold State.removeEntry
  split
  · exact run_admitWanted _
  · rfl

theorem SameTest.removeEntry (h : SameTest s t) (q : TestEntry → Bool) : SameTest s (t.removeEntry q) := by
  refine h.same ?_ (run_removeEntry t q)
  rw [(sameBus_removeEntry t q).eq]

theorem SameTest.want (h : SameTest s t) (p : PairNo) : SameTest s (t.want p) := by
  refine h.same ?_ ?_
  · rw [(sameBus_want t p).eq]
  · unfold State.want State.placeWant
    repeat' split
    all_goals rfl

theorem SameTest.withdraw (h : SameTest s t) (p : PairNo) : SameTest s (t.withdraw p) := by
  unfold State.withdraw
  split
  · exact h
  · exact (h.same rfl rfl : SameTest s (t.setWanted p none)).removeEntry _

theorem SameTest.passFault (h : SameTest s t) (p : PairNo) : SameTest s (t.passFault p) := by
  unfold State.passFault
  split
  · exact h.faultLine _
  · exact h

theorem SameTest.releasePair (h : SameTest s t) (p : PairNo) : SameTest s (t.releasePair p) := by
  unfold State.releasePair
  split
  · split
    · exact h.enterSettling (by simp [Line.active, *])
    · exact h
  · exact h

theorem SameTest.raiseFault (h : SameTest s t) (p : PairNo) : SameTest s (t.raiseFault p) := h.raise _ _ _

theorem SameTest.sustainEnd (h : SameTest s t) (p : PairNo) : SameTest s (t.sustainEnd p) := by
  unfold State.sustainEnd
  dsimp only
  split
  · exact ((h.changeFault _ _).raiseFault _).withdraw _
  · exact (((h.changeFault _ _).passFault _).raiseFault _).want _
  · exact h.fault _ _

theorem SameTest.sustainAtOnce (h : SameTest s t) (p : PairNo) : SameTest s (t.sustainAtOnce p) := by
  unfold State.sustainAtOnce
  split
  · exact h.sustainEnd _
  · exact h

theorem SameTest.guardEnd (h : SameTest s t) (p : PairNo) : SameTest s (t.guardEnd p) := by
  unfold State.guardEnd
  dsimp only
  split
  · exact (h.fault _ _).want _
  · exact (h.fault _ _).want _
  · exact h.fault _ _

theorem SameTest.guardAtOnce (h : SameTest s t) (p : PairNo) : SameTest s (t.guardAtOnce p) := by
  unfold State.guardAtOnce
  split
  · exact h.guardEnd _
  · exact h

theorem SameTest.score (h : SameTest s t) (p : PairNo) (a b c : Int) : SameTest s (t.score p a b c) := by
  unfold State.score State.enterSuspect State.backToConfirmed
  dsimp only
  repeat' split
  · exact ((h.changeFault _ _).raiseFault _).want _
  · exact (h.changeFault _ _).raiseFault _
  · exact (((h.changeFault _ _).passFault _).raiseFault _).withdraw _
  · exact (h.changeFault _ _).sustainAtOnce _
  · exact h

theorem SameTest.senseLost (h : SameTest s t) (p : PairNo) : SameTest s (t.senseLost p) :=
  ((h.changeFault _ _).passFault _).raiseFault _

theorem SameTest.senseRegained (h : SameTest s t) (p : PairNo) : SameTest s (t.senseRegained p) := by
  unfold State.senseRegained
  refine SameTest.sustainAtOnce (SameTest.raiseFault ?_ _) _
  dsimp only
  split
  · exact (h.changeFault _ _).releasePair _
  · exact (h.changeFault _ _).releasePair _
  · exact h.changeFault _ _

theorem SameTest.testEnd (h : SameTest s t) (p : PairNo) (x : LastTest) : SameTest s (t.testEnd p x) := by
  unfold State.testEnd
  dsimp -zeta only
  extract_lets _ _ _ b c
  have kb : SameTest s b := by
    unfold b
    split
    · exact (h.changeFault _ _).passFault _
    · exact h.changeFault _ _
  have kc : SameTest s c := (kb.raiseFault p).sustainAtOnce p
  clear_value c
  split
  · exact kc.guardAtOnce p
  · exact kc

theorem SameTest.invalidSample (h : SameTest s t) (p : PairNo) : SameTest s (t.invalidSample p) := by
  unfold State.invalidSample
  dsimp only
  repeat' split
  · exact h
  · exact (h.scanRec _ _).senseLost _
  · exact h.scanRec _ _

theorem SameTest.qualify (h : SameTest s t) (p : PairNo) (n : LineNo) (c : LoopClass) (x : Time) :
    SameTest s (t.qualify p n c x) := by
  unfold State.qualify
  dsimp only
  split
  all_goals first
    | exact h.scanRec _ _
    | exact (h.scanRec _ _).loopBroken _ _
    | exact (h.scanRec _ _).loopMade _ _

theorem SameTest.judgeLoop (h : SameTest s t) (p : PairNo) (n : LineNo) (i : Int) (x : Time) :
    SameTest s (t.judgeLoop p n i x) := by
  unfold State.judgeLoop State.filterSample
  split
  · exact h
  · dsimp only
    repeat' split
    all_goals first
      | exact (h.scanRec _ _).qualify _ _ _ _
      | exact (h.scanRec _ _).scanRec _ _

theorem SameTest.validSample (h : SameTest s t) (p : PairNo) (r : SampleReply) (x : Time) :
    SameTest s (t.validSample p r x) := by
  unfold State.validSample
  extract_lets _ _ _ b c
  have k : SameTest s b := by
    unfold b
    split
    · exact (h.scanRec _ _).senseRegained _
    · exact h.scanRec _ _
  have kc : SameTest s c := by
    unfold c
    split
    · exact k.judgeLoop _ _ _ _
    · exact k
  split
  · exact k
  · exact kc.score _ _ _ _

theorem SameTest.takeReply (h : SameTest s t) (r : SampleReply) : SameTest s (t.takeReply r) := by
  unfold State.takeReply
  have out (p : PairNo) : SameTest s (t.setOutstanding p none) := h.same rfl rfl
  dsimp only
  repeat' split
  · exact h
  · exact out _
  · exact (out _).validSample _ _ _
  · exact (out _).invalidSample _
  · exact h

theorem SameTest.noResponse (h : SameTest s t) (p : PairNo) : SameTest s (t.noResponse p) := by
  unfold State.noResponse State.takeInvalid
  have k : SameTest s (t.setOutstanding p none) := h.same rfl rfl
  split
  · exact h
  · split
    · exact k
    · exact k.invalidSample _

theorem SameTest.requestSample (h : SameTest s t) (x : Time) (p : PairNo) : SameTest s (State.requestSample x t p) :=
  h.same rfl rfl

theorem SameTest.beginPass (h : SameTest s t) : SameTest s t.beginPass := by
  have k : SameTest s (allPairs.foldl (fun s p => s.noResponse p) t) :=
    foldl_keeps (P := SameTest s) (fun _ p k => k.noResponse p) _ h
  unfold State.beginPass
  dsimp only
  generalize allPairs.foldl (fun s p => s.noResponse p) t = u at k ⊢
  exact foldl_keeps (P := SameTest s) (fun _ p k => k.requestSample _ p) _ (k.same rfl rfl)

/-! ### Changes of the standing -/

theorem State.LinesOk.same (h : s.LinesOk) (k : SameTest s t) : t.LinesOk := by
  have e (n : LineNo) := Line.standing_eq.mp (k.lines n)
  have b (p : PairNo) : t.onBus p = s.onBus p := by
    rw [Bool.eq_iff_iff, State.onBus_eq, State.onBus_eq, k.bus]
  constructor
  · intro n m hn hm hp
    refine h.alone n m (fun x => hn ((e n).2.1.mpr x)) (fun x => hm ((e m).2.1.mpr x)) ?_
    rw [← (e n).1, ← (e m).1, hp]
  · intro n hn
    rw [(e n).2.2, (e n).1, b]
    exact h.tested n fun x => hn ((e n).2.1.mpr x)

/-- A line is placed: nothing is asked of a disabled one, an enabled one stands alone on its pair and is UNDER_TEST
exactly when its pair is on the bus. -/
theorem State.LinesOk.place (h : s.LinesOk) {n : LineNo} {l : Line}
    (hl : l.state ≠ .disabled → (∀ m, m ≠ n → (s.line m).state ≠ .disabled → (s.line m).pair ≠ l.pair) ∧
      (l.state = .underTest ↔ s.onBus l.pair = true)) : (s.setLine n l).LinesOk := by
  constructor
  · intro a b ha hb hp
    rw [State.line_setLine] at ha hp
    rw [State.line_setLine] at hb hp
    split at ha <;> split at hb <;> rename_i ea eb
    · exact ea.trans eb.symm
    · rw [if_pos ea, if_neg eb] at hp
      exact absurd hp.symm ((hl ha).1 b eb hb)
    · rw [if_neg ea, if_pos eb] at hp
      exact absurd hp ((hl hb).1 a ea ha)
    · rw [if_neg ea, if_neg eb] at hp
      exact h.alone a b ha hb hp
  · intro m hm
    rw [State.line_setLine] at hm ⊢
    rw [State.onBus_setLine]
    split
    · rename_i e
      rw [if_pos e] at hm
      exact (hl hm).2
    · rename_i e
      rw [if_neg e] at hm
      exact h.tested m hm

theorem State.served_some {p : PairNo} {n : LineNo} (h : s.served p = some n) :
    (s.line n).pair = p ∧ (s.line n).state ≠ .disabled := by
  have := List.find?_some h
  simpa [Line.enabled] using this

theorem State.served_none {p : PairNo} (h : s.served p = none) (n : LineNo) (hn : (s.line n).state ≠ .disabled) :
    (s.line n).pair ≠ p := by
  intro hp
  have := List.find?_eq_none.mp h n (List.mem_finRange n)
  simp [Line.enabled, hp, hn] at this

/-- The bus, free before, is taken for a pair on which no enabled line stands. -/
theorem State.LinesOk.occupied (h : s.LinesOk) (hfree : s.bus.run = none) {p : PairNo} (hl : t.lines = s.lines)
    (hb : t.bus.run.map (·.pair) = some p) (hp : ∀ n, (s.line n).state ≠ .disabled → (s.line n).pair ≠ p) :
    t.LinesOk := by
  have e (n : LineNo) : t.line n = s.line n := by rw [State.line, State.line, hl]
  constructor
  · intro n m
    rw [e, e]
    exact h.alone n m
  · intro n
    rw [e]
    intro hn
    have := h.tested n hn
    rw [State.onBus_eq, hfree] at this
    rw [State.onBus_eq, hb, this]
    simp [Ne.symm (hp n hn)]

theorem State.LinesOk.claim (h : s.LinesOk) (hfree : s.bus.run = none) (e : TestEntry) : (s.claim e).LinesOk := by
  unfold State.claim
  extract_lets a b c d
  have hl : b.lines = s.lines := by
    have := (sameBus_removeEntry s fun x => decide (x = e)).eq
    show a.lines = s.lines
    unfold a
    rw [this]
  have hr : b.bus.run.map (·.pair) = some e.pair := rfl
  have hs : b.served e.pair = s.served e.pair := by unfold State.served State.line; rw [hl]
  refine State.LinesOk.same (s := c) ?_ ((SameTest.refl c).same (by rfl) (by rfl))
  unfold c
  rw [hs]
  clear_value b
  cases hn : s.served e.pair with
  | none => exact h.occupied hfree hl hr fun n hn' => State.served_none hn n hn'
  | some n =>
    have hn := State.served_some hn
    have k : (b.setLine n { s.line n with state := .disabled }).LinesOk := by
      refine State.LinesOk.occupied (s := s.setLine n { s.line n with state := .disabled }) (p := e.pair)
        (h.place fun x => absurd rfl x) hfree ?_ hr ?_
      · simp [State.setLine, hl]
      · intro m hm hp
        rw [State.line_setLine] at hm hp
        split at hm
        · exact hm rfl
        · rename_i hne
          rw [if_neg hne] at hp
          exact hne (h.alone m n hm hn.2 (hp.trans hn.1.symm))
    have hb : b.line n = s.line n := by rw [State.line, State.line, hl]
    have := k.place (n := n) (l := { s.line n with
      state := .underTest, settleTimer := none, wasFaulted := some (decide ((s.line n).state = .faulted)) }) ?_
    · rw [State.setLine_setLine] at this
      unfold State.claimLine State.modLine
      dsimp only
      rw [hb]
      exact this
    · intro _
      refine ⟨fun m hm hm' hp => ?_, ?_⟩
      · rw [State.line_setLine_ne _ _ (Ne.symm hm)] at hm' hp
        have hb' : b.line m = s.line m := by rw [State.line, State.line, hl]
        rw [hb'] at hm' hp
        exact hm (h.alone m n hm' hn.2 hp)
      · rw [State.onBus_setLine, State.onBus_eq, hr, hn.1]
        simp

theorem State.LinesOk.look (h : s.LinesOk) : s.look.LinesOk := by
  unfold State.look
  split
  · exact h
  · split
    · exact h.claim ‹_› _
    · exact h

/-- While the lines of a pair leave UNDER_TEST after the bus has become free: the lines that are still there are on
the pair and among `rest`. -/
structure Leaving (p : PairNo) (rest : List LineNo) (s : State) : Prop where
  free : s.bus.run = none
  alone : ∀ n m : LineNo, (s.line n).state ≠ .disabled → (s.line m).state ≠ .disabled →
    (s.line n).pair = (s.line m).pair → n = m
  left : ∀ n : LineNo, (s.line n).state = .underTest → (s.line n).pair = p ∧ n ∈ rest

theorem Leaving.same {p : PairNo} {rest : List LineNo} (h : Leaving p rest s) (k : SameTest s t) : Leaving p rest t := by
  have e (n : LineNo) := Line.standing_eq.mp (k.lines n)
  refine ⟨?_, fun n m hn hm hp => ?_, fun n hn => ?_⟩
  · have := k.bus
    rw [h.free] at this
    simpa using this
  · refine h.alone n m (fun x => hn ((e n).2.1.mpr x)) (fun x => hm ((e m).2.1.mpr x)) ?_
    rw [← (e n).1, ← (e m).1, hp]
  · rw [(e n).1]
    exact h.left n ((e n).2.2.mp hn)

theorem Leaving.step {p : PairNo} {n : LineNo} {rest : List LineNo} (h : Leaving p (n :: rest) s) :
    Leaving p rest (s.leaveTest p n) := by
  have go {l : Line} (he : (s.line n).state = .underTest) (hp : l.pair = (s.line n).pair) (ha : l.active) :
      Leaving p rest (s.setLine n l) := by
    refine ⟨h.free, fun a b ha' hb' hab => ?_, fun m hm => ?_⟩
    · have d (m : LineNo) (hm : ((s.setLine n l).line m).state ≠ .disabled) : (s.line m).state ≠ .disabled := by
        rw [State.line_setLine] at hm
        split at hm
        · subst_vars; simp [he]
        · exact hm
      have q (m : LineNo) : ((s.setLine n l).line m).pair = (s.line m).pair := by
        rw [State.line_setLine]
        split
        · subst_vars; exact hp
        · rfl
      rw [q, q] at hab
      exact h.alone a b (d a ha') (d b hb') hab
    · rw [State.line_setLine] at hm ⊢
      split at hm
      · exact absurd hm ha.2
      · rename_i hne
        rw [if_neg hne]
        have := h.left m hm
        exact ⟨this.1, (List.mem_cons.mp this.2).resolve_left hne⟩
  unfold State.leaveTest
  split
  · rename_i hc
    split
    · exact go hc.2 rfl ⟨nofun, nofun⟩
    · exact (go (l := { s.line n with state := .settling }) hc.2 rfl ⟨nofun, nofun⟩).same (sameTest_enterSettling s n)
  · rename_i hc
    refine ⟨h.free, h.alone, fun m hm => ?_⟩
    have := h.left m hm
    refine ⟨this.1, (List.mem_cons.mp this.2).resolve_left ?_⟩
    rintro rfl
    exact hc ⟨this.1, hm⟩

theorem Leaving.all {p : PairNo} : ∀ {rest : List LineNo} {s : State}, Leaving p rest s →
    Leaving p [] (rest.foldl (fun s n => s.leaveTest p n) s)
  | [], _, h => h
  | _ :: rest, _, h => Leaving.all (rest := rest) h.step

theorem SameTest.run (h : SameTest s t) {r : Option Run} (hr : r.map (·.pair) = t.bus.run.map (·.pair)) :
    SameTest s (t.setRun r) :=
  ⟨h.lines, hr.trans h.bus⟩

theorem SameTest.sendTest (h : SameTest s t) (m : TestPortMsg) : SameTest s (t.sendTest m) := h.same rfl rfl

theorem State.LinesOk.endTest (h : s.LinesOk) (r : Run) (o : TestOutcome)
    (hr : s.bus.run.map (·.pair) = some r.pair) : (s.endTest r o).LinesOk := by
  unfold State.endTest
  extract_lets a b c d e
  have k : SameTest s d := by
    have k : SameTest s c := SameTest.testEnd (SameTest.sendTest (SameTest.run (.refl s) (by simp [hr])) _) _ _
    unfold d State.writeResult
    split
    · exact k
    · refine SameTest.raise ?_ _ _ _
      exact k.same (by rfl) (by rfl)
  have hd := h.same k
  have hrun : d.bus.run.map (·.pair) = some r.pair := k.bus.trans hr
  have l : Leaving r.pair allLines e := by
    refine ⟨rfl, hd.alone, fun n hn => ⟨?_, List.mem_finRange n⟩⟩
    have hn' : (d.line n).state = .underTest := hn
    have := (hd.tested n (by simp [hn'])).mp hn'
    rw [State.onBus_eq, hrun] at this
    exact (Option.some.inj this).symm
  have := Leaving.all l
  refine ⟨this.alone, fun n _ => ⟨fun hn => ?_, fun hn => ?_⟩⟩
  · exact absurd (this.left n hn).2 (by simp)
  · rw [State.onBus_eq, this.free] at hn
    cases hn

theorem SameTest.sendRead (h : SameTest s t) (r : Run) (hr : t.bus.run.map (·.pair) = some r.pair) :
    SameTest s (t.sendRead r) := by
  unfold State.sendRead
  refine SameTest.sendTest (SameTest.same (SameTest.run h (r := some { r with
    phase := .reading
    quietTimer := none
    readingTimer := some (after t.now Config.readingTimeoutMs)
    outstanding := some t.bus.readSeq }) ?_) (by rfl) (by rfl)) _
  simp [hr]

theorem State.LinesOk.endAttempt (h : s.LinesOk) (r : Run) (hr : s.bus.run.map (·.pair) = some r.pair) :
    (s.endAttempt r).LinesOk := by
  unfold State.endAttempt
  dsimp only
  split
  · refine h.same ((SameTest.refl s).run ?_)
    simp [hr]
  · exact h.endTest _ _ hr

theorem State.LinesOk.judgeReading (h : s.LinesOk) (r : Run) (m : Measured)
    (hr : s.bus.run.map (·.pair) = some r.pair) : (s.judgeReading r m).LinesOk := by
  unfold State.judgeReading
  extract_lets a b
  split
  · exact h.endTest _ _ hr
  · split
    · exact h.same ((SameTest.refl s).sendRead _ hr)
    · exact h.endAttempt _ hr

theorem State.LinesOk.takeReading (h : s.LinesOk) (m : MeterReading) : (s.takeReading m).LinesOk := by
  unfold State.takeReading
  split
  · exact h
  · rename_i hr
    split
    · exact h.judgeReading _ _ (by simp [hr])
    · exact h

/-! ### Requests -/

theorem State.LinesOk.disableLine (h : s.LinesOk) (n : LineNo) : (s.disableLine n).LinesOk := by
  unfold State.disableLine
  split
  · extract_lets p a b
    have k : SameTest s a := SameTest.dropDetector (SameTest.mod (.refl s) (f := .clearCall) rfl) n
    have ha := h.same k
    clear_value a
    have hb : b.LinesOk := State.LinesOk.same (s := a.modLine n fun l => { l with state := .disabled, wasFaulted := none })
      (ha.place fun x => absurd rfl x) ((SameTest.refl _).same rfl rfl)
    clear_value b
    exact hb.same ((SameTest.refl b).scanRec _ _)
  · exact h

/-- A line that is not UNDER_TEST settles if it is enabled. -/
theorem SameTest.settleIfEnabled (h : SameTest s t) (n : LineNo) (hn : (t.line n).state ≠ .underTest) :
    SameTest s (t.settleIfEnabled n) := by
  unfold State.settleIfEnabled
  split
  · rename_i he
    exact h.enterSettling ⟨by simpa [Line.enabled] using he, hn⟩
  · exact h

theorem SameTest.scan (h : SameTest s t) (x : Scan) : SameTest s { t with scan := x } := h.same rfl rfl

theorem SameTest.watch (h : SameTest s t) (x : Watch) : SameTest s { t with watch := x } := h.same rfl rfl

theorem SameTest.rescope (h : SameTest s t) (before : State) : SameTest s (before.rescope t) := h.scan _

theorem not_underTest_of_mappable {x : LineState} (h : x.mappable = true) : x ≠ .underTest := by
  rintro rfl
  cases h

theorem State.enabledOther_false {p : PairNo} {a b : LineNo} (h : s.enabledOther p a b = false) (m : LineNo)
    (ha : m ≠ a) (hb : m ≠ b) (hm : (s.line m).state ≠ .disabled) : (s.line m).pair ≠ p := by
  have := List.any_eq_false.mp h m (List.mem_finRange m)
  simpa [ha, hb, hm, Line.enabled] using this

theorem State.LinesOk.mapLine (h : s.LinesOk) (n : LineNo) (p : PairNo) (f : Fin 8)
    (hm : (s.line n).state.mappable = true) (ho : s.enabledOther p n n = false) (hb : s.onBus p = false) :
    (s.mapLine n p f).LinesOk := by
  unfold State.mapLine
  extract_lets moved
  have k : (s.modLine n fun l => { l with pair := p, profile := f }).LinesOk := by
    refine h.place fun _ => ⟨fun m hm he => State.enabledOther_false ho m hm hm he, ?_⟩
    simp [hb, not_underTest_of_mappable hm]
  have nm : ((s.modLine n fun l => { l with pair := p, profile := f }).line n).state ≠ .underTest := by
    rw [State.line_modLine_self]
    exact not_underTest_of_mappable hm
  have km : moved.LinesOk := k.same ((SameTest.refl _).rescope s)
  have nm : (moved.line n).state ≠ .underTest := fun x =>
    nm ((Line.standing_eq.mp (((SameTest.refl _).rescope s).lines n)).2.2.mp x)
  clear_value moved
  exact State.LinesOk.look (km.same ((SameTest.refl moved).settleIfEnabled n nm))

theorem State.LinesOk.swapLines (h : s.LinesOk) {a b : LineNo} (hab : a ≠ b)
    (ha : (s.line a).state.mappable = true) (hb : (s.line b).state.mappable = true) (hc : s.swapConflict a b = false)
    (ba : s.onBus (s.line a).pair = false) (bb : s.onBus (s.line b).pair = false) : (s.swapLines a b).LinesOk := by
  have hca (hx : (s.line a).state ≠ .disabled) : s.enabledOther (s.line b).pair a b = false := by
    simp only [State.swapConflict, Bool.or_eq_false_iff, Bool.and_eq_false_iff] at hc
    exact hc.1.resolve_left (by simp [Line.enabled, hx])
  have hcb (hx : (s.line b).state ≠ .disabled) : s.enabledOther (s.line a).pair a b = false := by
    simp only [State.swapConflict, Bool.or_eq_false_iff, Bool.and_eq_false_iff] at hc
    exact hc.2.resolve_left (by simp [Line.enabled, hx])
  have k1 : (s.setLine b { s.line b with state := .disabled }).LinesOk := h.place fun x => absurd rfl x
  have k2 := k1.place (n := a) (l := { s.line a with pair := (s.line b).pair }) (by
    intro hx
    refine ⟨fun m hm he => ?_, by simp [bb, not_underTest_of_mappable ha]⟩
    rw [State.line_setLine] at he ⊢
    split at he
    · exact absurd rfl he
    · rename_i hmb
      rw [if_neg hmb]
      exact State.enabledOther_false (hca hx) m hm hmb he)
  have k3 := k2.place (n := b) (l := { s.line b with pair := (s.line a).pair }) (by
    intro hx
    refine ⟨fun m hm he => ?_, by simp [ba, not_underTest_of_mappable hb]⟩
    rw [State.line_setLine] at he ⊢
    split at he
    · rename_i hma
      rw [if_pos hma]
      exact fun hp => hab (h.alone a b he hx hp.symm)
    · rename_i hma
      rw [if_neg hma, State.line_setLine_ne _ _ (Ne.symm hm)]
      rw [State.line_setLine_ne _ _ (Ne.symm hm)] at he
      exact State.enabledOther_false (hcb hx) m hma hm he)
  unfold State.swapLines
  extract_lets pa pb moved
  have e (m : LineNo) : ((s.modLine a fun l => { l with pair := pb }).modLine b fun l => { l with pair := pa }).line m =
      (((s.setLine b { s.line b with state := .disabled }).setLine a { s.line a with pair := (s.line b).pair }).setLine b
        { s.line b with pair := (s.line a).pair }).line m := by
    unfold State.modLine
    simp only [State.line_setLine, Ne.symm hab, if_false]
    split
    · rfl
    · split <;> rfl
  have k : SameTest _ moved := SameTest.rescope (SameTest.mk (fun m => congrArg Line.standing (e m)) rfl) s
  have na : (moved.line a).state ≠ .underTest := fun x => by
    have := (Line.standing_eq.mp (k.lines a)).2.2.mp x
    rw [State.line_setLine_ne _ _ (Ne.symm hab), State.line_setLine_self] at this
    exact not_underTest_of_mappable ha this
  have nb : (moved.line b).state ≠ .underTest := fun x => by
    have := (Line.standing_eq.mp (k.lines b)).2.2.mp x
    rw [State.line_setLine_self] at this
    exact not_underTest_of_mappable hb this
  have k := k3.same k
  clear_value moved
  have ka := (SameTest.refl moved).settleIfEnabled a na
  refine State.LinesOk.look (k.same (ka.settleIfEnabled b ?_))
  exact fun x => nb ((Line.standing_eq.mp (ka.lines b)).2.2.mp x)

theorem State.LinesOk.resetLine (h : s.LinesOk) (n : LineNo) : (s.resetLine n).LinesOk := by
  unfold State.resetLine
  extract_lets a
  have k : SameTest s a := by
    refine SameTest.same (t := (s.modLine n .clearCall).dropDetector n) (SameTest.dropDetector ?_ n) rfl rfl
    exact (SameTest.refl s).mod (by rfl)
  have ha := h.same k
  clear_value a
  split
  · exact ha
  · rename_i hn
    have t := ha.tested n hn
    split
    · rename_i hb
      refine ha.place fun _ => ⟨fun m hm he hp => hm (ha.alone m n he hn hp), by simp [hb]⟩
    · rename_i hb
      exact ha.same ((SameTest.refl a).enterSettling ⟨hn, fun x => hb (t.mp x)⟩)

theorem State.LinesOk.enableLine (h : s.LinesOk) (n : LineNo)
    (ho : ∀ m, m ≠ n → (s.line m).state ≠ .disabled → (s.line m).pair ≠ (s.line n).pair) : (s.enableLine n).LinesOk := by
  unfold State.enableLine
  split
  · exact h
  · extract_lets p a
    have k : SameTest s a := (SameTest.refl s).scanRec _ _
    have ha := h.same k
    have hoa : ∀ m, m ≠ n → (a.line m).state ≠ .disabled → (a.line m).pair ≠ (a.line n).pair := ho
    split
    · rename_i hb
      exact ha.place fun _ => ⟨hoa, iff_of_true rfl hb⟩
    · rename_i hb
      refine State.LinesOk.same (State.LinesOk.place ha (l := { a.line n with state := .settling }) fun _ => ⟨hoa, ?_⟩)
        (sameTest_enterSettling a n)
      exact iff_of_false (fun x => nomatch x) hb

/-- What LINE_ENABLE keeps while it goes through its lines: the lines that stand enabled were enabled or are of the
set, on the pairs they had, and none is disabled. -/
structure Enabling (lines : BitVec 64) (before s : State) : Prop where
  ok : s.LinesOk
  pairs : ∀ n, (s.line n).pair = (before.line n).pair
  from_ : ∀ n, (s.line n).state ≠ .disabled → (before.line n).state ≠ .disabled ∨ lines.getLsbD n.val = true
  kept : ∀ n, (before.line n).state ≠ .disabled → (s.line n).state ≠ .disabled

theorem SameTest.enableLine_ne (s : State) {n m : LineNo} (h : m ≠ n) :
    ((s.enableLine n).line m).standing = (s.line m).standing := by
  unfold State.enableLine
  split
  · rfl
  · extract_lets p a
    have ka : (a.line m).standing = (s.line m).standing := rfl
    clear_value a
    split
    · rw [State.line_modLine_ne _ _ (Ne.symm h), ka]
    · rw [(sameTest_enterSettling a n).lines m, State.line_setLine_ne _ _ (Ne.symm h), ka]

theorem State.pair_enableLine (s : State) (n m : LineNo) : ((s.enableLine n).line m).pair = (s.line m).pair := by
  by_cases h : m = n
  · subst h
    unfold State.enableLine
    split
    · rfl
    · extract_lets p a
      have ka : (a.line m).pair = (s.line m).pair := rfl
      clear_value a
      split
      · rw [State.line_modLine_self, ← ka]
      · rw [Line.pair_of_standing ((sameTest_enterSettling a m).lines m), State.line_setLine_self, ← ka]
  · exact Line.pair_of_standing (SameTest.enableLine_ne s h)

theorem State.enabled_enableLine (s : State) (n : LineNo) : ((s.enableLine n).line n).state ≠ .disabled := by
  unfold State.enableLine
  split
  · rename_i h
    simpa [Line.enabled] using h
  · extract_lets p a
    clear_value a
    split
    · rw [State.line_modLine_self]
      exact fun x => nomatch x
    · intro x
      have := (Line.standing_eq.mp ((sameTest_enterSettling a n).lines n)).2.1.mp x
      rw [State.line_setLine_self] at this
      cases this

theorem Enabling.step {lines : BitVec 64} {before s : State} (h : Enabling lines before s)
    (hc : before.enableConflict lines = false) (n : LineNo) :
    Enabling lines before (if lines.getLsbD n.val then s.enableLine n else s) := by
  split
  · rename_i hn
    have st (m : LineNo) (hm : m ≠ n) := Line.standing_eq.mp (SameTest.enableLine_ne s hm)
    by_cases he : (s.line n).state = .disabled
    · refine ⟨h.ok.enableLine n fun m hm hme hp => ?_, fun m => ?_, fun m hm => ?_, fun m hm => ?_⟩
      · have hnb : (before.line n).state = .disabled := Decidable.byContradiction fun x => h.kept n x he
        rw [h.pairs, h.pairs] at hp
        have := List.any_eq_false.mp hc n (List.mem_finRange n)
        simp only [hn, hnb, Line.enabled, ne_eq, not_true_eq_false, decide_false, Bool.not_false, Bool.and_true,
          Bool.true_and] at this
        have := List.any_eq_false.mp (Bool.eq_false_iff.mpr this) m (List.mem_finRange m)
        rcases h.from_ m hme with x | x <;> simp [hm, hp, x] at this
      · rw [State.pair_enableLine, h.pairs]
      · by_cases hmn : m = n
        · subst hmn; exact .inr hn
        · exact h.from_ m fun x => hm ((st m hmn).2.1.mpr x)
      · by_cases hmn : m = n
        · subst hmn; exact State.enabled_enableLine s m
        · exact fun x => h.kept m hm ((st m hmn).2.1.mp x)
    · rw [State.enableLine, if_pos (by simpa [Line.enabled] using he)]
      exact h
  · exact h

theorem State.LinesOk.enable (h : s.LinesOk) (lines : BitVec 64) (hc : s.enableConflict lines = false) :
    (allLines.foldl (fun s n => if lines.getLsbD n.val then s.enableLine n else s) s).LinesOk :=
  Enabling.ok (lines := lines) (before := s)
    (foldl_keeps (P := Enabling lines s) (fun _ n k => k.step hc n) _ ⟨h, fun _ => rfl, fun _ => .inl, fun _ => id⟩)

theorem SameTest.poll : ∀ (k : Nat) {t : State}, SameTest s t → SameTest s (t.poll k).1
  | 0, _, h => h
  | k + 1, t, h => by
    unfold State.poll
    split
    · exact h
    · exact SameTest.poll k (h.same rfl rfl : SameTest s (t.takeEntry 3 _))

theorem SameTest.serviceIn (h : SameTest s t) (d : DetectorNo) : SameTest s (t.serviceIn d) := by
  unfold State.serviceIn
  split
  · exact h
  · exact (h.detector _ _).grantHead _

theorem SameTest.serviceOut (h : SameTest s t) (d : DetectorNo) : SameTest s (t.serviceOut d) := by
  unfold State.serviceOut
  split
  · split
    · exact h.detector _ _
    · extract_lets a
      have k : SameTest s a := SameTest.mod (SameTest.queue (SameTest.detector h _ _) _) (by rfl)
      clear_value a
      split
      · exact k.grantHead _
      · exact k
  · exact h

theorem SameTest.orderTest (h : SameTest s t) (p : PairNo) (k : TestKind) (tag : Byte) :
    SameTest s (t.orderTest p k tag) := by
  refine h.same ?_ ?_
  · rw [(sameBus_orderTest t p k tag).eq]
  · unfold State.orderTest
    split <;> rfl

theorem State.LinesOk.runTestCancel (h : s.LinesOk) (pair : Byte) : (Machine.runTestCancel pair s).1.LinesOk := by
  have rest (p : PairNo) : (if s.bus.queued p then accept (s.removeEntry fun e => decide (e.pair = p)).look
      else if s.bus.wanted[p].isSome then accept (s.setWanted p none) else refuse .notFound s).1.LinesOk := by
    split
    · exact State.LinesOk.look (h.same ((SameTest.refl s).removeEntry _))
    · split
      · exact h.same ((SameTest.refl s).same rfl rfl)
      · exact h
  unfold Machine.runTestCancel
  split
  · exact h
  · split
    · rename_i r hr
      split
      · exact accepted (P := State.LinesOk) (h.endTest r (.aborted .cancelled) (by simp [hr])).look
      · exact rest _
    · exact rest _

/-- Every request keeps the standing of the lines in order. -/
theorem State.LinesOk.request (h : s.LinesOk) (r : Request) (tag : Byte) : (runRequest r tag s).1.LinesOk := by
  have same {t : State} (hl : t.lines = s.lines) (hb : t.bus.run = s.bus.run) : t.LinesOk :=
    h.same ((SameTest.refl s).same hl hb)
  cases r <;> dsimp only [runRequest]
  case lineEnable lines =>
    unfold runLineEnable
    split
    · exact h
    · rename_i hc
      exact accepted (P := State.LinesOk) (h.enable lines (by simpa using hc)).look
  case lineDisable lines =>
    refine State.LinesOk.look (foldl_keeps (P := State.LinesOk) (fun s n hs => ?_) _ h)
    split
    · exact hs.disableLine n
    · exact hs
  case lineMap =>
    unfold runLineMap
    split
    · split
      · exact h
      · split
        · exact h
        · split
          · exact h
          · rename_i h1 h2 h3
            simp only [Bool.or_eq_true, not_or, Bool.not_eq_true] at h3
            exact h.mapLine _ _ _ (by simpa using h1) (by simpa using h2) h3.1
    · exact h
  case lineSwap =>
    unfold runLineSwap
    split
    · split
      · exact h
      · split
        · exact h
        · split
          · exact h
          · split
            · exact h
            · rename_i hab h1 h2 h3
              simp only [Bool.or_eq_true, not_or, Bool.not_eq_true] at h3
              simp only [Bool.not_eq_true', Bool.not_eq_false, Bool.and_eq_true] at h1
              exact h.swapLines hab h1.1 h1.2 (by simpa using h2) h3.1 h3.2
    · exact h
  case lineReset =>
    unfold runLineReset
    split
    · exact accepted (P := State.LinesOk) (h.resetLine _).look
    · exact h
  case lineQuery => unfold runLineQuery; split <;> exact h
  case profileWrite =>
    unfold runProfileWrite
    split
    · exact accepted (P := State.LinesOk) (same rfl rfl)
    · exact h
  case profileRead => unfold runProfileRead; split <;> exact h
  case scanMode =>
    unfold runScanMode
    split
    · exact accepted (P := State.LinesOk) (same rfl rfl)
    · exact h
  case detectorService =>
    unfold runDetectorService
    repeat' split
    all_goals first
      | exact h
      | exact accepted (P := State.LinesOk) (h.same ((SameTest.refl s).serviceIn _))
      | exact accepted (P := State.LinesOk) (h.same ((SameTest.refl s).serviceOut _))
  case detectorQuery => exact h
  case windowWrite =>
    unfold runWindowWrite
    repeat' split
    all_goals first | exact h | exact accepted (P := State.LinesOk) (same rfl rfl)
  case windowRead =>
    unfold runWindowRead
    repeat' split
    all_goals exact h
  case recordTake =>
    unfold runRecordTake
    repeat' split
    · exact h
    · exact h
    · exact h
    · have e := (sameStore_takeSlot s ‹_› ‹_›).eq
      exact answered (P := State.LinesOk) (same (by rw [e]) (by rw [e]))
  case recordList => exact h
  case overrunClear =>
    unfold runOverrunClear
    split
    · exact accepted (P := State.LinesOk) (same rfl rfl)
    · exact h
  case faultLimits =>
    unfold runFaultLimits
    split
    · exact accepted (P := State.LinesOk) (h.same ((SameTest.refl s).watch _))
    · exact h
  case watchSet =>
    unfold runWatchSet
    split
    · exact h
    · dsimp only
      split
      · exact accepted (P := State.LinesOk) (h.same ((SameTest.refl s).watch _))
      · refine accepted (P := State.LinesOk) (foldl_keeps (P := State.LinesOk)
          (fun s b hs => hs.same ((SameTest.refl s).alignBinder b)) _ ?_)
        exact h.same ((SameTest.refl s).watch _)
  case pairQuery => unfold runPairQuery; split <;> exact h
  case testOrder =>
    unfold runTestOrder
    split
    · split
      · exact h
      · split
        · exact h
        · exact answered (P := State.LinesOk) (State.LinesOk.look (h.same ((SameTest.refl s).orderTest _ _ _)))
    · exact h
  case testCancel => exact h.runTestCancel _
  case testSet =>
    unfold runTestSet
    split
    · exact accepted (P := State.LinesOk) (same rfl rfl)
    · exact h
  case testQuery => exact h
  case routeWrite =>
    unfold runRouteWrite
    split
    · exact accepted (P := State.LinesOk) (same rfl rfl)
    · exact h
  case noticeEnable => exact accepted (P := State.LinesOk) (same (by simp) (by simp))
  case noticeDisable => exact accepted (P := State.LinesOk) (same (by simp) (by simp))
  case noticePoll => exact h.same (SameTest.poll Config.pollMax (.refl s))
  case identify => exact h
  case partReset => exact accepted (P := State.LinesOk) (same rfl rfl)

/-! ### The part -/

/-- What a reset leaves: every line disabled. -/
theorem linesOk_of_disabled (h : ∀ n, (s.line n).state = .disabled) : s.LinesOk :=
  ⟨fun n _ hn => absurd (h n) hn, fun n hn => absurd (h n) hn⟩

theorem linesOk_reset : State.reset.LinesOk :=
  linesOk_of_disabled fun n => by
    show initialLines[n].state = .disabled
    simp [initialLines, Line.initial]

/-- The link and the requests keep the standing of the lines in order. -/
theorem linesOk_closedLink : ClosedLink State.LinesOk where
  link s _ h := h.same ((SameTest.refl s).same rfl rfl)
  takeEntry s _ _ h := h.same ((SameTest.refl s).same rfl rfl)
  request _ r tag h := h.request r tag
  reset _ _ _ _ _ := linesOk_reset.same ((SameTest.refl _).same rfl rfl)

/-! ### The lines that leave a test -/

/-- A line that is not UNDER_TEST on the pair stays as it is (R166). -/
theorem State.leaveTest_other {s : State} {p : PairNo} {n : LineNo}
    (h : ¬((s.line n).pair = p ∧ (s.line n).state = .underTest)) : s.leaveTest p n = s := by
  unfold State.leaveTest
  exact if_neg h

theorem State.leaveTests_none (p : PairNo) (ns : List LineNo) (s : State)
    (h : ∀ n ∈ ns, ¬((s.line n).pair = p ∧ (s.line n).state = .underTest)) :
    ns.foldl (fun s n => s.leaveTest p n) s = s := by
  induction ns with
  | nil => rfl
  | cons n ns ih =>
    rw [List.foldl_cons, State.leaveTest_other (h n (by simp))]
    exact ih fun m hm => h m (by simp [hm])

/-- A line that leaves a test leaves the standing of the others (R166). -/
theorem State.standing_leaveTest (s : State) (p : PairNo) {n m : LineNo} (h : m ≠ n) :
    ((s.leaveTest p n).line m).standing = (s.line m).standing := by
  unfold State.leaveTest
  repeat' split
  · rw [State.line_modLine_ne _ _ (Ne.symm h)]
  · rw [(sameTest_enterSettling s n).lines m, State.line_setLine_ne _ _ (Ne.symm h)]
  · rfl

/-- Where one line is UNDER_TEST on the pair, it alone leaves the test (R166). -/
theorem State.leaveTests_one {s : State} {p : PairNo} {n : LineNo}
    (h : ∀ m, (s.line m).pair = p ∧ (s.line m).state = .underTest → m = n) :
    allLines.foldl (fun s n => s.leaveTest p n) s = s.leaveTest p n := by
  obtain ⟨front, back, e⟩ := List.append_of_mem (List.mem_finRange n : n ∈ allLines)
  have e : allLines = front ++ n :: back := e
  have once : allLines.Nodup := List.nodup_finRange 64
  rw [e] at once ⊢
  have hf : n ∉ front := fun hm => (List.nodup_append.mp once).2.2 n hm n (by simp) rfl
  have hb : n ∉ back := (List.nodup_cons.mp (List.nodup_append.mp once).2.1).1
  rw [List.foldl_append, List.foldl_cons, State.leaveTests_none p front s fun m hm hh => hf (h m hh ▸ hm)]
  apply State.leaveTests_none
  intro m hm hh
  have hne : m ≠ n := fun e => hb (e ▸ hm)
  have k := Line.standing_eq.mp (State.standing_leaveTest s p hne)
  exact hne (h m ⟨k.1 ▸ hh.1, k.2.2.mp hh.2⟩)

end Sys2Proof.Machine
end

