-- ==== Sys2Proof/Laws/Notices.lean ====
section
/-! SUPPORT. The pending set: what a raise, an enable, a disable and a choice do to its order and its counts. -/

namespace Sys2Proof.Machine

theorem Kind.num_injective {a b : Kind} (h : a.num = b.num) : a = b := by
  cases a <;> cases b <;> first | rfl | (exact absurd h (by decide))

/-- A key names its ring position and kind. -/
theorem pointKey_injective {p q : Fin 145} {a b : Kind} (h : pointKey p a = pointKey q b) : p = q ∧ a = b := by
  unfold pointKey at h
  have h1 := a.num.isLt
  have h2 := b.num.isLt
  have h3 : p.val = q.val := by omega
  exact ⟨Fin.ext h3, Kind.num_injective (Fin.ext (by omega))⟩

/-- Every entry after a raise is an old one or the raised point's own. -/
theorem mem_addRaise {pos : Fin 145} {k : Kind} {t : Option Time} {x : NoticeEntry} :
    ∀ {l : List NoticeEntry}, x ∈ addRaise pos k t l →
      x ∈ l ∨ x = freshEntry pos k t ∨ ∃ e ∈ l, e.key = pointKey pos k ∧ x = e.again t
  | [], h => by
    simp only [addRaise, List.mem_singleton] at h
    exact .inr (.inl h)
  | e :: l, h => by
    unfold addRaise at h
    split at h
    · rcases List.mem_cons.mp h with h | h
      · exact .inl (by simp [h])
      · rcases mem_addRaise h with h | h | ⟨y, hy, h⟩
        · exact .inl (by simp [h])
        · exact .inr (.inl h)
        · exact .inr (.inr ⟨y, by simp [hy], h⟩)
    · split at h
      · rename_i heq
        rcases List.mem_cons.mp h with h | h
        · exact .inr (.inr ⟨e, by simp, heq, h⟩)
        · exact .inl (by simp [h])
      · rcases List.mem_cons.mp h with h | h
        · exact .inr (.inl h)
        · exact .inl h

theorem NoticeEntry.key_again (e : NoticeEntry) (t : Option Time) : (e.again t).key = e.key := rfl

theorem key_freshEntry (pos : Fin 145) (k : Kind) (t : Option Time) : (freshEntry pos k t).key = pointKey pos k := rfl

/-- A raise keeps the order of the pending set (R172). -/
theorem addRaise_ordered {pos : Fin 145} {k : Kind} {t : Option Time} :
    ∀ {l : List NoticeEntry}, (l.Pairwise fun a b => a.key < b.key) →
      (addRaise pos k t l).Pairwise fun a b => a.key < b.key
  | [], _ => by simp [addRaise]
  | e :: l, h => by
    have h' := List.pairwise_cons.mp h
    unfold addRaise
    split
    · rename_i hlt
      refine List.pairwise_cons.mpr ⟨fun x hx => ?_, addRaise_ordered h'.2⟩
      rcases mem_addRaise hx with hx | rfl | ⟨y, hy, -, rfl⟩
      · exact h'.1 x hx
      · exact hlt
      · exact h'.1 y hy
    · rename_i hnlt
      split
      · refine List.pairwise_cons.mpr ⟨fun x hx => ?_, h'.2⟩
        exact h'.1 x hx
      · rename_i hne
        refine List.pairwise_cons.mpr ⟨fun x hx => ?_, h⟩
        show pointKey pos k < x.key
        rcases List.mem_cons.mp hx with rfl | hx
        · omega
        · have := h'.1 x hx
          omega

/-- A property of entries that a raise's own entry has passes to the set after it. -/
theorem addRaise_forall {Q : NoticeEntry → Prop} {pos : Fin 145} {k : Kind} {t : Option Time} {l : List NoticeEntry}
    (h : ∀ e ∈ l, Q e) (hf : Q (freshEntry pos k t)) (ha : ∀ e, e.key = pointKey pos k → Q e → Q (e.again t)) :
    ∀ e ∈ addRaise pos k t l, Q e := by
  intro x hx
  rcases mem_addRaise hx with hx | rfl | ⟨y, hy, hk, rfl⟩
  · exact h x hx
  · exact hf
  · exact ha y hk (h y hy)

/-- The invariant depends on the pending set and the enable set alone. -/
theorem State.NoticesOk.congr {s t : State} (h : s.NoticesOk) (he : t.notices.entries = s.notices.entries)
    (hn : t.notices.enabled = s.notices.enabled) : t.NoticesOk := by
  refine ⟨?_, ?_, ?_, ?_, ?_⟩
  · rw [he]; exact h.ordered
  · rw [he, hn]; exact h.enabled
  · rw [he]; exact h.counted
  · rw [he]; exact h.counts
  · rw [hn]; exact h.points

/-- A raise keeps the invariant (R172, R174). -/
theorem State.NoticesOk.raise {s : State} (h : s.NoticesOk) (src : Source) (k : Kind) (t : Option Time) :
    (s.raise src k t).NoticesOk := by
  unfold State.raise
  split
  · rename_i hen
    refine ⟨addRaise_ordered h.ordered, ?_, ?_, ?_, h.points⟩
    · exact addRaise_forall h.enabled hen fun e _ he => he
    · refine addRaise_forall h.counted ?_ fun e _ he => ?_
      · unfold freshEntry
        cases k <;> rfl
      · show (e.count.map _).isSome = _
        rw [Option.isSome_map]
        exact he
    · refine addRaise_forall (Q := fun e => ∀ c, e.count = some c → 1 ≤ c ∧ c ≤ 255) h.counts ?_ fun e _ he c hc => ?_
      · intro c hc
        unfold freshEntry at hc
        simp only at hc
        split at hc
        · cases hc; decide
        · cases hc
      · obtain ⟨d, hd, rfl⟩ := Option.map_eq_some_iff.mp hc
        have := he d hd
        omega
  · exact h

/-- Entries taken out of the pending set leave the rest in order. -/
theorem State.NoticesOk.filter {s t : State} (h : s.NoticesOk) (q : NoticeEntry → Bool)
    (he : t.notices.entries = s.notices.entries.filter q)
    (hen : ∀ e ∈ s.notices.entries, q e = true → t.notices.enabled[e.pos][e.kind.num] = true)
    (hp : ∀ (pos : Fin 145) (k : Fin 8), t.notices.enabled[pos][k] = true → isNoticePoint pos k = true) : t.NoticesOk := by
  refine ⟨?_, ?_, ?_, ?_, hp⟩
  · rw [he]; exact List.Pairwise.filter _ h.ordered
  · rw [he]
    intro e hm
    exact hen e (List.mem_filter.mp hm).1 (List.mem_filter.mp hm).2
  · rw [he]
    intro e hm
    exact h.counted e (List.mem_filter.mp hm).1
  · rw [he]
    intro e hm
    exact h.counts e (List.mem_filter.mp hm).1

theorem State.NoticesOk.takeEntry {s : State} (h : s.NoticesOk) (c : Fin 4) (e : NoticeEntry) :
    (s.takeEntry c e).NoticesOk :=
  h.filter _ rfl (fun x hx _ => h.enabled x hx) h.points

theorem State.enabled_enablePoints (s : State) (kinds : BitVec 8) (sources : BitVec 145) (pos : Fin 145) (k : Fin 8) :
    (s.enablePoints kinds sources).notices.enabled[pos][k] =
      (s.notices.enabled[pos][k] || inPoints kinds sources pos k) := by
  simp [State.enablePoints, Notices.withPoints]

theorem State.enabled_disablePoints (s : State) (kinds : BitVec 8) (sources : BitVec 145) (pos : Fin 145) (k : Fin 8) :
    (s.disablePoints kinds sources).notices.enabled[pos][k] =
      (s.notices.enabled[pos][k] && !inPoints kinds sources pos k) := by
  simp [State.disablePoints, Notices.withoutPoints]

theorem State.NoticesOk.enablePoints {s : State} (h : s.NoticesOk) (kinds : BitVec 8) (sources : BitVec 145) :
    (s.enablePoints kinds sources).NoticesOk := by
  have hn : (s.enablePoints kinds sources).notices.entries = s.notices.entries := by simp
  refine ⟨by rw [hn]; exact h.ordered, fun e he => ?_, by rw [hn]; exact h.counted, by rw [hn]; exact h.counts,
    fun pos k hk => ?_⟩
  · rw [hn] at he
    rw [State.enabled_enablePoints, h.enabled e he, Bool.true_or]
  · rw [State.enabled_enablePoints, Bool.or_eq_true] at hk
    rcases hk with hk | hk
    · exact h.points pos k hk
    · unfold inPoints at hk
      simp only [Bool.and_eq_true] at hk
      exact hk.2

theorem State.NoticesOk.disablePoints {s : State} (h : s.NoticesOk) (kinds : BitVec 8) (sources : BitVec 145) :
    (s.disablePoints kinds sources).NoticesOk := by
  refine h.filter (fun e => !inPoints kinds sources e.pos e.kind.num) rfl (fun e he hq => ?_) fun pos k hk => ?_
  · rw [State.enabled_disablePoints, h.enabled e he, hq, Bool.and_true]
  · rw [State.enabled_disablePoints, Bool.and_eq_true] at hk
    exact h.points pos k hk.1

end Sys2Proof.Machine
end

