-- ==== Sys2Proof/Laws/Pool.lean ====
section
/-! SUPPORT. The Tone Detector Pool: what a request, a release and a change of service do to the agreement of
the pool, its queue and the lines. -/

namespace Sys2Proof.Machine

theorem State.freeDetector_some {s : State} {d : DetectorNo} (h : s.freeDetector = some d) :
    (s.detector d).inService = true ∧ (s.detector d).bound = none := by
  have := List.find?_some h
  simpa using this

theorem State.freeDetector_none {s : State} (h : s.freeDetector = none) (d : DetectorNo)
    (hd : (s.detector d).inService = true) : (s.detector d).bound.isSome = true := by
  have := List.find?_eq_none.mp h d (List.mem_finRange d)
  cases hb : (s.detector d).bound with
  | none => simp [hd, hb] at this
  | some _ => rfl

/-- The invariant depends on the detectors, the queue and the bindings alone. -/
theorem State.PoolOk.congr {s t : State} (h : s.PoolOk) (hp : t.pool = s.pool)
    (hb : ∀ n, (t.line n).binding = (s.line n).binding) : t.PoolOk := by
  have hd (d : DetectorNo) : t.detector d = s.detector d := by unfold State.detector; rw [hp]
  refine ⟨fun d b hdb => ?_, fun n d hn => ?_, fun n => ?_, by rw [hp]; exact h.once, fun hq d hs => ?_⟩
  · rw [hd] at hdb ⊢
    rw [hb]
    exact h.bound d b hdb
  · rw [hb] at hn
    simp only [hd]
    exact h.named n d hn
  · rw [hb, hp]
    exact h.queued n
  · rw [hp] at hq
    rw [hd] at hs ⊢
    exact h.busy hq d hs

theorem State.PoolOk.setLine {s : State} (h : s.PoolOk) (n : LineNo) (l : Line) (hl : l.binding = (s.line n).binding) :
    (s.setLine n l).PoolOk :=
  h.congr rfl fun m => by
    rw [State.line_setLine]
    split
    · subst_vars; exact hl
    · rfl

/-- A line's request keeps the agreement (R79). -/
theorem State.PoolOk.requestDetector {s : State} (h : s.PoolOk) (n : LineNo) : (s.requestDetector n).PoolOk := by
  unfold State.requestDetector
  split
  · rename_i hnone
    have hnq : ∀ w ∈ s.pool.queue, w.line ≠ n := fun w hw heq => by
      have := (h.queued n).mpr ⟨w, hw, heq⟩
      rw [hnone] at this
      cases this
    split
    · rename_i d hfree
      obtain ⟨hin, hunb⟩ := State.freeDetector_some hfree
      have hq : s.pool.queue = [] := by
        cases hq : s.pool.queue with
        | nil => rfl
        | cons w rest =>
          have := h.busy (by simp [hq]) d hin
          rw [hunb] at this
          cases this
      have hdet (e : DetectorNo) : (s.bindDetector d n).detector e =
          if e = d then { s.detector d with bound := some ⟨n, s.now, (s.line n).pair⟩ } else s.detector e := by
        unfold State.bindDetector
        by_cases he : e = d
        · subst he; simp
        · simp [he, State.detector_setDetector_ne _ _ (Ne.symm he)]
      have hbind (m : LineNo) : ((s.bindDetector d n).line m).binding = if m = n then .detector d else (s.line m).binding := by
        unfold State.bindDetector
        rw [State.modLine_eq, State.line_setLine]
        split <;> simp
      have hqueue : (s.bindDetector d n).pool.queue = [] := by
        show s.pool.queue = []
        exact hq
      refine ⟨fun e b heb => ?_, fun m e hm => ?_, fun m => ?_, by simp [hqueue], fun hne => absurd hqueue hne⟩
      · rw [hdet] at heb ⊢
        by_cases he : e = d
        · subst he
          rw [if_pos rfl] at heb ⊢
          simp only [Option.some.injEq] at heb
          subst heb
          exact ⟨hin, by rw [hbind]; simp⟩
        · rw [if_neg he] at heb ⊢
          obtain ⟨h1, h2⟩ := h.bound e b heb
          refine ⟨h1, ?_⟩
          rw [hbind]
          split
          · rename_i hbn
            rw [hbn, hnone] at h2
            cases h2
          · exact h2
      · rw [hbind] at hm
        rw [hdet]
        split at hm
        · cases hm
          subst_vars
          simp
        · obtain ⟨b, hb1, hb2⟩ := h.named m e hm
          by_cases he : e = d
          · subst he
            rw [hunb] at hb1
            cases hb1
          · rw [if_neg he]
            exact ⟨b, hb1, hb2⟩
      · rw [hbind, hqueue]
        split
        · simp
        · rw [h.queued m, hq]
    · rename_i hfree
      have hbind (m : LineNo) : (((s.setDetectorQueue (s.pool.queue ++ [⟨n, s.now⟩])).modLine n
          fun l => { l with binding := .queued }).line m).binding = if m = n then .queued else (s.line m).binding := by
        rw [State.modLine_eq, State.line_setLine]
        split <;> simp
      refine ⟨fun d b hdb => ?_, fun m d hm => ?_, fun m => ?_, ?_, fun _ d hd => ?_⟩
      · obtain ⟨h1, h2⟩ := h.bound d b hdb
        refine ⟨h1, ?_⟩
        rw [hbind]
        split
        · rename_i hbn
          rw [hbn, hnone] at h2
          cases h2
        · exact h2
      · rw [hbind] at hm
        split at hm
        · cases hm
        · exact h.named m d hm
      · rw [hbind]
        show _ ↔ ∃ w ∈ s.pool.queue ++ [⟨n, s.now⟩], w.line = m
        split
        · rename_i hmn
          subst hmn
          simp
        · rename_i hmn
          rw [h.queued m]
          simp [Ne.symm hmn]
      · show List.Pairwise (fun a b : Waiter => a.line ≠ b.line) (s.pool.queue ++ [⟨n, s.now⟩])
        rw [List.pairwise_append]
        refine ⟨h.once, by simp, fun a ha b hb => ?_⟩
        rw [List.mem_singleton.mp hb]
        exact hnq a ha
      · exact State.freeDetector_none hfree d hd
  · exact h

theorem tail_ne {α : Type} {l : List α} (h : l.tail ≠ []) : l ≠ [] := by
  rintro rfl
  exact h rfl

/-- The agreement, but for a detector `d` that is in service and free while lines may wait; only the lines
behind the head say that the others are busy. -/
structure State.PoolOffer (s : State) (d : DetectorNo) : Prop where
  bound : ∀ (e : DetectorNo) (b : Bound), (s.detector e).bound = some b →
    (s.detector e).inService = true ∧ (s.line b.line).binding = .detector e
  named : ∀ (n : LineNo) (e : DetectorNo), (s.line n).binding = .detector e →
    ∃ b, (s.detector e).bound = some b ∧ b.line = n
  queued : ∀ n : LineNo, (s.line n).binding = .queued ↔ ∃ w ∈ s.pool.queue, w.line = n
  once : s.pool.queue.Pairwise fun a b => a.line ≠ b.line
  offered : (s.detector d).inService = true ∧ (s.detector d).bound = none
  busy : s.pool.queue.tail ≠ [] → ∀ e : DetectorNo, e ≠ d → (s.detector e).inService = true →
    (s.detector e).bound.isSome = true

/-- A grant to the queue head restores the agreement (R82). -/
theorem State.PoolOffer.grantHead {s : State} {d : DetectorNo} (h : s.PoolOffer d) : (s.grantHead d).PoolOk := by
  unfold State.grantHead
  split
  · rename_i hq
    exact ⟨h.bound, h.named, h.queued, h.once, fun hne => absurd hq hne⟩
  · rename_i w rest hq
    have hw : (s.line w.line).binding = .queued := (h.queued w.line).mpr ⟨w, by simp [hq], rfl⟩
    have honce := h.once
    rw [hq, List.pairwise_cons] at honce
    suffices hb : ((s.setDetectorQueue rest).bindDetector d w.line).PoolOk by
      rw [State.modLine_eq]
      exact hb.setLine _ _ rfl
    have hdet (e : DetectorNo) : ((s.setDetectorQueue rest).bindDetector d w.line).detector e =
        if e = d then { s.detector d with bound := some ⟨w.line, s.now, (s.line w.line).pair⟩ } else s.detector e := by
      unfold State.bindDetector
      by_cases he : e = d
      · subst he; simp
      · simp [he, State.detector_setDetector_ne _ _ (Ne.symm he)]
    have hbind (m : LineNo) : (((s.setDetectorQueue rest).bindDetector d w.line).line m).binding =
        if m = w.line then .detector d else (s.line m).binding := by
      unfold State.bindDetector
      rw [State.modLine_eq, State.line_setLine]
      split <;> simp
    refine ⟨fun e b heb => ?_, fun m e hm => ?_, fun m => ?_, honce.2, fun hne e he => ?_⟩
    · rw [hdet] at heb ⊢
      by_cases he : e = d
      · subst he
        rw [if_pos rfl] at heb ⊢
        simp only [Option.some.injEq] at heb
        subst heb
        exact ⟨h.offered.1, by rw [hbind]; simp⟩
      · rw [if_neg he] at heb ⊢
        obtain ⟨h1, h2⟩ := h.bound e b heb
        refine ⟨h1, ?_⟩
        rw [hbind]
        split
        · rename_i hbn
          rw [hbn, hw] at h2
          cases h2
        · exact h2
    · rw [hbind] at hm
      rw [hdet]
      split at hm
      · cases hm
        subst_vars
        simp
      · obtain ⟨b, hb1, hb2⟩ := h.named m e hm
        by_cases he : e = d
        · subst he
          rw [h.offered.2] at hb1
          cases hb1
        · rw [if_neg he]
          exact ⟨b, hb1, hb2⟩
    · rw [hbind]
      show _ ↔ ∃ x ∈ rest, x.line = m
      split
      · rename_i hmw
        subst hmw
        simp only [reduceCtorEq, false_iff, not_exists, not_and]
        exact fun x hx heq => honce.1 x hx heq.symm
      · rename_i hmw
        rw [h.queued m, hq]
        simp [Ne.symm hmw]
    · rw [hdet] at he ⊢
      by_cases hed : e = d
      · simp [hed]
      · rw [if_neg hed] at he ⊢
        exact h.busy (by rw [hq]; exact hne) e hed he

/-- A line's release of its detector or its queue place keeps the agreement (R80, R81). -/
theorem State.PoolOk.dropDetector {s : State} (h : s.PoolOk) (n : LineNo) : (s.dropDetector n).PoolOk := by
  unfold State.dropDetector
  split
  · exact h
  · rename_i hq
    have hbind (m : LineNo) : (((s.setDetectorQueue (s.pool.queue.filter fun w => decide (w.line ≠ n))).modLine n
        fun l => { l with binding := .none }).line m).binding = if m = n then .none else (s.line m).binding := by
      rw [State.modLine_eq, State.line_setLine]
      split <;> simp
    refine ⟨fun d b hdb => ?_, fun m d hm => ?_, fun m => ?_, List.Pairwise.filter _ h.once, fun hne d hd => ?_⟩
    · obtain ⟨h1, h2⟩ := h.bound d b hdb
      refine ⟨h1, ?_⟩
      rw [hbind]
      split
      · rename_i hbn
        rw [hbn, hq] at h2
        cases h2
      · exact h2
    · rw [hbind] at hm
      split at hm
      · cases hm
      · exact h.named m d hm
    · rw [hbind]
      show _ ↔ ∃ w ∈ s.pool.queue.filter _, w.line = m
      split
      · subst_vars
        simp
      · rename_i hmn
        rw [h.queued m]
        constructor
        · rintro ⟨w, hw, rfl⟩
          exact ⟨w, by simp [hw, hmn], rfl⟩
        · rintro ⟨w, hw, rfl⟩
          exact ⟨w, (List.mem_filter.mp hw).1, rfl⟩
    · refine h.busy (fun hnil => hne ?_) d hd
      show s.pool.queue.filter _ = []
      rw [hnil]
      rfl
  · rename_i d hd
    obtain ⟨b, hb1, hb2⟩ := h.named n d hd
    obtain ⟨hin, -⟩ := h.bound d b hb1
    have hoffer : State.PoolOffer ((s.setDetector d { s.detector d with bound := none }).modLine n
        fun l => { l with binding := .none }) d := by
      have hdet (e : DetectorNo) : State.detector ((s.setDetector d { s.detector d with bound := none }).modLine n
          fun l => { l with binding := .none }) e = if e = d then { s.detector d with bound := none } else s.detector e := by
        by_cases he : e = d
        · subst he; simp
        · simp [he, State.detector_setDetector_ne _ _ (Ne.symm he)]
      have hbind (m : LineNo) : (State.line ((s.setDetector d { s.detector d with bound := none }).modLine n
          fun l => { l with binding := .none }) m).binding = if m = n then .none else (s.line m).binding := by
        rw [State.modLine_eq, State.line_setLine]
        split <;> simp
      refine ⟨fun e c hec => ?_, fun m e hm => ?_, fun m => ?_, h.once, by rw [hdet]; simp [hin], fun hne e hed he => ?_⟩
      · rw [hdet] at hec ⊢
        by_cases he : e = d
        · subst he; simp at hec
        · rw [if_neg he] at hec ⊢
          obtain ⟨h1, h2⟩ := h.bound e c hec
          refine ⟨h1, ?_⟩
          rw [hbind]
          split
          · rename_i hcn
            rw [hcn, hd] at h2
            cases h2
            exact absurd rfl he
          · exact h2
      · rw [hbind] at hm
        rw [hdet]
        split at hm
        · cases hm
        · rename_i hmn
          obtain ⟨c, hc1, hc2⟩ := h.named m e hm
          by_cases he : e = d
          · subst he
            rw [hb1] at hc1
            cases hc1
            exact absurd (hc2.symm.trans hb2) hmn
          · rw [if_neg he]
            exact ⟨c, hc1, hc2⟩
      · rw [hbind]
        show _ ↔ ∃ w ∈ s.pool.queue, w.line = m
        split
        · subst_vars
          rw [← h.queued, hd]
          simp
        · exact h.queued m
      · rw [hdet, if_neg hed] at he ⊢
        exact h.busy (tail_ne hne) e he
    have hserve : (((s.setDetector d { s.detector d with bound := none }).modLine n
        fun l => { l with binding := .none }).detector d).inService = true := hoffer.offered.1
    simp only [hserve, if_true]
    exact hoffer.grantHead

/-- DETECTOR_SERVICE IN keeps the agreement (R89). -/
theorem State.PoolOk.serviceIn {s : State} (h : s.PoolOk) (d : DetectorNo) : (s.serviceIn d).PoolOk := by
  unfold State.serviceIn
  split
  · exact h
  · rename_i hout
    have hnb : (s.detector d).bound = none := by
      cases hb : (s.detector d).bound with
      | none => rfl
      | some b => exact absurd (h.bound d b hb).1 hout
    apply State.PoolOffer.grantHead
    have hdet (e : DetectorNo) : (s.setDetector d ⟨true, none⟩).detector e = if e = d then ⟨true, none⟩ else s.detector e := by
      by_cases he : e = d
      · subst he; simp
      · simp [he, State.detector_setDetector_ne _ _ (Ne.symm he)]
    refine ⟨fun e b heb => ?_, fun m e hm => ?_, h.queued, h.once, by simp, fun hne e hed he => ?_⟩
    · rw [hdet] at heb ⊢
      by_cases he : e = d
      · subst he; simp at heb
      · rw [if_neg he] at heb ⊢
        exact h.bound e b heb
    · obtain ⟨b, hb1, hb2⟩ := h.named m e hm
      rw [hdet]
      by_cases he : e = d
      · subst he
        rw [hnb] at hb1
        cases hb1
      · rw [if_neg he]
        exact ⟨b, hb1, hb2⟩
    · rw [hdet, if_neg hed] at he ⊢
      exact h.busy (tail_ne hne) e he

/-- DETECTOR_SERVICE OUT keeps the agreement (R88). -/
theorem State.PoolOk.serviceOut {s : State} (h : s.PoolOk) (d : DetectorNo) : (s.serviceOut d).PoolOk := by
  unfold State.serviceOut
  have hdet (e : DetectorNo) : (s.setDetector d ⟨false, none⟩).detector e = if e = d then ⟨false, none⟩ else s.detector e := by
    by_cases he : e = d
    · subst he; simp
    · simp [he, State.detector_setDetector_ne _ _ (Ne.symm he)]
  split
  · split
    · rename_i hfree
      refine ⟨fun e b heb => ?_, fun m e hm => ?_, h.queued, h.once, fun hne e he => ?_⟩
      · rw [hdet] at heb ⊢
        by_cases he : e = d
        · subst he; simp at heb
        · rw [if_neg he] at heb ⊢
          exact h.bound e b heb
      · obtain ⟨b, hb1, hb2⟩ := h.named m e hm
        rw [hdet]
        by_cases he : e = d
        · subst he
          rw [hfree] at hb1
          cases hb1
        · rw [if_neg he]
          exact ⟨b, hb1, hb2⟩
      · rw [hdet] at he ⊢
        by_cases hed : e = d
        · simp [hed] at he
        · rw [if_neg hed] at he ⊢
          exact h.busy hne e he
    · rename_i b hb
      obtain ⟨-, hbl⟩ := h.bound d b hb
      have hnq : ∀ w ∈ s.pool.queue, w.line ≠ b.line := fun w hw heq => by
        have := (h.queued b.line).mpr ⟨w, hw, heq⟩
        rw [hbl] at this
        cases this
      generalize hu : ((s.setDetector d ⟨false, none⟩).setDetectorQueue (⟨b.line, s.now⟩ :: s.pool.queue)).modLine
        b.line (fun l => { l with binding := .queued }) = u
      have hbind (m : LineNo) : (u.line m).binding = if m = b.line then .queued else (s.line m).binding := by
        rw [← hu, State.modLine_eq, State.line_setLine]
        split <;> simp
      have hdet' (e : DetectorNo) : u.detector e = if e = d then ⟨false, none⟩ else s.detector e := by
        rw [← hdet, ← hu]
        simp
      have hqueue : u.pool.queue = ⟨b.line, s.now⟩ :: s.pool.queue := by rw [← hu]; rfl
      have hbound : ∀ (e : DetectorNo) (c : Bound), (u.detector e).bound = some c →
          (u.detector e).inService = true ∧ (u.line c.line).binding = .detector e := by
        intro e c hec
        rw [hdet'] at hec ⊢
        by_cases he : e = d
        · subst he; simp at hec
        · rw [if_neg he] at hec ⊢
          obtain ⟨h1, h2⟩ := h.bound e c hec
          refine ⟨h1, ?_⟩
          rw [hbind]
          split
          · rename_i hcb
            rw [hcb, hbl] at h2
            cases h2
            exact absurd rfl he
          · exact h2
      have hnamed : ∀ (m : LineNo) (e : DetectorNo), (u.line m).binding = .detector e →
          ∃ c, (u.detector e).bound = some c ∧ c.line = m := by
        intro m e hm
        rw [hbind] at hm
        split at hm
        · cases hm
        · rename_i hmb
          obtain ⟨c, hc1, hc2⟩ := h.named m e hm
          rw [hdet']
          by_cases he : e = d
          · subst he
            rw [hb] at hc1
            cases hc1
            exact absurd hc2.symm hmb
          · rw [if_neg he]
            exact ⟨c, hc1, hc2⟩
      have hqueued : ∀ m : LineNo, (u.line m).binding = .queued ↔ ∃ w ∈ u.pool.queue, w.line = m := by
        intro m
        rw [hbind, hqueue]
        split
        · subst_vars
          simp
        · rename_i hmb
          rw [h.queued m]
          simp [Ne.symm hmb]
      have honce : u.pool.queue.Pairwise fun a b => a.line ≠ b.line := by
        rw [hqueue, List.pairwise_cons]
        exact ⟨fun w hw heq => hnq w hw heq.symm, h.once⟩
      dsimp only
      split
      · rename_i d' hd'
        obtain ⟨h1, h2⟩ := State.freeDetector_some hd'
        have hne : d' ≠ d := by
          rintro rfl
          rw [hdet'] at h1
          simp at h1
        have hq : s.pool.queue = [] := by
          rw [hdet', if_neg hne] at h1 h2
          cases hq : s.pool.queue with
          | nil => rfl
          | cons w rest =>
            have := h.busy (by simp [hq]) d' h1
            rw [h2] at this
            cases this
        refine State.PoolOffer.grantHead ⟨hbound, hnamed, hqueued, honce, ⟨h1, h2⟩, fun hne => ?_⟩
        rw [hqueue] at hne
        exact absurd hq hne
      · rename_i hfree
        refine ⟨hbound, hnamed, hqueued, honce, fun _ e he => State.freeDetector_none hfree e he⟩
  · exact h

end Sys2Proof.Machine
end

