-- ==== Sys2Proof/Laws/Scan.lean ====
section
/-! SUPPORT. The sends of a pass: what going through the included pairs does (R22 step 4). -/

namespace Sys2Proof.Machine

theorem State.outstanding_requestSample (passTime : Time) (s : State) (p q : PairNo) :
    (State.requestSample passTime s p).scan.outstanding[q] =
      if p = q then some passTime else s.scan.outstanding[q] := by
  show (s.scan.outstanding.set p.val (some passTime))[q.val] = _
  rw [Vector.getElem_set]
  simp only [Fin.ext_iff]
  rfl

/-- A request for each pair of a list: the pairs of the list are outstanding with the pass time, the requests have
been sent in the order of the list, and nothing else has changed. -/
theorem State.foldl_requestSample (passTime : Time) : ∀ (ps : List PairNo) (s : State),
    let u := ps.foldl (State.requestSample passTime) s
    u = { s with scan := { s.scan with
      outstanding := u.scan.outstanding, sent := s.scan.sent ++ ps.map .request } } ∧
    ∀ q : PairNo, u.scan.outstanding[q] = if q ∈ ps then some passTime else s.scan.outstanding[q]
  | [], s => by simp
  | p :: ps, s => by
    have ⟨h, k⟩ := State.foldl_requestSample passTime ps (State.requestSample passTime s p)
    refine ⟨?_, fun q => ?_⟩
    · refine h.trans ?_
      simp [State.requestSample, State.sendSense, State.setOutstanding]
    · refine (k q).trans ?_
      rw [State.outstanding_requestSample]
      by_cases hq : q ∈ ps <;> by_cases hp : p = q <;> simp [hq, hp, eq_comm (a := q)]

/-- The included pairs in ascending order, each once (R22 step 3). -/
theorem State.includedPairs_ascending (s : State) : s.includedPairs.Pairwise (· < ·) :=
  (List.pairwise_lt_finRange 72).filter _

theorem State.mem_includedPairs (s : State) (p : PairNo) :
    p ∈ s.includedPairs ↔ s.included s.scan.passMode s.scan.phase p = true := by
  simp [State.includedPairs, allPairs]

end Sys2Proof.Machine
end

