-- ==== Sys2Proof/Laws/Store.lean ====
section
/-! SUPPORT. The Dial Record Store: counts under a change of one slot, and what an arrival, a take and a dropped
pending record do to the store's invariant. -/

namespace Sys2Proof.Machine

/-! ### Counts -/

theorem countP_change_one {α : Type} {f g : α → Bool} {i : α} (off : ∀ j, j ≠ i → g j = f j) :
    ∀ {l : List α}, l.Nodup → i ∈ l → l.countP g + (f i).toNat = l.countP f + (g i).toNat
  | a :: l, hn, hi => by
    have hn' := List.nodup_cons.mp hn
    by_cases ha : a = i
    · subst ha
      have same : l.countP g = l.countP f := by
        apply List.countP_congr
        intro x hx
        rw [off x (fun h => hn'.1 (h ▸ hx))]
      rw [List.countP_cons, List.countP_cons, same]
      cases f a <;> cases g a <;> simp
    · have hi' : i ∈ l := by
        rcases List.mem_cons.mp hi with h | h
        · exact absurd h.symm ha
        · exact h
      have ih := countP_change_one off hn'.2 hi'
      rw [List.countP_cons, List.countP_cons, off a ha]
      omega

theorem nodup_allSlots : allSlots.Nodup := List.nodup_finRange 16

theorem mem_allSlots (i : Fin 16) : i ∈ allSlots := List.mem_finRange i

/-- The occupied count after one slot changes. -/
theorem Store.occupied_change {a b : Store} (i : Fin 16) (off : ∀ j : Fin 16, j ≠ i → b.slots[j].isSome = a.slots[j].isSome) :
    b.occupied + a.slots[i].isSome.toNat = a.occupied + b.slots[i].isSome.toNat :=
  countP_change_one off nodup_allSlots (mem_allSlots i)

/-- A line's stored count after one slot changes. -/
theorem Store.storedCount_change {a b : Store} (n : LineNo) (i : Fin 16)
    (off : ∀ j : Fin 16, j ≠ i → Slot.holds n b.slots[j] = Slot.holds n a.slots[j]) :
    b.storedCount n + (Slot.holds n a.slots[i]).toNat = a.storedCount n + (Slot.holds n b.slots[i]).toNat :=
  countP_change_one off nodup_allSlots (mem_allSlots i)

theorem Store.emptySlot_none {st : Store} (h : st.emptySlot = none) (i : Fin 16) : st.slots[i].isSome = true := by
  have := List.find?_eq_none.mp h i (mem_allSlots i)
  cases hs : st.slots[i] with
  | none => simp [hs] at this
  | some _ => rfl

theorem Store.emptySlot_some {st : Store} {i : Fin 16} (h : st.emptySlot = some i) : st.slots[i] = none := by
  have := List.find?_some h
  simpa using this

theorem Store.hasPending_false {st : Store} {n : LineNo} (h : st.hasPending n = false) : st.pendingCount n = 0 := by
  unfold Store.hasPending at h
  unfold Store.pendingCount
  rw [List.countP_eq_zero]
  intro x hx
  have := List.any_eq_false.mp h x hx
  simpa using this

/-! ### The invariant -/

/-- The invariant without its clause on waiting records, over the store alone. -/
structure Store.Sound (st : Store) : Prop where
  ranks : ∀ (i : Fin 16) (sl : Slot), st.slots[i] = some sl → 1 ≤ sl.rank ∧ sl.rank ≤ st.occupied
  once : ∀ (i j : Fin 16) (a b : Slot), st.slots[i] = some a → st.slots[j] = some b → a.rank = b.rank → i = j
  limit : ∀ n : LineNo, st.storedCount n + st.pendingCount n ≤ 2
  single : ∀ n : LineNo, st.pendingCount n ≤ 1

/-- A record waits only while every slot is occupied. -/
def Store.Full (st : Store) : Prop := st.waiting ≠ [] → ∀ i : Fin 16, st.slots[i].isSome = true

theorem State.storeOk_iff (s : State) : s.StoreOk ↔ s.store.Sound ∧ s.store.Full :=
  ⟨fun h => ⟨⟨h.ranks, h.once, h.limit, h.single⟩, h.full⟩, fun h => ⟨h.1.ranks, h.1.once, h.2, h.1.limit, h.1.single⟩⟩

theorem Store.Sound.congr {a b : Store} (h : a.Sound) (hs : b.slots = a.slots) (hw : b.waiting = a.waiting) : b.Sound := by
  obtain ⟨slots, waiting, o, w⟩ := a
  obtain ⟨slots', waiting', o', w'⟩ := b
  subst hs hw
  exact ⟨h.ranks, h.once, h.limit, h.single⟩

theorem Store.Full.congr {a b : Store} (h : a.Full) (hs : b.slots = a.slots) (hw : b.waiting = a.waiting) : b.Full := by
  unfold Store.Full
  rw [hs, hw]
  exact h

theorem State.StoreOk.congr {s t : State} (h : s.StoreOk) (hs : t.store.slots = s.store.slots)
    (hw : t.store.waiting = s.store.waiting) : t.StoreOk :=
  t.storeOk_iff.mpr ⟨(s.storeOk_iff.mp h).1.congr hs hw, (s.storeOk_iff.mp h).2.congr hs hw⟩

/-- The store after a record entered an empty slot with the next rank. -/
theorem Store.Sound.enter {st : Store} {i : Fin 16} {r : DialRecord} (h : st.Sound) (he : st.slots[i] = none)
    (hl : st.storedCount r.line + st.pendingCount r.line < 2) :
    Store.Sound { st with slots := st.slots.set i (some ⟨st.occupied + 1, r⟩) } := by
  have ho : Store.occupied { st with slots := st.slots.set i (some ⟨st.occupied + 1, r⟩) } = st.occupied + 1 := by
    have := Store.occupied_change (a := st) (b := { st with slots := st.slots.set i (some ⟨st.occupied + 1, r⟩) }) i
      (fun j hj => by simp [Vector.getElem_set_ne, Fin.val_ne_of_ne (Ne.symm hj)])
    simpa [he] using this
  have get (j : Fin 16) (sl : Slot) (hsl : (st.slots.set i (some ⟨st.occupied + 1, r⟩))[j] = some sl) :
      (j = i ∧ sl = ⟨st.occupied + 1, r⟩) ∨ (j ≠ i ∧ st.slots[j] = some sl) := by
    by_cases hj : j = i
    · subst hj
      left
      refine ⟨rfl, ?_⟩
      simpa using hsl.symm
    · right
      refine ⟨hj, ?_⟩
      rw [← hsl]
      simp [Vector.getElem_set_ne, Fin.val_ne_of_ne (Ne.symm hj)]
  refine ⟨fun j sl hsl => ?_, fun j k a b ha hb hab => ?_, fun n => ?_, h.single⟩
  · rw [ho]
    rcases get j sl hsl with ⟨-, rfl⟩ | ⟨-, hsl⟩
    · simp
    · have := h.ranks j sl hsl
      omega
  · rcases get j a ha with ⟨rfl, rfl⟩ | ⟨hj, ha⟩ <;> rcases get k b hb with ⟨rfl, rfl⟩ | ⟨hk, hb⟩
    · rfl
    · have := h.ranks k b hb
      simp at hab
      omega
    · have := h.ranks j a ha
      simp at hab
      omega
    · exact h.once j k a b ha hb hab
  · have hc := Store.storedCount_change (a := st) (b := { st with slots := st.slots.set i (some ⟨st.occupied + 1, r⟩) }) n i
      (fun j hj => by simp [Vector.getElem_set_ne, Fin.val_ne_of_ne (Ne.symm hj)])
    have hn := h.limit n
    have hp : Store.pendingCount { st with slots := st.slots.set i (some ⟨st.occupied + 1, r⟩) } n = st.pendingCount n := rfl
    rw [hp]
    by_cases hr : r.line = n
    · subst hr
      simp [he, Slot.holds] at hc
      omega
    · simp [he, Slot.holds, hr] at hc
      omega

theorem State.StoreOk.raise {s : State} (h : s.StoreOk) (src : Source) (k : Kind) (t : Option Time) :
    (s.raise src k t).StoreOk :=
  h.congr (by simp) (by simp)

/-- A closure arrival keeps the invariant (R117, R118, R119). -/
theorem State.StoreOk.arrive {s : State} (h : s.StoreOk) (r : DialRecord) : (s.arrive r).StoreOk := by
  have hs := (s.storeOk_iff.mp h).1
  unfold State.arrive
  split
  · exact State.StoreOk.raise (s := s.setOverrun r.line true) (h.congr rfl rfl) _ _ _
  · rename_i hlim
    simp only [Bool.or_eq_true, decide_eq_true_eq, not_or, Bool.not_eq_true, Nat.not_le] at hlim
    have hp := Store.hasPending_false hlim.1
    split
    · rename_i hroom
      simp only [Bool.and_eq_true, List.isEmpty_iff] at hroom
      unfold State.admitRecord
      split
      · exact h
      · rename_i i hi
        apply State.StoreOk.raise
        rw [State.storeOk_iff]
        refine ⟨hs.enter (Store.emptySlot_some hi) (by omega), fun hw => absurd hroom.2 hw⟩
    · rename_i hroom
      have hfull : ∀ i : Fin 16, s.store.slots[i].isSome = true := by
        intro i
        cases he : s.store.emptySlot with
        | none => exact Store.emptySlot_none he i
        | some j =>
          have hw : s.store.waiting ≠ [] := by
            intro hw
            simp [he, hw] at hroom
          exact h.full hw i
      rw [State.storeOk_iff]
      refine ⟨⟨hs.ranks, hs.once, fun n => ?_, fun n => ?_⟩, fun _ => hfull⟩
      · have := hs.limit n
        show Store.storedCount _ n + List.countP _ (s.store.waiting ++ [_]) ≤ 2
        rw [List.countP_append]
        by_cases hn : r.line = n
        · subst hn
          simp only [List.countP_singleton, decide_true, if_true]
          unfold Store.pendingCount at hp
          have : Store.storedCount s.store r.line < 2 := hlim.2
          show Store.storedCount s.store r.line + _ ≤ 2
          omega
        · simp [hn]
          exact this
      · have := hs.single n
        show List.countP _ (s.store.waiting ++ [_]) ≤ 1
        rw [List.countP_append]
        by_cases hn : r.line = n
        · subst hn
          simp only [List.countP_singleton, decide_true, if_true]
          unfold Store.pendingCount at hp
          omega
        · simp [hn]
          exact this

/-- The store after a take, before the pending list moves (R114, R122). -/
theorem Store.Sound.remove {st : Store} (h : st.Sound) {i : Fin 16} {sl : Slot} (hi : st.slots[i] = some sl) :
    (st.remove i sl.rank).Sound ∧ (st.remove i sl.rank).slots[i] = none ∧
      (st.remove i sl.rank).waiting = st.waiting ∧
      ∀ n : LineNo, (st.remove i sl.rank).storedCount n ≤ st.storedCount n := by
  have get (j : Fin 16) : (st.remove i sl.rank).slots[j] = if j = i then none
      else st.slots[j].map fun x => if sl.rank < x.rank then { x with rank := x.rank - 1 } else x := by
    simp [Store.remove]
  have hempty : (st.remove i sl.rank).slots[i] = none := by rw [get]; simp
  have hcount (n : LineNo) : (st.remove i sl.rank).storedCount n ≤ st.storedCount n := by
    have := Store.storedCount_change (a := st) (b := st.remove i sl.rank) n i (fun j hj => by
      rw [get, if_neg hj]
      cases st.slots[j] with
      | none => rfl
      | some x => simp only [Option.map_some, Slot.holds]; split <;> rfl)
    rw [hempty] at this
    simp [Slot.holds] at this
    omega
  have hocc : (st.remove i sl.rank).occupied + 1 = st.occupied := by
    have := Store.occupied_change (a := st) (b := st.remove i sl.rank) i (fun j hj => by
      rw [get, if_neg hj]; simp)
    rw [hempty, hi] at this
    simpa using this
  have old (j : Fin 16) (x : Slot) (hx : (st.remove i sl.rank).slots[j] = some x) :
      j ≠ i ∧ ∃ y, st.slots[j] = some y ∧ x.rank = if sl.rank < y.rank then y.rank - 1 else y.rank := by
    rw [get] at hx
    by_cases hj : j = i
    · simp [hj] at hx
    · refine ⟨hj, ?_⟩
      rw [if_neg hj] at hx
      obtain ⟨y, hy, hyx⟩ := Option.map_eq_some_iff.mp hx
      refine ⟨y, hy, ?_⟩
      rw [← hyx]
      split <;> rfl
  refine ⟨⟨fun j x hx => ?_, fun j k a b ha hb hab => ?_, fun n => ?_, h.single⟩, hempty, rfl, hcount⟩
  · obtain ⟨hj, y, hy, hr⟩ := old j x hx
    have h1 := h.ranks j y hy
    have h2 := h.ranks i sl hi
    have h3 : y.rank ≠ sl.rank := fun heq => hj (h.once j i y sl hy hi heq)
    rw [hr]
    split <;> omega
  · obtain ⟨hj, y, hy, hr⟩ := old j a ha
    obtain ⟨hk, z, hz, hr'⟩ := old k b hb
    have h3 : y.rank ≠ sl.rank := fun heq => hj (h.once j i y sl hy hi heq)
    have h4 : z.rank ≠ sl.rank := fun heq => hk (h.once k i z sl hz hi heq)
    refine h.once j k y z hy hz ?_
    rw [hr, hr'] at hab
    split at hab <;> split at hab <;> omega
  · have := h.limit n
    have := hcount n
    show _ + st.pendingCount n ≤ 2
    omega

/-- A take keeps the invariant (R122, R123). -/
theorem State.StoreOk.takeSlot {s : State} (h : s.StoreOk) {i : Fin 16} {sl : Slot} (hi : s.store.slots[i] = some sl) :
    (s.takeSlot i sl).StoreOk := by
  obtain ⟨hs, hempty, hwait, hcount⟩ := (s.storeOk_iff.mp h).1.remove hi
  have key : ∀ u : State, u.store.slots = (s.store.remove i sl.rank).slots →
      u.store.waiting = s.store.waiting → u.admitWaiting.StoreOk := by
    intro u hu hw
    have hus : u.store.Sound := hs.congr hu (by rw [hw, hwait])
    unfold State.admitWaiting
    split
    · rename_i hnil
      rw [State.storeOk_iff]
      exact ⟨hus, fun hne => absurd hnil hne⟩
    · rename_i r rest hcons
      have hfull : ∀ j : Fin 16, j ≠ i → u.store.slots[j].isSome = true := by
        intro j hj
        have := h.full (by rw [← hw, hcons]; simp) j
        rw [hu]
        simp only [Store.remove, Fin.getElem_fin, Vector.getElem_ofFn, Fin.eta, hj, if_false]
        simpa using this
      split
      · unfold State.admitRecord
        split
        · rename_i hnone
          have := Store.emptySlot_none (st := u.store) hnone i
          rw [hu, hempty] at this
          simp at this
        · rename_i j hj
          have hji : j = i := by
            have hj' : u.store.slots[j] = none := Store.emptySlot_some (st := u.store) hj
            by_cases heq : j = i
            · exact heq
            · have := hfull j heq
              rw [hj'] at this
              simp at this
          subst hji
          apply State.StoreOk.raise
          have hpc (n : LineNo) : u.store.pendingCount n = rest.countP (fun x => decide (x.line = n)) +
              (if r.line = n then 1 else 0) := by
            unfold Store.pendingCount
            rw [hcons, List.countP_cons]
            by_cases hn : r.line = n <;> simp [hn]
          have hcore : Store.Sound { u.store with waiting := rest } := by
            refine ⟨hus.ranks, hus.once, fun n => ?_, fun n => ?_⟩
            · have := hus.limit n
              rw [hpc] at this
              show u.store.storedCount n + rest.countP _ ≤ 2
              omega
            · have := hus.single n
              rw [hpc] at this
              show rest.countP _ ≤ 1
              omega
          have hent : Store.Sound { u.store with
              waiting := rest, slots := u.store.slots.set j (some ⟨u.store.occupied + 1, r⟩) } := by
            refine hcore.enter (r := r) ?_ ?_
            · rw [hu]; exact hempty
            · have h2 := h.limit r.line
              have h3 := hcount r.line
              have h4 := hus.limit r.line
              rw [hpc, if_pos rfl] at h4
              show u.store.storedCount r.line + rest.countP _ < 2
              omega
          rw [State.storeOk_iff]
          refine ⟨hent.congr rfl rfl, fun _ k => ?_⟩
          show (u.store.slots.set j _)[k].isSome = true
          by_cases hk : k = j
          · subst hk; simp
          · simp [Vector.getElem_set_ne, Fin.val_ne_of_ne (Ne.symm hk)]
            simpa using hfull k hk
      · rename_i hno
        have : u.store.emptySlot = none := by simpa using hno
        have := Store.emptySlot_none this i
        rw [hu, hempty] at this
        simp at this
  unfold State.takeSlot
  dsimp only
  split
  · exact key _ rfl rfl
  · exact key _ rfl rfl

/-- Dropping a line's pending record keeps the invariant (R130). -/
theorem State.StoreOk.dropPending {s : State} (h : s.StoreOk) (n : LineNo) : (s.dropPending n).StoreOk := by
  have hs := (s.storeOk_iff.mp h).1
  have hle (m : LineNo) : (s.store.waiting.filter fun r => decide (r.line ≠ n)).countP (fun r => decide (r.line = m)) ≤
      s.store.pendingCount m := List.Sublist.countP_le List.filter_sublist
  rw [State.storeOk_iff]
  refine ⟨⟨hs.ranks, hs.once, fun m => ?_, fun m => ?_⟩, fun hw => h.full fun hnil => hw ?_⟩
  · exact Nat.le_trans (Nat.add_le_add_left (hle m) _) (hs.limit m)
  · exact Nat.le_trans (hle m) (hs.single m)
  · show s.store.waiting.filter _ = []
    rw [hnil]; rfl

end Sys2Proof.Machine
end

