-- ==== Sys2Proof/Laws/Tables.lean ====
section
/-! SUPPORT. The profiles and the windows: what the checks of PROFILE_WRITE and WINDOW_WRITE let through, and which
changes keep the invariant of both tables. -/

namespace Sys2Proof.Machine

theorem within_iff {lo hi n : Nat} : within lo hi n = true ↔ lo ≤ n ∧ n ≤ hi := by simp [within]

theorem State.TablesOk.congr {s t : State} (h : s.TablesOk) (hp : t.profiles = s.profiles)
    (hw : t.windows.table = s.windows.table) : t.TablesOk := by
  refine ⟨?_, ?_, ?_, ?_, ?_, ?_⟩ <;> first | rw [hp] | rw [hw]
  · exact h.currents
  · exact h.breaks
  · exact h.gaps
  · exact h.periods
  · exact h.patterns
  · exact h.rules

/-- What PROFILE_WRITE admits is in the ranges of R13. -/
theorem ok_of_profileArg {a : ProfileArgs} {p : Profile} (h : profileArg a = some p) : p.ok = true := by
  unfold profileArg at h
  split at h
  · split at h
    · next hok => cases h; exact hok
    · cases h
  · cases h

theorem length_of_mapM {α β : Type} {f : α → Option β} :
    ∀ {xs : List α} {ys : List β}, xs.mapM f = some ys → ys.length = xs.length
  | [], ys, h => by cases h; rfl
  | x :: xs, ys, h => by
    rw [List.mapM_cons] at h
    cases hx : f x with
    | none => simp [hx] at h
    | some y =>
      cases hr : xs.mapM f with
      | none => simp [hx, hr] at h
      | some zs =>
        simp [hx, hr] at h
        subst h
        simp [length_of_mapM hr]

/-- What WINDOW_WRITE admits has a pattern of 1 to 8 positions and a FIXED rule from its length to 24 (R100). -/
theorem window_of_windowArg {a : WindowArgs} {w : Window} (h : windowArg a = some w) :
    1 ≤ w.pattern.length ∧ w.pattern.length ≤ 8 ∧ ∀ n, w.rule = .fixed n → w.pattern.length ≤ n ∧ n ≤ 24 := by
  unfold windowArg at h
  split at h
  · next en pat rule cls urgent repl _ hpat hrule _ _ _ =>
    cases h
    unfold patternArg at hpat
    split at hpat
    · next hin =>
      have hk := within_iff.mp hin
      have hlen : pat.length = a.patternLen.toNat := by
        rw [length_of_mapM hpat, List.length_take, Vector.length_toList]
        omega
      refine ⟨show 1 ≤ pat.length by omega, show pat.length ≤ 8 by omega, fun n hn => ?_⟩
      unfold ruleArg at hrule
      split at hrule
      · split at hrule
        · next hr =>
          have := within_iff.mp hr
          cases hrule
          simp only [WindowRule.fixed.injEq] at hn
          simp only [Config.maxDigits] at this
          show pat.length ≤ n ∧ n ≤ 24
          omega
        · cases hrule
      · split at hrule
        · cases hrule; cases hn
        · cases hrule
    · cases hpat
  · cases h

/-- A write of one profile that PROFILE_WRITE admits (R14). -/
theorem State.TablesOk.setProfile {s : State} (h : s.TablesOk) (f : Fin 8) {p : Profile} (hp : p.ok = true) :
    State.TablesOk { s with profiles := s.profiles.set f p } := by
  simp only [Profile.ok, Bool.and_eq_true, decide_eq_true_eq, within_iff] at hp
  have pick (Q : Profile → Prop) (hq : Q p) (hs : ∀ g : Fin 8, Q s.profiles[g]) (g : Fin 8) :
      Q (s.profiles.set f p)[g] := by
    by_cases hg : f = g
    · subst hg; simpa using hq
    · have : (s.profiles.set f p)[g] = s.profiles[g] := Vector.getElem_set_ne _ _ (by omega)
      rw [this]
      exact hs g
  exact ⟨pick (fun x => 2 ≤ x.releaseMa ∧ x.releaseMa + 2 ≤ x.seizeMa) (by omega) h.currents,
    pick (fun x => x.brkMinMs + 10 ≤ x.brkMaxMs ∧ x.brkMaxMs + 10 ≤ x.flashMinMs ∧ x.flashMinMs ≤ x.flashMaxMs)
      (by omega) h.breaks,
    pick (fun x => x.gapLoMs ≤ x.gapMs ∧ x.gapMs ≤ x.gapHiMs) (by omega) h.gaps,
    pick (fun x => x.periodLoMs ≤ x.periodHiMs ∧ 4 * x.periodHiMs ≤ x.learnSpanMs) (by omega) h.periods,
    h.patterns, h.rules⟩

/-- A write of one window that WINDOW_WRITE admits (R100). -/
theorem State.TablesOk.setWindow {s : State} (h : s.TablesOk) (i : Fin 8) {w : Window}
    (hw : 1 ≤ w.pattern.length ∧ w.pattern.length ≤ 8 ∧ ∀ n, w.rule = .fixed n → w.pattern.length ≤ n ∧ n ≤ 24) :
    State.TablesOk { s with windows := { s.windows with table := s.windows.table.set i w } } := by
  have pick (Q : Window → Prop) (hq : Q w) (hs : ∀ j : Fin 8, Q s.windows.table[j]) (j : Fin 8) :
      Q (s.windows.table.set i w)[j] := by
    by_cases hj : i = j
    · subst hj; simpa using hq
    · have : (s.windows.table.set i w)[j] = s.windows.table[j] := Vector.getElem_set_ne _ _ (by omega)
      rw [this]
      exact hs j
  exact ⟨h.currents, h.breaks, h.gaps, h.periods,
    pick (fun x => 1 ≤ x.pattern.length ∧ x.pattern.length ≤ 8) ⟨hw.1, hw.2.1⟩ h.patterns,
    pick (fun x => ∀ n, x.rule = .fixed n → x.pattern.length ≤ n ∧ n ≤ 24) hw.2.2 h.rules⟩

end Sys2Proof.Machine
end

