-- ==== Sys2Proof/Tests/Slice0.lean ====
section
/-! SUPPORT. The model's own tests: ill-formed commands refused, values written out in the manual, one step
on small states, and for every statement with hypotheses a state and operands that meet them. -/

set_option Elab.async false

namespace Sys2Proof.Tests

open Sys2Proof.Machine

/-! ### Small states -/

/-- The profile of the manual's examples. -/
def prof : Profile := .default

/-- Line 5 in a state, as after reset otherwise. -/
def ln (st : LineState) : Line := { Line.initial 5 with state := st }

/-- Line 5 off-hook or seizing, with its snapshot. -/
def call (st : LineState) : Line := { ln st with snapshot := some prof }

/-- Line 5 in OPEN since 1000 ms with a return state. -/
def broken (rs : OffHook) : Line :=
  { call .opened with returnState := some rs, breakTime := some 1000, breakTimer := some 1610 }

/-- A collection with some digits. -/
def coll (ds : List Digit) : Collection := ⟨500, ds, none, .none, none⟩

/-- The digit 7 dialled by pulses. -/
def seven : Digit := ⟨7, .pulse⟩

/-- The part at 2000 ms with line 5 in a context. -/
def part (l : Line) : State := { State.reset.setLine 5 l with now := 2000 }

/-- A profile with one change, held as line 5's snapshot. -/
def under (p : Profile) (l : Line) : State := part { l with snapshot := some p }

/-- A dial record of a line. -/
def dialled (n : LineNo) (urgent : Bool) : DialRecord :=
  ⟨n, 5, 100, 200, .timeout, .default, 0, urgent, [seven], none, none, .none, none, false⟩

/-- A store whose sixteen slots hold two records of each of L00 to L07, slot by slot in rank order, with no
record urgent. -/
def fullStore : Store :=
  { Store.initial with slots := Vector.ofFn fun i => some ⟨i.val + 1, dialled ⟨i.val / 2, by omega⟩ false⟩ }

/-- The part with a store. -/
def stored (st : Store) : State := { State.reset with store := st }

/-- The store holds one record in S03, of L05. -/
def oneRecord (urgent : Bool) : Store := { Store.initial with slots := Store.initial.slots.set 3 (some ⟨1, dialled 5 urgent⟩) }

/-- The part at 2000 ms with a fault record for P05. -/
def pairIs (r : FaultRec) : State := { State.reset.setFault 5 r with now := 2000 }

/-- A fault record in a state with two scores. -/
def fr (st : PairState) (foreign leak : Nat) : FaultRec := ⟨foreign, leak, st, false, none, none, none⟩

/-- A test of P05 on the bus, asked for by the controller with tag 9. -/
def run : Run := ⟨5, .full, .controller 9, .default, 1, .reading, 0, 0, [], none, none, some 2000, some 4⟩

/-- The part at 2000 ms with a test on the bus. -/
def testing (r : Run) : State := { State.reset.setRun (some r) with now := 2000 }

/-- A test queue of sixteen entries, P00 to P15. -/
def sixteen : List TestEntry := (List.finRange 16).map fun i => ⟨⟨i.val, by omega⟩, .full, .watch⟩

/-- A frame in flight that is no reply to a reset. -/
def frame : Frame := ⟨0x86, 1, [0]⟩

/-- The part with its transmitter busy. -/
def busy : State := State.reset.transmit frame

/-- Four replies wait. -/
def crowded : State := { busy with link := { busy.link with replies := [frame, frame, frame, frame] } }

/-- The state a command leaves. -/
def after (c : Instr) (s : State) : State :=
  match exec c s with
  | .next t => t
  | _ => s

/-! ### Ill-formed commands are refused -/

theorem test_refuses_sample_of_pair_72 : (Instr.sampleReply ⟨72, .good, 0, 0, 0, 0⟩).wellFormed = false := by decide

theorem test_refuses_incomplete_bad_frame : (Instr.badFrame [0x02, 0x1C]).wellFormed = false := by decide

theorem test_refuses_long_payload : (Instr.goodFrame 1 0 (List.replicate 251 0)).wellFormed = false := by
  decide +kernel

theorem test_refuses_request_that_names_one :
    (Instr.unknownRequest 0x1D 0 []).wellFormed = false ∧ (Instr.unknownRequest 0x40 0 []).wellFormed = false ∧
    (Instr.unknownRequest 0x1E 0 (List.replicate 251 0)).wellFormed = false := by decide +kernel

/-- A window of one position. -/
def window : WindowArgs := ⟨1, 1, .replicate 8 16, 1, 0, 3, 0, 0, 0, .replicate 8 0⟩

theorem test_refuses_window_code_8 : (Instr.windowWrite 0 (.window 8 window)).wellFormed = false := by decide

theorem test_accepts_commands :
    (Instr.badFrame [0x01]).wellFormed = true ∧ (Instr.windowWrite 0 (.window 7 window)).wellFormed = true ∧
    (Instr.unknownRequest 0x3F 0 []).wellFormed = true ∧ (Instr.pass).wellFormed = true := by decide

/-! ### Values from the manual -/

/-- The check value of this CRC over the nine characters 1 to 9. -/
theorem test_crc : crc [0x31, 0x32, 0x33, 0x34, 0x35, 0x36, 0x37, 0x38, 0x39] = 0x29B1 := by decide +kernel

/-- IDENTIFY with tag 7 on the link: mark, length 2, type, tag and the CRC. -/
theorem test_identify_frame : scanChars (0xC3 :: [0x02, 0x1C, 0x07] ++ crcBytes [0x02, 0x1C, 0x07]) =
    ([], [⟨0x1C, 0x07, []⟩]) := by decide +kernel

/-- A mark inside a false start is found again. -/
theorem test_frame_behind_a_false_start : scanChars (0xC3 :: 0xFF :: (Frame.mk 0x1C 7 []).bytes) =
    ([], [⟨0x1C, 7, []⟩]) := by decide +kernel

theorem test_payload_lengths :
    (Request.profileWrite 0 ⟨0, 0, 0, 0, 0, 0, 0, 0, 0, 0, 0, 0, 0, 0, 0, 0, 0, 0, 0⟩).payload.length = 30 ∧
    (Request.windowWrite (.window 0 window)).payload.length = 25 ∧
    (Request.watchSet ⟨0, 0, 0, 0, 0, 0, 0⟩).payload.length = 22 ∧ (Request.testSet ⟨0, 0, 0, 0, 0⟩).payload.length = 8 ∧
    (Request.faultLimits 0 0 0).payload.length = 11 ∧ (Request.noticeEnable 0 0).payload.length = 20 ∧
    (Request.lineEnable 0).payload.length = 8 := by decide +kernel

/-- Item i of a set is bit (i mod 8) of byte (i div 8). -/
theorem test_set_bytes : setBytes 8 (1 <<< 12) = [0, 0x10, 0, 0, 0, 0, 0, 0] := by decide

/-- The learned gap of the worked example of chapter 4: a period of 110 ms gives 330 ms. -/
theorem test_learned_gap : learnedGap prof 110 = 330 ∧ learnedGap prof 80 = 250 ∧ learnedGap { prof with gapHiMs := 300 } 140 = 300 := by
  decide

/-- The bodies of chapter 11 have the lengths its table gives. -/
theorem test_body_lengths :
    (State.reset.body ⟨5, .hook, some 1, some 0⟩).length = 7 ∧ (State.reset.body ⟨5, .flash, some 1, some 0⟩).length = 6 ∧
    (State.reset.body ⟨5, .record, none, none⟩).length = 3 ∧ (State.reset.body ⟨5, .overrun, some 1, some 0⟩).length = 7 ∧
    (State.reset.body ⟨5, .loopHeld, some 1, some 0⟩).length = 7 ∧ (State.reset.body ⟨69, .fault, none, none⟩).length = 13 ∧
    (State.reset.body ⟨136, .binder, some 1, none⟩).length = 4 ∧
    (State.reset.body ⟨69, .testDone, some 1, none⟩).length = 19 := by decide +kernel

/-! ### One step -/

/-- Line 5 is seized at 10060 and raises HOOK with the time of its make (section 3.10). -/
theorem test_seizure :
    let s := { part { call .seizing with seizeTimer := some 10060, seizeFrom := some 10000 } with now := 10060 }
    let l := (after (.seizeExpiry 5) s).line 5
    l.state = .seized ∧ l.firstDigitTimer = some 25060 ∧ l.binding = .detector 0 ∧ l.learning = some .armed := by
  decide +kernel

/-- A break of 300 ms is a flash: the collection closes and another opens (section 3.10). -/
theorem test_flash :
    let l := { call .opened with returnState := some .collecting, breakTime := some 12000, breakTimer := some 12610,
                                 collectTimer := some 16400, collection := some (coll [⟨5, .tone⟩, ⟨2, .tone⟩]) }
    let t := { part l with now := 12310 }.loopMade 5 12300
    (t.line 5).state = .seized ∧ (t.line 5).firstDigitTimer = some 27300 ∧ (t.line 5).collectTimer = none ∧
      t.store.storedCount 5 = 1 := by decide +kernel

/-- The fifth onset of the worked example of chapter 4 learns 110 ms. -/
theorem test_fifth_onset :
    let l := { broken .pulsing with learning := some (.measuring 30000 4), learnTimer := some 30600,
                                    pulseCount := some 4, breakTime := some 30440, collection := some (coll []) }
    let t := ({ part l with now := 30520 }.loopMade 5 30510).line 5
    t.state = .pulsing ∧ t.pulseCount = some 5 ∧ t.learning = some (.done 110) ∧ t.gapTimer = some 30850 ∧
      t.learnTimer = none := by decide +kernel

/-- RECORD_TAKE from a store full to its last slot admits the waiting record with rank 16 (section 7.7). -/
theorem test_take_admits :
    let st := { fullStore with waiting := [dialled 40 false], storeWait := fullStore.storeWait.set 40 true }
    let t := after (.recordTake 1 0 0) (stored st)
    (t.store.slots[(0 : Fin 16)].map (·.rank)) = some 16 ∧ (t.store.slots[(1 : Fin 16)].map (·.rank)) = some 1 ∧
      t.store.storeWait[(40 : Fin 64)] = false ∧ t.store.waiting.length = 0 := by decide +kernel

/-- A reading of 1 kΩ across the pair ends the test as a subscriber's (section 9.9). -/
theorem test_subscriber :
    let t := after (.reading ⟨4, 880, 55, 1, 2⟩) (testing run)
    t.bus.run.isNone ∧ (t.bus.results[(5 : Fin 72)].map (·.outcome)) = some (.aborted .subscriber) := by decide +kernel

/-! ### Hypotheses met: steps, resets, expiries -/

/-- The part before its second pass: nothing is due. -/
def waiting : State := { State.reset with scan := { Scan.initial with nextPass := 5, passBegun := true } }

theorem test_StepRunsTheFrontCommand : ({ State.reset with pending := [.pass] } : State).pending = .pass :: [] := rfl

theorem test_EmptyQueueTakesADueEvent :
    (waiting.pending = [] ∧ waiting.dueEvents = []) ∧ State.reset.pending = [] ∧ State.reset.dueEvents ≠ [] := by
  decide +kernel

theorem test_EveryResetEmptiesTheStore :
    let f : Frame := ⟨0x9D, 0, [0]⟩
    let s := (stored fullStore).transmit f
    s.link.inFlight = some f ∧ (∃ t, exec .frameSent s = .next t) ∧ (∃ t, exec (.powerOnReset true false) s = .next t) ∧
      ∃ t, exec (.resetPin false true) s = .next t := ⟨rfl, ⟨_, rfl⟩, ⟨_, rfl⟩, _, rfl⟩

/-- A timer that expires in the next millisecond is not due, and one that expires now is. -/
theorem test_ExpiryNeedsADueTimer :
    later 2001 2000 = true ∧ later 2000 2000 = false ∧ later waiting.scan.nextPass waiting.now = true ∧
    (part (ln .idle)).bus.quietTimer = none ∧ later (0x80000000 - 1) 0 = true ∧ later 0x80000000 0 = false := by decide

theorem test_FinishTouchesOnlyBusAndLink :
    let s := (testing run).transmit frame
    let e : TestEntry := ⟨5, .full, .watch⟩
    let u := (part (ln .faulted)).setTestQueue [e]
    (s.bus.run.isSome = true ∧ s.link.inFlight.isSome = true) ∧
    (u.bus.run = none ∧ u.bus.queue.find? u.eligible = some e ∧ u.served 5 = some 5 ∧ u.finish.line 5 ≠ u.line 5) ∧
    State.reset.bus.queue.find? State.reset.eligible = none := by decide +kernel

/-! ### Hypotheses met: scanning -/

/-- An economy scan at the start of a pass, after the first. -/
def economy : State :=
  { State.reset with scan := { Scan.initial with mode := .economy, passMode := .economy, passBegun := true } }

theorem test_PassAsksTheIncludedPairs :
    (later State.reset.scan.nextPass State.reset.now = false ∧ State.reset.scan.outstanding[(71 : Fin 72)] = none) ∧
    (∀ p : PairNo, State.reset.scan.outstanding[p] = none) ∧ State.reset.scan.mode = .full ∧
    economy.scan.mode ≠ .full ∧ (economy.scan.phase + 1).val = (65 : PairNo).val % 8 ∧
    (economy.scan.phase + 1).val ≠ (64 : PairNo).val % 8 ∧ economy.served 64 = none := by decide +kernel

/-- An economy pass in phase 1 asks pairs 1, 9, 17 and so on, in that order. -/
theorem test_requests_ascend :
    economy.beginPass.scan.sent = [1, 9, 17, 25, 33, 41, 49, 57, 65].map SensePortMsg.request := by decide +kernel

/-- P05 has been asked for at 1995 and has a scan record. -/
def asked (s : State) (r : ScanRec) : State := (s.setScanRec 5 r).setOutstanding 5 (some 1995)

/-- A scan record with an invalid run. -/
def silent (k : Nat) : ScanRec := ⟨some .loop, some .loop, none, k⟩

/-- The sixteenth unanswered request passes a fault to the served line and raises FAULT. -/
theorem test_sense_lost_in_a_pass :
    let u := ((asked State.reset (silent 15)).setLine 5 (ln .idle)).beginPass
    (u.fault 5).senseLost = true ∧ (u.line 5).state = .faulted ∧ u.scanRec 5 = ⟨none, none, none, 16⟩ ∧
      u.notices.entries.map (fun e => (e.pos, e.kind)) = [((Source.pair 5).pos, .fault)] := by decide +kernel

theorem test_UnansweredRequestIsInvalid :
    let s (k : Nat) := asked State.reset (silent k)
    (∀ k : Fin 17, later (s k).scan.nextPass (s k).now = false ∧ (s k).scan.outstanding[(5 : Fin 72)] = some 1995 ∧
      (s k).onBus 5 = false) ∧
    ((s 14).scanRec 5).invalidRun < 15 ∧ ((s 15).scanRec 5).invalidRun = 15 ∧ 16 ≤ ((s 16).scanRec 5).invalidRun ∧
    (asked (testing run) (silent 0)).onBus 5 = true := by decide +kernel

theorem test_SampleReplyIsTaken :
    let s (k : Nat) := asked State.reset (silent k)
    let v := (s 16).setScanRec 5 { (s 16).scanRec 5 with invalidRun := 0 }
    ((s 0).scan.outstanding[(6 : Fin 72)] = none ∧ (s 0).scan.outstanding[(5 : Fin 72)] = some 1995) ∧
    (asked (testing run) (silent 0)).onBus 5 = true ∧ (s 14).onBus 5 = false ∧
    sampleValid ⟨5, .good, 120, 200, -200, 50⟩ = true ∧ sampleValid ⟨5, .good, 121, 0, 0, 0⟩ = false ∧
    sampleValid ⟨5, .saturated, 0, 0, 0, 0⟩ = false ∧ sampleValid ⟨5, .good, 0, -201, 0, 0⟩ = false ∧
    ((s 14).fault 5).senseLost = false ∧ ((v.senseRegained 5).fault 5).senseLost = false ∧
    (((s 0).setFault 5 { (s 0).fault 5 with senseLost := true }).fault 5).senseLost = true ∧
    (part (ln .idle)).served 5 = some 5 ∧ State.reset.served 71 = none := by decide +kernel

theorem test_SampleClassFromCurrent :
    let s := part (ln .idle)
    (s.profileOf 5).releaseMa < (s.profileOf 5).seizeMa ∧ ((s.profileOf 5).seizeMa : Int) ≤ 12 ∧
    (7 : Int) ≤ (s.profileOf 5).releaseMa ∧ ((s.profileOf 5).releaseMa : Int) < 8 ∧ (11 : Int) < (s.profileOf 5).seizeMa ∧
    (s.scanRec 5).sampleClass = none ∧ ((s.setScanRec 5 (silent 0)).scanRec 5).sampleClass = some .loop := by
  decide +kernel

/-- A sample of 12 mA on an idle line's pair qualifies after glitch + 1 samples and delivers loop made. -/
theorem test_sample_delivers_loop_made :
    let s (k : Nat) := (part (ln .idle)).setScanRec 5 ⟨some .opened, none, some ⟨.loop, k, 1990⟩, 0⟩
    (((s 2).judgeLoop 5 5 12 2000).line 5).state = .seizing ∧
      (((s 2).judgeLoop 5 5 12 2000).line 5).seizeFrom = some 1990 ∧
      (((s 1).judgeLoop 5 5 12 2000).line 5).state = .idle := by decide +kernel

theorem test_GlitchFilterQualifies :
    let s (r : ScanRec) := (part (ln .idle)).setScanRec 5 r
    let wake := economy.setLine 5 (ln .idle)
    (wake.scan.passMode = .economy ∧ (wake.line 5).state = .idle ∧ (wake.scanRec 5).loopClass ≠ some .loop) ∧
    ((s ⟨some .loop, none, none, 0⟩).scanRec 5).loopClass = some .loop ∧
    ((s ⟨none, none, none, 0⟩).scanRec 5).loopClass = none ∧
    ((s ⟨some .opened, none, some ⟨.loop, 1, 0⟩, 0⟩).scanRec 5).run = some ⟨.loop, 1, 0⟩ ∧
    1 + 1 < ((s ⟨some .opened, none, none, 0⟩).profileOf 5).glitch + 1 ∧
    ((s ⟨some .opened, none, none, 0⟩).profileOf 5).glitch + 1 ≤ 2 + 1 ∧
    (s ⟨none, none, none, 0⟩).scan.passMode ≠ .economy := by decide +kernel

/-! ### Hypotheses met: hook supervision -/

theorem test_TransitionsAtTheLine :
    ((part (ln .idle)).line 5).state = .idle ∧ ((part (call .seizing)).line 5).state = .seizing ∧
    ((part (call .held)).line 5).state = OffHook.held.toState ∧ ((part (call .held)).line 5).snapshot = some prof ∧
    ((part (ln .idle)).line 5).snapshot = none ∧
    (((part (ln .settling)).line 5).state ≠ .idle ∧ ((part (ln .settling)).line 5).state ≠ .opened) ∧
    (∀ ph : OffHook, ((part (ln .settling)).line 5).state ≠ ph.toState) :=
  ⟨by decide +kernel, by decide +kernel, by decide +kernel, by decide +kernel, by decide +kernel, by decide +kernel,
    fun ph => by cases ph <;> decide +kernel⟩

/-- A break of each length class from each return state, at its bounds. -/
theorem test_breaks :
    (∀ rs ∈ [OffHook.seized, .pulsing, .collecting, .held],
      ((part (broken rs)).line 5).state = .opened ∧ ((part (broken rs)).line 5).returnState = some rs ∧
      ((part (broken rs)).line 5).breakTime = some 1000) ∧
    (let p := (part (broken .seized)).profileOf 5
     (1019 - 1000 : Time).toNat < p.brkMinMs ∧
     (p.brkMinMs ≤ (1020 - 1000 : Time).toNat ∧ (1100 - 1000 : Time).toNat ≤ p.brkMaxMs) ∧
     (p.brkMinMs ≤ p.brkMaxMs ∧ p.brkMaxMs < (1101 - 1000 : Time).toNat ∧ (1149 - 1000 : Time).toNat < p.flashMinMs) ∧
     (p.brkMaxMs < p.flashMinMs ∧ p.flashMinMs ≤ (1150 - 1000 : Time).toNat) ∧ p.methods ≠ .tone ∧ p.methods ≠ .pulse) ∧
    (under { prof with methods := .tone } (broken .seized)).profileOf 5 = { prof with methods := .tone } ∧
    (under { prof with methods := .pulse } (broken .held)).profileOf 5 = { prof with methods := .pulse } := by
  decide +kernel

theorem test_FlashIsHandled :
    let dialling (ds : List Digit) := { broken .pulsing with collection := some (coll ds), pulseCount := some 2 }
    (part (broken .held)).barred 5 = false ∧ ((part (broken .held)).setOverrun 5 true).barred 5 = true ∧
    ((part (dialling [])).line 5).hasDigit = false ∧ ((part (dialling [seven])).line 5).hasDigit = true := by
  decide +kernel

theorem test_RateLearningMeasuresTheDial :
    later (1000 + BitVec.ofNat 32 prof.learnSpanMs) 1599 = true ∧
    later (1000 + BitVec.ofNat 32 prof.learnSpanMs) 1600 = false ∧
    (∀ x ∈ [Learning.armed, .measuring 1000 3, .measuring 1000 4, .overflowed 1000 4, .done 100, .failed],
      ({ broken .pulsing with learning := some x } : Line).learning = some x) ∧
    (prof.periodLoMs ≤ (1320 - 1000 : Time).toNat / 4 ∧ (1563 - 1000 : Time).toNat / 4 ≤ prof.periodHiMs) ∧
    (1319 - 1000 : Time).toNat / 4 < prof.periodLoMs ∧ prof.periodHiMs < (1564 - 1000 : Time).toNat / 4 := by
  decide +kernel

theorem test_SettleAndSeizeExpire :
    let s := part { ln .settling with settleTimer := some 2000 }
    let z := part { call .seizing with seizeTimer := some 2000, seizeFrom := some 1940 }
    ((s.line 5).state = .settling ∧ (s.line 5).settleTimer = some 2000 ∧ later 2000 s.now = false) ∧
    (s.fault 5).state ≠ .confirmed ∧ (s.fault 5).senseLost = false ∧ (s.scanRec 5).loopClass ≠ some .loop ∧
    ((s.setScanRec 5 (silent 0)).scanRec 5).loopClass = some .loop ∧
    ((s.setFault 5 (fr .recheck 0 0)).fault 5).state = .recheck ∧
    ((z.line 5).state = .seizing ∧ (z.line 5).seizeTimer = some 2000 ∧ (z.line 5).seizeFrom = some 1940) ∧
    (z.store.overrun[(5 : Fin 64)] = false ∧ z.store.storeWait[(5 : Fin 64)] = false) ∧
    (z.setStoreWait 5 true).store.storeWait[(5 : Fin 64)] = true ∧ (s.liveProfile 5).settleMs ≠ 0 ∧
    ({ s with profiles := s.profiles.set 0 { prof with settleMs := 0 } }.liveProfile 5).settleMs = 0 := by decide +kernel

theorem test_DiallingTimersExpire :
    let f := part { broken .seized with firstDigitTimer := some 2000, collection := some (coll []) }
    let c := part { broken .pulsing with collectTimer := some 2000, collection := some (coll [seven]) }
    let m := part { call .pulsing with learnTimer := some 2000, learning := some (.measuring 1400 3) }
    ((f.line 5).firstDigitTimer = some 2000 ∧ later 2000 f.now = false ∧ (f.line 5).state = .opened ∧
      (f.line 5).returnState = some .seized ∧ ((part (call .seized)).line 5).state = .seized) ∧
    ((c.line 5).collectTimer = some 2000 ∧ (c.line 5).returnState = some .pulsing ∧
      ((part (call .collecting)).line 5).state = OffHook.collecting.toState) ∧
    (m.line 5).learnTimer = some 2000 ∧ (m.line 5).learning = some (.measuring 1400 3) := by decide +kernel

theorem test_ReleaseEndsTheCall :
    let s := { part (broken .collecting) with now := 1610 }
    (s.line 5).state = .opened ∧ (s.line 5).breakTimer = some 1610 ∧ (s.line 5).breakTime = some 1000 ∧
      later 1610 s.now = false := by decide +kernel

theorem test_FaultReachesTheLine :
    (∀ st ∈ [LineState.settling, .seizing, .idle, .faulted, .underTest, .disabled],
      ((part (ln st)).line 5).state = st) ∧
    (∀ st ∈ [LineState.seized, .pulsing, .collecting, .held], ((part (call st)).line 5).state = st) ∧
    (∀ rs ∈ [OffHook.seized, .pulsing, .collecting, .held],
      ((part (broken rs)).line 5).state = .opened ∧ ((part (broken rs)).line 5).returnState = some rs) ∧
    ((part (call .held)).line 5).hasDigit = false ∧
    ((part { call .collecting with collection := some (coll [seven]) }).line 5).hasDigit = true := by decide +kernel

/-- A fault while L05 dials its second digit: the digit 7 is stored with cause RELEASE and the mark MUTILATED. -/
theorem test_fault_releases :
    let t := (part { broken .pulsing with collection := some (coll [seven]), pulseCount := some 2 }).faultLine 5
    (t.line 5).state = .faulted ∧ (t.line 5).breakTimer = none ∧
    (t.store.slots[(0 : Fin 16)].map fun s => (s.record.cause, s.record.marks.mutilated, s.record.closeTime)) =
      some (.release, true, 2000) ∧
    t.notices.entries.map (fun e => (e.pos, e.kind, e.time)) = [(5, .hook, some 2000), (5, .record, none)] := by
  decide +kernel

theorem test_GapExpiryCompletesTheDigit :
    let g (k : Nat) := part { call .pulsing with gapTimer := some 2000, pulseCount := some k, collection := some (coll []) }
    (∀ k ∈ [1, 10, 11, 255], ((g k).line 5).gapTimer = some 2000 ∧ later 2000 (g k).now = false ∧
      ((g k).line 5).pulseCount = some k ∧ ((g k).line 5).state = .pulsing) ∧
    (0 : Symbol).val = 10 % 10 ∧ ((part (broken .pulsing)).line 5).returnState = some .pulsing ∧
    ((part (call .pulsing)).line 5).collection = none ∧ ((g 1).line 5).collection = some (coll []) ∧
    ((part { call .pulsing with collection := some (coll [seven]) }).line 5).collection = some (coll [seven]) := by
  decide +kernel

/-! ### Hypotheses met: tones, detectors, windows, digits -/

/-- D0 is bound to line 5 since a time. -/
def heardBy (l : Line) (t : Time) : State := (part { l with binding := .detector 0 }).setDetector 0 ⟨true, some ⟨5, t, 5⟩⟩

theorem test_ToneReportsAreTaken :
    (State.reset.detector 7).bound = none ∧ ((State.reset.setDetector 7 ⟨false, none⟩).detector 7).inService = false ∧
    (∀ st ∈ [LineState.seized, .collecting, .pulsing, .opened], ((heardBy (call st) 1980).line 5).state = st) ∧
    ((heardBy (call .seized) 1980).detector 0).bound = some ⟨5, 1980, 5⟩ ∧
    20 ≤ ((heardBy (call .seized) 1980).now - 1980).toNat ∧ ((heardBy (call .seized) 1981).now - 1981).toNat < 20 := by
  decide +kernel

/-- Every detector is out of service. -/
def silentPool : State := { State.reset with pool := ⟨.replicate 8 ⟨false, none⟩, []⟩ }

theorem test_DetectorsAreGivenAndReleased :
    let h := heardBy (call .seized) 1000
    let q := h.setDetectorQueue [⟨6, 1500⟩]
    ((State.reset.line 5).binding = .none ∧ (State.reset.detector 0).inService = true ∧
      (State.reset.detector 0).bound = none ∧ ∀ d : DetectorNo, ¬d < 0) ∧
    (∀ d : DetectorNo, ¬((silentPool.detector d).inService = true ∧ (silentPool.detector d).bound = none)) ∧
    ((h.line 5).binding = .detector 0 ∧ (h.detector 0).inService = true ∧ h.pool.queue = [] ∧
      (h.line 5).binding ≠ .none) ∧
    q.pool.queue = ⟨6, 1500⟩ :: [] ∧ ((part { call .seized with binding := .queued }).line 5).binding = .queued := by
  decide +kernel

/-- A table of W0 with pattern 1 2 3, FIXED 3, and W1 with pattern 1 ANY, FIXED 6 (section 6.6). -/
def table : WindowTable :=
  ⟨(WindowTable.initial.table.set 0 ⟨true, [some 1, some 2, some 3], .fixed 3, 2, false, none⟩).set 1
    ⟨true, [some 1, none], .fixed 6, 5, false, some [0, 4]⟩, 0⟩

/-- Tone digits. -/
def tones (xs : List Symbol) : List Digit := xs.map fun x => ⟨x, .tone⟩

theorem test_WindowIsJudged :
    judge [some 1, some 2, some 3] (tones [1, 2]) = .partialFit ∧ judge [some 1, none] (tones [1, 2]) = .hit ∧
    judge [some 1, some 2, some 3] (tones [1, 2, 4]) = .fail ∧
    (table.table[(7 : Fin 8)].enabled = false ∧ Window.initial.enabled = false) ∧ (tones (.replicate 8 1)).length = 8 := by
  decide +kernel

theorem test_LowestWindowDecides :
    let c := coll (tones [1, 2])
    (c.accept table ⟨4, .tone⟩).bound = some ⟨some 1, 2, .fixed 6, 5, false, some [0, 4]⟩ ∧ c.bound = none ∧
    (table.table[(1 : Fin 8)].enabled = true ∧
      ∀ j : Fin 8, j < 1 → table.table[j].enabled = true → judge table.table[j].pattern (c.digits ++ [⟨4, .tone⟩]) = .fail) ∧
    ((coll (tones [1])).accept table ⟨2, .tone⟩).bound = none ∧
    (∀ i : Fin 8, table.table[i].enabled = true → judge table.table[i].pattern (tones [5]) = .fail) ∧
    (∀ i : Fin 8, table.table[i].pattern.length ≤ 8) ∧ (tones (.replicate 7 1)).length = 7 := by decide +kernel

theorem test_DigitIsAccepted :
    let s (b : Option WindowSnap) (k : Nat) := part { call .collecting with collection := some { coll (.replicate k seven) with bound := b } }
    let w (r : WindowRule) : WindowSnap := ⟨some 1, 2, r, 5, false, none⟩
    (∀ k ∈ [0, 5, 22, 23], ((s (some (w (.fixed 6))) k).line 5).collection.isSome = true) ∧
    lengthReached (some (w (.fixed 6))) 6 = true ∧ lengthReached (some (w (.fixed 6))) 5 = false ∧
    lengthReached (some (w .openEnd)) 24 = false ∧ (List.replicate 23 seven ++ [seven]).length = 24 := by decide +kernel

theorem test_ClosureBuildsTheRecord : ((part { call .collecting with collection := some (coll [seven]) }).line 5).collection = some (coll [seven]) := by
  decide +kernel

/-! ### Hypotheses met: the dial record store -/

theorem test_ClosureArrivalIsPlaced :
    2 ≤ fullStore.storedCount 7 ∧ fullStore.storedCount 8 = 0 ∧ (∀ i : Fin 16, fullStore.slots[i].isSome = true) ∧
    (∃ x ∈ [dialled 40 false], x.line = 40) ∧ (Store.initial.waiting = [] ∧ Store.initial.storedCount 8 = 0 ∧
      Store.initial.slots[(0 : Fin 16)] = none ∧ ∀ j : Fin 16, ¬j < 0) ∧
    ((oneRecord false).slots[(4 : Fin 16)] = none ∧ (oneRecord false).storedCount 5 = 1) := by decide +kernel

/-- The slots of a store, with the ranks of its records in order. -/
theorem storeOk_fullStore : (stored fullStore).StoreOk where
  ranks := by decide +kernel
  once := by
    have h : ∀ i : Fin 16, fullStore.slots[i].map (·.rank) = some (i.val + 1) := by decide +kernel
    intro i j a b ha hb hr
    have hi := h i
    have hj := h j
    rw [show fullStore.slots[i] = some a from ha] at hi
    rw [show fullStore.slots[j] = some b from hb] at hj
    simp only [Option.map_some, Option.some.injEq] at hi hj
    exact Fin.ext (by omega)
  full := fun h => absurd rfl h
  limit := by decide +kernel
  single := by decide +kernel

theorem test_SelectorChoosesTheLowestRank :
    (stored fullStore).StoreOk ∧ fullStore.choose .oldest = some 0 ∧ fullStore.choose (.line 7) = some 14 ∧
    fullStore.choose (.line 8) = none ∧ fullStore.choose .urgentFirst = some 0 ∧
    (∃ sl, (oneRecord true).slots[(3 : Fin 16)] = some sl ∧ sl.record.urgent = true) :=
  ⟨storeOk_fullStore, by decide +kernel, by decide +kernel, by decide +kernel, by decide +kernel, ⟨1, dialled 5 true⟩,
    by decide +kernel⟩

/-- A part that answers requests at once. -/
theorem ready_stored (st : Store) : (stored st).ready := ⟨rfl, by show 0 < 4; decide, rfl, rfl⟩

theorem ready_reset : State.reset.ready := ⟨rfl, by decide, rfl, rfl⟩

theorem test_RecordTakeReturnsTheRecord :
    (stored fullStore).ready ∧ (2 < (3 : Byte).toNat ∧ 64 ≤ (64 : Byte).toNat ∧ (63 : LineNo).val = (63 : Byte).toNat) ∧
    (stored Store.initial).store.choose .oldest = none ∧
    (stored (oneRecord true)).store.choose .urgentFirst = some 3 ∧
    (stored (oneRecord true)).store.slots[(3 : Fin 16)] = some ⟨1, dialled 5 true⟩ :=
  ⟨ready_stored _, by decide +kernel⟩

theorem test_TakeFreesTheSlotAndAdmits :
    (stored fullStore).StoreOk ∧ (∃ sl, (stored fullStore).store.slots[(0 : Fin 16)] = some sl) ∧
    (stored fullStore).store.waiting = [] ∧ ((stored fullStore).liveProfile 0).recordMode = .single ∧
    ({ stored fullStore with profiles := State.reset.profiles.set 0 { prof with recordMode := .continuous } }.liveProfile
      0).recordMode = .continuous := by
  refine ⟨storeOk_fullStore, ⟨⟨1, dialled 0 false⟩, by decide +kernel⟩, rfl, by decide +kernel, by decide +kernel⟩

/-- A full store with one record waiting. -/
theorem test_TakeFreesTheSlotAndAdmits_waiting :
    let st := { fullStore with waiting := [dialled 40 false], storeWait := fullStore.storeWait.set 40 true }
    (stored st).StoreOk ∧ (stored st).store.waiting = dialled 40 false :: [] := by
  refine ⟨⟨by decide +kernel, storeOk_fullStore.once, fun _ => by decide +kernel, by decide +kernel, by decide +kernel⟩, rfl⟩

theorem test_OverrunClearClearsTheFlag :
    (stored (oneRecord false)).ready ∧ 64 ≤ (64 : Byte).toNat ∧ (63 : LineNo).val = (63 : Byte).toNat ∧
    ((stored Store.initial).setStoreWait 63 true).store.storeWait[(63 : Fin 64)] = true :=
  ⟨ready_stored _, by decide +kernel⟩

/-! ### Hypotheses met: the fault watch -/

theorem test_ScoresFollowTheSamples :
    let w := State.reset.watch.settings
    w.watched.getLsbD (71 : PairNo).val = true ∧ ({ w with watched := 0 } : WatchSettings).watched.getLsbD 71 = false ∧
    (∀ st ∈ [PairState.clear, .suspect, .confirmed, .recheck], ((pairIs (fr st 11 0)).fault 5).state = st) ∧
    w.suspectScore ≤ scoreStep 11 (exceedsForeign .initial 40 0) ∧ ¬w.suspectScore ≤ scoreStep 10 true ∧
    scoreStep 63 true = 63 ∧ scoreStep 0 false = 0 ∧ exceedsForeign .initial 39 39 = false ∧ exceedsLeak .initial 5 = true := by
  decide +kernel

theorem test_PairChangesMoveTimerAndBinder :
    (fr .suspect 0 0).sustains = true ∧ (fr .suspect 1 0).sustains = false ∧ (fr .confirmed 0 0).sustains = true ∧
    (fr .recheck 0 0).inSuspicion = false ∧
    (let s (b : Binder) := State.reset.setBinder 3 b
     State.reset.watch.settings.binderK ≤ ((s ⟨2, false, none⟩).binder 3).count + 1 ∧
     ((s ⟨2, false, none⟩).binder 3).hold = false ∧
     ((s ⟨3, true, none⟩).binder 3).count - 1 < State.reset.watch.settings.binderK ∧
     ((s ⟨3, true, none⟩).binder 3).hold = true) := by decide +kernel

theorem test_WatchTimersExpire :
    (∀ st ∈ [PairState.clear, .suspect, .confirmed, .recheck],
      let s := pairIs { fr st 0 0 with sustainTimer := some 2000, guardTimer := some 2000 }
      (s.fault 5).sustainTimer = some 2000 ∧ (s.fault 5).guardTimer = some 2000 ∧ later 2000 s.now = false ∧
        (s.fault 5).state = st) ∧
    (({ State.reset with now := 2000 }.setBinder 8 ⟨1, true, some 2000⟩).binder 8).holdTimer = some 2000 := by
  decide +kernel

/-- The part with sustain_ms 0. -/
def sustainsAtOnce (s : State) : State :=
  { s with watch := { s.watch with settings := { s.watch.settings with sustainMs := 0 } } }

theorem test_SenseEdgesReachTheLine :
    (let s := sustainsAtOnce (pairIs { fr .suspect 0 0 with senseLost := true })
     let back := s.changeFault 5 { s.fault 5 with senseLost := false }
     (s.watch.settings.sustainMs = 0 ∧ (s.fault 5).state = .suspect) ∧ (back.fault 5).sustainTimer = some 2000 ∧
       later 2000 s.now = false ∧ ((s.senseRegained 5).fault 5).state = .clear) ∧
    State.reset.watch.settings.sustainMs ≠ 0 ∧ State.reset.served 5 = none ∧ (part (ln .faulted)).served 5 = some 5 ∧
    ((part (ln .faulted)).line 5).state = .faulted ∧ ((part (ln .idle)).line 5).state ≠ .faulted ∧
    ((pairIs (fr .recheck 0 0)).fault 5).state = .recheck ∧ (State.reset.fault 5).state = .clear := by decide +kernel

theorem test_TestEndIsApplied :
    (pairIs (fr .suspect 12 0)).watch.settings.sustainMs ≠ 0 ∧
    (∀ o ∈ [TestOutcome.result .pass, .result .fail, .result .inconclusive, .aborted .cancelled],
      (LastTest.mk .watch .full o 2000).outcome = o) ∧
    (∀ st ∈ [PairState.clear, .suspect, .confirmed, .recheck], ((pairIs (fr st 12 0)).fault 5).state = st) ∧
    (pairIs (fr .recheck 12 0)).notices.enabled[(Source.pair 5).pos][(5 : Fin 8)] = true ∧
    (let s := pairIs { fr .suspect 0 0 with sustainTimer := some 2000, guardTimer := some 2000 }
     let w : WatchSettings := { WatchSettings.default with sustainMs := 0, guardMs := 0 }
     let u : State := { s with watch := { s.watch with settings := w } }
     (u.watch.settings.sustainMs = 0 ∧ (u.fault 5).sustainTimer = some 2000 ∧ later 2000 u.now = false) ∧
     (u.watch.settings.guardMs = 0 ∧ (u.fault 5).guardTimer = some 2000)) := by
  decide +kernel

/-- The test queue of sixteen entries, and P71 wanted. -/
def fullQueue : State :=
  { State.reset with bus := { TestBus.initial with queue := sixteen, wanted := TestBus.initial.wanted.set 71 (some .full) } }

theorem test_WantsArePlacedAndWithdrawn :
    (testing run).onBus 5 = true ∧ fullQueue.onBus 71 = false ∧ fullQueue.bus.wanted[(71 : Fin 72)] = some .full ∧
    fullQueue.bus.wanted[(70 : Fin 72)] = none ∧ 16 ≤ fullQueue.bus.queue.length ∧
    (fullQueue.bus.queued 15 = true ∧ fullQueue.bus.queued 16 = false) ∧ State.reset.bus.queue.length < 16 ∧
    (∀ x : PairNo, x < 71 → fullQueue.bus.wanted[x] = none) ∧ (∀ q : PairNo, State.reset.bus.wanted[q] = none) ∧
    (∃ e ∈ fullQueue.bus.queue, e.pair = 15 ∧ e.asker = .watch) ∧
    (let w := State.reset.watch.settings
     w.suspectScore ≤ (fr .suspect 12 0).foreign ∧ ¬w.suspectScore ≤ (fr .suspect 12 0).leak ∧
     w.suspectScore ≤ (fr .suspect 11 12).leak ∧ ¬w.suspectScore ≤ (fr .suspect 11 12).foreign ∧
     ¬w.suspectScore ≤ (fr .suspect 11 11).foreign) := by decide +kernel

/-! ### Hypotheses met: the test bus -/

theorem test_LookClaimsTheFirstEligible :
    let e : TestEntry := ⟨5, .full, .watch⟩
    let s (st : LineState) := (part (ln st)).setTestQueue [e]
    (s .idle).bus.queue = [] ++ e :: [] ∧ (s .idle).bus.run = none ∧ (s .idle).eligible e = true ∧
    (s .seizing).eligible e = false ∧ (s .idle).served 5 = some 5 ∧ (State.reset.setTestQueue [e]).served 5 = none ∧
    (State.reset.setTestQueue [e]).eligible e = true ∧ (testing run).bus.run.isSome = true ∧
    (fullQueue.bus.run = none ∧ fullQueue.bus.queue.head? = some ⟨0, .full, .watch⟩ ∧
      fullQueue.eligible ⟨0, .full, .watch⟩ = true ∧ fullQueue.bus.wanted[(71 : Fin 72)] = some .full ∧
      ∀ x : PairNo, x < 71 → fullQueue.bus.wanted[x] = none) := by decide +kernel

theorem test_TestTimersExpire :
    let q := testing { run with phase := .quiet, quietTimer := some 2000, readingTimer := none, outstanding := none }
    (q.bus.run = some { run with phase := .quiet, quietTimer := some 2000, readingTimer := none, outstanding := none }) ∧
    (testing run).bus.run = some run ∧ run.readingTimer = some 2000 ∧ later 2000 (testing run).now = false := by
  decide +kernel

theorem test_ReadingIsJudged :
    State.reset.bus.run = none ∧ (testing run).bus.run = some run ∧
    run.outstanding = some (MeterReading.mk 4 9999 9999 3 200).seq ∧ readingInRange ⟨4, 9999, 9999, 3, 200⟩ = true ∧
    readingInRange ⟨4, 10000, 0, 3, 0⟩ = false ∧ readingInRange ⟨4, 0, 0, 3, 201⟩ = false ∧ (2 : Nat) < 3 ∧
    readingFails .full .default ⟨150, 150, 3, 24⟩ = false ∧ readingFails .insulation .default ⟨149, 150, 3, 24⟩ = true ∧
    readingFails .foreign .default ⟨0, 0, 3, 25⟩ = true ∧
    (∀ f ∈ [0, 1, 2, 3, 4], ({ run with readings := 3, fails := f } : Run).readings + 1 = 4) ∧
    run.attempt < run.settings.attemptsMax ∧ ({ run with attempt := 3 } : Run).settings.attemptsMax ≤ 3 := by
  decide +kernel

/-- The part after the test end of `run`, as its lines are about to leave it: L05 alone is UNDER_TEST on P05. -/
def told (s : State) : State := ((s.setLine 5 (ln .underTest)).setRun (some run)).testEnd 5 ⟨.controller, .full, .aborted .cancelled, 2000⟩

/-- The profiles have settle_ms 0. -/
def settlesAtOnce (s : State) : State := { s with profiles := .replicate 8 { prof with settleMs := 0 } }

theorem test_TestEndFreesTheBus :
    run.asker = .controller 9 ∧ ({ run with asker := .watch } : Run).asker = .watch ∧
    (testing run).notices.enabled[(Source.pair 5).pos][(7 : Fin 8)] = true ∧
    (∀ n : LineNo, ((told (testing run)).line n).pair = run.pair ∧ ((told (testing run)).line n).state = .underTest ↔ n = 5) ∧
    (∀ n : LineNo, ¬(((testing run).line n).pair = run.pair ∧ ((testing run).line n).state = .underTest)) ∧
    (((told (testing run)).fault 5).faulted = false ∧ ((told (testing run)).liveProfile 5).settleMs ≠ 0) ∧
    ((told (pairIs (fr .confirmed 12 0))).fault 5).state = .confirmed ∧
    (let s := settlesAtOnce (testing run)
     ((told s).liveProfile 5).settleMs = 0 ∧ ((told s).fault 5).faulted = false ∧ ((told s).scanRec 5).loopClass ≠ some .loop ∧
       ((told (s.setScanRec 5 (silent 0))).scanRec 5).loopClass = some .loop) := by
  decide +kernel

/-- The end of a test with settle_ms 0 leaves its line IDLE, or SEIZING on a closed loop. -/
theorem test_end_settles_at_once :
    let s := (settlesAtOnce (testing run)).setLine 5 (ln .underTest)
    let ends (s : State) := s.endTest run (.aborted .cancelled)
    ((ends s).line 5).state = .idle ∧ ((ends (s.setScanRec 5 (silent 0))).line 5).state = .seizing := by decide +kernel

/-! ### Hypotheses met: requests -/

theorem test_LinesAreEnabledAndDisabled :
    State.reset.ready ∧ ((State.reset.line 63).state = .disabled ∧ (1#64 <<< 63).getLsbD 63 = true) ∧
    ((part (ln .idle)).enableConflict (1#64 <<< 4) = false ∧
      ((part (ln .idle)).setLine 4 { Line.initial 4 with pair := 5 }).enableConflict (1#64 <<< 4) = true) ∧
    (testing run).onBus 5 = true ∧ ((part (ln .idle)).line 5).state ≠ .disabled ∧ (State.reset.liveProfile 63).settleMs ≠ 0 :=
  ⟨ready_reset, by decide +kernel⟩

theorem test_LinesAreMappedSwappedAndReset :
    (part (ln .faulted)).ready ∧
    (64 ≤ (64 : Byte).toNat ∧ 72 ≤ (72 : Byte).toNat ∧ 8 ≤ (8 : Byte).toNat ∧ (63 : LineNo).val = (63 : Byte).toNat ∧
      (71 : PairNo).val = (71 : Byte).toNat ∧ (7 : Fin 8).val = (7 : Byte).toNat ∧ (62 : LineNo) ≠ 63) ∧
    (∀ st ∈ [LineState.disabled, .idle, .faulted], ((part (ln st)).line 5).state.mappable = true) ∧
    ((part (ln .settling)).line 5).state.mappable = false ∧ (part (ln .idle)).enabledOther 5 6 6 = true ∧
    (part (ln .idle)).enabledOther 6 5 5 = false ∧ (testing run).onBus 5 = true ∧ (testing run).onBus 6 = false :=
  ⟨⟨rfl, by decide, rfl, rfl⟩, by decide +kernel⟩

/-- The default profile as PROFILE_WRITE carries it. -/
def profileArgs : ProfileArgs := ⟨12, 7, 2, 60, 20, 100, 150, 600, 400, 250, 800, 600, 80, 140, 15000, 5000, 2, 0, 250⟩

theorem test_ProfilesAndWindowsAreWritten :
    State.reset.ready ∧ profileArg profileArgs = some prof ∧ profileArg { profileArgs with releaseMa := 11 } = none ∧
    profileArg { profileArgs with releaseMa := 10 } ≠ none ∧ profileArg { profileArgs with learnSpanMs := 559 } = none ∧
    profileArg { profileArgs with methods := 3 } = none ∧ 16 ≤ (16 : Byte).toNat ∧ (15 : Fin 16).val = (15 : Byte).toNat ∧
    (7 : Byte) ≠ 8 ∧ windowArg window ≠ none ∧ windowArg { window with patternLen := 9 } = none ∧
    windowArg { window with rule := 0, n := 24 } ≠ none ∧ windowArg { window with rule := 0, n := 25 } = none ∧
    windowArg { window with replPresent := 1, replLen := 8 } ≠ none ∧ windowArg { window with cls := 16 } = none :=
  ⟨ready_reset, by decide +kernel⟩

/-- The default watch settings as WATCH_SET carries them. -/
def watchArgs : WatchArgs := ⟨12, 2000, 3, 10000, 1, 60000, BitVec.allOnes 72⟩

theorem test_SettingsAreWritten :
    State.reset.ready ∧ (1 < (2 : Byte).toNat ∧ modeArg 1 = some .economy) ∧
    watchArg watchArgs = some WatchSettings.default ∧ watchArg { watchArgs with suspectScore := 64 } = none ∧
    (∃ w, watchArg { watchArgs with binderK := 2, mode := 0 } = some w ∧ w.binderK ≠ State.reset.watch.settings.binderK) ∧
    testSetArg ⟨5, 50, 20, 2000, 150⟩ ≠ none ∧ testSetArg ⟨0, 50, 20, 2000, 150⟩ = none ∧
    (within 5 150 5 = true ∧ within 5 150 151 = false ∧ (7 : Fin 8).val = (7 : Byte).toNat ∧ 4 ≤ (4 : Byte).toNat) ∧
    ((State.reset.setBinder 0 ⟨2, false, none⟩).binder 0).count = 2 ∧
    ((State.reset.setBinder 0 ⟨2, false, none⟩).binder 0).hold = false ∧
    ((State.reset.setBinder 0 ⟨1, true, some 9⟩).binder 0).hold = true :=
  ⟨ready_reset, by decide +kernel, by decide +kernel, by decide +kernel,
    ⟨{ WatchSettings.default with binderK := 2, mode := .every }, by decide +kernel⟩, by decide +kernel⟩

theorem test_QueriesChangeNothing :
    State.reset.ready ∧ 8 < (9 : Byte).toNat ∧ (7 : Fin 8).val = (7 : Byte).toNat ∧
    64 ≤ (64 : Byte).toNat ∧ (63 : LineNo).val = (63 : Byte).toNat ∧ 72 ≤ (72 : Byte).toNat ∧
    (71 : PairNo).val = (71 : Byte).toNat ∧
    (State.reset.lineFields 63).length = 15 ∧ State.reset.occupantFields.length = 30 ∧
    (State.reset.setRun (some run)).occupantFields.length = 30 :=
  ⟨ready_reset, by decide +kernel⟩

/-- What LINE_QUERY says of L05 in OPEN from PULSING, waiting second in the queue, with the tone digit 7 kept. -/
theorem test_line_fields :
    let l := { broken .pulsing with binding := .queued, collection := some (coll [⟨7, .tone⟩]), learning := some (.done 110) }
    ((part l).setDetectorQueue [⟨6, 0⟩, ⟨5, 0⟩]).lineFields 5 =
      [8, 1, 5, 5, 0, 0, 0, 0, 0, 0, 2, 2, 1, 23, 1, 110] := by decide +kernel

theorem test_DetectorServiceIsSet :
    let h := heardBy (call .seized) 1000
    h.ready ∧ 1 < (2 : Byte).toNat ∧ (8 ≤ (8 : Byte).toNat ∧ (7 : DetectorNo).val = (7 : Byte).toNat) ∧
    ((h.detector 0).inService = true ∧ (h.detector 0).bound = some ⟨5, 1000, 5⟩) ∧
    ((1 : DetectorNo) ≠ 0 ∧ (h.detector 1).inService = true ∧ (h.detector 1).bound = none) ∧
    (silentPool.detector 7).inService = false ∧ silentPool.pool.queue = [] ∧
    (silentPool.setDetectorQueue [⟨5, 1000⟩]).pool.queue = ⟨5, 1000⟩ :: [] :=
  ⟨⟨rfl, by decide, rfl, rfl⟩, by decide, by decide +kernel⟩

theorem test_TestsAreOrderedAndCancelled :
    fullQueue.ready ∧ (testing run).ready ∧ 2 < (3 : Byte).toNat ∧
    (71 : PairNo).val = (71 : Byte).toNat ∧ (testing run).onBus 5 = true ∧ (testing run).bus.run = some run ∧
    fullQueue.bus.queued 15 = true ∧ fullQueue.bus.queued 70 = false ∧ 16 ≤ fullQueue.bus.queue.length ∧
    fullQueue.bus.wanted[(71 : Fin 72)] ≠ none ∧ fullQueue.bus.wanted[(70 : Fin 72)] = none ∧
    State.reset.bus.queue.length < 16 :=
  ⟨⟨rfl, by decide, rfl, rfl⟩, ⟨rfl, by decide, rfl, rfl⟩, by decide +kernel⟩

/-! ### Hypotheses met: notices and the link -/

/-- The part with one FLASH entry of L05 pending. -/
def flashed (count : Nat) : State :=
  { State.reset with notices := { Notices.initial with entries := [⟨5, .flash, some count, some 100⟩] } }

theorem noticesOk_flashed : (flashed 255).NoticesOk where
  ordered := List.pairwise_singleton _ _
  enabled := by decide +kernel
  counted := by decide +kernel
  counts := by
    intro e he c hc
    rw [show e = ⟨5, .flash, some 255, some 100⟩ from List.mem_singleton.mp he] at hc
    have h : 255 = c := Option.some.inj hc
    omega
  points := by decide +kernel

theorem test_NoticesAreKeptAndPolled :
    (flashed 255).NoticesOk ∧ (flashed 255).notices.enabled[(Source.line 5).pos][Kind.flash.num] = true ∧
    (State.reset.disablePoints 2 (1 <<< 5)).notices.enabled[(Source.line 5).pos][Kind.flash.num] = false ∧
    (flashed 1).nextOfClass 3 = none ∧
    ({ flashed 1 with notices := { (flashed 1).notices with routes := .replicate 8 3 } } : State).nextOfClass 3 =
      some ⟨5, .flash, some 1, some 100⟩ :=
  ⟨noticesOk_flashed, by decide +kernel⟩

theorem test_TransmitterChoosesTheNextFrame :
    State.reset.link.inFlight = none ∧ State.reset.link.started = some .power ∧
    (let quiet (s : State) : State := { s with link := { s.link with started := none } }
     (quiet (flashed 1)).link.started = none ∧ (quiet (flashed 1)).nextOfClass 0 = none ∧
     (quiet (flashed 1)).nextOfClass 1 = some ⟨5, .flash, some 1, some 100⟩ ∧
     (quiet State.reset).nextOfClass 2 = none ∧
     ({ crowded with link := { crowded.link with inFlight := none, started := none } } : State).link.replies =
       frame :: [frame, frame, frame]) ∧
    busy.link.inFlight = some frame ∧ (frame.type ≠ 0x9D ∨ frame.payload ≠ [0]) ∧ crowded.link.inbox = [] ∧
    ((State.reset.transmit ⟨0x9D, 1, [0]⟩).link.inFlight = some ⟨0x9D, 1, [0]⟩ ∧
      (63 : Fin 145).val = (63 : LineNo).val ∧ (135 : Fin 145).val = 64 + (71 : PairNo).val ∧
      (144 : Fin 145).val = 136 + (8 : BinderNo).val ∧ (State.reset.fault 71).last = none ∧
      ((pairIs { fr .confirmed 12 0 with last := some ⟨.watch, .full, .result .fail, 1000⟩ }).fault 5).last =
        some ⟨.watch, .full, .result .fail, 1000⟩ ∧
      (after (.testCancel 1 5) (testing run)).bus.results[(5 : Fin 72)] ≠ none) ∧
    (∃ sl, (oneRecord true).slots[(3 : Fin 16)] = some sl ∧ sl.record.line = 5 ∧ sl.record.urgent = true) :=
  ⟨by decide +kernel, by decide +kernel, by decide +kernel, by decide +kernel, by decide +kernel, by decide +kernel,
    by decide +kernel, ⟨1, dialled 5 true⟩, by decide +kernel⟩

/-- The body of a FAULT notice of P05 after a failed test: state, kinds, sense, presence, origin, kind, outcome, time. -/
theorem test_fault_body :
    let s := pairIs { fr .confirmed 12 0 with last := some ⟨.watch, .full, .result .fail, 1000⟩ }
    s.body ⟨69, .fault, none, none⟩ = [5, 2, 1, 0, 1, 0, 2, 1, 0, 0, 0, 3, 232] := by decide +kernel

theorem test_CharactersAndFramesArrive :
    let open_ : State := { State.reset with link := { State.reset.link with collected := [0xC3, 2], lastChar := 1989 } }
    (State.reset.deaf = false ∧ (State.reset.transmit ⟨0x9D, 1, [0]⟩).deaf = true) ∧
    ({ open_ with now := 2000 } : State).gapPassed = true ∧ ({ open_ with now := 1999 } : State).gapPassed = false ∧
    (crowded.link.inbox.length < 4 ∧ 0x40 ≤ (0x40 : Byte).toNat) ∧ takeFrame [1] = .bad ∧ (List.replicate 250 (0 : Byte)).length ≤ 250 ∧
    (1 ≤ (0x3F : Byte).toNat ∧ (0x3F : Byte).toNat ≤ 0x3F ∧ 0x1E ≤ (0x1E : Byte).toNat) ∧
    (4 ≤ crowded.link.replies.length ∧ crowded.link.inbox.length < 4 ∧ crowded.deaf = false) ∧
    decodeRequest 0x1E [] = .unknown ∧ decodeRequest 0x0C [7, 0] = .badLength ∧
    decodeRequest 0x0C [8, 15] = .request (.windowWrite (.default 15)) := by decide +kernel

/-- A changed binder_k that puts CO0 on hold raises BINDER for it and for no other binder, in START_STOP too. -/
theorem test_binder_k_raises :
    let t := after (.watchSet 1 { watchArgs with binderK := 2 }) ((State.reset.setBinder 0 ⟨2, false, none⟩).setBinder 1 ⟨2, true, none⟩)
    t.notices.entries.map (fun e => (e.pos, e.kind)) = [((Source.binder 0).pos, .binder)] ∧
      (t.binder 0).hold = true ∧ t.watch.settings.mode = .startStop := by decide +kernel

theorem test_FramesAndRequestsAreReadBack :
    (∀ x a, Request.windowWrite (.window 7 window) = .windowWrite (.window x a) → x ≠ 8) ∧
    (takeFrame [1] = .bad ∧ takeFrame [253] = .bad ∧ takeFrame [2] = .incomplete ∧ takeFrame [252] = .incomplete) ∧
    (takeFrame ([2, 0, 0] ++ crcBytes [2, 0, 0] ++ [7]) = .good ⟨0, 0, []⟩ [7] ∧ takeFrame [2, 0, 0, 0, 0] = .bad) ∧
    scanChars [0, 0xC3, 2, 0] = ([0xC3, 2, 0], []) ∧
    (decodeRequest 0 [] = .unknown ∧ decodeRequest 0x1D [] = .request .partReset ∧ decodeRequest 0x1D [0] = .badLength ∧
      decodeRequest 0x0C [8] = .badLength) ∧ (List.replicate 250 (0xC3 : Byte)).length ≤ 250 :=
  ⟨fun x a h => (by cases h; decide), by decide +kernel⟩

/-- The longest frame, of length 252, with its CRC is good. -/
theorem test_longest_frame_is_good :
    ∃ hi lo : Byte, takeFrame (252 :: 0 :: 0 :: (List.replicate 250 0 ++ hi :: lo :: [])) =
      .good ⟨0, 0, List.replicate 250 0⟩ [] :=
  ⟨_, _, (takeFrame_whole (by decide) (by rw [List.length_replicate]; rfl)).trans (if_pos ((crcBytes_eq _ _ _).mp rfl))⟩

/-! ### Hypotheses met: the kept properties -/

theorem test_StepKeepsLinkNoticesAndTablesOk :
    (∃ t, step (flashed 255) = .next t) ∧ (flashed 255).LinkOk ∧ (flashed 255).NoticesOk ∧ (flashed 255).TablesOk :=
  ⟨⟨_, rfl⟩, ⟨by decide, by decide, fun _ => rfl, fun h => absurd rfl h⟩, noticesOk_flashed,
    ⟨by decide +kernel, by decide +kernel, by decide +kernel, by decide +kernel, by decide +kernel,
      fun i n h => by
        have open_ : ∀ j : Fin 8, (flashed 255).windows.table[j].rule = .openEnd := by decide +kernel
        rw [open_ i] at h
        cases h⟩⟩

theorem test_StepKeepsStoreOk : (∃ t, step (stored fullStore) = .next t) ∧ (stored fullStore).StoreOk :=
  ⟨⟨_, rfl⟩, storeOk_fullStore⟩

theorem test_StepKeepsPoolOk : (∃ t, step silentPool = .next t) ∧ silentPool.PoolOk :=
  ⟨⟨_, rfl⟩, by decide +kernel, by decide +kernel, by decide +kernel, by decide +kernel, by decide +kernel⟩

/-- A test of P05 on the bus, with its served line L05 UNDER_TEST and L06 enabled on its own pair. -/
def served : State := ((testing run).setLine 5 (ln .underTest)).setLine 6 { Line.initial 6 with state := .idle }

theorem test_StepKeepsTestsOk :
    (∃ t, step fullQueue = .next t) ∧ fullQueue.TestsOk ∧ (∃ t, step served = .next t) ∧ served.LinesOk :=
  ⟨⟨_, rfl⟩, ⟨by decide +kernel, by decide +kernel, by decide +kernel, by decide +kernel⟩, ⟨_, rfl⟩,
    by decide +kernel, by decide +kernel⟩

end Sys2Proof.Tests
end

section
/-! SUPPORT. The part's own clock: which events are due, what a step on an empty queue does with them, and expiry
commands whose timer is not due. -/

namespace Sys2Proof.Machine

/-! ### Cabinet time and due timers (R1) -/

theorem later_iff (a b : Time) : later a b = true ↔ 1 ≤ (a - b).toNat ∧ (a - b).toNat ≤ 2 ^ 31 - 1 := by
  unfold later
  exact decide_eq_true_iff

/-- A timer is due exactly when it runs and its expiry time is not later than cabinet time. -/
theorem timerDue_iff (t : Option Time) (now : Time) :
    timerDue t now = true ↔ ∃ e, t = some e ∧ later e now = false := by
  cases t with
  | none => simp [timerDue]
  | some e => simp [timerDue, due]

/-- The expiry of a timer that is stopped or not yet due does nothing (R1; log 3). -/
theorem State.whenDue_idle {s : State} {t : Option Time} (act : Time → State)
    (h : ∀ e, t = some e → later e s.now = true) : s.whenDue t act = s := by
  cases t with
  | none => rfl
  | some e => simp [State.whenDue, due, h e rfl]

/-! ### What is due -/

theorem mem_dueCommand {s : State} {t : Option Time} {c d : Instr} :
    c ∈ dueCommand s t d ↔ c = d ∧ ∃ e, t = some e ∧ later e s.now = false := by
  rw [← timerDue_iff]
  unfold dueCommand
  split <;> simp [*]

theorem State.mem_lineEvents {s : State} {n : LineNo} {c : Instr} :
    c ∈ s.lineEvents n ↔
      (c = .settleExpiry n ∧ ∃ e, (s.line n).settleTimer = some e ∧ later e s.now = false) ∨
      (c = .seizeExpiry n ∧ ∃ e, (s.line n).seizeTimer = some e ∧ later e s.now = false) ∨
      (c = .firstDigitExpiry n ∧ ∃ e, (s.line n).firstDigitTimer = some e ∧ later e s.now = false) ∨
      (c = .release n ∧ ∃ e, (s.line n).breakTimer = some e ∧ later e s.now = false) ∨
      (c = .gapExpiry n ∧ ∃ e, (s.line n).gapTimer = some e ∧ later e s.now = false) ∨
      (c = .collectExpiry n ∧ ∃ e, (s.line n).collectTimer = some e ∧ later e s.now = false) ∨
      (c = .learnExpiry n ∧ ∃ e, (s.line n).learnTimer = some e ∧ later e s.now = false) := by
  simp only [State.lineEvents, List.mem_append, mem_dueCommand, or_assoc]

theorem State.mem_pairEvents {s : State} {p : PairNo} {c : Instr} :
    c ∈ s.pairEvents p ↔
      (c = .sustainExpiry p ∧ ∃ e, (s.fault p).sustainTimer = some e ∧ later e s.now = false) ∨
      (c = .guardExpiry p ∧ ∃ e, (s.fault p).guardTimer = some e ∧ later e s.now = false) := by
  simp only [State.pairEvents, List.mem_append, mem_dueCommand]

/-- A gap above 10 ms behind a character of an open frame (R189). -/
theorem State.gapPassed_iff (s : State) :
    s.gapPassed = true ↔ s.link.collected ≠ [] ∧ 10 < (s.now - s.link.lastChar).toNat := by
  unfold State.gapPassed elapsed Config.charGapMs
  rw [Bool.and_eq_true, decide_eq_true_iff, Bool.not_eq_true', List.isEmpty_eq_false_iff]

/-- The due events, block by block: the pass, the timers of lines, pairs, binders and the test bus, and the gap. -/
theorem State.mem_dueEvents {s : State} {c : Instr} :
    c ∈ s.dueEvents ↔
      (c = .pass ∧ later s.scan.nextPass s.now = false) ∨ (∃ n, c ∈ s.lineEvents n) ∨ (∃ p, c ∈ s.pairEvents p) ∨
      (∃ b, c = .holdExpiry b ∧ ∃ e, (s.binder b).holdTimer = some e ∧ later e s.now = false) ∨
      (c = .quietExpiry ∧ ∃ e, s.bus.quietTimer = some e ∧ later e s.now = false) ∨
      (c = .readingTimeout ∧ ∃ e, s.bus.readingTimer = some e ∧ later e s.now = false) ∨
      (c = .characterGap ∧ s.link.collected ≠ [] ∧ 10 < (s.now - s.link.lastChar).toNat) := by
  have gap : c ∈ (if s.gapPassed then [Instr.characterGap] else []) ↔ c = .characterGap ∧ s.gapPassed = true := by
    split <;> simp [*]
  rw [← State.gapPassed_iff]
  simp only [State.dueEvents, List.mem_append, List.mem_flatMap, mem_dueCommand, gap, allLines, allPairs,
    List.mem_finRange, true_and, Option.some.injEq, exists_eq_left', or_assoc]

/-- A due command of a line is an expiry of that line. -/
theorem State.eq_of_mem_lineEvents {s : State} {n : LineNo} {c : Instr} (h : c ∈ s.lineEvents n) :
    c = .settleExpiry n ∨ c = .seizeExpiry n ∨ c = .firstDigitExpiry n ∨ c = .release n ∨ c = .gapExpiry n ∨
      c = .collectExpiry n ∨ c = .learnExpiry n :=
  (State.mem_lineEvents.mp h).imp And.left <| .imp And.left <| .imp And.left <| .imp And.left <| .imp And.left <|
    .imp And.left And.left

/-- A due command of a pair's fault record is an expiry of that pair. -/
theorem State.eq_of_mem_pairEvents {s : State} {p : PairNo} {c : Instr} (h : c ∈ s.pairEvents p) :
    c = .sustainExpiry p ∨ c = .guardExpiry p :=
  (State.mem_pairEvents.mp h).imp And.left And.left

/-! ### A step on an empty queue (log 1, 2) -/

theorem step_of_empty_queue {s : State} (h : s.pending = []) : step s = .next s.tick := by
  unfold step
  rw [h]

theorem State.tick_of_nothing_due {s : State} (h : s.dueEvents = []) : s.tick = { s with now := s.now + 1#32 } := by
  unfold State.tick
  rw [h]

/-- With something due, some due event becomes the next command, whatever the free value of log 2 picks. -/
theorem State.tick_of_something_due {s : State} (h : s.dueEvents ≠ []) :
    ∃ c ∈ s.dueEvents, ∃ k, s.tick = { s with pending := [c], raceCount := k } := by
  unfold State.tick
  match hd : s.dueEvents with
  | [] => exact absurd hd h
  | [c] => exact ⟨c, List.mem_singleton_self c, s.raceCount, rfl⟩
  | c :: d :: rest =>
    have inRange : Config.raceChoice s.raceCount % ((d :: rest).length + 1) < (c :: d :: rest).length :=
      Nat.mod_lt _ (Nat.succ_pos _)
    refine ⟨_, ?_, s.raceCount + 1, rfl⟩
    rw [← List.getElem_eq_getD (h := inRange)]
    exact List.getElem_mem inRange

/-- Settles O2: the free value of log 2 picks an index inside the list of due events, and that list is read block by
block (`mem_dueEvents`), where every command stands in the events of one block only. -/
theorem emptyQueueTakesADueEvent : Obligations.EmptyQueueTakesADueEvent := by
  unfold Obligations.EmptyQueueTakesADueEvent
  refine ⟨later_iff, fun s hq => ?_, fun s => ?_⟩
  · rw [step_of_empty_queue hq]
    refine ⟨fun nothing => congrArg _ (State.tick_of_nothing_due nothing), fun something => ?_⟩
    obtain ⟨c, hc, k, htick⟩ := State.tick_of_something_due something
    exact ⟨c, hc, k, congrArg _ htick⟩
  · refine ⟨?_, fun n => ⟨?_, ?_, ?_, ?_, ?_, ?_, ?_⟩, fun p => ⟨?_, ?_⟩, fun b => ?_, ?_, ?_, ?_,
      fun c hc => ?nothingElse⟩
    case nothingElse =>
      rcases State.mem_dueEvents.mp hc with
        ⟨pass, -⟩ | ⟨n, h⟩ | ⟨p, h⟩ | ⟨b, hold, -⟩ | ⟨quiet, -⟩ | ⟨reading, -⟩ | ⟨gap, -⟩
      · exact .inl pass
      · exact .inr <| .inr <| .inr <| .inr <| .inl ⟨n, State.eq_of_mem_lineEvents h⟩
      · exact .inr <| .inr <| .inr <| .inr <| .inr <| .inl ⟨p, State.eq_of_mem_pairEvents h⟩
      · exact .inr <| .inr <| .inr <| .inr <| .inr <| .inr ⟨b, hold⟩
      · exact .inr <| .inl quiet
      · exact .inr <| .inr <| .inl reading
      · exact .inr <| .inr <| .inr <| .inl gap
    all_goals simp [State.mem_dueEvents, State.mem_lineEvents, State.mem_pairEvents]

/-! ### Expiry commands with nothing due (R1; log 3) -/

theorem execPass_of_not_due {s : State} (h : later s.scan.nextPass s.now = true) : execPass s = .next s.finish := by
  simp [execPass, due, h]

/-- Settles O7: every expiry command is its block's act under `whenDue` and the end of the event, and `whenDue` does
nothing for a timer that is stopped or not yet due. -/
theorem expiryNeedsADueTimer : Obligations.ExpiryNeedsADueTimer := by
  unfold Obligations.ExpiryNeedsADueTimer
  intro s
  have idle_expiry (t : Option Time) (act : Time → State) (h : ∀ e, t = some e → later e s.now = true) :
      (.next (s.whenDue t act).finish : Host.Outcome State Fault Refusal) = .next s.finish := by
    rw [State.whenDue_idle act h]
  exact ⟨execPass_of_not_due,
    fun n => ⟨idle_expiry _ _, idle_expiry _ _, idle_expiry _ _, idle_expiry _ _, idle_expiry _ _, idle_expiry _ _,
      idle_expiry _ _⟩,
    fun p => ⟨idle_expiry _ _, idle_expiry _ _⟩, fun b => idle_expiry _ _, idle_expiry _ _, idle_expiry _ _⟩

end Sys2Proof.Machine
end

section
/-! SUPPORT. The loop judgment of a valid sample: the sample class, the glitch filter and the transition that a new
loop class delivers (R29 to R33). -/

namespace Sys2Proof.Machine

/-! ### Hook supervision and the scan records -/

/-- No operation on a line touches the scan settings or a scan record. -/
theorem scanStays_closedLine (x : Scan) : ClosedLine fun s => s.scan = x :=
  .of_frame (fun _ _ _ => rfl) (fun _ _ h => by rw [h.eq]) (fun _ _ h => h.scan) x

@[simp] theorem State.scanRec_loopMade (s : State) (n : LineNo) (t : Time) (p : PairNo) :
    (s.loopMade n t).scanRec p = s.scanRec p :=
  congrArg (·.recs[p]) ((scanStays_closedLine s.scan).loopMade n t rfl)

@[simp] theorem State.scanRec_loopBroken (s : State) (n : LineNo) (t : Time) (p : PairNo) :
    (s.loopBroken n t).scanRec p = s.scanRec p :=
  congrArg (·.recs[p]) ((scanStays_closedLine s.scan).loopBroken n t rfl)

/-! ### A new loop class (R32) -/

theorem State.qualify_made {s : State} {p : PairNo} (h : (s.scanRec p).loopClass ≠ some .loop) (n : LineNo)
    (stamp : Time) : s.qualify p n .loop stamp =
      (s.setScanRec p { s.scanRec p with loopClass := some .loop, run := none }).loopMade n stamp := by
  match old : (s.scanRec p).loopClass with
  | none => simp [State.qualify, old]
  | some .opened => simp [State.qualify, old]
  | some .loop => exact absurd old h

theorem State.qualify_broken {s : State} {p : PairNo} (h : (s.scanRec p).loopClass = some .loop) (n : LineNo)
    (stamp : Time) : s.qualify p n .opened stamp =
      (s.setScanRec p { s.scanRec p with loopClass := some .opened, run := none }).loopBroken n stamp := by
  simp [State.qualify, h]

theorem State.qualify_first_open {s : State} {p : PairNo} (h : (s.scanRec p).loopClass = none) (n : LineNo)
    (stamp : Time) : s.qualify p n .opened stamp =
      s.setScanRec p { s.scanRec p with loopClass := some .opened, run := none } := by
  simp [State.qualify, h]

theorem State.scanRec_qualify (s : State) (p : PairNo) (n : LineNo) (c : LoopClass) (stamp : Time) :
    (s.qualify p n c stamp).scanRec p = { s.scanRec p with loopClass := some c, run := none } := by
  unfold State.qualify
  dsimp only
  split <;> simp

/-! ### The glitch filter (R31, R33) -/

theorem State.wakes_iff {s : State} {p : PairNo} {n : LineNo} {c : LoopClass} : s.wakes p n c = true ↔
    s.scan.passMode = .economy ∧ (s.line n).state = .idle ∧ c = .loop ∧ (s.scanRec p).loopClass ≠ some .loop := by
  simp [State.wakes, and_assoc]

theorem State.filterSample_of_wakes {s : State} {p : PairNo} {n : LineNo} {c : LoopClass} (h : s.wakes p n c = true)
    (passTime : Time) : s.filterSample p n c passTime = s.qualify p n c passTime := by
  simp [State.filterSample, h]

/-- A sample of the loop class never wakes the line, and drops the glitch run (R31). -/
theorem State.filterSample_of_loopClass {s : State} {p : PairNo} {c : LoopClass}
    (h : (s.scanRec p).loopClass = some c) (n : LineNo) (passTime : Time) :
    s.filterSample p n c passTime = s.setScanRec p { s.scanRec p with run := none } := by
  have asleep : ¬s.wakes p n c = true := fun wake => by
    obtain ⟨-, -, rfl, notLoop⟩ := State.wakes_iff.mp wake
    exact notLoop h
  simp [State.filterSample, asleep, h]

/-- A sample of another class lengthens or starts the run, which qualifies at glitch + 1 samples (R31). -/
theorem State.filterSample_of_other {s : State} {p : PairNo} {n : LineNo} {c : LoopClass}
    (asleep : ¬s.wakes p n c = true) (other : (s.scanRec p).loopClass ≠ some c) (passTime : Time) :
    s.filterSample p n c passTime =
      if (s.profileOf n).glitch + 1 ≤ (GlitchRun.advance (s.scanRec p).run c passTime).count then
        s.qualify p n c (GlitchRun.advance (s.scanRec p).run c passTime).first
      else s.setScanRec p { s.scanRec p with run := some (GlitchRun.advance (s.scanRec p).run c passTime) } := by
  simp [State.filterSample, asleep, other]

theorem GlitchRun.advance_same {r : GlitchRun} {c : LoopClass} (h : r.candidate = c) (passTime : Time) :
    GlitchRun.advance (some r) c passTime = ⟨c, r.count + 1, r.first⟩ := by
  simp [GlitchRun.advance, ← h]

theorem GlitchRun.advance_other {r : GlitchRun} {c : LoopClass} (h : r.candidate ≠ c) (passTime : Time) :
    GlitchRun.advance (some r) c passTime = ⟨c, 1, passTime⟩ := by
  simp [GlitchRun.advance, h]

theorem State.sampleClass_filterSample (s : State) (p : PairNo) (n : LineNo) (c : LoopClass) (passTime : Time) :
    ((s.filterSample p n c passTime).scanRec p).sampleClass = (s.scanRec p).sampleClass := by
  unfold State.filterSample
  dsimp only
  split
  · rw [State.scanRec_qualify]
  · split
    · simp
    · split
      · rw [State.scanRec_qualify]
      · simp

/-- Settles O13: the wake, a sample of the loop class and a sample of another class are the three ways through the
filter, and each value of the old and the new loop class has its transition. -/
theorem glitchFilterQualifies : Obligations.GlitchFilterQualifies := by
  unfold Obligations.GlitchFilterQualifies
  intro s p n c passTime k wake run taken
  have run_eq : GlitchRun.advance k.run c passTime = run := by
    show GlitchRun.advance k.run c passTime = match k.run with | some r => _ | none => _
    cases k.run with
    | none => rfl
    | some r =>
      by_cases h : r.candidate = c
      · simp [GlitchRun.advance_same h, h]
      · simp [GlitchRun.advance_other h, h]
  refine ⟨fun h => State.filterSample_of_wakes (State.wakes_iff.mpr h) _,
    fun h => State.filterSample_of_loopClass h _ _, fun asleep other => ?_, fun h hc => ?_, fun h hc => ?_,
    fun h hc => ?_⟩
  · have filtered := State.filterSample_of_other (mt State.wakes_iff.mp asleep) other passTime
    rw [run_eq] at filtered
    exact ⟨fun short => filtered.trans (if_neg (Nat.not_le.mpr short)), fun long => filtered.trans (if_pos long)⟩
  · subst hc; exact State.qualify_made h _ _
  · subst hc; exact State.qualify_broken h _ _
  · subst hc; exact State.qualify_first_open h _ _

/-! ### The sample class (R30) -/

theorem classify_loop {q : Profile} {current : Int} (h : (q.seizeMa : Int) ≤ current) (present : Option LoopClass) :
    classify q current present = some .loop := if_pos h

theorem classify_opened {q : Profile} {current : Int} (low : current ≤ q.releaseMa) (h : current < q.seizeMa)
    (present : Option LoopClass) : classify q current present = some .opened :=
  (if_neg (Int.not_le.mpr h)).trans (if_pos low)

theorem classify_between {q : Profile} {current : Int} (high : (q.releaseMa : Int) < current)
    (h : current < q.seizeMa) (present : Option LoopClass) : classify q current present = present :=
  (if_neg (Int.not_le.mpr h)).trans (if_neg (Int.not_le.mpr high))

theorem State.judgeLoop_unclassified {s : State} {p : PairNo} {n : LineNo} {current : Int}
    (h : classify (s.profileOf n) current (s.scanRec p).sampleClass = none) (passTime : Time) :
    s.judgeLoop p n current passTime = s := by
  unfold State.judgeLoop
  rw [h]

theorem State.judgeLoop_classified {s : State} {p : PairNo} {n : LineNo} {current : Int} {c : LoopClass}
    (h : classify (s.profileOf n) current (s.scanRec p).sampleClass = some c) (passTime : Time) :
    s.judgeLoop p n current passTime =
      (s.setScanRec p { s.scanRec p with sampleClass := some c }).filterSample p n c passTime := by
  unfold State.judgeLoop
  rw [h]

/-- The sample class after the judgment is the class of the sample, which may be none (R30). -/
theorem State.sampleClass_judgeLoop {s : State} {p : PairNo} {n : LineNo} {current : Int} {c : Option LoopClass}
    (h : classify (s.profileOf n) current (s.scanRec p).sampleClass = c)
    (unclassified : c = none → (s.scanRec p).sampleClass = none) (passTime : Time) :
    ((s.judgeLoop p n current passTime).scanRec p).sampleClass = c := by
  cases c with
  | none => rw [State.judgeLoop_unclassified h, unclassified rfl]
  | some c => rw [State.judgeLoop_classified h, State.sampleClass_filterSample, State.scanRec_setScanRec_self]

/-- Settles O12: the judgment classifies by the three bands of current, writes the class and hands the sample to the
glitch filter, which leaves the sample class as it finds it. -/
theorem sampleClassFromCurrent : Obligations.SampleClassFromCurrent := by
  unfold Obligations.SampleClassFromCurrent
  intro s p n current passTime seize release t
  refine ⟨fun loop => ?_, fun low notLoop => ?_, fun high notLoop => ⟨?_, fun unclassified => ?_⟩, fun c band => ?_⟩
  · exact State.sampleClass_judgeLoop (classify_loop loop _) (fun h => by cases h) passTime
  · exact State.sampleClass_judgeLoop (classify_opened low notLoop _) (fun h => by cases h) passTime
  · exact State.sampleClass_judgeLoop (classify_between high notLoop _) id passTime
  · exact State.judgeLoop_unclassified ((classify_between high notLoop _).trans unclassified) passTime
  · apply State.judgeLoop_classified
    rcases band with ⟨loop, rfl⟩ | ⟨low, notLoop, rfl⟩ | ⟨high, notLoop, present⟩
    · exact classify_loop loop _
    · exact classify_opened low notLoop _
    · exact (classify_between high notLoop _).trans present

end Sys2Proof.Machine
end

section
/-! SUPPORT. The pass: unanswered requests, the settings of the pass that begins, and the pairs it asks for (R22,
R23, R27). -/

namespace Sys2Proof.Machine

/-! ### What a change of a fault record leaves alone -/

/-- What a binder's record and a raise leave alone, a change of a binder's count leaves alone. -/
theorem State.countChange_frame {α : Type} {f : State → α} (binder : ∀ s b r, f (s.setBinder b r) = f s)
    (raise : ∀ s src k t, f (s.raise src k t) = f s) (s : State) (b : BinderNo) (up : Bool) :
    f (s.countChange b up) = f s := by
  unfold State.countChange State.raiseBinder
  dsimp only
  generalize (if up = true then (s.binder b).count + 1 else (s.binder b).count - 1) = count
  split
  · split <;> simp only [raise, binder]
  · split <;> simp only [raise, binder]

theorem State.changeFault_frame {α : Type} {f : State → α} {p : PairNo} (fault : ∀ s r, f (s.setFault p r) = f s)
    (binder : ∀ s b r, f (s.setBinder b r) = f s) (raise : ∀ s src k t, f (s.raise src k t) = f s) (s : State)
    (r : FaultRec) : f (s.changeFault p r) = f s := by
  unfold State.changeFault
  dsimp only
  split
  · exact fault _ _
  · exact (State.countChange_frame binder raise _ _ _).trans (fault _ _)

theorem State.passFault_frame {α : Type} {f : State → α} (closed : ∀ a, ClosedLine fun s => f s = a) (s : State)
    (p : PairNo) : f (s.passFault p) = f s := by
  unfold State.passFault
  split
  · exact (closed _).faultLine _ rfl
  · rfl

@[simp] theorem senseLost_followSustain (now : Time) (sustainMs : Nat) (old new : FaultRec) :
    (followSustain now sustainMs old new).senseLost = new.senseLost := by
  unfold followSustain
  split
  · rfl
  · split <;> rfl

theorem State.senseLost_changeFault (s : State) (p : PairNo) (r : FaultRec) :
    ((s.changeFault p r).fault p).senseLost = r.senseLost := by
  unfold State.changeFault
  dsimp only
  split
  · simp
  · rw [State.countChange_frame (f := fun s => s.fault p) (fun _ _ _ => rfl) (fun _ _ _ _ => by simp)]
    simp

/-! ### Sense lost (R145) -/

/-- What no line, store, pool, fault record or binder change touches, sense lost leaves alone. -/
theorem State.senseLost_frame {α : Type} {f : State → α} {p : PairNo} (line : ∀ s n l, f (s.setLine n l) = f s)
    (store : ∀ s t, SameStore s t → f t = f s) (pool : ∀ s t, SamePool s t → f t = f s)
    (fault : ∀ s r, f (s.setFault p r) = f s) (binder : ∀ s b r, f (s.setBinder b r) = f s) (s : State) :
    f (s.senseLost p) = f s := by
  have raise (s : State) (src : Source) (k : Kind) (t : Option Time) : f (s.raise src k t) = f s :=
    store _ _ (sameStore_raise ⟨rfl⟩ src k t)
  calc f (s.senseLost p) = f ((s.changeFault p { s.fault p with senseLost := true }).passFault p) := raise _ _ _ _
    _ = f (s.changeFault p { s.fault p with senseLost := true }) :=
      State.passFault_frame (ClosedLine.of_frame line store pool) _ _
    _ = f s := State.changeFault_frame fault binder raise _ _

@[simp] theorem State.scan_senseLost (s : State) (p : PairNo) : (s.senseLost p).scan = s.scan :=
  State.senseLost_frame (f := State.scan) (fun _ _ _ => rfl) (fun _ _ h => by rw [h.eq]) (fun _ _ h => h.scan)
    (fun _ _ => rfl) (fun _ _ _ => rfl) s

@[simp] theorem State.bus_senseLost (s : State) (p : PairNo) : (s.senseLost p).bus = s.bus :=
  State.senseLost_frame (f := State.bus) (fun _ _ _ => rfl) (fun _ _ h => by rw [h.eq]) (fun _ _ h => h.bus)
    (fun _ _ => rfl) (fun _ _ _ => rfl) s

theorem State.fault_senseLost_ne (s : State) {p q : PairNo} (h : p ≠ q) : (s.senseLost p).fault q = s.fault q :=
  State.senseLost_frame (f := fun s => s.fault q) (fun _ _ _ => rfl) (fun _ _ h => by rw [h.eq]; rfl)
    (fun _ _ h => by simp only [State.fault, h.watch]) (fun s r => State.fault_setFault_ne s r h) (fun _ _ _ => rfl) s

@[simp] theorem State.senseLost_senseLost (s : State) (p : PairNo) : ((s.senseLost p).fault p).senseLost = true := by
  have raised (s : State) : (s.raiseFault p).fault p = s.fault p := by simp [State.raiseFault]
  have passed (s : State) : (s.passFault p).fault p = s.fault p :=
    State.passFault_frame (f := fun s => s.fault p)
      (ClosedLine.of_frame (fun _ _ _ => rfl) (fun _ _ h => by rw [h.eq]; rfl)
        (fun _ _ h => by simp only [State.fault, h.watch])) s p
  unfold State.senseLost
  rw [raised, passed, State.senseLost_changeFault]

/-! ### One pair's unanswered request (R22 step 1, R25, R27) -/

theorem State.noResponse_of_none {s : State} {p : PairNo} (h : s.scan.outstanding[p] = none) : s.noResponse p = s := by
  unfold State.noResponse
  rw [h]

theorem State.noResponse_of_some {s : State} {p : PairNo} {t : Time} (h : s.scan.outstanding[p] = some t) :
    s.noResponse p = (s.setOutstanding p none).takeInvalid p := by
  unfold State.noResponse
  rw [h]

theorem State.takeInvalid_kept {s : State} {p : PairNo} (h : s.onBus p = true ∨ 16 ≤ (s.scanRec p).invalidRun) :
    s.takeInvalid p = s := by
  unfold State.takeInvalid State.invalidSample
  split
  · rfl
  · rw [if_pos (h.resolve_left ‹_›)]

theorem State.takeInvalid_sixteenth {s : State} {p : PairNo} (off : s.onBus p = false)
    (h : (s.scanRec p).invalidRun = 15) : s.takeInvalid p = (s.setScanRec p ⟨none, none, none, 16⟩).senseLost p := by
  simp [State.takeInvalid, State.invalidSample, off, h]

theorem State.takeInvalid_counted {s : State} {p : PairNo} (off : s.onBus p = false)
    (h : (s.scanRec p).invalidRun < 15) :
    s.takeInvalid p = s.setScanRec p { s.scanRec p with invalidRun := (s.scanRec p).invalidRun + 1 } := by
  have below : ¬16 ≤ (s.scanRec p).invalidRun := by omega
  have notLast : (s.scanRec p).invalidRun ≠ 15 := Nat.ne_of_lt h
  simp [State.takeInvalid, State.invalidSample, off, below, notLast]

theorem State.outstanding_setOutstanding_ne (s : State) {p q : PairNo} (x : Option Time) (h : p ≠ q) :
    (s.setOutstanding p x).scan.outstanding[q] = s.scan.outstanding[q] := by
  simp [State.setOutstanding, Vector.getElem_set_ne, Fin.val_ne_of_ne h]

/-- A pair's unanswered request, scan record and fault record, and whether it is on the test bus, are as they were. -/
structure SamePair (p : PairNo) (s t : State) : Prop where
  outstanding : t.scan.outstanding[p] = s.scan.outstanding[p]
  record : t.scanRec p = s.scanRec p
  fault : t.fault p = s.fault p
  onBus : t.onBus p = s.onBus p

theorem SamePair.refl (p : PairNo) (s : State) : SamePair p s s := ⟨rfl, rfl, rfl, rfl⟩

theorem SamePair.trans {p : PairNo} {s t u : State} (h : SamePair p s t) (k : SamePair p t u) : SamePair p s u :=
  ⟨k.outstanding.trans h.outstanding, k.record.trans h.record, k.fault.trans h.fault, k.onBus.trans h.onBus⟩

theorem samePair_setScanRec (s : State) {p q : PairNo} (r : ScanRec) (h : q ≠ p) : SamePair p s (s.setScanRec q r) :=
  ⟨rfl, State.scanRec_setScanRec_ne s r h, rfl, rfl⟩

theorem samePair_setOutstanding (s : State) {p q : PairNo} (x : Option Time) (h : q ≠ p) :
    SamePair p s (s.setOutstanding q x) :=
  ⟨State.outstanding_setOutstanding_ne s x h, rfl, rfl, rfl⟩

theorem samePair_senseLost (s : State) {p q : PairNo} (h : q ≠ p) : SamePair p s (s.senseLost q) :=
  ⟨by rw [State.scan_senseLost], by simp only [State.scanRec, State.scan_senseLost], State.fault_senseLost_ne s h,
    by simp only [State.onBus, State.bus_senseLost]⟩

/-- An invalid sample of a pair leaves every other pair as it was. -/
theorem samePair_takeInvalid (s : State) {p q : PairNo} (h : q ≠ p) : SamePair p s (s.takeInvalid q) := by
  unfold State.takeInvalid State.invalidSample
  dsimp only
  split
  · exact .refl p s
  · split
    · exact .refl p s
    · split
      · exact (samePair_setScanRec s _ h).trans (samePair_senseLost _ h)
      · exact samePair_setScanRec s _ h

theorem samePair_noResponse (s : State) {p q : PairNo} (h : q ≠ p) : SamePair p s (s.noResponse q) := by
  cases outstanding : s.scan.outstanding[q] with
  | none => rw [State.noResponse_of_none outstanding]; exact .refl p s
  | some t =>
    rw [State.noResponse_of_some outstanding]
    exact (samePair_setOutstanding s _ h).trans (samePair_takeInvalid _ h)

theorem samePair_foldl_noResponse {p : PairNo} : ∀ (qs : List PairNo) (s : State), p ∉ qs →
    SamePair p s (qs.foldl State.noResponse s)
  | [], s, _ => .refl p s
  | q :: qs, s, h => by
    obtain ⟨other, later⟩ := not_or.mp (mt List.mem_cons.mpr h)
    exact (samePair_noResponse s (Ne.symm other)).trans (samePair_foldl_noResponse qs _ later)

/-! ### All unanswered requests (R22 step 1) -/

/-- The unanswered requests of all pairs are recorded as NO_RESPONSE in ascending order (R22 step 1; log 10). Irreducible,
so that no proof evaluates the fold over 72 pairs. -/
@[irreducible] def State.noResponses (s : State) : State := allPairs.foldl State.noResponse s

/-- Among all pairs a pair's own turn is the only one that touches it: it finds the pair as it was before the pass. -/
theorem State.noResponses_at (s : State) (p : PairNo) :
    ∃ v : State, SamePair p s v ∧ SamePair p (v.noResponse p) s.noResponses := by
  obtain ⟨before, behind, pairs⟩ := List.append_of_mem (List.mem_finRange p)
  have once : (before ++ p :: behind).Nodup := pairs ▸ List.nodup_finRange 72
  obtain ⟨-, later, apart⟩ := List.nodup_append.mp once
  refine ⟨before.foldl State.noResponse s, samePair_foldl_noResponse before s fun h => apart p h p (by simp) rfl, ?_⟩
  have split : s.noResponses = behind.foldl State.noResponse ((before.foldl State.noResponse s).noResponse p) := by
    unfold State.noResponses allPairs
    rw [pairs, List.foldl_append, List.foldl_cons]
  rw [split]
  exact samePair_foldl_noResponse behind _ (List.nodup_cons.mp later).1

theorem State.noResponses_of_none {s : State} (h : ∀ p : PairNo, s.scan.outstanding[p] = none) : s.noResponses = s := by
  unfold State.noResponses
  exact foldl_keeps (P := (· = s)) (fun v p hv => by rw [hv]; exact State.noResponse_of_none (h p)) allPairs rfl

/-- Recording unanswered requests touches no scan settings and sends nothing. -/
theorem scanSettings_closed (recs : Vector ScanRec 72) (outstanding : Vector (Option Time) 72) (x : Scan) :
    Closed fun s => ({ s.scan with recs := recs, outstanding := outstanding } : Scan) = x :=
  .of_frame (fun _ _ _ => rfl) (fun _ _ h => by rw [h.eq]) (fun _ _ h => by rw [h.scan]) (fun _ _ h => by rw [h.eq])
    (fun _ _ _ => rfl) (fun _ _ => rfl) (fun _ _ _ => rfl) (fun _ _ _ => rfl) x

theorem State.settings_foldl_noResponse (recs : Vector ScanRec 72) (outstanding : Vector (Option Time) 72)
    (ps : List PairNo) (s : State) :
    ({ (ps.foldl State.noResponse s).scan with recs := recs, outstanding := outstanding } : Scan) =
      { s.scan with recs := recs, outstanding := outstanding } :=
  foldl_keeps (P := fun v => ({ v.scan with recs := recs, outstanding := outstanding } : Scan) = _)
    (fun _ p hv => (scanSettings_closed recs outstanding _).noResponse p hv) ps rfl

theorem State.settings_noResponses (s : State) (recs : Vector ScanRec 72) (outstanding : Vector (Option Time) 72) :
    ({ s.noResponses.scan with recs := recs, outstanding := outstanding } : Scan) =
      { s.scan with recs := recs, outstanding := outstanding } := by
  unfold State.noResponses
  exact State.settings_foldl_noResponse recs outstanding allPairs s

/-! ### The pass that begins (R22 steps 2 to 4) -/

/-- The state in which a pass has its settings fixed and has sent nothing yet (R22 steps 2 and 3). -/
def State.passFixed (s : State) : State := { s.noResponses with scan := s.noResponses.scan.nextSettings }

theorem State.beginPass_eq (s : State) : s.beginPass =
    s.passFixed.includedPairs.foldl (State.requestSample s.noResponses.scan.nextPass) s.passFixed := by
  unfold State.beginPass State.passFixed State.noResponses
  generalize allPairs.foldl (fun s p => s.noResponse p) s = v
  rfl

theorem State.included_iff (s : State) (mode : ScanMode) (phase : Fin 8) (p : PairNo) :
    s.included mode phase p = true ↔ mode = .full ∨ phase.val = p.val % 8 ∨
      ∃ n, s.served p = some n ∧ (s.line n).state ≠ .idle ∧ (s.line n).state ≠ .faulted := by
  cases mode with
  | full => simp [State.included]
  | economy =>
    cases served : s.served p with
    | none => simp [State.included, served]
    | some n => cases state : (s.line n).state <;> simp [State.included, served, state]

theorem State.scan_passFixed (s : State) :
    s.passFixed.scan = { s.scan.nextSettings with recs := s.noResponses.scan.recs } :=
  congrArg Scan.nextSettings (s.settings_noResponses s.noResponses.scan.recs s.scan.outstanding)

/-- A pass changes the scan settings, asks for the included pairs, and leaves the rest as the unanswered requests
left it. -/
theorem State.beginPass_effect (s : State) : ∃ outstanding : Vector (Option Time) 72,
    s.beginPass = { s.noResponses with scan := { s.scan.nextSettings with
      recs := s.noResponses.scan.recs
      outstanding := outstanding
      sent := s.scan.sent ++ s.passFixed.includedPairs.map .request } } ∧
    ∀ p : PairNo, outstanding[p] = if p ∈ s.passFixed.includedPairs then some s.scan.nextPass else none := by
  have ⟨sends, asked⟩ := State.foldl_requestSample s.noResponses.scan.nextPass s.passFixed.includedPairs s.passFixed
  have passTime := congrArg Scan.nextPass (s.settings_noResponses s.scan.recs s.scan.outstanding)
  have emptied (p : PairNo) : s.passFixed.scan.outstanding[p] = none := by simp [State.passFixed, Scan.nextSettings]
  rw [← s.beginPass_eq] at sends asked
  rw [s.scan_passFixed] at sends
  refine ⟨_, sends, fun p => ?_⟩
  dsimp only at passTime
  simpa only [emptied, passTime] using asked p

theorem State.mem_passFixed_includedPairs (s : State) (p : PairNo) : p ∈ s.passFixed.includedPairs ↔
    s.scan.mode = .full ∨ s.scan.nextSettings.phase.val = p.val % 8 ∨
      ∃ n, s.noResponses.served p = some n ∧ (s.noResponses.line n).state ≠ .idle ∧
        (s.noResponses.line n).state ≠ .faulted := by
  rw [State.mem_includedPairs, State.included_iff, s.scan_passFixed]
  rfl

theorem execPass_of_due {s : State} (h : later s.scan.nextPass s.now = false) :
    execPass s = .next s.beginPass.finish := by
  simp [execPass, due, h]

/-- Settles O9: a pass is the unanswered requests and then the sends of the included pairs (`beginPass_effect`); with no
request unanswered the first part does nothing. -/
theorem passAsksTheIncludedPairs : Obligations.PassAsksTheIncludedPairs := by
  unfold Obligations.PassAsksTheIncludedPairs
  intro s isDue
  obtain ⟨outstanding, effect, asked⟩ := s.beginPass_effect
  refine ⟨s.beginPass, execPass_of_due isDue, ?_⟩
  rw [effect]
  refine ⟨rfl, rfl, rfl, rfl, rfl, ⟨fun p => ?_, ?_⟩, fun idle => ?_⟩
  · have isAsked := s.mem_passFixed_includedPairs p
    exact ⟨fun h => (asked p).trans (if_pos (isAsked.mpr h)), fun h => (asked p).trans (if_neg fun m => h (isAsked.mp m))⟩
  · exact ⟨_, s.passFixed.includedPairs_ascending, s.mem_passFixed_includedPairs, rfl⟩
  · have none_recorded := State.noResponses_of_none idle
    exact ⟨by rw [none_recorded], by rw [none_recorded]⟩

/-! ### Unanswered requests and the end of the pass -/

/-- The end of an event changes no fault record. -/
theorem State.fault_finish (s : State) (p : PairNo) : s.finish.fault p = s.fault p := by
  have chosen : s.finish.fault p = s.look.fault p := by
    unfold State.finish
    rw [State.choose_eq]
    rfl
  rw [chosen]
  rcases s.look_cases with nothing | ⟨e, -, -, claimed⟩
  · rw [nothing]
  · rw [claimed, State.claim_eq]
    rfl

/-- The end of an event leaves a scan record as it is, or a claim of its pair takes its glitch run and sample class. -/
theorem State.scanRec_finish (s : State) (p : PairNo) : s.finish.scanRec p = s.scanRec p ∨
    s.finish.scanRec p = { s.scanRec p with run := none, sampleClass := none } := by
  have chosen : s.finish.scanRec p = s.look.scanRec p := by
    unfold State.finish
    rw [State.choose_eq]
    rfl
  rw [chosen]
  rcases s.look_cases with nothing | ⟨e, -, -, claimed⟩
  · rw [nothing]
    exact .inl rfl
  · rw [claimed, State.scanRec_claim]
    split
    · exact .inr rfl
    · exact .inl rfl

/-- What a pass leaves of a pair with an unanswered request is what an invalid sample of it leaves, up to a claim at the
end of the pass. -/
theorem State.finish_beginPass_at {s : State} {p : PairNo} {t : Time} (h : s.scan.outstanding[p] = some t) :
    ∃ x : State, x.scanRec p = s.scanRec p ∧ x.onBus p = s.onBus p ∧
      s.beginPass.finish.fault p = (x.takeInvalid p).fault p ∧
      (s.beginPass.finish.scanRec p = (x.takeInvalid p).scanRec p ∨
        s.beginPass.finish.scanRec p = { (x.takeInvalid p).scanRec p with run := none, sampleClass := none }) := by
  obtain ⟨v, before, behind⟩ := s.noResponses_at p
  obtain ⟨_, effect, -⟩ := s.beginPass_effect
  rw [State.noResponse_of_some (before.outstanding.trans h)] at behind
  have fault : s.beginPass.fault p = s.noResponses.fault p := by rw [effect]; rfl
  have record : s.beginPass.scanRec p = s.noResponses.scanRec p := by rw [effect]; rfl
  refine ⟨v.setOutstanding p none, before.record, before.onBus, ?_, ?_⟩
  · rw [State.fault_finish, fault, behind.fault]
  · rw [← behind.record, ← record]
    exact s.beginPass.scanRec_finish p

/-- The statement's way of recording an unanswered request is the model's. -/
theorem State.noResponse_eq (v : State) (p : PairNo) : v.noResponse p =
    if v.scan.outstanding[p] = none then v
    else
      let w : State := { v with scan := { v.scan with outstanding := v.scan.outstanding.set p none } }
      let k := v.scanRec p
      if v.onBus p = true ∨ 16 ≤ k.invalidRun then w
      else if k.invalidRun = 15 then (w.setScanRec p ⟨none, none, none, 16⟩).senseLost p
      else w.setScanRec p { k with invalidRun := k.invalidRun + 1 } := by
  cases request : v.scan.outstanding[p] with
  | none => rw [State.noResponse_of_none request]; rfl
  | some t =>
    rw [State.noResponse_of_some request, if_neg (by simp)]
    dsimp only
    split
    · next kept => exact State.takeInvalid_kept kept
    · next counts =>
      obtain ⟨onBus, below⟩ := not_or.mp counts
      have off : v.onBus p = false := Bool.eq_false_iff.mpr onBus
      split
      · next sixteenth => exact State.takeInvalid_sixteenth off sixteenth
      · next earlier => exact State.takeInvalid_counted (s := v.setOutstanding p none) off (by simp; omega)

/-- Settles O10: the pass begins with the fold of `noResponse` over the pairs, in which a pair's own turn alone touches
it; the end of the event takes at most the glitch run and the sample class of a pair it claims. -/
theorem unansweredRequestIsInvalid : Obligations.UnansweredRequestIsInvalid := by
  unfold Obligations.UnansweredRequestIsInvalid
  refine ⟨?_, fun s p t isDue request => ?_⟩
  · intro s isDue record recorded
    have record_eq : record = State.noResponse := by
      funext v p
      rw [State.noResponse_eq]
    have recorded_eq : recorded = s.noResponses := by
      unfold State.noResponses allPairs recorded
      rw [record_eq]
    obtain ⟨_, effect, -⟩ := s.beginPass_effect
    rw [recorded_eq]
    refine ⟨s.beginPass, execPass_of_due isDue, ?_⟩
    rw [effect]
    exact ⟨rfl, rfl⟩
  · obtain ⟨x, record, bus, fault, left⟩ := State.finish_beginPass_at request
    refine ⟨s.beginPass.finish, execPass_of_due isDue, fun onBus => ?_, fun off few => ?_, fun off fifteen => ?_,
      fun off many => ?_⟩
    · rw [State.takeInvalid_kept (.inl (bus.trans onBus)), record] at left
      rcases left with left | left <;> rw [left]
    · rw [State.takeInvalid_counted (bus.trans off) (record ▸ few), State.scanRec_setScanRec_self, record] at left
      rcases left with left | left <;> rw [left] <;> exact ⟨rfl, rfl⟩
    · have lost := State.takeInvalid_sixteenth (bus.trans off) (record ▸ fifteen)
      have lostRecord : (x.takeInvalid p).scanRec p = ⟨none, none, none, 16⟩ := by
        rw [lost, State.scanRec, State.scan_senseLost]
        exact State.scanRec_setScanRec_self _ _ _
      rw [lostRecord] at left
      refine ⟨left.elim id id, ?_⟩
      rw [fault, lost, State.senseLost_senseLost]
    · rw [State.takeInvalid_kept (.inr (record ▸ many)), record] at left
      rcases left with left | left <;> rw [left]

end Sys2Proof.Machine
end

section
/-! SUPPORT. The settings that requests write, and the binders under a changed binder_k (R24, R132, R133, R149, R150,
R154, R176). -/

namespace Sys2Proof.Machine

/-! ### Requests that a ready part accepts or refuses -/

/-- A frame carries the request: it is of a request type, within the longest payload, and read back as it was sent. -/
structure Request.Carried (r : Request) : Prop where
  decoded : decodeRequest r.type r.payload = .request r
  isRequest : isRequestType r.type = true
  fits : r.payload.length ≤ 250

theorem arriveRequest_accepted {s t : State} (h : s.ready) {r : Request} (carried : r.Carried) {tag : Byte}
    (run : runRequest r tag s.heard = accept t) :
    arriveRequest r tag s = .next (t.answer (r.type + 0x80#8) tag [0]) := by
  rw [arriveRequest_ready h r tag carried.decoded carried.isRequest carried.fits, run]
  rfl

theorem arriveRequest_refused {s : State} (h : s.ready) {r : Request} (carried : r.Carried) {tag : Byte}
    (run : runRequest r tag s.heard = refuse .badArg s.heard) :
    arriveRequest r tag s = .next (s.heard.answer (r.type + 0x80#8) tag [3]) := by
  rw [arriveRequest_ready h r tag carried.decoded carried.isRequest carried.fits, run]
  rfl

theorem carried_scanMode (mode : Byte) : (Request.scanMode mode).Carried :=
  ⟨rfl, rfl, by simp [Request.payload]⟩

theorem carried_routeWrite (kind cls : Byte) : (Request.routeWrite kind cls).Carried :=
  ⟨rfl, rfl, by simp [Request.payload]⟩

theorem carried_faultLimits (pairs : BitVec 72) (v ma : Byte) : (Request.faultLimits pairs v ma).Carried where
  decoded := by
    have length : (setBytes 9 pairs.toNat).length = 9 := length_setBytes 9 _
    have read : parseLimits (setBytes 9 pairs.toNat ++ [v, ma]) = some (.faultLimits pairs v ma) := by
      unfold parseLimits
      rw [List.drop_left' length, List.take_left' length]
      simp only [set_setBytes pairs (n := 9) (by decide)]
    exact congrArg Decoded.ofOption read
  isRequest := rfl
  fits := by simp [Request.payload, length_setBytes]

theorem carried_watchSet (a : WatchArgs) : (Request.watchSet a).Carried where
  decoded := by
    have read : parseWatch (watchBytes a) = some a := by
      simp [parseWatch, watchBytes, halfBytes, quadBytes, length_setBytes, set_setBytes a.pairs (n := 9) (by decide)]
    exact congrArg (fun x => Decoded.ofOption (x.map .watchSet)) read
  isRequest := rfl
  fits := by simp [Request.payload, watchBytes, halfBytes, quadBytes, length_setBytes]

theorem carried_testSet (a : TestSetArgs) : (Request.testSet a).Carried where
  decoded := by
    have read : parseTestSet (testSetBytes a) = some a := by simp [parseTestSet, testSetBytes, halfBytes]
    exact congrArg (fun x => Decoded.ofOption (x.map .testSet)) read
  isRequest := rfl
  fits := by simp [Request.payload, testSetBytes, halfBytes]

/-! ### The checks of the arguments (R24, R133, R154, R176) -/

theorem modeArg_refused {mode : Byte} (h : 1 < mode.toNat) : modeArg mode = none := by
  unfold modeArg
  rw [if_neg (by rintro rfl; simp at h), if_neg (by rintro rfl; simp at h)]

theorem noticeModeArg_eq (b : Byte) :
    noticeModeArg b = if b.toNat ≤ 1 then some (if b = 0 then .every else .startStop) else none := by
  unfold noticeModeArg
  by_cases every : b = 0
  · subst every; rfl
  · by_cases startStop : b = 1
    · subst startStop; rfl
    · have : ¬b.toNat ≤ 1 := by bv_omega
      rw [if_neg this]
      exact (if_neg every).trans (if_neg startStop)

theorem eightArg_of_val {b : Byte} {k : Fin 8} (h : k.val = b.toNat) : eightArg b = some k := by
  unfold eightArg
  rw [dif_pos (h ▸ k.isLt)]
  exact congrArg some (Fin.ext h.symm)

theorem routeArg_of_val {b : Byte} {c : Fin 4} (h : c.val = b.toNat) : routeArg b = some c := by
  unfold routeArg
  rw [dif_pos (h ▸ c.isLt)]
  exact congrArg some (Fin.ext h.symm)

theorem eightArg_refused {b : Byte} (h : 8 ≤ b.toNat) : eightArg b = none := dif_neg (Nat.not_lt.mpr h)

theorem routeArg_refused {b : Byte} (h : 4 ≤ b.toNat) : routeArg b = none := dif_neg (Nat.not_lt.mpr h)

theorem runRouteWrite_refused {kind cls : Byte} (h : 8 ≤ kind.toNat ∨ 4 ≤ cls.toNat) (s : State) :
    runRouteWrite kind cls s = refuse .badArg s := by
  unfold runRouteWrite
  rcases h with h | h
  · rw [eightArg_refused h]
  · rw [routeArg_refused h]
    cases eightArg kind <;> rfl

/-- WATCH_SET's settings are written when each is in its range (R133). -/
theorem watchArg_eq (a : WatchArgs) : watchArg a =
    if 2 ≤ a.suspectScore.toNat ∧ a.suspectScore.toNat ≤ 63 ∧ a.sustainMs.toNat ≤ 60000 ∧
        2 ≤ a.binderK.toNat ∧ a.binderK.toNat ≤ 8 ∧ 1000 ≤ a.holdMs.toNat ∧ a.holdMs.toNat ≤ 600000 ∧
        a.mode.toNat ≤ 1 ∧ a.guardMs.toNat ≤ 600000 then
      some ⟨a.suspectScore.toNat, a.sustainMs.toNat, a.binderK.toNat, a.holdMs.toNat,
        if a.mode = 0 then .every else .startStop, a.guardMs.toNat, a.pairs⟩
    else none := by
  unfold watchArg
  rw [noticeModeArg_eq]
  by_cases mode : a.mode.toNat ≤ 1
  · simp only [if_pos mode, Bool.and_eq_true, within_iff]
    congr 1
    exact propext (by omega)
  · rw [if_neg mode, if_neg (by omega)]

/-- TEST_SET's settings are written when each is in its range (R154). -/
theorem testSetArg_eq (a : TestSetArgs) : testSetArg a =
    if 1 ≤ a.attemptsMax.toNat ∧ a.attemptsMax.toNat ≤ 5 ∧ 50 ≤ a.quietFirstMs.toNat ∧ a.quietFirstMs.toNat ≤ 2000 ∧
        20 ≤ a.quietRetryMs.toNat ∧ a.quietRetryMs.toNat ≤ 2000 ∧ 20 ≤ a.rMinKohm.toNat ∧
        a.rMinKohm.toNat ≤ 2000 ∧ 5 ≤ a.vTest.toNat ∧ a.vTest.toNat ≤ 150 then
      some ⟨a.attemptsMax.toNat, a.quietFirstMs.toNat, a.quietRetryMs.toNat, a.rMinKohm.toNat, a.vTest.toNat⟩
    else none := by
  unfold testSetArg
  simp only [Bool.and_eq_true, within_iff, and_assoc]

/-! ### Binders brought into line (R149) -/

/-- A binder's record brought into line with a changed binder_k (R149). -/
def Binder.aligned (w : WatchSettings) (now : Time) (r : Binder) : Binder :=
  if w.binderK ≤ r.count then { r with hold := true, holdTimer := none }
  else if r.hold && r.holdTimer.isNone then { r with holdTimer := some (after now w.holdMs) }
  else r

/-- The binder goes on hold when it is brought into line (R149). -/
def State.goesOnHold (s : State) (b : BinderNo) : Bool :=
  decide (s.watch.settings.binderK ≤ (s.binder b).count ∧ (s.binder b).hold = false)

theorem Binder.aligned_held {w : WatchSettings} {now : Time} {r : Binder} (h : w.binderK ≤ r.count) :
    r.aligned w now = ⟨r.count, true, none⟩ := if_pos h

theorem Binder.aligned_timed {w : WatchSettings} {now : Time} {r : Binder} (low : r.count < w.binderK)
    (hold : r.hold = true) :
    r.aligned w now = ⟨r.count, true, some (r.holdTimer.getD (now + BitVec.ofNat 32 w.holdMs))⟩ := by
  obtain ⟨count, hold', timer⟩ := r
  subst hold
  cases timer <;> simp [Binder.aligned, Nat.not_le.mpr low, after]

theorem Binder.aligned_free {w : WatchSettings} {now : Time} {r : Binder} (low : r.count < w.binderK)
    (hold : r.hold = false) : r.aligned w now = r := by
  simp [Binder.aligned, Nat.not_le.mpr low, hold]

theorem State.binder_alignBinder_self (s : State) (b : BinderNo) :
    (s.alignBinder b).binder b = (s.binder b).aligned s.watch.settings s.now := by
  unfold State.alignBinder State.raiseBinder Binder.aligned
  dsimp only
  split
  · split <;> simp
  · split <;> simp

/-- Bringing a binder into line changes binders and notices alone. -/
theorem State.alignBinder_frame (binders : Vector Binder 9) (notices : Notices) (s : State) (b : BinderNo) :
    ({ s.alignBinder b with
        watch := { (s.alignBinder b).watch with binders := binders }, notices := notices } : State) =
      { s with watch := { s.watch with binders := binders }, notices := notices } := by
  unfold State.alignBinder State.raiseBinder State.raise
  dsimp only
  repeat' split
  all_goals rfl

theorem State.foldl_alignBinder_frame (binders : Vector Binder 9) (notices : Notices) (bs : List BinderNo) (s : State) :
    ({ bs.foldl State.alignBinder s with
        watch := { (bs.foldl State.alignBinder s).watch with binders := binders }, notices := notices } : State) =
      { s with watch := { s.watch with binders := binders }, notices := notices } :=
  foldl_keeps (P := fun t => ({ t with watch := { t.watch with binders := binders }, notices := notices } : State) = _)
    (fun t b ht => (State.alignBinder_frame binders notices t b).trans ht) bs rfl

theorem State.now_alignBinder (s : State) (b : BinderNo) : (s.alignBinder b).now = s.now := by
  have now := congrArg State.now (State.alignBinder_frame s.watch.binders s.notices s b)
  exact now

/-- Each binder of the list is brought into line once, from its record before. -/
theorem State.binder_foldl_alignBinder : ∀ {bs : List BinderNo} (_ : bs.Nodup) (s : State) (c : BinderNo),
    (bs.foldl State.alignBinder s).binder c =
      if c ∈ bs then (s.binder c).aligned s.watch.settings s.now else s.binder c
  | [], _, _, _ => rfl
  | b :: bs, once, s, c => by
    obtain ⟨notAgain, later⟩ := List.nodup_cons.mp once
    obtain ⟨settings, others, -⟩ := s.alignBinder_effect b
    rw [List.foldl_cons, State.binder_foldl_alignBinder later, settings, s.now_alignBinder]
    by_cases same : c = b
    · subst same
      rw [if_neg notAgain, if_pos (by simp), State.binder_alignBinder_self]
    · rw [others c same]
      simp [same]

/-- BINDER is raised for exactly the binders that go on hold, in the order of the list (R150; log 10). -/
theorem State.notices_foldl_alignBinder : ∀ {bs : List BinderNo} (_ : bs.Nodup) (s v : State),
    s.notices = v.notices →
    (bs.foldl State.alignBinder s).notices = ((bs.filter s.goesOnHold).foldl State.raiseBinder v).notices
  | [], _, _, _, h => h
  | b :: bs, once, s, v, h => by
    obtain ⟨notAgain, later⟩ := List.nodup_cons.mp once
    obtain ⟨settings, others, raised⟩ := s.alignBinder_effect b
    have same_filter : bs.filter (s.alignBinder b).goesOnHold = bs.filter s.goesOnHold :=
      List.filter_congr fun c hc => by
        simp only [State.goesOnHold, settings, others c fun e => notAgain (e ▸ hc)]
    rw [List.foldl_cons]
    by_cases goes : s.watch.settings.binderK ≤ (s.binder b).count ∧ (s.binder b).hold = false
    · rw [if_pos goes] at raised
      rw [List.filter_cons_of_pos (show s.goesOnHold b = true from decide_eq_true goes), List.foldl_cons, ← same_filter]
      exact State.notices_foldl_alignBinder later _ _ (raised.trans (State.raise_notices_congr h _ _ _))
    · rw [if_neg goes] at raised
      rw [List.filter_cons_of_neg (by simpa [State.goesOnHold] using goes), ← same_filter]
      exact State.notices_foldl_alignBinder later _ _ (raised.trans h)

/-- Every binder brought into line, in ascending order (R149; log 10). Irreducible, so that no proof evaluates the
fold. -/
@[irreducible] def State.alignBinders (s : State) : State := (List.finRange 9).foldl State.alignBinder s

theorem State.alignBinders_frame (binders : Vector Binder 9) (notices : Notices) (s : State) :
    ({ s.alignBinders with watch := { s.alignBinders.watch with binders := binders }, notices := notices } : State) =
      { s with watch := { s.watch with binders := binders }, notices := notices } := by
  unfold State.alignBinders
  exact State.foldl_alignBinder_frame binders notices (List.finRange 9) s

theorem State.binder_alignBinders (s : State) (b : BinderNo) :
    s.alignBinders.binder b = (s.binder b).aligned s.watch.settings s.now := by
  unfold State.alignBinders
  rw [State.binder_foldl_alignBinder (List.nodup_finRange 9), if_pos (List.mem_finRange b)]

theorem State.notices_alignBinders {s v : State} (h : s.notices = v.notices) : s.alignBinders.notices =
    (((List.finRange 9).filter s.goesOnHold).foldl State.raiseBinder v).notices := by
  unfold State.alignBinders
  exact State.notices_foldl_alignBinder (List.nodup_finRange 9) s v h

/-! ### The settings requests -/

theorem runWatchSet_same {a : WatchArgs} {w : WatchSettings} (arg : watchArg a = some w) {s : State}
    (same : w.binderK = s.watch.settings.binderK) :
    runWatchSet a s = accept { s with watch := { s.watch with settings := w } } := by
  unfold runWatchSet
  rw [arg]
  exact if_pos same

theorem runWatchSet_changed {a : WatchArgs} {w : WatchSettings} (arg : watchArg a = some w) {s : State}
    (changed : w.binderK ≠ s.watch.settings.binderK) : runWatchSet a s =
      accept (State.alignBinders { s with watch := { s.watch with settings := w } }) := by
  unfold runWatchSet State.alignBinders
  rw [arg]
  exact if_neg changed

theorem runWatchSet_refused {a : WatchArgs} (arg : watchArg a = none) (s : State) :
    runWatchSet a s = refuse .badArg s := by
  unfold runWatchSet
  rw [arg]

/-- Each code of SCAN_MODE writes its mode (R24). -/
theorem scanMode_written {s : State} (h : s.ready) (tag : Byte) {mode : Byte} {m : ScanMode}
    (code : (mode = 0 ∧ m = .full) ∨ (mode = 1 ∧ m = .economy)) : exec (.scanMode tag mode) s =
      .next (State.answer { s.heard with scan := { s.scan with mode := m } } 0x89 tag [0]) := by
  rcases code with ⟨rfl, rfl⟩ | ⟨rfl, rfl⟩
  · exact arriveRequest_accepted h (carried_scanMode 0) rfl
  · exact arriveRequest_accepted h (carried_scanMode 1) rfl

/-- A change of binder_k: the binders are brought into line one after another (R149, R150). -/
theorem watchSet_changed {s : State} (h : s.ready) (tag : Byte) {a : WatchArgs} {w : WatchSettings}
    (arg : watchArg a = some w) (changed : w.binderK ≠ s.watch.settings.binderK) :
    exec (.watchSet tag a) s = .next
      (State.answer (State.alignBinders { s.heard with watch := { s.watch with settings := w } }) 0x92 tag [0]) :=
  arriveRequest_accepted h (carried_watchSet a) (runWatchSet_changed arg changed)

/-- Settles O48: each request is carried by its frame and executed at once; under a changed binder_k the fold over the
binders changes binders and notices alone, each binder once. -/
theorem settingsAreWritten : Obligations.SettingsAreWritten := by
  unfold Obligations.SettingsAreWritten
  intro s tag ready
  refine ⟨fun mode high => ?scanModeRefused, fun mode m code => scanMode_written ready tag code,
    fun pairs v ma => ?faultLimits, fun a => ?watchSet, fun a => ?testSet, fun kind cls high => ?routeRefused,
    fun kind cls k c hk hc => ?routeWritten⟩
  case scanModeRefused =>
    refine arriveRequest_refused ready (carried_scanMode mode) ?_
    show runScanMode mode s.heard = _
    rw [runScanMode, modeArg_refused high]
  case faultLimits =>
    intro legal
    have run : runRequest (.faultLimits pairs v ma) tag s.heard = if legal then
        accept (s.heard.writeLimits pairs ⟨v.toNat, ma.toNat⟩) else refuse .badArg s.heard := by
      show runFaultLimits pairs v ma s.heard = _
      simp only [runFaultLimits, Bool.and_eq_true, within_iff, and_assoc, legal]
    refine ⟨fun illegal => arriveRequest_refused ready (carried_faultLimits pairs v ma) (run.trans (if_neg illegal)),
      fun ok => ⟨_, fun p => ?_, arriveRequest_accepted ready (carried_faultLimits pairs v ma) (run.trans (if_pos ok))⟩⟩
    simp [State.heard]
  case watchSet =>
    intro legal
    have arg := watchArg_eq a
    refine ⟨fun illegal => arriveRequest_refused ready (carried_watchSet a)
      (runWatchSet_refused (arg.trans (if_neg illegal)) _), ?_⟩
    rintro mode ok rfl w u
    have written : watchArg a = some w := arg.trans (if_pos ok)
    refine ⟨fun same => arriveRequest_accepted ready (carried_watchSet a) (runWatchSet_same written same),
      fun changed => ⟨_, watchSet_changed ready tag written changed, ?_, fun b => ?_, ?_⟩⟩
    · exact u.alignBinders_frame s.watch.binders s.notices
    · have aligned : u.alignBinders.binder b = (s.binder b).aligned w s.now := u.binder_alignBinders b
      exact ⟨fun held => aligned.trans (Binder.aligned_held held),
        fun low hold => aligned.trans (Binder.aligned_timed low hold),
        fun low hold => aligned.trans (Binder.aligned_free low hold)⟩
    · exact State.notices_alignBinders (s := u) rfl
  case testSet =>
    intro w legal
    have arg : testSetArg a = if legal then some w else none := testSetArg_eq a
    refine ⟨fun illegal => arriveRequest_refused ready (carried_testSet a) ?_,
      fun ok => arriveRequest_accepted ready (carried_testSet a) ?_⟩
    · show runTestSet a s.heard = _
      rw [runTestSet, arg, if_neg illegal]
    · show runTestSet a s.heard = _
      rw [runTestSet, arg, if_pos ok]
      rfl
  case routeRefused =>
    exact arriveRequest_refused ready (carried_routeWrite kind cls) (runRouteWrite_refused high _)
  case routeWritten =>
    refine arriveRequest_accepted ready (carried_routeWrite kind cls) ?_
    show runRouteWrite kind cls s.heard = _
    rw [runRouteWrite, eightArg_of_val hk, routeArg_of_val hc]
    rfl

end Sys2Proof.Machine
end

section
/-! SUPPORT. The line under the operations on it: its phase, what a discarded pulse digit, a closure and a given-up
detector leave of it, and the profile that governs it. -/

namespace Sys2Proof.Machine

/-! ### The phase of an off-hook line (R41, R50) -/

/-- A line is in a phase by its state, or in OPEN by its return state. -/
theorem Line.phase_eq_some {l : Line} {ph : OffHook} : l.phase = some ph ↔
    l.state = ph.toState ∨ (l.state = .opened ∧ l.returnState = some ph) := by
  unfold Line.phase
  cases l.state <;> cases ph <;> simp [OffHook.toState]

theorem Line.phase_of_opened {l : Line} (h : l.state = .opened) : l.phase = l.returnState := by
  simp [Line.phase, h]

/-- The new phase of a line whose state is known (R50). -/
theorem Line.setPhase_of_state {l : Line} {st : LineState} (h : l.state = st) (ph : OffHook) :
    l.setPhase ph = if st = .opened then { l with returnState := some ph } else { l with state := ph.toState } := by
  rw [Line.setPhase, h]

/-! ### The end of a pulse digit (R64, R73) -/

theorem Line.discardPulse_eq (l : Line) : l.discardPulse =
    { l with
      gapTimer := none, pulseCount := none, learning := l.endDigitLearning.learning,
      learnTimer := l.endDigitLearning.learnTimer,
      collection := l.collection.map fun c => { c with marks := { c.marks with mutilated := true } } } := by
  unfold Line.discardPulse Line.endDigitLearning
  dsimp only
  split <;> rfl

@[simp] theorem Line.hasDigit_mark (l : Line) (f : Marks → Marks) : (l.mark f).hasDigit = l.hasDigit := by
  unfold Line.hasDigit Line.mark
  cases l.collection <;> rfl

/-- A discarded pulse digit is in no collection yet, so the digits stay (R64). -/
@[simp] theorem Line.hasDigit_discardPulse (l : Line) : l.discardPulse.hasDigit = l.hasDigit := by
  rw [Line.discardPulse_eq]
  exact Line.hasDigit_mark l fun m => { m with mutilated := true }

@[simp] theorem Line.hasDigit_discardAnyPulse (l : Line) : l.discardAnyPulse.hasDigit = l.hasDigit := by
  unfold Line.discardAnyPulse
  split <;> simp

@[simp] theorem Line.state_discardAnyPulse (l : Line) : l.discardAnyPulse.state = l.state := by
  unfold Line.discardAnyPulse
  split
  · rw [Line.discardPulse_eq]
  · rfl

@[simp] theorem Line.snapshot_discardPulse (l : Line) : l.discardPulse.snapshot = l.snapshot := by
  rw [Line.discardPulse_eq]

@[simp] theorem Line.profile_discardPulse (l : Line) : l.discardPulse.profile = l.profile := by
  rw [Line.discardPulse_eq]

theorem Line.discardAnyPulse_of_phase {l : Line} {ph : OffHook} (h : l.phase = some ph) :
    l.discardAnyPulse = if ph = .pulsing then l.discardPulse else l := by
  simp [Line.discardAnyPulse, h]

theorem Line.hasDigit_iff (l : Line) : l.hasDigit = true ↔ ∃ c, l.collection = some c ∧ c.digits ≠ [] := by
  unfold Line.hasDigit
  cases l.collection <;> simp

/-! ### Closures and given-up detectors -/

@[simp] theorem State.line_arrive (s : State) (r : DialRecord) (m : LineNo) : (s.arrive r).line m = s.line m := by
  rw [(sameStore_arrive s r).eq]
  rfl

@[simp] theorem State.profiles_arrive (s : State) (r : DialRecord) : (s.arrive r).profiles = s.profiles := by
  rw [(sameStore_arrive s r).eq]

/-- A closure leaves its line without collection, and stops the collect timer of an open one (R108). -/
theorem State.line_closeCollection (s : State) (n : LineNo) (c : Cause) (t : Time) :
    (s.closeCollection n c t).line n =
      { s.line n with
        collection := none
        collectTimer := if (s.line n).collection = none then (s.line n).collectTimer else none } := by
  unfold State.closeCollection
  cases h : (s.line n).collection with
  | none => simp [← h]
  | some c => simp

@[simp] theorem State.profiles_closeCollection (s : State) (n : LineNo) (c : Cause) (t : Time) :
    (s.closeCollection n c t).profiles = s.profiles := by
  unfold State.closeCollection
  split <;> simp

/-- Of a line's fields a grant can change the binding and, by the wait, what is in the collection (R82). -/
theorem State.line_grantHead (s : State) (d : DetectorNo) (m : LineNo) : ∃ (b : Binding) (f : Collection → Collection),
    (s.grantHead d).line m = { s.line m with binding := b, collection := (s.line m).collection.map f } := by
  unfold State.grantHead
  split
  · exact ⟨(s.line m).binding, id, by simp⟩
  next w rest _ =>
    by_cases h : m = w.line
    · subst h
      exact ⟨.detector d, fun c => c.addWait (elapsed w.queuedTime s.now), by simp [State.bindDetector]⟩
    · exact ⟨(s.line m).binding, id, by simp [State.bindDetector, State.line_modLine_ne _ _ (Ne.symm h)]⟩

/-- Of a line's fields the end of a detector's use can change no others than a grant can (R80, R81). -/
theorem State.line_dropDetector (s : State) (n m : LineNo) : ∃ (b : Binding) (f : Collection → Collection),
    (s.dropDetector n).line m = { s.line m with binding := b, collection := (s.line m).collection.map f } := by
  have unbound (u : State) (h : u.lines = s.lines) : ∃ b : Binding,
      (u.modLine n fun l => { l with binding := .none }).line m = { s.line m with binding := b } := by
    have line (k : LineNo) : u.line k = s.line k := by rw [State.line, h, State.line]
    by_cases hm : m = n
    · subst hm
      exact ⟨.none, by simp [line]⟩
    · exact ⟨_, by rw [State.line_modLine_ne _ _ (Ne.symm hm), line]⟩
  unfold State.dropDetector
  split
  · exact ⟨(s.line m).binding, id, by simp⟩
  · obtain ⟨b, h⟩ := unbound (s.setDetectorQueue (s.pool.queue.filter fun w => decide (w.line ≠ n))) rfl
    exact ⟨b, id, by rw [h, Option.map_id_fun, id]⟩
  next d _ =>
    obtain ⟨b, h⟩ := unbound _ (State.lines_setDetector s d { s.detector d with bound := none })
    dsimp only
    split
    · obtain ⟨b', f, h'⟩ := State.line_grantHead _ d m
      exact ⟨b', f, by rw [h', h]⟩
    · exact ⟨b, id, by rw [h, Option.map_id_fun, id]⟩

@[simp] theorem State.state_dropDetector (s : State) (n m : LineNo) :
    ((s.dropDetector n).line m).state = (s.line m).state := by
  obtain ⟨b, f, h⟩ := s.line_dropDetector n m
  rw [h]

theorem State.collection_dropDetector {s : State} {m : LineNo} (h : (s.line m).collection = none) (n : LineNo) :
    ((s.dropDetector n).line m).collection = none := by
  obtain ⟨b, f, line⟩ := s.line_dropDetector n m
  simp [line, h]

/-! ### The governing profile (R16, R17) -/

/-- The profile that governs a line depends on its snapshot, its profile number and the profiles alone. -/
theorem State.profileOf_congr {s t : State} {n : LineNo} (profiles : t.profiles = s.profiles)
    (snapshot : (t.line n).snapshot = (s.line n).snapshot) (profile : (t.line n).profile = (s.line n).profile) :
    t.profileOf n = s.profileOf n := by
  unfold State.profileOf State.liveProfile
  simp only [profiles, snapshot, profile]

theorem State.profileOf_setLine {s : State} {n : LineNo} {l : Line} (snapshot : l.snapshot = (s.line n).snapshot)
    (profile : l.profile = (s.line n).profile) : (s.setLine n l).profileOf n = s.profileOf n :=
  State.profileOf_congr rfl (by simpa using snapshot) (by simpa using profile)

@[simp] theorem State.profileOf_raise (s : State) (n : LineNo) (src : Source) (k : Kind) (t : Option Time) :
    (s.raise src k t).profileOf n = s.profileOf n :=
  State.profileOf_congr (by simp) (by simp) (by simp)

@[simp] theorem State.profileOf_closeCollection (s : State) (n : LineNo) (c : Cause) (t : Time) :
    (s.closeCollection n c t).profileOf n = s.profileOf n :=
  State.profileOf_congr (by simp) (by rw [State.line_closeCollection]) (by rw [State.line_closeCollection])

@[simp] theorem State.profileOf_discardAnyPulse (s : State) (n : LineNo) :
    (s.modLine n .discardAnyPulse).profileOf n = s.profileOf n := by
  apply State.profileOf_setLine
  all_goals
    unfold Line.discardAnyPulse
    split <;> simp

/-! ### Times reached, and a raise beside a line -/

/-- A timer set for a time already reached expires at once (R1). -/
theorem ite_due {α : Type} (e now : Time) (a b : α) :
    (if due e now then a else b) = if later e now then b else a := by
  unfold due
  cases later e now <;> rfl

theorem State.raise_modLine (s : State) (n : LineNo) (f : Line → Line) (src : Source) (k : Kind) (t : Option Time) :
    (s.modLine n f).raise src k t = (s.raise src k t).modLine n f := by
  rw [State.modLine_eq, State.raise_setLine, State.modLine_eq, State.line_raise]

end Sys2Proof.Machine
end

section
/-! SUPPORT. The breaks of a line in OPEN by their length: hits, pulses, invalid breaks and flashes (R43 to R49). -/

namespace Sys2Proof.Machine

/-! ### The class of a break (R44) -/

theorem State.loopMade_of_opened {s : State} {n : LineNo} {rs : OffHook} {b : Time} (opened : (s.line n).state = .opened)
    (ret : (s.line n).returnState = some rs) (broken : (s.line n).breakTime = some b) (make : Time) :
    s.loopMade n make = s.classifyBreak n rs b make := by
  simp [State.loopMade, opened, ret, broken]

/-- A flash, by the return state of the break (R48, R49). -/
def State.flashFrom (s : State) : OffHook → LineNo → Time → State
  | .seized => s.flashFromSeized
  | .held => s.flashFromHeld
  | .collecting => s.flashFromDialling
  | .pulsing => s.flashFromDialling

section
variable {s : State} {n : LineNo} {rs : OffHook} {b make : Time}

theorem State.classifyBreak_hit (short : (make - b).toNat < (s.profileOf n).brkMinMs) :
    s.classifyBreak n rs b make = s.hit n rs :=
  if_pos short

theorem State.classifyBreak_of_pulse_length (long : (s.profileOf n).brkMinMs ≤ (make - b).toNat)
    (short : (make - b).toNat ≤ (s.profileOf n).brkMaxMs) :
    s.classifyBreak n rs b make =
      if (s.profileOf n).methods ≠ .tone ∧ rs ≠ .held then s.pulseBreak n rs b make else s.hit n rs :=
  (if_neg (Nat.not_lt.mpr long)).trans (if_pos short)

theorem State.classifyBreak_invalid (long : (s.profileOf n).brkMinMs ≤ (make - b).toNat)
    (longer : (s.profileOf n).brkMaxMs < (make - b).toNat) (short : (make - b).toNat < (s.profileOf n).flashMinMs) :
    s.classifyBreak n rs b make = s.invalidBreak n rs make := by
  simp only [State.classifyBreak, elapsed, Nat.not_lt.mpr long, Nat.not_le.mpr longer, short, if_false, if_true]

theorem State.classifyBreak_flash (long : (s.profileOf n).brkMinMs ≤ (make - b).toNat)
    (longer : (s.profileOf n).brkMaxMs < (make - b).toNat) (flash : (s.profileOf n).flashMinMs ≤ (make - b).toNat) :
    s.classifyBreak n rs b make = s.flashFrom rs n make := by
  simp only [State.classifyBreak, elapsed, Nat.not_lt.mpr long, Nat.not_le.mpr longer, Nat.not_lt.mpr flash, if_false]
  cases rs <;> rfl

end

/-- Settles O15: below the least pulse length a break is a hit, and a hit is the end of the break alone. -/
theorem hitLeavesTheLineAsItWas : Obligations.HitLeavesTheLineAsItWas := by
  unfold Obligations.HitLeavesTheLineAsItWas
  intro s n rs b make opened ret broken short
  rw [State.loopMade_of_opened opened ret broken, State.classifyBreak_hit short]
  rfl

/-! ### Pulses and invalid breaks (R46, R47, R59, R60) -/

theorem gapInForce_done (p : Profile) (period : Nat) : gapInForce p (some (.done period)) =
    if 3 * period < p.gapLoMs then p.gapLoMs else min (3 * period) p.gapHiMs := by
  unfold gapInForce learnedGap
  dsimp only
  split
  · rfl
  · split
    next above => rw [Nat.min_eq_right (Nat.le_of_lt above)]
    next within => rw [Nat.min_eq_left (Nat.not_lt.mp within)]

theorem gapInForce_unlearned {p : Profile} {r : Option Learning} (h : ∀ period, r ≠ some (.done period)) :
    gapInForce p r = p.gapMs := by
  unfold gapInForce
  split
  · exact absurd rfl (h _)
  · rfl

theorem State.invalidBreak_of_not_pulsing {rs : OffHook} (h : rs ≠ .pulsing) (s : State) (n : LineNo) (make : Time) :
    s.invalidBreak n rs make = s.hit n rs :=
  if_neg h

/-- An invalid break in a pulse digit: back to the digits the collection has, if any (R47). -/
theorem State.invalidBreak_pulsing (s : State) (n : LineNo) (make : Time) :
    s.invalidBreak n .pulsing make = s.setLine n
      (if (s.line n).hasDigit then (s.line n).discardPulse.endBreak .collecting
       else { (s.line n).discardPulse.endBreak .seized with
         firstDigitTimer := some (after make (s.profileOf n).firstMs) }) := by
  have governed : (s.modLine n .discardPulse).profileOf n = s.profileOf n :=
    State.profileOf_setLine (Line.snapshot_discardPulse _) (Line.profile_discardPulse _)
  unfold State.invalidBreak
  rw [if_pos rfl]
  dsimp only
  rw [State.line_modLine_self, Line.hasDigit_discardPulse, governed, State.modLine_modLine, State.modLine_modLine]
  split <;> rfl

/-- Settles O16: the length decides between the two clauses, and the return state and the methods inside each; the
gap in force is read by whether a period has been learned. -/
theorem pulsesAndInvalidBreaks : Obligations.PulsesAndInvalidBreaks := by
  unfold Obligations.PulsesAndInvalidBreaks
  refine ⟨?pulse, ?invalid⟩
  case pulse =>
    intro s n rs b make p l opened ret broken long short
    rw [State.loopMade_of_opened opened ret broken, State.classifyBreak_of_pulse_length long short]
    refine ⟨fun noPulse => ?_, fun pulses dialling => ?_⟩
    · rw [if_neg fun h => noPulse.elim h.1 h.2]
      rfl
    · intro counted learned gap e u
      have gap_eq : gapInForce p learned.learning = gap := by
        show gapInForce p learned.learning = match learned.learning with | some (.done period) => _ | _ => _
        split
        next period done => rw [done, gapInForce_done]
        next other => exact gapInForce_unlearned other
      have pulse_eq : s.pulseBreak n rs b make =
          let e := after make (gapInForce p learned.learning + p.glitchAllowance)
          let u := s.setLine n (({ learned with gapTimer := some e } : Line).endBreak .pulsing)
          if due e s.now then u.completePulse n else u := rfl
      rw [if_pos ⟨pulses, dialling⟩, pulse_eq, gap_eq]
      exact ite_due _ _ _ _
  case invalid =>
    intro s n rs b make p l opened ret broken long longer short
    rw [State.loopMade_of_opened opened ret broken, State.classifyBreak_invalid long longer short]
    refine ⟨fun other => ?_, fun pulsing => ?_⟩
    · rw [State.invalidBreak_of_not_pulsing other]
      rfl
    · subst pulsing
      exact State.invalidBreak_pulsing s n make

/-! ### Flashes (R48, R49) -/

theorem State.requestIfTone_eq (s : State) (n : LineNo) :
    s.requestIfTone n = if (s.profileOf n).methods = .pulse then s else s.requestDetector n := by
  unfold State.requestIfTone
  cases (s.profileOf n).methods <;> rfl

theorem State.flashFromSeized_eq (s : State) (n : LineNo) (make : Time) :
    s.flashFromSeized n make = (s.raise (.line n) .flash (some make)).setLine n
      { (s.line n).endBreak .seized with firstDigitTimer := some (after make (s.profileOf n).firstMs) } := by
  simp only [State.flashFromSeized, State.raiseFlash, State.modLine_eq, State.line_raise]

theorem State.flashFromHeld_barred {s : State} {n : LineNo} (h : s.barred n = true) (make : Time) :
    s.flashFromHeld n make =
      (s.raise (.line n) .flash (some make)).setLine n ((s.line n).endBreak .held) := by
  simp [State.flashFromHeld, State.raiseFlash, h, State.hit, State.modLine_eq]

/-- The line after a flash from HELD that no store flag bars: it has a fresh collection, and keeps its learning record,
ARMED if it had none (R48). -/
def Line.reopened (l : Line) (make : Time) (firstMs : Nat) : Line :=
  { l.endBreak .seized with
    collection := some (.opened make)
    firstDigitTimer := some (after make firstMs)
    learning := some (l.learning.getD .armed) }

theorem State.flashFromHeld_open {s : State} {n : LineNo} (h : s.barred n = false) (make : Time) :
    s.flashFromHeld n make =
      let v := (s.raise (.line n) .flash (some make)).setLine n
        ((s.line n).reopened make (s.profileOf n).firstMs)
      if (s.profileOf n).methods = .pulse then v else v.requestDetector n := by
  have reopened : ((s.raise (.line n) .flash (some make)).openAtFlash n make).modLine n (fun l =>
      { l with learning := match l.learning with | some r => some r | none => some .armed }) =
      (s.raise (.line n) .flash (some make)).setLine n ((s.line n).reopened make (s.profileOf n).firstMs) := by
    rw [State.openAtFlash, State.modLine_modLine, State.modLine_eq, State.line_raise, State.profileOf_raise]
    cases h : (s.line n).learning <;> simp [Line.endBreak, Line.reopened, h]
  have governed : ((s.raise (.line n) .flash (some make)).setLine n
      ((s.line n).reopened make (s.profileOf n).firstMs)).profileOf n = s.profileOf n :=
    (State.profileOf_setLine (by simp [Line.reopened, Line.endBreak]) (by simp [Line.reopened, Line.endBreak])).trans
      (State.profileOf_raise _ _ _ _ _)
  have barred_after : (s.raiseFlash n make).barred n = false := (State.barred_raise _ _ _ _ _).trans h
  unfold State.flashFromHeld
  dsimp only
  rw [barred_after, if_neg Bool.false_ne_true]
  refine (congrArg (State.requestIfTone · n) reopened).trans ?_
  rw [State.requestIfTone_eq, governed]

/-- A flash from dialling with no digit dialled is one from SEIZED, after a pulse digit is discarded (R49). -/
theorem State.flashFromDialling_empty {s : State} {n : LineNo} (h : (s.line n).hasDigit = false) (make : Time) :
    s.flashFromDialling n make = (s.modLine n .discardAnyPulse).flashFromSeized n make := by
  simp [State.flashFromDialling, h]

theorem State.flashFromDialling_closes {s : State} {n : LineNo} (h : (s.line n).hasDigit = true) (make : Time) :
    s.flashFromDialling n make =
      let c := ((s.modLine n .discardAnyPulse).closeCollection n .flash make).raise (.line n) .flash (some make)
      if c.barred n then (c.hit n .held).dropDetector n else c.openAtFlash n make := by
  unfold State.flashFromDialling
  dsimp only
  rw [State.line_modLine_self, Line.hasDigit_discardAnyPulse, if_pos h]
  rfl

/-- Settles O18: one case for each return state, COLLECTING and PULSING together; the store flags and the digits of
the collection divide the cases, and no step of a flash changes the governing profile. -/
theorem flashIsHandled : Obligations.FlashIsHandled := by
  unfold Obligations.FlashIsHandled
  intro s n rs b make p l back first fresh opened ret broken long longer flash barred u d c
  have discarded : s.modLine n .discardAnyPulse = d :=
    congrArg (s.setLine n) (Line.discardAnyPulse_of_phase ((Line.phase_of_opened opened).trans ret))
  have governed : d.profileOf n = p := discarded ▸ s.profileOf_discardAnyPulse n
  rw [State.loopMade_of_opened opened ret broken, State.classifyBreak_flash long longer flash]
  refine ⟨?seized, ?barred, ?reopened, ?empty, ?closes⟩
  case seized =>
    rintro rfl
    exact s.flashFromSeized_eq n make
  case barred =>
    rintro rfl flagged
    exact State.flashFromHeld_barred flagged make
  case reopened =>
    rintro rfl clear
    exact State.flashFromHeld_open clear make
  case empty =>
    intro dialling noDigit
    have from_seized : s.flashFromDialling n make = d.flashFromSeized n make :=
      discarded ▸ State.flashFromDialling_empty noDigit make
    rw [State.flashFromSeized_eq, governed] at from_seized
    rcases dialling with rfl | rfl <;> exact from_seized
  case closes =>
    intro dialling digit
    have closes := State.flashFromDialling_closes digit make
    rw [discarded] at closes
    have governed_after : c.profileOf n = p := by
      rw [State.profileOf_raise, State.profileOf_closeCollection, governed]
    have opens : c.openAtFlash n make =
        c.setLine n { back .seized (c.line n) with collection := fresh, firstDigitTimer := first } := by
      rw [State.openAtFlash, governed_after]
      rfl
    have closes : s.flashFromDialling n make = if barred c then (c.setLine n (back .held (c.line n))).dropDetector n
        else c.setLine n { back .seized (c.line n) with collection := fresh, firstDigitTimer := first } :=
      opens ▸ closes
    rcases dialling with rfl | rfl <;> exact closes

end Sys2Proof.Machine
end

section
/-! SUPPORT. The end of supervision: a release at the end of the break timer, and a fault (R51, R53). -/

namespace Sys2Proof.Machine

/-! ### The steps of a release (R51) -/

/-- Steps 1 and 2 of a release: the pulse digit in progress is discarded, and the collection closed or removed. -/
def State.callClosed (s : State) (n : LineNo) (closeTime : Time) : State :=
  let d := s.modLine n .discardAnyPulse
  if (s.line n).hasDigit then d.closeCollection n .release closeTime
  else d.modLine n fun l => { l with collection := none }

theorem State.endSupervision_eq (s : State) (n : LineNo) (closeTime : Time) :
    s.endSupervision n closeTime = (((s.callClosed n closeTime).modLine n .stopTimers).dropDetector n).modLine n
      fun l => { l with learning := none, permanentLoop := false } := by
  unfold State.endSupervision State.callClosed
  dsimp only
  rw [State.line_modLine_self, Line.hasDigit_discardAnyPulse]

/-- The end of supervision with its HOOK notice, the line going to a state without a call. -/
theorem State.endSupervision_leave (s : State) (n : LineNo) (closeTime hook : Time) (st : LineState) :
    ((s.endSupervision n closeTime).raise (.line n) .hook (some hook)).modLine n
      (fun l => { l.forgetCall with state := st }) =
    ((((s.callClosed n closeTime).modLine n .stopTimers).dropDetector n).raise (.line n) .hook (some hook)).modLine n
      fun l =>
        { l with
          state := st, learning := none, permanentLoop := false, snapshot := none, returnState := none,
          breakTime := none } := by
  rw [State.endSupervision_eq, State.raise_modLine, State.modLine_modLine]
  rfl

theorem State.collection_callClosed (s : State) (n : LineNo) (closeTime : Time) :
    ((s.callClosed n closeTime).line n).collection = none := by
  unfold State.callClosed
  dsimp only
  split
  · rw [State.line_closeCollection]
  · rw [State.line_modLine_self]

theorem State.store_callClosed {s : State} {n : LineNo} (h : (s.line n).hasDigit = false) (closeTime : Time) :
    (s.callClosed n closeTime).store = s.store := by
  simp [State.callClosed, h]

/-! ### Release -/

theorem State.releaseLine_eq {s : State} {n : LineNo} {b : Time} (h : (s.line n).breakTime = some b) (e : Time) :
    s.releaseLine n e = ((s.endSupervision n e).raise (.line n) .hook (some b)).modLine n
      fun l => { l.forgetCall with state := .idle } := by
  unfold State.releaseLine
  rw [h]
  rfl

theorem execRelease_of_due {s : State} {n : LineNo} {e : Time} (opened : (s.line n).state = .opened)
    (timer : (s.line n).breakTimer = some e) (reached : later e s.now = false) :
    execRelease n s = .next (s.releaseLine n e).finish := by
  rw [execRelease, State.whenDue_due _ timer reached, if_pos opened]

/-- Settles O21: in OPEN the pulse digit in progress is told by the return state, and the steps of a release are those
of the end of supervision with HOOK at the break time. -/
theorem releaseEndsTheCall : Obligations.ReleaseEndsTheCall := by
  unfold Obligations.ReleaseEndsTheCall
  refine ⟨Line.hasDigit_iff, fun s n e b => ?_⟩
  intro l opened broken d closed dropped u
  have discarded : s.modLine n .discardAnyPulse = d :=
    congrArg (fun r => s.setLine n (if r = some OffHook.pulsing then l.discardPulse else l)) (Line.phase_of_opened opened)
  have closed_eq : s.callClosed n e = closed := by
    rw [State.callClosed, discarded]
    rfl
  refine ⟨?_, execRelease_of_due opened⟩
  rw [State.releaseLine_eq broken, State.endSupervision_leave, closed_eq]
  rfl

/-! ### Faults -/

theorem State.faultLine_of_offHook {s : State} {n : LineNo} (h : (s.line n).state.offHook = true) :
    s.faultLine n = ((s.endSupervision n s.now).raise (.line n) .hook (some s.now)).modLine n
      fun l => { l.forgetCall with state := .faulted } := by
  unfold State.faultLine
  split
  case h_7 => rfl
  all_goals
    rename_i state
    rw [state] at h
    exact absurd h Bool.false_ne_true

theorem State.collection_faultLine {s : State} {n : LineNo} (h : (s.line n).state.offHook = true) :
    ((s.faultLine n).line n).collection = none := by
  rw [State.faultLine_of_offHook h, State.endSupervision_leave, State.line_modLine_self, State.line_raise]
  apply State.collection_dropDetector
  rw [State.line_modLine_self]
  exact State.collection_callClosed s n s.now

/-- Only a closure reaches the store (R51, R117). -/
theorem State.store_faultLine {s : State} {n : LineNo} (h : (s.line n).state.offHook = true)
    (noDigit : (s.line n).hasDigit = false) : (s.faultLine n).store = s.store := by
  rw [State.faultLine_of_offHook h, State.endSupervision_leave, State.store_modLine, State.store_raise,
    (samePool_dropDetector _ _).store, State.store_modLine, State.store_callClosed noDigit]

/-- Settles O22: an off-hook line goes through the end of supervision, in which the pulse digit in progress is told by
the phase; every other state has its own short way. -/
theorem faultReachesTheLine : Obligations.FaultReachesTheLine := by
  unfold Obligations.FaultReachesTheLine
  intro s n l
  refine ⟨fun starting => ?_, fun idle => ?_, fun states => ?_, fun out => ?_⟩
  · rcases starting with h | h <;> rw [State.faultLine, h] <;> rfl
  · rw [State.faultLine, idle]
    rfl
  · intro pulsing d discarded closed dropped u
    have offHook : (s.line n).state.offHook = true := by
      rcases states with h | h | h | h | h <;> rw [h] <;> rfl
    have discarded : s.modLine n .discardAnyPulse = d := by
      have pulsing_iff : (s.line n).phase = some .pulsing ↔ pulsing := Line.phase_eq_some
      rw [State.modLine_eq, Line.discardAnyPulse]
      rcases discarded with ⟨yes, rfl⟩ | ⟨no, rfl⟩
      · rw [if_pos (pulsing_iff.mpr yes)]
      · rw [if_neg (mt pulsing_iff.mp no), State.setLine_line]
    have closed_eq : s.callClosed n s.now = closed := by
      rw [State.callClosed, discarded]
      rfl
    refine ⟨?_, State.collection_faultLine offHook, State.store_faultLine offHook⟩
    rw [State.faultLine_of_offHook offHook, State.endSupervision_leave, closed_eq]
    rfl
  · rcases out with h | h | h <;> rw [State.faultLine, h]

end Sys2Proof.Machine
end

section
/-! SUPPORT. The expiries of the first-digit, collect, learn and gap timers, and the completion of a pulse digit (R42,
R50, R61, R65, R72, R96, R113). -/

namespace Sys2Proof.Machine

/-! ### The dialling timers -/

theorem State.permanentLoop_eq (s : State) (n : LineNo) (e : Time) :
    s.permanentLoop n e =
      (((s.setLine n { s.line n with permanentLoop := true, firstDigitTimer := none, collection := none }).raise
        (.line n) .loopHeld (some e)).dropDetector n).modLine n (Line.setPhase · .held) := by
  rw [State.permanentLoop, State.raise_modLine, State.modLine_modLine, ← State.raise_modLine]
  rfl

theorem execFirstDigitExpiry_of_due {s : State} {n : LineNo} {e : Time} (phase : (s.line n).phase = some .seized)
    (timer : (s.line n).firstDigitTimer = some e) (reached : later e s.now = false) :
    execFirstDigitExpiry n s = .next (s.permanentLoop n e).finish := by
  rw [execFirstDigitExpiry, State.whenDue_due _ timer reached, if_pos phase]

theorem execCollectExpiry_of_due {s : State} {n : LineNo} {e : Time}
    (phase : (s.line n).phase = some .collecting ∨ (s.line n).phase = some .pulsing)
    (timer : (s.line n).collectTimer = some e) (reached : later e s.now = false) :
    execCollectExpiry n s = .next (s.collectTimeout n e).finish := by
  rw [execCollectExpiry, State.whenDue_due _ timer reached, if_pos phase]

theorem execLearnExpiry_of_due {s : State} {n : LineNo} {e : Time} (timer : (s.line n).learnTimer = some e)
    (reached : later e s.now = false) : execLearnExpiry n s = .next (s.modLine n .learnOverflow).finish := by
  rw [execLearnExpiry, State.whenDue_due _ timer reached]

theorem Line.learnOverflow_of_measuring {l : Line} {t1 : Time} {k : Nat} (h : l.learning = some (.measuring t1 k)) :
    l.learnOverflow = ({ l with learning := some (.overflowed t1 k), learnTimer := none } : Line).markLearnOverflow := by
  rw [Line.learnOverflow, h]

/-- The last step of an expiry that takes an off-hook line to HELD: in OPEN the return state goes there (R50). -/
theorem State.modLine_setPhase {s : State} {n : LineNo} {st : LineState} (h : (s.line n).state = st) (ph : OffHook) :
    s.modLine n (Line.setPhase · ph) = s.setLine n
      (if st = .opened then { s.line n with returnState := some ph } else { s.line n with state := ph.toState }) :=
  congrArg (s.setLine n) (Line.setPhase_of_state h ph)

/-- Settles O20: each expiry is its block's act, since the timer is due and the phase is the one that the expiry is
for; the steps before the last leave the state of the line, which tells where HELD goes. -/
theorem diallingTimersExpire : Obligations.DiallingTimersExpire := by
  unfold Obligations.DiallingTimersExpire
  refine ⟨?firstDigit, ?collect, ?learn⟩
  case firstDigit =>
    intro s n e l timer reached seized u v
    have state_kept : (v.line n).state = l.state := by simp [v, u]
    refine (execFirstDigitExpiry_of_due (Line.phase_eq_some.mpr seized) timer reached).trans ?_
    rw [State.permanentLoop_eq, State.modLine_setPhase state_kept]
    rfl
  case collect =>
    intro s n e ph l timer reached dialling states d u
    have phase : l.phase = some ph := Line.phase_eq_some.mpr states
    have discarded : s.modLine n .discardAnyPulse = d :=
      congrArg (s.setLine n) (Line.discardAnyPulse_of_phase phase)
    have state_kept : (u.line n).state = l.state := by
      rw [State.state_dropDetector, State.line_closeCollection, ← discarded, State.line_modLine_self,
        Line.state_discardAnyPulse]
    have dialling : l.phase = some .collecting ∨ l.phase = some .pulsing :=
      dialling.imp (fun h => by rw [phase, h]) fun h => by rw [phase, h]
    refine (execCollectExpiry_of_due dialling timer reached).trans ?_
    rw [State.collectTimeout, discarded, State.modLine_setPhase state_kept]
    rfl
  case learn =>
    intro s n e t1 k l timer reached measuring
    refine (execLearnExpiry_of_due timer reached).trans ?_
    rw [State.modLine_eq, Line.learnOverflow_of_measuring measuring]
    rfl

/-! ### The phase after a digit (R41, R61, R113) -/

theorem State.phaseAfterDigit_closed {s : State} {n : LineNo} (h : (s.line n).collection = none) :
    s.phaseAfterDigit n = (s.dropDetector n).modLine n (Line.setPhase · .held) := by
  rw [State.phaseAfterDigit, h]

theorem State.phaseAfterDigit_dialled {s : State} {n : LineNo} {c : Collection} (h : (s.line n).collection = some c)
    (digits : c.digits ≠ []) : s.phaseAfterDigit n = s.modLine n (Line.setPhase · .collecting) := by
  simp [State.phaseAfterDigit, h, digits]

theorem State.phaseAfterDigit_empty {s : State} {n : LineNo} {c : Collection} (h : (s.line n).collection = some c)
    (digits : c.digits = []) : s.phaseAfterDigit n = s.modLine n fun l =>
      { l.setPhase .seized with firstDigitTimer := some (after s.now (s.profileOf n).firstMs) } := by
  simp [State.phaseAfterDigit, h, digits]

/-! ### The completion of a pulse digit (R61) -/

theorem pulseSymbol_of_le {count : Nat} {x : Symbol} (low : 1 ≤ count) (high : count ≤ 10) (h : x.val = count % 10) :
    pulseSymbol count = some x := by
  unfold pulseSymbol
  split
  · rw [Option.some_inj, Fin.ext_iff]
    dsimp only
    omega
  · rw [if_pos (by omega), Option.some_inj, Fin.ext_iff, h]
    show 0 = count % 10
    omega

theorem pulseSymbol_of_large {count : Nat} (h : 11 ≤ count) : pulseSymbol count = none := by
  unfold pulseSymbol
  rw [dif_neg (by omega), if_neg (by omega)]

section
variable {s : State} {n : LineNo} {count : Nat}

theorem State.completePulse_of_symbol {x : Symbol} (h : (s.line n).pulseCount = some count)
    (symbol : pulseSymbol count = some x) :
    s.completePulse n =
      ((s.modLine n fun l => { l.endDigitLearning with pulseCount := none, gapTimer := none }).acceptDigit n
        ⟨x, .pulse⟩).phaseAfterDigit n := by
  simp [State.completePulse, h, symbol]

theorem State.completePulse_of_no_symbol (h : (s.line n).pulseCount = some count)
    (symbol : pulseSymbol count = none) :
    s.completePulse n =
      ((s.modLine n fun l => { l.endDigitLearning with pulseCount := none, gapTimer := none }).modLine n
        .markBadPulseCount).phaseAfterDigit n := by
  simp [State.completePulse, h, symbol]

end

theorem execGapExpiry_of_due {s : State} {n : LineNo} {e : Time} (timer : (s.line n).gapTimer = some e)
    (reached : later e s.now = false) (phase : (s.line n).phase = some .pulsing) :
    execGapExpiry n s = .next (s.completePulse n).finish := by
  rw [execGapExpiry, State.whenDue_due _ timer reached, if_pos phase]

/-- Settles O23: the count decides by its symbol what is done with the digit, and the collection decides the phase
after it. -/
theorem gapExpiryCompletesTheDigit : Obligations.GapExpiryCompletesTheDigit := by
  unfold Obligations.GapExpiryCompletesTheDigit
  refine ⟨fun s n e count => ?_, fun s n => ?_⟩
  · intro l counted ended u bad
    refine ⟨fun large => ?_, fun x low high symbol => ?_, fun timer reached pulsing => ?_⟩
    · rw [State.completePulse_of_no_symbol counted (pulseSymbol_of_large large), State.modLine_modLine]
      rfl
    · exact State.completePulse_of_symbol counted (pulseSymbol_of_le low high symbol)
    · exact execGapExpiry_of_due timer reached (Line.phase_eq_some.mpr pulsing)
  · intro l moved
    refine ⟨State.phaseAfterDigit_closed, fun c open_ => ⟨?_, ?_⟩⟩
    · exact State.phaseAfterDigit_dialled open_
    · exact State.phaseAfterDigit_empty open_

end Sys2Proof.Machine
end

section
/-! SUPPORT. Rate learning: what an onset, by the state of the learning record, and the end of a pulse digit do to a
line (R67 to R73). -/

namespace Sys2Proof.Machine

/-! ### An onset offered to the learning record (R67 to R71) -/

section
variable {l : Line} {p : Profile} {onset t1 : Time} {k : Nat}

/-- The onset that begins a digit starts a measurement, which has overflowed at once if its span is already over
(R68, R72). -/
theorem Line.offerOnset_of_armed (h : l.learning = some .armed) (p : Profile) (now onset : Time) :
    l.offerOnset p now onset true =
      let e := after onset p.learnSpanMs
      if later e now then { l with learning := some (.measuring onset 1), learnTimer := some e }
      else ({ l with learning := some (.overflowed onset 1), learnTimer := none } : Line).markLearnOverflow := by
  unfold Line.offerOnset
  rw [h]
  dsimp only
  rw [if_pos rfl, ite_due, Line.learnOverflow_of_measuring rfl]

/-- An onset before the fifth is counted (R69). -/
theorem Line.offerOnset_of_measuring (h : l.learning = some (.measuring t1 k)) (few : k + 1 ≠ 5) (p : Profile)
    (now onset : Time) (begins : Bool) :
    l.offerOnset p now onset begins = { l with learning := some (.measuring t1 (k + 1)) } := by
  unfold Line.offerOnset
  rw [h]
  exact if_neg few

/-- The fifth onset ends the measurement: a period in range is learned, any other is marked (R69). -/
theorem Line.offerOnset_fifth (h : l.learning = some (.measuring t1 4)) (p : Profile) (now onset : Time)
    (begins : Bool) :
    l.offerOnset p now onset begins =
      let period := elapsed t1 onset / 4
      if p.periodLoMs ≤ period ∧ period ≤ p.periodHiMs then
        { l with learning := some (.done period), learnTimer := none }
      else ({ l with learning := some .failed, learnTimer := none } : Line).markRateOutOfRange := by
  unfold Line.offerOnset
  rw [h]
  exact if_pos rfl

/-- An overflowed record counts on, and fails at the fifth onset without a mark (R71). -/
theorem Line.offerOnset_of_overflowed (h : l.learning = some (.overflowed t1 k)) (p : Profile) (now onset : Time)
    (begins : Bool) :
    l.offerOnset p now onset begins =
      { l with learning := some (if k + 1 = 5 then .failed else .overflowed t1 (k + 1)) } := by
  unfold Line.offerOnset
  rw [h]
  dsimp only
  split <;> rfl

/-- Learning is over, or there is no record: an onset changes nothing (R67). -/
theorem Line.offerOnset_of_settled (h : l.learning = some (.done k) ∨ l.learning = some .failed ∨ l.learning = none)
    (p : Profile) (now onset : Time) (begins : Bool) : l.offerOnset p now onset begins = l := by
  unfold Line.offerOnset
  rcases h with done | failed | none
  · rw [done]
  · rw [failed]
  · rw [none]

/-! ### The learning record at the end of a digit (R73) -/

theorem Line.endDigitLearning_of_measuring (h : l.learning = some (.measuring t1 k)) :
    l.endDigitLearning = { l with learning := some .armed, learnTimer := none } := by
  rw [Line.endDigitLearning, h]

theorem Line.endDigitLearning_of_overflowed (h : l.learning = some (.overflowed t1 k)) :
    l.endDigitLearning = { l with learning := some .failed } := by
  rw [Line.endDigitLearning, h]
  rfl

/-- A record with no measurement in progress stays as it is at the end of a digit (R73). -/
theorem Line.endDigitLearning_of_fixed {r : Learning} (h : l.learning = some r) (fixed : r.digitEnd = r) :
    l.endDigitLearning = l := by
  unfold Line.endDigitLearning
  rw [h]
  cases r with
  | measuring t1 k => cases fixed
  | _ => exact congrArg (fun x => { l with learning := x }) ((congrArg some fixed).trans h.symm)

theorem Line.endDigitLearning_of_none (h : l.learning = none) : l.endDigitLearning = l := by
  rw [Line.endDigitLearning, h]

end

/-- Settles O17: one case for each state of the learning record, divided in ARMED by the learn timer's expiry time and
at the fifth onset by the range of the period. -/
theorem rateLearningMeasuresTheDial : Obligations.RateLearningMeasuresTheDial := by
  unfold Obligations.RateLearningMeasuresTheDial
  intro l p now onset t1 k period begins mark spanEnd
  refine ⟨?starts, ?overflows, ?counts, ?fifth, ?overflowed, ?settled, ?armedEnd, ?measuringEnd, ?overflowedEnd,
    l.discardPulse_eq⟩
  case starts =>
    rintro armed rfl ahead
    exact (Line.offerOnset_of_armed armed p now onset).trans (if_pos ahead)
  case overflows =>
    rintro armed rfl reached
    exact (Line.offerOnset_of_armed armed p now onset).trans (if_neg (Bool.eq_false_iff.mp reached))
  case counts => exact fun measuring few => Line.offerOnset_of_measuring measuring few p now onset begins
  case fifth =>
    rintro measuring rfl
    have fifth := Line.offerOnset_fifth measuring p now onset begins
    refine ⟨fun low high => fifth.trans (if_pos ⟨low, high⟩), fun outside => fifth.trans (if_neg ?_)⟩
    rintro ⟨low, high⟩
    exact outside.elim (Nat.not_lt.mpr low) (Nat.not_lt.mpr high)
  case overflowed => exact fun overflowed => Line.offerOnset_of_overflowed overflowed p now onset begins
  case settled =>
    intro settled
    refine ⟨Line.offerOnset_of_settled settled p now onset begins, ?_⟩
    rcases settled with done | failed | none
    · exact Line.endDigitLearning_of_fixed done rfl
    · exact Line.endDigitLearning_of_fixed failed rfl
    · exact Line.endDigitLearning_of_none none
  case armedEnd => exact fun armed => Line.endDigitLearning_of_fixed armed rfl
  case measuringEnd => exact Line.endDigitLearning_of_measuring
  case overflowedEnd => exact Line.endDigitLearning_of_overflowed

end Sys2Proof.Machine
end

section
/-! SUPPORT. What every step keeps of the pool, its queue and the bindings of the lines (R76, R78). -/

namespace Sys2Proof.Machine

/-- A change outside the pool and the lines keeps the agreement. -/
theorem State.PoolOk.of_eq {s t : State} (h : s.PoolOk) (pool : t.pool = s.pool) (lines : t.lines = s.lines) :
    t.PoolOk :=
  h.congr pool fun n => by rw [State.line, lines, State.line]

theorem State.PoolOk.of_sameStore {s t : State} (h : s.PoolOk) (same : SameStore s t) : t.PoolOk :=
  h.of_eq (by rw [same.eq]) (by rw [same.eq])

theorem State.PoolOk.of_sameBus {s t : State} (h : s.PoolOk) (same : SameBus s t) : t.PoolOk :=
  h.of_eq (by rw [same.eq]) (by rw [same.eq])

/-- After a reset every detector is free and no line is bound or waits (R3, R91). -/
theorem State.PoolOk.of_initial {s : State} (pool : s.pool = .initial) (lines : s.lines = initialLines) : s.PoolOk := by
  have free (d : DetectorNo) : (s.detector d).bound = none := by simp [State.detector, pool, Pool.initial]
  have unbound (n : LineNo) : (s.line n).binding = .none := by
    simp [State.line, lines, initialLines, Line.initial]
  have empty : s.pool.queue = [] := by rw [pool]; rfl
  refine ⟨fun d b h => ?_, fun n d h => ?_, fun n => ?_, by simp [empty], fun h => absurd empty h⟩
  · rw [free] at h; cases h
  · rw [unbound] at h; cases h
  · simp [unbound, empty]

/-- The elementary changes of a step keep the agreement: the pool's own operations by their rules, every other one
because it touches neither the pool nor a binding. -/
theorem poolOk_closed : ClosedStep State.PoolOk where
  line _ n l same h := h.setLine n l same
  request _ n h := h.requestDetector n
  drop _ n h := h.dropDetector n
  out _ d h := h.serviceOut d
  back _ d h := h.serviceIn d
  reset _ _ _ _ _ := .of_initial rfl rfl
  raise _ src k t h := h.of_sameStore (sameStore_raise ⟨rfl⟩ src k t)
  arrive s r h := h.of_sameStore (sameStore_arrive s r)
  overrun _ _ _ h := h.of_eq rfl rfl
  dropPending s n h := h.of_sameStore (sameStore_dropPending s n)
  take s i sl _ h := h.of_sameStore (sameStore_takeSlot s i sl)
  want s p h := h.of_sameBus (sameBus_want s p)
  withdraw s p h := h.of_sameBus (sameBus_withdraw s p)
  bus _ b _ _ _ h := h.of_sameBus (sameBus_of b)
  free _ h := h.of_eq rfl rfl
  occupy s e _ _ h _ _ := (h.of_sameBus (sameBus_removeEntry s fun x => decide (x = e))).of_eq rfl rfl
  order s p k tag _ _ h := h.of_sameBus (sameBus_orderTest s p k tag)
  cancel s p _ h := h.of_sameBus (sameBus_removeEntry s fun e => decide (e.pair = p))
  unwant _ _ h := h.of_eq rfl rfl
  record _ _ _ h := h.of_eq rfl rfl
  answered _ _ h := h.of_eq rfl rfl
  fault _ _ _ h := h.of_eq rfl rfl
  binder _ _ _ h := h.of_eq rfl rfl
  scan _ _ h := h.of_eq rfl rfl
  watch _ _ h := h.of_eq rfl rfl
  profile _ _ _ _ _ h := h.of_eq rfl rfl
  window _ _ _ _ _ h := h.of_eq rfl rfl
  defaultClass _ _ h := h.of_eq rfl rfl
  routes _ _ h := h.of_eq rfl rfl
  enable s k x h := h.of_eq (s.pool_enablePoints k x) (s.lines_enablePoints k x)
  disable s k x h := h.of_eq (s.pool_disablePoints k x) (s.lines_disablePoints k x)
  takeEntry _ _ _ h := h.of_eq rfl rfl
  ordered _ h := h.of_eq rfl rfl
  link _ _ h := h.of_eq rfl rfl
  now _ _ h := h.of_eq rfl rfl
  queue _ _ _ h := h.of_eq rfl rfl

/-- Settles O58: what the elementary changes keep, every step keeps. -/
theorem stepKeepsPoolOk : Obligations.StepKeepsPoolOk := by
  unfold Obligations.StepKeepsPoolOk
  exact fun _ _ agree stepped => poolOk_closed.step agree stepped

end Sys2Proof.Machine
end

section
/-! SUPPORT. The pool's operations case by case: who gets a detector, who waits, and what the end of a detector's use
or a change of its service does (R77 to R82, R87 to R89). -/

namespace Sys2Proof.Machine

/-! ### Free detectors (R79) -/

/-- A detector that is IN and free (R76). -/
def State.DetectorFree (s : State) (d : DetectorNo) : Prop :=
  (s.detector d).inService = true ∧ (s.detector d).bound = none

section
variable {s : State} {d : DetectorNo} {n : LineNo}

theorem State.detectorFree_iff :
    ((s.detector d).inService && (s.detector d).bound.isNone) = true ↔ s.DetectorFree d := by
  rw [Bool.and_eq_true, Option.isNone_iff_eq_none, State.DetectorFree]

/-- In rising order of numbers, the lowest free detector is the first that is found (R79). -/
theorem State.freeDetector_eq_some (isFree : s.DetectorFree d)
    (lowest : ∀ e : DetectorNo, e < d → ¬s.DetectorFree e) :
    s.freeDetector = some d := by
  obtain ⟨front, back, numbers⟩ := List.append_of_mem (List.mem_finRange d)
  have rising := List.pairwise_lt_finRange 8
  rw [numbers] at rising
  refine List.find?_eq_some_iff_append.mpr ⟨?_, front, back, numbers, fun e inFront => ?_⟩
  · exact State.detectorFree_iff.mpr isFree
  · have below : e < d := (List.pairwise_append.mp rising).2.2 e inFront d List.mem_cons_self
    exact (Bool.not_eq_true' _).mpr <| Bool.eq_false_iff.mpr fun found =>
      lowest e below (State.detectorFree_iff.mp found)

theorem State.freeDetector_eq_none (busy : ∀ d : DetectorNo, ¬s.DetectorFree d) : s.freeDetector = none :=
  List.find?_eq_none.mpr fun d _ found => busy d (State.detectorFree_iff.mp found)

/-! ### Requests (R79) -/

theorem State.bindDetector_of_inService (inService : (s.detector d).inService = true) (n : LineNo) :
    s.bindDetector d n = (s.setDetector d ⟨true, some ⟨n, s.now, (s.line n).pair⟩⟩).setLine n
      { s.line n with binding := .detector d } := by
  simp only [State.bindDetector, inService]
  rfl

theorem State.requestDetector_of_holding (h : (s.line n).binding ≠ .none) : s.requestDetector n = s := by
  unfold State.requestDetector
  split
  next unbound => exact absurd unbound h
  next => rfl

theorem State.requestDetector_of_free (unbound : (s.line n).binding = .none) (h : s.freeDetector = some d) :
    s.requestDetector n = s.bindDetector d n := by
  simp only [State.requestDetector, unbound, h]

theorem State.requestDetector_of_busy (unbound : (s.line n).binding = .none) (h : s.freeDetector = none) :
    s.requestDetector n =
      (s.setDetectorQueue (s.pool.queue ++ [⟨n, s.now⟩])).setLine n { s.line n with binding := .queued } := by
  simp only [State.requestDetector, unbound, h]
  rfl

/-! ### Grants (R82) -/

/-- Detector d goes to a line that has waited: the wait is added to the line's collection, if it has one (R82). -/
def State.giveTo (s : State) (d : DetectorNo) (w : Waiter) : State :=
  (s.setDetector d ⟨true, some ⟨w.line, s.now, (s.line w.line).pair⟩⟩).setLine w.line
    { s.line w.line with
      binding := .detector d
      collection := (s.line w.line).collection.map (·.addWait (elapsed w.queuedTime s.now)) }

@[simp] theorem State.setDetector_setDetector (s : State) (d : DetectorNo) (x y : Detector) :
    (s.setDetector d x).setDetector d y = s.setDetector d y := by
  simp [State.setDetector, Vector.set_set]

/-- Nothing of the detector's former fields remains when it is given away. -/
theorem State.giveTo_setDetector (s : State) (d : DetectorNo) (x : Detector) (w : Waiter) :
    (s.setDetector d x).giveTo d w = s.giveTo d w := by
  unfold State.giveTo
  rw [State.setDetector_setDetector]
  rfl

theorem State.grantHead_of_empty (h : s.pool.queue = []) (d : DetectorNo) : s.grantHead d = s := by
  rw [State.grantHead, h]

theorem State.grantHead_of_cons {w : Waiter} {rest : List Waiter} (h : s.pool.queue = w :: rest)
    (inService : (s.detector d).inService = true) : s.grantHead d = (s.setDetectorQueue rest).giveTo d w := by
  simp only [State.grantHead, h]
  rw [State.bindDetector_of_inService (s := s.setDetectorQueue rest) inService, State.modLine_eq,
    State.setLine_setLine, State.line_setLine_self]
  rfl

/-! ### The end of a detector's use (R80, R81) -/

theorem State.dropDetector_of_unbound (h : (s.line n).binding = .none) : s.dropDetector n = s := by
  rw [State.dropDetector, h]

theorem State.dropDetector_of_queued (h : (s.line n).binding = .queued) :
    s.dropDetector n = (s.setDetectorQueue (s.pool.queue.filter fun w => decide (w.line ≠ n))).setLine n
      { s.line n with binding := .none } := by
  rw [State.dropDetector, h]
  rfl

/-- A bound line frees its detector, which is offered to the queue head (R80, R82). -/
theorem State.dropDetector_of_bound (h : (s.line n).binding = .detector d)
    (inService : (s.detector d).inService = true) :
    s.dropDetector n =
      ((s.setLine n { s.line n with binding := .none }).setDetector d ⟨true, none⟩).grantHead d := by
  simp only [State.dropDetector, h, State.detector_modLine, State.detector_setDetector_self, inService, if_true]
  rfl

/-! ### A change of service (R87 to R89) -/

theorem State.serviceOut_of_out (h : (s.detector d).inService = false) : s.serviceOut d = s := by
  simp [State.serviceOut, h]

theorem State.serviceOut_of_free (h : s.DetectorFree d) : s.serviceOut d = s.setDetector d ⟨false, none⟩ := by
  simp [State.serviceOut, h.1, h.2]

/-- A bound detector has gone OUT, and its line waits at the queue head from now (R88). -/
def State.displaced (s : State) (d : DetectorNo) (n : LineNo) : State :=
  ((s.setDetector d ⟨false, none⟩).setDetectorQueue (⟨n, s.now⟩ :: s.pool.queue)).modLine n
    fun l => { l with binding := .queued }

theorem State.detectorFree_displaced {e : DetectorNo} :
    (s.displaced d n).DetectorFree e ↔ e ≠ d ∧ s.DetectorFree e := by
  by_cases same : e = d
  · subst same
    simp [State.DetectorFree, State.displaced]
  · simp [State.DetectorFree, State.displaced, State.detector_setDetector_ne _ _ (Ne.symm same), same]

theorem State.serviceOut_of_bound {b : Bound} (inService : (s.detector d).inService = true)
    (bound : (s.detector d).bound = some b) :
    s.serviceOut d =
      (s.displaced d b.line).freeDetector.elim (s.displaced d b.line) (s.displaced d b.line).grantHead := by
  simp only [State.serviceOut, inService, bound, if_true, State.displaced]
  split
  next e free => rw [free]; rfl
  next busy => rw [busy]; rfl

theorem State.serviceOut_without_other {b : Bound} (inService : (s.detector d).inService = true)
    (bound : (s.detector d).bound = some b) (others : ∀ e : DetectorNo, ¬(e ≠ d ∧ s.DetectorFree e)) :
    s.serviceOut d = s.displaced d b.line := by
  have noneFree : (s.displaced d b.line).freeDetector = none :=
    State.freeDetector_eq_none fun e => mt State.detectorFree_displaced.mp (others e)
  rw [State.serviceOut_of_bound inService bound, noneFree]
  rfl

/-- The displaced line stands at the queue head, so the lowest other free detector goes to it (R82, R88). -/
theorem State.serviceOut_with_other {b : Bound} {e : DetectorNo} (inService : (s.detector d).inService = true)
    (bound : (s.detector d).bound = some b) (other : e ≠ d ∧ s.DetectorFree e)
    (lowest : ∀ x : DetectorNo, x < e → ¬(x ≠ d ∧ s.DetectorFree x)) :
    s.serviceOut d = ((s.displaced d b.line).setDetectorQueue s.pool.queue).giveTo e ⟨b.line, s.now⟩ := by
  have free := State.detectorFree_displaced (n := b.line).mpr other
  have granted : (s.displaced d b.line).freeDetector = some e :=
    State.freeDetector_eq_some free fun x low => mt State.detectorFree_displaced.mp (lowest x low)
  rw [State.serviceOut_of_bound inService bound, granted]
  exact State.grantHead_of_cons rfl free.1

theorem State.serviceIn_of_in (h : (s.detector d).inService = true) : s.serviceIn d = s := if_pos h

/-- A detector that returns is offered to the queue head (R82, R89). -/
theorem State.serviceIn_of_out (h : (s.detector d).inService = false) :
    s.serviceIn d = (s.setDetector d ⟨true, none⟩).grantHead d :=
  if_neg (Bool.not_eq_true _ ▸ h)

theorem State.serviceIn_unawaited (h : (s.detector d).inService = false) (empty : s.pool.queue = []) :
    s.serviceIn d = s.setDetector d ⟨true, none⟩ := by
  rw [State.serviceIn_of_out h, State.grantHead_of_empty (s := s.setDetector d _) empty]

theorem State.serviceIn_awaited {w : Waiter} {rest : List Waiter} (h : (s.detector d).inService = false)
    (waiting : s.pool.queue = w :: rest) :
    s.serviceIn d = ((s.setDetector d ⟨true, none⟩).setDetectorQueue rest).giveTo d w := by
  rw [State.serviceIn_of_out h]
  exact State.grantHead_of_cons waiting (by rw [State.detector_setDetector_self])

end

/-! ### Requests for a detector and its release -/

/-- Settles O25: a request is decided by the line's binding and the lowest free detector; a release by the binding
and, for a detector, the queue. -/
theorem detectorsAreGivenAndReleased : Obligations.DetectorsAreGivenAndReleased := by
  unfold Obligations.DetectorsAreGivenAndReleased
  refine ⟨fun s n => ?request, fun s n => ?release⟩
  case request =>
    intro l free
    refine ⟨State.requestDetector_of_holding, fun unbound d isFree lowest => ?_, fun unbound busy => ?_⟩
    · rw [State.requestDetector_of_free unbound (State.freeDetector_eq_some isFree lowest)]
      exact State.bindDetector_of_inService isFree.1 n
    · exact State.requestDetector_of_busy unbound (State.freeDetector_eq_none busy)
  case release =>
    intro l
    refine ⟨State.dropDetector_of_unbound, State.dropDetector_of_queued, fun d bound inService => ?_⟩
    intro u
    have dropped : s.dropDetector n = (u.setDetector d ⟨true, none⟩).grantHead d :=
      State.dropDetector_of_bound bound inService
    have queue : (u.setDetector d ⟨true, none⟩).pool.queue = s.pool.queue := rfl
    have returned : ((u.setDetector d ⟨true, none⟩).detector d).inService = true := by
      rw [State.detector_setDetector_self]
    refine ⟨fun empty => ?_, fun w rest waiting => ?_⟩
    · rw [dropped, State.grantHead_of_empty (queue.trans empty)]
    · rw [dropped, State.grantHead_of_cons (queue.trans waiting) returned]
      exact State.giveTo_setDetector (u.setDetectorQueue rest) d ⟨true, none⟩ w

/-! ### DETECTOR_SERVICE -/

theorem carried_detectorService (x y : Byte) : (Request.detectorService x y).Carried :=
  ⟨rfl, rfl, by simp [Request.payload]⟩

theorem runDetectorService_refused {x y : Byte} (h : 8 ≤ x.toNat ∨ 1 < y.toNat) (s : State) :
    runDetectorService x y s = refuse .badArg s := by
  unfold runDetectorService
  rcases h with detector | service
  · rw [eightArg_refused detector]
  · have notIn : y ≠ 0#8 := by rintro rfl; simp at service
    have notOut : y ≠ 1#8 := by rintro rfl; simp at service
    cases eightArg x with
    | none => rfl
    | some d => exact (if_neg notIn).trans (if_neg notOut)

section
variable {s : State} {x : Byte} {d : DetectorNo}

theorem detectorServiceOut_done (ready : s.ready) (tag : Byte) (number : d.val = x.toNat) :
    exec (.detectorServiceOut tag x) s = .next ((s.heard.serviceOut d).answer 0x8A tag [0]) := by
  refine arriveRequest_accepted ready (carried_detectorService x 1) ?_
  show runDetectorService x 1 s.heard = _
  rw [runDetectorService, eightArg_of_val number]
  rfl

theorem detectorServiceIn_done (ready : s.ready) (tag : Byte) (number : d.val = x.toNat) :
    exec (.detectorServiceIn tag x) s = .next ((s.heard.serviceIn d).answer 0x8A tag [0]) := by
  refine arriveRequest_accepted ready (carried_detectorService x 0) ?_
  show runDetectorService x 0 s.heard = _
  rw [runDetectorService, eightArg_of_val number]
  rfl

theorem detectorService_refused (ready : s.ready) (tag : Byte) {y : Byte} (bad : 8 ≤ x.toNat ∨ 1 < y.toNat) :
    arriveRequest (.detectorService x y) tag s = .next (s.heard.answer 0x8A tag [3]) :=
  arriveRequest_refused ready (carried_detectorService x y) (runDetectorService_refused bad s.heard)

end

/-- Settles O50: the frame is executed at once on the heard part; OUT is decided by the detector's service, its
binding and the lowest other free detector, IN by the service and the queue. -/
theorem detectorServiceIsSet : Obligations.DetectorServiceIsSet := by
  unfold Obligations.DetectorServiceIsSet
  intro s tag ready out back granted
  refine ⟨fun x bad => ⟨?_, ?_⟩, fun x y bad => ?_, fun x d number => ?_⟩
  · exact detectorService_refused ready tag (.inl bad)
  · exact detectorService_refused ready tag (.inl bad)
  · exact detectorService_refused ready tag bad
  · have outDone {t : State} (result : s.heard.serviceOut d = t) : out x t 0 :=
      result ▸ detectorServiceOut_done ready tag number
    have backDone {t : State} (result : s.heard.serviceIn d = t) : back x t 0 :=
      result ▸ detectorServiceIn_done ready tag number
    intro gone free
    refine ⟨fun isOut => outDone (State.serviceOut_of_out isOut), fun isIn => backDone (State.serviceIn_of_in isIn),
      fun isIn isFree => outDone (State.serviceOut_of_free ⟨isIn, isFree⟩), fun b isIn bound => ⟨?_, ?_⟩,
      fun isOut => ⟨fun empty => ?_, fun w rest waiting => ?_⟩⟩
    · exact fun others => outDone (State.serviceOut_without_other isIn bound others)
    · exact fun e other lowest => outDone (State.serviceOut_with_other isIn bound other lowest)
    · exact backDone (State.serviceIn_unawaited isOut empty)
    · exact backDone (State.serviceIn_awaited isOut waiting)

end Sys2Proof.Machine
end

section
/-! SUPPORT. What the pool and the line do with a detector's onset (R83 to R85). -/

namespace Sys2Proof.Machine

section
variable {s : State} {d : DetectorNo} {b : Bound} {n : LineNo}

/-- An onset of a detector that is OUT or free is discarded (R83). -/
theorem State.takeOnset_of_unused (h : (s.detector d).inService = false ∨ (s.detector d).bound = none) (x : Symbol) :
    s.takeOnset d x = s := by
  rcases h with out | free
  · simp [State.takeOnset, out]
  · simp [State.takeOnset, free]

/-- An onset of a bound detector reaches its line once 20 ms have passed since the bind time (R84). -/
theorem State.takeOnset_of_bound (inService : (s.detector d).inService = true) (bound : (s.detector d).bound = some b)
    (x : Symbol) :
    s.takeOnset d x = if (s.now - b.bindTime).toNat < 20 then s else s.toneAtLine b.line x := by
  simp only [State.takeOnset, inService, bound, if_true]
  rfl

theorem State.toneAtLine_of_dialling (h : (s.line n).state = .seized ∨ (s.line n).state = .collecting) (x : Symbol) :
    s.toneAtLine n x = (s.acceptDigit n ⟨x, .tone⟩).phaseAfterDigit n := by
  rcases h with state | state <;> rw [State.toneAtLine, state]

theorem State.toneAtLine_of_pulsing (h : (s.line n).state = .pulsing) (x : Symbol) :
    s.toneAtLine n x = s.modLine n .markToneInPulse := by
  rw [State.toneAtLine, h]

theorem State.toneAtLine_of_opened (h : (s.line n).state = .opened) (x : Symbol) : s.toneAtLine n x = s := by
  rw [State.toneAtLine, h]

end

theorem exec_toneOnset (d : DetectorNo) (x : Symbol) (s : State) :
    exec (.toneOnset d x) s = .next (s.takeOnset d x).finish := rfl

theorem exec_toneOffset (d : DetectorNo) (s : State) : exec (.toneOffset d) s = .next s.finish := rfl

/-- Settles O24: the detector's service, its binding and the 20 ms decide whether an onset is delivered, and the state
of the line what it does there. -/
theorem toneReportsAreTaken : Obligations.ToneReportsAreTaken := by
  unfold Obligations.ToneReportsAreTaken
  intro s d x
  refine ⟨exec_toneOffset d s, fun unused => ?_, fun b inService bound => ⟨fun early => ?_, fun settled => ?_⟩⟩
  · rw [exec_toneOnset, State.takeOnset_of_unused unused]
  · rw [exec_toneOnset, State.takeOnset_of_bound inService bound, if_pos early]
  · rw [exec_toneOnset, State.takeOnset_of_bound inService bound, if_neg (Nat.not_lt.mpr settled)]
    refine ⟨fun dialling => ?_, fun pulsing => ?_, fun opened => ?_⟩
    · rw [State.toneAtLine_of_dialling dialling]
    · rw [State.toneAtLine_of_pulsing pulsing]
      rfl
    · rw [State.toneAtLine_of_opened opened]

end Sys2Proof.Machine
end

section
/-! SUPPORT. The window table: how a window fits a digit list, which window decides a collection, and what an
accepted digit makes of a collection's binding (R95, R102, R103). -/

namespace Sys2Proof.Machine

/-! ### Windows judged (R102) -/

/-- A compared position of the pattern does not match its digit (R102). -/
def Mismatch (pattern : List (Option Symbol)) (digits : List Digit) : Prop :=
  ∃ (i : Nat) (y : Symbol) (d : Digit), pattern[i]? = some (some y) ∧ digits[i]? = some d ∧ y ≠ d.symbol

theorem positionFits_eq_false_iff {x : Option Symbol} {d : Digit} :
    positionFits x d = false ↔ ∃ y, x = some y ∧ y ≠ d.symbol := by
  cases x <;> simp [positionFits]

section
variable {pattern : List (Option Symbol)} {digits : List Digit}

theorem mismatch_iff_false_mem : Mismatch pattern digits ↔ false ∈ List.zipWith positionFits pattern digits := by
  simp only [List.mem_iff_getElem?, List.getElem?_zipWith_eq_some, positionFits_eq_false_iff]
  constructor
  · rintro ⟨i, y, d, position, digit, differ⟩
    exact ⟨i, some y, d, position, digit, y, rfl, differ⟩
  · rintro ⟨i, _, d, position, digit, y, rfl, differ⟩
    exact ⟨i, y, d, position, digit, differ⟩

/-- Every compared position matches. -/
theorem compared_all_iff : (List.zipWith positionFits pattern digits).all id = true ↔ ¬Mismatch pattern digits := by
  rw [mismatch_iff_false_mem, List.all_eq_true]
  refine ⟨fun all mem => Bool.false_ne_true (all false mem), fun noFalse x mem => ?_⟩
  cases x with
  | false => exact absurd mem noFalse
  | true => rfl

theorem judge_of_mismatch (h : Mismatch pattern digits) : judge pattern digits = .fail :=
  if_neg fun all => compared_all_iff.mp all h

theorem judge_of_match (h : ¬Mismatch pattern digits) :
    judge pattern digits = if digits.length < pattern.length then .partialFit else .hit :=
  if_pos (compared_all_iff.mpr h)

theorem judge_eq_fail_iff : judge pattern digits = .fail ↔ Mismatch pattern digits := by
  by_cases mismatch : Mismatch pattern digits
  · exact iff_of_true (judge_of_mismatch mismatch) mismatch
  · refine iff_of_false (fun fail => ?_) mismatch
    rw [judge_of_match mismatch] at fail
    split at fail <;> cases fail

theorem judge_eq_partialFit_iff :
    judge pattern digits = .partialFit ↔ ¬Mismatch pattern digits ∧ digits.length < pattern.length := by
  by_cases mismatch : Mismatch pattern digits
  · simp [judge_of_mismatch mismatch, mismatch]
  · simp [judge_of_match mismatch, mismatch]

theorem judge_eq_hit_iff :
    judge pattern digits = .hit ↔ ¬Mismatch pattern digits ∧ pattern.length ≤ digits.length := by
  by_cases mismatch : Mismatch pattern digits
  · simp [judge_of_mismatch mismatch, mismatch]
  · simp [judge_of_match mismatch, mismatch]

/-- No window is PARTIAL against as many digits as its pattern has positions (R102). -/
theorem judge_ne_partialFit (h : pattern.length ≤ digits.length) : judge pattern digits ≠ .partialFit :=
  fun fit => absurd (judge_eq_partialFit_iff.mp fit).2 (Nat.not_lt.mpr h)

/-- A digit that comes is compared with none of the positions that have been compared. -/
theorem Mismatch.append (h : Mismatch pattern digits) (d : Digit) : Mismatch pattern (digits ++ [d]) := by
  obtain ⟨i, y, e, position, digit, differ⟩ := h
  have inList : i < digits.length := (List.getElem?_eq_some_iff.mp digit).1
  exact ⟨i, y, e, position, (List.getElem?_append_left inList).trans digit, differ⟩

/-- Once every position has been compared, a digit that comes is compared with none. -/
theorem Mismatch.of_append {d : Digit} (h : Mismatch pattern (digits ++ [d])) (covered : pattern.length ≤ digits.length) :
    Mismatch pattern digits := by
  obtain ⟨i, y, e, position, digit, differ⟩ := h
  have inPattern : i < pattern.length := (List.getElem?_eq_some_iff.mp position).1
  rw [List.getElem?_append_left (by omega)] at digit
  exact ⟨i, y, e, position, digit, differ⟩

theorem judge_append_of_fail (h : judge pattern digits = .fail) (d : Digit) : judge pattern (digits ++ [d]) = .fail :=
  judge_of_mismatch ((judge_eq_fail_iff.mp h).append d)

theorem judge_append_of_hit (h : judge pattern digits = .hit) (d : Digit) : judge pattern (digits ++ [d]) = .hit := by
  obtain ⟨fits, covered⟩ := judge_eq_hit_iff.mp h
  refine judge_eq_hit_iff.mpr ⟨fun mismatch => fits (mismatch.of_append covered), ?_⟩
  rw [List.length_append]
  omega

end

/-! ### The window that decides (R103) -/

section
variable {t : WindowTable} {digits : List Digit} {i : Fin 8}

/-- The window is enabled and not FAIL (R103). -/
def Window.stands (w : Window) (digits : List Digit) : Bool :=
  w.enabled && decide (judge w.pattern digits ≠ .fail)

theorem Window.stands_iff {w : Window} :
    w.stands digits = true ↔ w.enabled = true ∧ judge w.pattern digits ≠ .fail := by
  rw [Window.stands, Bool.and_eq_true, decide_eq_true_iff]

theorem Window.not_stands {w : Window} (h : w.enabled = true → judge w.pattern digits = .fail) :
    ¬w.stands digits = true := by
  rw [Window.stands_iff]
  exact fun ⟨enabled, notFail⟩ => notFail (h enabled)

/-- The lowest enabled window that is not FAIL (R103). -/
def WindowTable.lowest (t : WindowTable) (digits : List Digit) : Option (Fin 8) :=
  (List.finRange 8).find? fun i => t.table[i].stands digits

theorem WindowTable.lowest_eq_none
    (h : ∀ i : Fin 8, t.table[i].enabled = true → judge t.table[i].pattern digits = .fail) :
    t.lowest digits = none :=
  List.find?_eq_none.mpr fun i _ => Window.not_stands (h i)

/-- In rising order of numbers, the lowest window that stands is the first that is found. -/
theorem WindowTable.lowest_eq_some (stands : t.table[i].stands digits = true)
    (below : ∀ j : Fin 8, j < i → t.table[j].enabled = true → judge t.table[j].pattern digits = .fail) :
    t.lowest digits = some i := by
  obtain ⟨front, back, numbers⟩ := List.append_of_mem (List.mem_finRange i)
  have rising := List.pairwise_lt_finRange 8
  rw [numbers] at rising
  refine List.find?_eq_some_iff_append.mpr ⟨stands, front, back, numbers, fun j inFront => ?_⟩
  have lower : j < i := (List.pairwise_append.mp rising).2.2 j inFront i List.mem_cons_self
  exact (Bool.not_eq_true' _).mpr (Bool.eq_false_iff.mpr (Window.not_stands (below j lower)))

theorem WindowTable.stands_of_lowest (h : t.lowest digits = some i) : t.table[i].stands digits = true :=
  List.find?_some (p := fun i : Fin 8 => t.table[i].stands digits) h

theorem WindowTable.evaluate_of_none (h : t.lowest digits = none) : t.evaluate digits = some t.snapDefault := by
  unfold WindowTable.lowest Window.stands at h
  rw [WindowTable.evaluate, h]

theorem WindowTable.evaluate_of_lowest (h : t.lowest digits = some i) :
    t.evaluate digits = if judge t.table[i].pattern digits = .hit then some (t.table[i].snap i) else none := by
  unfold WindowTable.lowest Window.stands at h
  rw [WindowTable.evaluate, h]
  dsimp only
  cases judge t.table[i].pattern digits <;> rfl

theorem WindowTable.window_set_ne (t : WindowTable) {j : Fin 8} (h : i ≠ j) (w : Window) :
    (t.table.set i w)[j] = t.table[j] :=
  Vector.getElem_set_ne i.isLt j.isLt (Fin.val_ne_of_ne h)

/-- A disabled window put in the place of a disabled one leaves what the others decide (R102). -/
theorem WindowTable.lowest_set_of_disabled {w : Window} (old : t.table[i].enabled = false) (new : w.enabled = false) :
    { t with table := t.table.set i w }.lowest digits = t.lowest digits := by
  have same (j : Fin 8) : (t.table.set i w)[j].stands digits = t.table[j].stands digits := by
    by_cases place : i = j
    · subst place
      have placed : (t.table.set i w)[i] = w := Vector.getElem_set_self i.isLt
      rw [placed, Window.stands, Window.stands, new, old, Bool.false_and, Bool.false_and]
    · rw [t.window_set_ne place]
  exact congrArg (fun p => (List.finRange 8).find? p) (funext same)

theorem WindowTable.evaluate_set_of_disabled {w : Window} (old : t.table[i].enabled = false)
    (new : w.enabled = false) :
    { t with table := t.table.set i w }.evaluate digits = t.evaluate digits := by
  have same := WindowTable.lowest_set_of_disabled (digits := digits) old new
  cases decided : t.lowest digits with
  | none =>
    rw [WindowTable.evaluate_of_none decided, WindowTable.evaluate_of_none (same.trans decided)]
    rfl
  | some j =>
    have enabled := (Window.stands_iff.mp (WindowTable.stands_of_lowest decided)).1
    have place : i ≠ j := by
      rintro rfl
      exact Bool.false_ne_true (old.symm.trans enabled)
    rw [WindowTable.evaluate_of_lowest decided, WindowTable.evaluate_of_lowest (same.trans decided),
      t.window_set_ne place]

/-- No window is PARTIAL at eight digits, so they decide (R102, R103). -/
theorem WindowTable.evaluate_isSome (patterns : ∀ i : Fin 8, t.table[i].pattern.length ≤ 8) (eight : 8 ≤ digits.length) :
    (t.evaluate digits).isSome = true := by
  cases decided : t.lowest digits with
  | none => rw [WindowTable.evaluate_of_none decided, Option.isSome_some]
  | some i =>
    have notFail := (Window.stands_iff.mp (WindowTable.stands_of_lowest decided)).2
    have notPartial : judge t.table[i].pattern digits ≠ .partialFit :=
      judge_ne_partialFit (Nat.le_trans (patterns i) eight)
    have hit : judge t.table[i].pattern digits = .hit := by
      cases fit : judge t.table[i].pattern digits with
      | fail => exact absurd fit notFail
      | partialFit => exact absurd fit notPartial
      | hit => rfl
    rw [WindowTable.evaluate_of_lowest decided, if_pos hit, Option.isSome_some]

end

/-- Settles O26: the compared positions are the places of the zipped lists, and a digit that comes is compared only
with a position beyond those compared before it. -/
theorem windowIsJudged : Obligations.WindowIsJudged := by
  unfold Obligations.WindowIsJudged
  refine ⟨fun pattern digits => ?_, fun t digits i w old new => WindowTable.evaluate_set_of_disabled old new⟩
  refine ⟨judge_eq_fail_iff, judge_eq_partialFit_iff, judge_eq_hit_iff, fun d hit => judge_append_of_hit hit d,
    fun d fail => judge_append_of_fail fail d, fun eightPositions eightDigits => ?_⟩
  exact judge_ne_partialFit (Nat.le_trans eightPositions eightDigits)

/-! ### The binding after a digit (R95, R103) -/

section
variable {c : Collection}

theorem Collection.accept_eq (c : Collection) (t : WindowTable) (d : Digit) :
    c.accept t d = { c with digits := c.digits ++ [d], bound := (c.accept t d).bound } := rfl

theorem Collection.bound_accept_of_bound {b : WindowSnap} (h : c.bound = some b) (t : WindowTable) (d : Digit) :
    (c.accept t d).bound = some b := by
  rw [Collection.accept, h]

theorem Collection.bound_accept_of_undecided (h : c.bound = none) (t : WindowTable) (d : Digit) :
    (c.accept t d).bound = t.evaluate (c.digits ++ [d]) := by
  rw [Collection.accept, h]

end

/-- Settles O27: an UNDECIDED collection takes what the table decides, and the table's decision is that of its lowest
enabled window that is not FAIL. -/
theorem lowestWindowDecides : Obligations.LowestWindowDecides := by
  unfold Obligations.LowestWindowDecides
  intro t c d digits
  refine ⟨⟨_, Collection.accept_eq c t d⟩, fun b bound => Collection.bound_accept_of_bound bound t d,
    fun undecided => ?_⟩
  rw [Collection.bound_accept_of_undecided undecided t d]
  refine ⟨rfl, fun allFail => ?_, fun i enabled below => ?_, fun patterns seven => ?_⟩
  · exact WindowTable.evaluate_of_none (WindowTable.lowest_eq_none allFail)
  · intro w
    have decided (notFail : judge w.pattern digits ≠ .fail) : t.lowest digits = some i :=
      WindowTable.lowest_eq_some (Window.stands_iff.mpr ⟨enabled, notFail⟩) below
    refine ⟨fun hit => ?_, fun partialFit => ?_⟩
    · exact (WindowTable.evaluate_of_lowest (decided (by simp [hit]))).trans (if_pos hit)
    · exact (WindowTable.evaluate_of_lowest (decided (by simp [partialFit]))).trans
        (if_neg fun hit => by cases hit.symm.trans partialFit)
  · exact WindowTable.evaluate_isSome patterns (by simpa [digits] using seven)

end Sys2Proof.Machine
end

section
/-! SUPPORT. What the acceptance of a digit and a closure do to the line, and the dial record that a closure builds
(R95, R105, R108 to R111). -/

namespace Sys2Proof.Machine

/-! ### The acceptance of a digit (R95, R105) -/

theorem lengthReached_iff {b : Option WindowSnap} {count : Nat} :
    lengthReached b count = true ↔ ∃ w m, b = some w ∧ w.rule = .fixed m ∧ m ≤ count := by
  cases b with
  | none => simp [lengthReached]
  | some w => cases rule : w.rule <;> simp [lengthReached, rule]

section
variable {s : State} {n : LineNo} {c : Collection}

/-- The line's collection takes the digit and the line's timers are set, before any closure (R95 steps 1 to 4). -/
def State.withDigit (s : State) (n : LineNo) (c : Collection) (d : Digit) : State :=
  s.setLine n { s.line n with
    collection := some (c.accept s.windows d), firstDigitTimer := none,
    collectTimer := some (after s.now (s.profileOf n).collectMs) }

/-- A digit that is accepted closes the collection at its window's count, or else at 24 digits (R95, R105). -/
theorem State.acceptDigit_eq (h : (s.line n).collection = some c) (d : Digit) :
    s.acceptDigit n d =
      if lengthReached (c.accept s.windows d).bound (c.accept s.windows d).digits.length then
        (s.withDigit n c d).closeCollection n .length s.now
      else if 24 ≤ (c.accept s.windows d).digits.length then (s.withDigit n c d).closeCollection n .full s.now
      else s.withDigit n c d := by
  rw [State.acceptDigit, h]
  rfl

end

/-- Settles O28: the collection with its digit decides between the closures, LENGTH before FULL. -/
theorem digitIsAccepted : Obligations.DigitIsAccepted := by
  unfold Obligations.DigitIsAccepted
  intro s n d c l open_ c' u long
  have reached : lengthReached c'.bound c'.digits.length = true ↔ long := lengthReached_iff
  have accepted : s.acceptDigit n d =
      if lengthReached c'.bound c'.digits.length then u.closeCollection n .length s.now
      else if 24 ≤ c'.digits.length then u.closeCollection n .full s.now
      else u := State.acceptDigit_eq open_ d
  rw [accepted]
  refine ⟨fun atCount => ?_, fun below full => ?_, fun below room => ?_⟩
  · rw [if_pos (reached.mpr atCount)]
  · rw [if_neg (mt reached.mp below), if_pos full]
  · rw [if_neg (mt reached.mp below), if_neg (Nat.not_le.mpr room)]

/-! ### Closures (R108 to R111) -/

theorem State.admitRecord_setLine (s : State) (n : LineNo) (l : Line) (r : DialRecord) :
    (s.setLine n l).admitRecord r = (s.admitRecord r).setLine n l := by
  unfold State.admitRecord
  rw [State.store_setLine]
  cases s.store.emptySlot with
  | none => rfl
  | some i =>
    dsimp only
    rw [← State.raise_setLine]
    rfl

/-- The store takes an arrival without regard to the lines (R117). -/
theorem State.arrive_setLine (s : State) (n : LineNo) (l : Line) (r : DialRecord) :
    (s.setLine n l).arrive r = (s.arrive r).setLine n l := by
  unfold State.arrive
  rw [State.store_setLine]
  split
  · exact State.raise_setLine (s.setOverrun r.line true) n l _ _ _
  · split
    · exact State.admitRecord_setLine s n l r
    · rfl

theorem State.closeCollection_of_open {s : State} {n : LineNo} {c : Collection} (h : (s.line n).collection = some c)
    (cause : Cause) (t : Time) :
    s.closeCollection n cause t = (s.arrive (s.buildRecord n c cause t)).setLine n
      { s.line n with collectTimer := none, collection := none } := by
  rw [State.closeCollection, h]
  dsimp only
  rw [State.modLine_eq s, State.arrive_setLine, State.modLine_eq, State.line_setLine_self, State.setLine_setLine]

/-- Settles O29: the store and the line are changed apart from each other, and the snapshot decides the record's
window, class and routed digits. -/
theorem closureBuildsTheRecord : Obligations.ClosureBuildsTheRecord := by
  unfold Obligations.ClosureBuildsTheRecord
  intro s n c cause t l open_ record
  have built : s.buildRecord n c cause t = record := by
    rcases c with ⟨_, _, _ | ⟨_ | _, _, _, _, _, _⟩, _, _⟩
    case none => rfl
    case some.none => rfl
    case some.some => rfl
  rw [State.closeCollection_of_open open_, built]

end Sys2Proof.Machine
end

section
/-! SUPPORT. RECORD_TAKE: its selector, its three answers, and the bytes of a dial record (R109, R121, R122, R193). -/

namespace Sys2Proof.Machine

/-! ### The selector (R121) -/

theorem lineArg_of_val {b : Byte} {n : LineNo} (h : n.val = b.toNat) : lineArg b = some n := by
  unfold lineArg
  rw [dif_pos (h ▸ n.isLt)]
  exact congrArg some (Fin.ext h.symm)

theorem lineArg_refused {b : Byte} (h : 64 ≤ b.toNat) : lineArg b = none := dif_neg (Nat.not_lt.mpr h)

theorem selectorArg_line (line : Byte) : selectorArg 1 line = (lineArg line).map .line := rfl

theorem selectorArg_refused {selector line : Byte} (h : 2 < selector.toNat ∨ (selector = 1 ∧ 64 ≤ line.toNat)) :
    selectorArg selector line = none := by
  rcases h with unknown | ⟨rfl, noLine⟩
  · have isNot {k : Byte} (low : k.toNat ≤ 2) : selector ≠ k := by
      rintro rfl
      omega
    unfold selectorArg
    rw [if_neg (isNot (by decide)), if_neg (isNot (by decide)), if_neg (isNot (by decide))]
  · rw [selectorArg_line, lineArg_refused noLine]
    rfl

theorem selectorArg_of_code {selector line : Byte} {q : Selector}
    (h : (selector = 0 ∧ q = .oldest) ∨ (selector = 2 ∧ q = .urgentFirst) ∨
      (selector = 1 ∧ ∃ n : LineNo, n.val = line.toNat ∧ q = .line n)) :
    selectorArg selector line = some q := by
  rcases h with ⟨rfl, rfl⟩ | ⟨rfl, rfl⟩ | ⟨rfl, n, number, rfl⟩
  · rfl
  · rfl
  · rw [selectorArg_line, lineArg_of_val number]
    rfl

/-! ### The three answers (R122) -/

theorem carried_recordTake (selector line : Byte) : (Request.recordTake selector line).Carried :=
  ⟨rfl, rfl, by simp [Request.payload]⟩

section
variable {s t : State} {selector line : Byte} {q : Selector} {reply : Reply}

theorem recordTake_answered (ready : s.ready) (tag : Byte) (run : runRecordTake selector line s.heard = (t, reply)) :
    exec (.recordTake tag selector line) s = .next (t.answer 0x8E tag reply.payload) := by
  have carried := carried_recordTake selector line
  have answered := arriveRequest_ready ready _ tag carried.decoded carried.isRequest carried.fits
  have run' : runRequest (.recordTake selector line) tag s.heard = (t, reply) := run
  rw [run'] at answered
  exact answered

theorem runRecordTake_refused (h : selectorArg selector line = none) (s : State) :
    runRecordTake selector line s = refuse .badArg s := by
  rw [runRecordTake, h]

theorem runRecordTake_empty (h : selectorArg selector line = some q) (nothing : s.store.choose q = none) :
    runRecordTake selector line s = refuse .empty s := by
  simp only [runRecordTake, h, nothing]

theorem runRecordTake_taken {i : Fin 16} {sl : Slot} (h : selectorArg selector line = some q)
    (chosen : s.store.choose q = some i) (slot : s.store.slots[i] = some sl) :
    runRecordTake selector line s =
      (s.takeSlot i sl, ⟨.done, [byte i.val, byte sl.rank] ++ sl.record.bytes⟩) := by
  simp only [runRecordTake, h, chosen, slot]

end

/-! ### The bytes of a dial record (section 11.7) -/

/-- A Boolean as bit i of a byte of flags. -/
def flagBit (b : Bool) (i : Nat) : Nat := if b then 2 ^ i else 0

theorem flagBit_eq (b : Bool) (i : Nat) : flagBit b i = 2 ^ i * b.toNat := by
  cases b <;> simp [flagBit]

theorem yesNo_eq (b : Bool) : yesNo b = byte (flagBit b 0) := by
  cases b <;> rfl

theorem Marks.code_eq (m : Marks) : m.code = byte (flagBit m.mutilated 0 + flagBit m.badPulseCount 1 +
    flagBit m.learnOverflow 2 + flagBit m.rateOutOfRange 3 + flagBit m.toneInPulse 4 + flagBit m.detectorWait 5) := by
  simp [Marks.code, flagBit_eq]

theorem Digit.code_eq (d : Digit) : d.code = byte (d.symbol.val + flagBit (decide (d.method = .tone)) 4) := by
  obtain ⟨symbol, method⟩ := d
  cases method <;> rfl

/-- The byte of presence flags of a dial record. -/
theorem DialRecord.presence_eq (r : DialRecord) :
    r.learned.isSome.toNat + 2 * r.wait.isSome.toNat + 4 * r.routed.isSome.toNat + 8 * r.storeWaited.toNat =
      flagBit r.learned.isSome 0 + flagBit r.wait.isSome 1 + flagBit r.routed.isSome 2 + flagBit r.storeWaited 3 := by
  simp [flagBit_eq]

/-- Settles O32: the checks of the selector and the slot it chooses decide the answer, and the record's layout is read
field by field. -/
theorem recordTakeReturnsTheRecord : Obligations.RecordTakeReturnsTheRecord := by
  unfold Obligations.RecordTakeReturnsTheRecord
  refine ⟨fun s tag selector line ready => ⟨fun bad => ?_, fun q code => ⟨fun nothing => ?_, fun i sl chosen slot => ?_⟩⟩,
    fun r => ?_⟩
  · exact recordTake_answered ready tag (runRecordTake_refused (selectorArg_refused bad) s.heard)
  · exact recordTake_answered ready tag (runRecordTake_empty (selectorArg_of_code code) nothing)
  · exact recordTake_answered ready tag (runRecordTake_taken (selectorArg_of_code code) chosen slot)
  · intro one four bit cause window marks flags wait routed
    have time (t : Time) : bytes4 t.toNat = four t := bytes4_toNat t
    have causeCode : r.cause.code = cause := rfl
    have windowCode : r.window.code = window := rfl
    have urgentCode : yesNo r.urgent = one (bit r.urgent 0) := yesNo_eq r.urgent
    have marksCode : r.marks.code = one marks := r.marks.code_eq
    have flagsCode : byte (r.learned.isSome.toNat + 2 * r.wait.isSome.toNat + 4 * r.routed.isSome.toNat +
        8 * r.storeWaited.toNat) = one flags := congrArg byte r.presence_eq
    have digitCodes : r.digits.map Digit.code =
        r.digits.map fun d => one (d.symbol.val + bit (decide (d.method = .tone)) 4) :=
      List.map_congr_left fun d _ => d.code_eq
    rw [DialRecord.bytes, time, time, causeCode, windowCode, urgentCode, marksCode, flagsCode, digitCodes]
    simp only [List.append_assoc]
    rfl

end Sys2Proof.Machine
end

section
/-! SUPPORT. What every step keeps of the store: the ranks of its records and the limits of a line (R114, R116,
R117). -/

namespace Sys2Proof.Machine

theorem State.StoreOk.of_store {s t : State} (h : s.StoreOk) (store : t.store = s.store) : t.StoreOk :=
  h.congr (by rw [store]) (by rw [store])

theorem State.StoreOk.of_samePool {s t : State} (h : s.StoreOk) (same : SamePool s t) : t.StoreOk :=
  h.of_store same.store

theorem State.StoreOk.of_sameBus {s t : State} (h : s.StoreOk) (same : SameBus s t) : t.StoreOk :=
  h.of_store (by rw [same.eq])

/-! ### The store after a reset (R131) -/

theorem Store.slots_initial (i : Fin 16) : Store.initial.slots[i] = none := by simp [Store.initial]

@[simp] theorem Store.occupied_initial : Store.initial.occupied = 0 :=
  List.countP_eq_zero.mpr fun i _ => by rw [Store.slots_initial]; exact Bool.false_ne_true

@[simp] theorem Store.storedCount_initial (n : LineNo) : Store.initial.storedCount n = 0 :=
  List.countP_eq_zero.mpr fun i _ => by rw [Store.slots_initial]; exact Bool.false_ne_true

@[simp] theorem Store.pendingCount_initial (n : LineNo) : Store.initial.pendingCount n = 0 := rfl

theorem State.StoreOk.of_initial {s : State} (store : s.store = .initial) : s.StoreOk := by
  have empty (i : Fin 16) (sl : Slot) : s.store.slots[i] ≠ some sl := by
    rw [store, Store.slots_initial]
    exact (Option.some_ne_none sl).symm
  refine ⟨fun i sl h => absurd h (empty i sl), fun i _ a _ h => absurd h (empty i a), fun h => ?_, fun n => ?_,
    fun n => ?_⟩
  · rw [store] at h
    exact absurd rfl h
  · simp [store]
  · simp [store]

/-! ### Every step -/

/-- The elementary changes of a step keep the store's invariant: arrivals, takes and dropped pending records by their
rules, every other one because it leaves the slots and the pending list alone. -/
theorem storeOk_closed : ClosedStep State.StoreOk where
  arrive _ r h := h.arrive r
  take _ _ _ slot h := h.takeSlot slot
  dropPending _ n h := h.dropPending n
  reset _ _ _ _ _ := .of_initial rfl
  line _ _ _ _ h := h.of_store rfl
  raise _ src k t h := h.raise src k t
  request s n h := h.of_samePool (samePool_requestDetector s n)
  drop s n h := h.of_samePool (samePool_dropDetector s n)
  out s d h := h.of_samePool (samePool_serviceOut s d)
  back s d h := h.of_samePool (samePool_serviceIn s d)
  overrun _ _ _ h := h.congr rfl rfl
  want s p h := h.of_sameBus (sameBus_want s p)
  withdraw s p h := h.of_sameBus (sameBus_withdraw s p)
  bus _ b _ _ _ h := h.of_sameBus (sameBus_of b)
  free _ h := h.of_store rfl
  occupy s e _ _ h _ _ := (h.of_sameBus (sameBus_removeEntry s fun x => decide (x = e))).of_store rfl
  order s p k tag _ _ h := h.of_sameBus (sameBus_orderTest s p k tag)
  cancel s p _ h := h.of_sameBus (sameBus_removeEntry s fun e => decide (e.pair = p))
  unwant _ _ h := h.of_store rfl
  record _ _ _ h := h.of_store rfl
  answered _ _ h := h.of_store rfl
  fault _ _ _ h := h.of_store rfl
  binder _ _ _ h := h.of_store rfl
  scan _ _ h := h.of_store rfl
  watch _ _ h := h.of_store rfl
  profile _ _ _ _ _ h := h.of_store rfl
  window _ _ _ _ _ h := h.of_store rfl
  defaultClass _ _ h := h.of_store rfl
  routes _ _ h := h.of_store rfl
  enable s k x h := h.of_store (s.store_enablePoints k x)
  disable s k x h := h.of_store (s.store_disablePoints k x)
  takeEntry _ _ _ h := h.of_store rfl
  ordered _ h := h.of_store rfl
  link _ _ h := h.of_store rfl
  now _ _ h := h.of_store rfl
  queue _ _ _ h := h.of_store rfl

/-- Settles O57: what the elementary changes keep, every step keeps. -/
theorem stepKeepsStoreOk : Obligations.StepKeepsStoreOk := by
  unfold Obligations.StepKeepsStoreOk
  exact fun _ _ sound stepped => storeOk_closed.step sound stepped

end Sys2Proof.Machine
end

section
/-! SUPPORT. The store's operations case by case: where an arrival goes, and the store after each reset (R114, R117 to
R119, R131). -/

namespace Sys2Proof.Machine

/-! ### Slots and limits (R114, R117) -/

/-- The lowest is the first that is found in rising order. -/
theorem find?_finRange_eq_some {n : Nat} {p : Fin n → Bool} {i : Fin n} (found : p i = true)
    (lower : ∀ j, j < i → p j = false) : (List.finRange n).find? p = some i := by
  obtain ⟨front, back, numbers⟩ := List.append_of_mem (List.mem_finRange i)
  have rising := List.pairwise_lt_finRange n
  rw [numbers] at rising
  obtain ⟨-, -, before⟩ := List.pairwise_append.mp rising
  refine List.find?_eq_some_iff_append.mpr ⟨found, front, back, numbers, fun j inFront => ?_⟩
  rw [lower j (before j inFront i List.mem_cons_self)]
  rfl

theorem Store.emptySlot_eq_some {st : Store} {i : Fin 16} (free : st.slots[i] = none)
    (lower : ∀ j : Fin 16, j < i → st.slots[j].isSome = true) : st.emptySlot = some i := by
  refine find?_finRange_eq_some ?_ fun j low => ?_
  · rw [free]; rfl
  · rw [← Option.not_isSome, lower j low]; rfl

theorem Store.emptySlot_eq_none {st : Store} (full : ∀ i : Fin 16, st.slots[i].isSome = true) :
    st.emptySlot = none :=
  List.find?_eq_none.mpr fun i _ => by rw [← Option.not_isSome, full i]; exact Bool.false_ne_true

/-- A line is at its limit: a record of it waits, or it has two in the store (R117). -/
def Store.AtLimit (st : Store) (n : LineNo) : Prop := (∃ x ∈ st.waiting, x.line = n) ∨ 2 ≤ st.storedCount n

theorem Store.atLimit_iff {st : Store} {n : LineNo} :
    (st.hasPending n || decide (2 ≤ st.storedCount n)) = true ↔ st.AtLimit n := by
  simp [Store.AtLimit, Store.hasPending]

/-! ### Arrivals (R117 to R119) -/

section
variable {s : State} {r : DialRecord}

theorem State.arrive_of_atLimit (limit : s.store.AtLimit r.line) :
    s.arrive r = (s.setOverrun r.line true).raise (.line r.line) .overrun (some r.closeTime) :=
  if_pos (Store.atLimit_iff.mpr limit)

/-- The record enters slot i with the next rank (R114, R118). -/
def State.stored (s : State) (i : Fin 16) (r : DialRecord) : State :=
  { s with store := { s.store with slots := s.store.slots.set i (some ⟨s.store.occupied + 1, r⟩) } }

@[simp] theorem State.waiting_stored (s : State) (i : Fin 16) (r : DialRecord) :
    (s.stored i r).store.waiting = s.store.waiting := rfl

@[simp] theorem State.storeWait_stored (s : State) (i : Fin 16) (r : DialRecord) :
    (s.stored i r).store.storeWait = s.store.storeWait := rfl

@[simp] theorem State.notices_stored (s : State) (i : Fin 16) (r : DialRecord) :
    (s.stored i r).notices = s.notices := rfl

theorem State.slot_stored_self (s : State) (i : Fin 16) (r : DialRecord) :
    (s.stored i r).store.slots[i] = some ⟨s.store.occupied + 1, r⟩ := by
  simp [State.stored]

theorem State.slot_stored_ne (s : State) (r : DialRecord) {i j : Fin 16} (other : j ≠ i) :
    (s.stored i r).store.slots[j] = s.store.slots[j] := by
  simp [State.stored, Vector.getElem_set_ne, Fin.val_ne_of_ne other.symm]

theorem State.admitRecord_of_emptySlot {i : Fin 16} (lowest : s.store.emptySlot = some i) :
    s.admitRecord r = (s.stored i r).raise (.line r.line) .record none := by
  rw [State.admitRecord, lowest]
  rfl

theorem State.arrive_of_room {i : Fin 16} (limit : ¬s.store.AtLimit r.line) (nobody : s.store.waiting = [])
    (lowest : s.store.emptySlot = some i) :
    s.arrive r = (s.stored i r).raise (.line r.line) .record none := by
  have room : (s.store.emptySlot.isSome && s.store.waiting.isEmpty) = true := by rw [lowest, nobody]; rfl
  rw [State.arrive, if_neg (mt Store.atLimit_iff.mp limit), if_pos room, State.admitRecord_of_emptySlot lowest]

theorem State.arrive_of_no_room (limit : ¬s.store.AtLimit r.line)
    (noRoom : s.store.waiting ≠ [] ∨ s.store.emptySlot = none) :
    s.arrive r = State.setStoreWait { s with store := { s.store with
      waiting := s.store.waiting ++ [{ r with storeWaited := true }] } } r.line true := by
  have refused : ¬(s.store.emptySlot.isSome && s.store.waiting.isEmpty) = true := by
    rw [Bool.and_eq_true, List.isEmpty_iff]
    rintro ⟨room, nobody⟩
    rcases noRoom with somebody | full
    · exact somebody nobody
    · rw [full] at room
      cases room
  rw [State.arrive, if_neg (mt Store.atLimit_iff.mp limit), if_neg refused]

end

/-- Settles O30: the line's limit is asked first, then the lowest empty slot and the pending list. -/
theorem closureArrivalIsPlaced : Obligations.ClosureArrivalIsPlaced := by
  unfold Obligations.ClosureArrivalIsPlaced
  intro s r waits stored occupied limit
  have limit_eq : limit = s.store.AtLimit r.line := rfl
  rw [limit_eq]
  refine ⟨State.arrive_of_atLimit, fun below nobody i free lower => ?_, fun below noRoom => ?_⟩
  · exact State.arrive_of_room below nobody (Store.emptySlot_eq_some free lower)
  · exact State.arrive_of_no_room below (noRoom.imp_right Store.emptySlot_eq_none)

/-! ### Resets (R131, R183) -/

/-- The store and the notices have their values after reset. -/
def State.Emptied (s : State) : Prop := s.store = .initial ∧ s.notices = .initial

/-- The transmitter's first choice is the STARTED frame, whatever the cause (R184). -/
theorem State.emptied_choose_resetPart (s : State) (cause : ResetCause) (straps : Straps) (races : Nat) :
    State.Emptied (State.choose { s.resetPart cause straps with raceCount := races }) := ⟨rfl, rfl⟩

/-- The end of an accepted PART_RESET's reply is a reset (R196). -/
theorem exec_frameSent_of_resetReply {s : State} {f : Frame} (inFlight : s.link.inFlight = some f)
    (type : f.type = 0x9D) (payload : f.payload = [0]) : exec .frameSent s = .next s.requestReset.choose := by
  have resets : isResetReply f = true := by rw [isResetReply, type, payload]; rfl
  show execFrameSent s = _
  simp only [execFrameSent, inFlight, State.frameEnd, if_pos resets]

theorem Store.not_atLimit_initial (n : LineNo) : ¬Store.initial.AtLimit n := by
  rw [Store.AtLimit, Store.storedCount_initial]
  simp [Store.initial]

/-- An empty store has room for any record: it takes slot S00 and rank 1 (R114, R118). -/
theorem State.slot_arrive_of_initial {s : State} (empty : s.store = .initial) (r : DialRecord) :
    (s.arrive r).store.slots[(0 : Fin 16)] = some ⟨1, r⟩ := by
  have nobody : s.store.waiting = [] := by rw [empty]; rfl
  have below : ¬s.store.AtLimit r.line := empty ▸ Store.not_atLimit_initial r.line
  have lowest : s.store.emptySlot = some 0 :=
    Store.emptySlot_eq_some (by rw [empty, Store.slots_initial]) fun j low => absurd low j.not_lt_zero
  rw [State.arrive_of_room below nobody lowest, State.store_raise, State.slot_stored_self, empty,
    Store.occupied_initial]

/-- Settles O6: each reset gives the store and the notices their values after reset. -/
theorem everyResetEmptiesTheStore : Obligations.EveryResetEmptiesTheStore := by
  unfold Obligations.EveryResetEmptiesTheStore
  intro s t rate1 rate0 reset
  have emptied : t.Emptied := by
    rcases reset with powerOn | pin | ⟨f, inFlight, type, payload, ended⟩
    · cases powerOn
      exact s.emptied_choose_resetPart .power ⟨rate1, rate0⟩ s.raceCount
    · cases pin
      exact s.emptied_choose_resetPart .pin ⟨rate1, rate0⟩ s.raceCount
    · rw [exec_frameSent_of_resetReply inFlight type payload] at ended
      cases ended
      exact s.emptied_choose_resetPart .request _ (s.raceCount + 1)
  obtain ⟨store, notices⟩ := emptied
  refine ⟨fun i => ?_, ?_, fun n => ?_, ?_, State.slot_arrive_of_initial store⟩
  · rw [store, Store.slots_initial]
  · rw [store]; rfl
  · simp [store, Store.initial]
  · rw [notices]; rfl

end Sys2Proof.Machine
end

section
/-! SUPPORT. The selectors: the record of lowest rank among those asked for (R121). -/

namespace Sys2Proof.Machine

/-- Slot i holds a record that satisfies q at rank r + 1. -/
def Store.holdsAt (st : Store) (q : DialRecord → Bool) (r : Nat) (i : Fin 16) : Bool :=
  match st.slots[i] with
  | some sl => decide (sl.rank = r + 1) && q sl.record
  | none => false

/-- `c` is the slot of lowest rank among those whose record satisfies q; none when no record does. -/
def Store.IsLowest (st : Store) (q : DialRecord → Bool) (c : Option (Fin 16)) : Prop :=
  (c = none → ∀ (i : Fin 16) (sl : Slot), st.slots[i] = some sl → q sl.record = false) ∧
  (∀ i, c = some i → ∃ sl, st.slots[i] = some sl ∧ q sl.record = true ∧
    ∀ (j : Fin 16) (sl' : Slot), st.slots[j] = some sl' → q sl'.record = true → sl.rank ≤ sl'.rank)

section
variable {st : Store} {q : DialRecord → Bool} {i : Fin 16} {sl : Slot}

theorem Store.holdsAt_iff {r : Nat} :
    st.holdsAt q r i = true ↔ ∃ sl, st.slots[i] = some sl ∧ sl.rank = r + 1 ∧ q sl.record = true := by
  unfold Store.holdsAt
  cases st.slots[i] <;> simp

theorem Store.lowest_eq (st : Store) (q : DialRecord → Bool) :
    st.lowest q = (List.range 16).findSome? fun r => allSlots.find? (st.holdsAt q r) := rfl

/-- Where the search at a rank finds no slot, the record of that rank does not satisfy q. -/
theorem Store.not_of_find?_holdsAt {r : Nat} (nowhere : allSlots.find? (st.holdsAt q r) = none)
    (slot : st.slots[i] = some sl) (rank : sl.rank = r + 1) : q sl.record = false :=
  Bool.eq_false_iff.mpr fun asked =>
    List.find?_eq_none.mp nowhere i (mem_allSlots i) (Store.holdsAt_iff.mpr ⟨sl, slot, rank, asked⟩)

/-- A rank is a place in the list of ranks that is gone through (R114). -/
theorem State.StoreOk.rank_pred {s : State} (ok : s.StoreOk) (slot : s.store.slots[i] = some sl) :
    ∃ r < 16, sl.rank = r + 1 := by
  obtain ⟨low, high⟩ := ok.ranks i sl slot
  have sixteen : s.store.occupied ≤ 16 := List.countP_le_length
  exact ⟨sl.rank - 1, by omega, by omega⟩

/-- The ranks are gone through in rising order, so the first slot found has the lowest (R114, R121). -/
theorem State.StoreOk.isLowest {s : State} (ok : s.StoreOk) (q : DialRecord → Bool) :
    s.store.IsLowest q (s.store.lowest q) := by
  rw [Store.lowest_eq]
  refine ⟨fun nothing i sl slot => ?_, fun i chosen => ?_⟩
  · obtain ⟨r, low, rank⟩ := ok.rank_pred slot
    exact Store.not_of_find?_holdsAt (List.findSome?_eq_none_iff.mp nothing r (List.mem_range.mpr low)) slot rank
  · obtain ⟨front, r, back, ranks, found, before⟩ := List.findSome?_eq_some_iff.mp chosen
    obtain ⟨sl, slot, rank, asked⟩ := Store.holdsAt_iff.mp (List.find?_some found)
    refine ⟨sl, slot, asked, fun j sl' slot' asked' => Nat.le_of_not_lt fun lower => ?_⟩
    obtain ⟨r', low, rank'⟩ := ok.rank_pred slot'
    have inFront : r' ∈ front := by
      have listed : r' ∈ front ++ r :: back := ranks ▸ List.mem_range.mpr low
      have rising : (front ++ r :: back).Pairwise (· < ·) := ranks ▸ List.pairwise_lt_range
      obtain ⟨-, behind, -⟩ := List.pairwise_append.mp rising
      rcases List.mem_append.mp listed with inFront | notInFront
      · exact inFront
      · have : r ≤ r' := by
          rcases List.mem_cons.mp notInFront with same | inBack
          · exact Nat.le_of_eq same.symm
          · exact Nat.le_of_lt (List.rel_of_pairwise_cons behind inBack)
        omega
    exact absurd asked' (Bool.eq_false_iff.mp (Store.not_of_find?_holdsAt (before r' inFront) slot' rank'))

theorem Store.choose_urgentFirst_of_some (h : st.lowest (·.urgent) = some i) : st.choose .urgentFirst = some i := by
  rw [Store.choose, h]

theorem Store.choose_urgentFirst_of_none (h : st.lowest (·.urgent) = none) :
    st.choose .urgentFirst = st.choose .oldest := by
  simp only [Store.choose, h]

end

/-- Settles O31: every selector goes by the lowest slot for its records, URGENT_FIRST by that for urgent ones as long
as there is one. -/
theorem selectorChoosesTheLowestRank : Obligations.SelectorChoosesTheLowestRank := by
  unfold Obligations.SelectorChoosesTheLowestRank
  intro s ok lowest
  obtain ⟨unfound, found⟩ := ok.isLowest (·.urgent)
  refine ⟨ok.isLowest fun _ => true, fun n => ok.isLowest fun r => decide (r.line = n), ?_, fun noneUrgent => ?_⟩
  · rintro ⟨i, sl, slot, urgent⟩
    cases first : s.store.lowest (·.urgent) with
    | none => exact absurd urgent (Bool.eq_false_iff.mp (unfound first i sl slot))
    | some j =>
      rw [Store.choose_urgentFirst_of_some first, ← first]
      exact ok.isLowest (·.urgent)
  · refine Store.choose_urgentFirst_of_none (Option.eq_none_iff_forall_ne_some.mpr fun i first => ?_)
    obtain ⟨sl, slot, urgent, -⟩ := found i first
    exact absurd urgent (Bool.eq_false_iff.mp (noneUrgent i sl slot))

end Sys2Proof.Machine
end

section
/-! SUPPORT. What a take does to the store: the freed slot, the ranks above it, and the record that is admitted in its
place (R114, R122 to R124). -/

namespace Sys2Proof.Machine

theorem Store.slots_remove (st : Store) (i : Fin 16) (rank : Nat) (j : Fin 16) :
    (st.remove i rank).slots[j] = if j = i then none
      else st.slots[j].map fun sl => if rank < sl.rank then ⟨sl.rank - 1, sl.record⟩ else sl := by
  simp [Store.remove]

theorem Store.occupied_of_one_free {st : Store} {i : Fin 16} (free : st.slots[i] = none)
    (others : ∀ j : Fin 16, j ≠ i → st.slots[j].isSome = true) : st.occupied = 15 := by
  have filled : allSlots.countP (fun _ => true) + st.slots[i].isSome.toNat = st.occupied + 1 :=
    countP_change_one (f := fun j => st.slots[j].isSome) (fun j other => (others j other).symm) nodup_allSlots
      (mem_allSlots i)
  have slots : allSlots.countP (fun _ => true) = 16 := rfl
  rw [slots, free] at filled
  exact (Nat.succ.inj filled).symm

/-! ### The pending list (R123) -/

section
variable {s : State} {i : Fin 16} {sl : Slot} {r : DialRecord} {rest : List DialRecord}

theorem State.admitWaiting_of_nobody (nobody : s.store.waiting = []) : s.admitWaiting = s := by
  rw [State.admitWaiting, nobody]

/-- The head of the pending list has left it, and its line waits no more. -/
def State.popped (s : State) (r : DialRecord) (rest : List DialRecord) : State :=
  State.setStoreWait { s with store := { s.store with waiting := rest } } r.line false

@[simp] theorem State.waiting_popped (s : State) (r : DialRecord) (rest : List DialRecord) :
    (s.popped r rest).store.waiting = rest := rfl

@[simp] theorem State.storeWait_popped (s : State) (r : DialRecord) (rest : List DialRecord) :
    (s.popped r rest).store.storeWait = s.store.storeWait.set r.line false := rfl

@[simp] theorem State.notices_popped (s : State) (r : DialRecord) (rest : List DialRecord) :
    (s.popped r rest).notices = s.notices := rfl

theorem State.admitWaiting_of_cons (waiting : s.store.waiting = r :: rest) (lowest : s.store.emptySlot = some i) :
    s.admitWaiting = ((s.popped r rest).stored i r).raise (.line r.line) .record none := by
  have popped : (s.popped r rest).store.emptySlot = some i := lowest
  simp only [State.admitWaiting, waiting, lowest, Option.isSome_some, if_true]
  exact State.admitRecord_of_emptySlot popped

theorem State.overrun_admitWaiting (s : State) : s.admitWaiting.store.overrun = s.store.overrun := by
  unfold State.admitWaiting State.admitRecord
  split
  · rfl
  · split
    · split
      · rfl
      · rw [State.store_raise]
        rfl
    · rfl

/-! ### The take (R122, R124) -/

/-- In SINGLE mode a take clears the line's overrun flag (R124). -/
def Store.overrunTaken (st : Store) (n : LineNo) : RecordMode → Store
  | .single => { st with overrun := st.overrun.set n false }
  | .continuous => st

@[simp] theorem Store.slots_overrunTaken (st : Store) (n : LineNo) (m : RecordMode) :
    (st.overrunTaken n m).slots = st.slots := by
  cases m <;> rfl

@[simp] theorem Store.waiting_overrunTaken (st : Store) (n : LineNo) (m : RecordMode) :
    (st.overrunTaken n m).waiting = st.waiting := by
  cases m <;> rfl

@[simp] theorem Store.storeWait_overrunTaken (st : Store) (n : LineNo) (m : RecordMode) :
    (st.overrunTaken n m).storeWait = st.storeWait := by
  cases m <;> rfl

/-- The part after a take of slot i, before anybody is admitted in its place. -/
def State.freed (s : State) (i : Fin 16) (sl : Slot) : State :=
  { s with store :=
      (s.store.remove i sl.rank).overrunTaken sl.record.line (s.liveProfile sl.record.line).recordMode }

theorem State.liveProfile_store (s : State) (st : Store) (n : LineNo) :
    State.liveProfile { s with store := st } n = s.liveProfile n := rfl

theorem State.takeSlot_eq (s : State) (i : Fin 16) (sl : Slot) : s.takeSlot i sl = (s.freed i sl).admitWaiting := by
  unfold State.takeSlot State.freed
  generalize s.store.remove i sl.rank = st
  dsimp only
  rw [State.liveProfile_store]
  cases (s.liveProfile sl.record.line).recordMode with
  | single => rfl
  | continuous => rfl

theorem State.slots_freed (s : State) (i : Fin 16) (sl : Slot) (j : Fin 16) :
    (s.freed i sl).store.slots[j] = if j = i then none
      else s.store.slots[j].map fun x => if sl.rank < x.rank then ⟨x.rank - 1, x.record⟩ else x := by
  rw [State.freed, Store.slots_overrunTaken, Store.slots_remove]

theorem State.waiting_freed (s : State) (i : Fin 16) (sl : Slot) : (s.freed i sl).store.waiting = s.store.waiting := by
  rw [State.freed, Store.waiting_overrunTaken, Store.remove]

theorem State.storeWait_freed (s : State) (i : Fin 16) (sl : Slot) :
    (s.freed i sl).store.storeWait = s.store.storeWait := by
  rw [State.freed, Store.storeWait_overrunTaken, Store.remove]

theorem State.notices_freed (s : State) (i : Fin 16) (sl : Slot) : (s.freed i sl).notices = s.notices := by
  rw [State.freed]

theorem State.takeSlot_of_nobody (nobody : s.store.waiting = []) (i : Fin 16) (sl : Slot) :
    s.takeSlot i sl = s.freed i sl := by
  rw [State.takeSlot_eq]
  exact State.admitWaiting_of_nobody ((s.waiting_freed i sl).trans nobody)

/-- While a record waits every slot is occupied, so the freed slot is the only empty one (R116). -/
theorem State.StoreOk.isSome_slot_freed (ok : s.StoreOk) (waiting : s.store.waiting = r :: rest) (sl : Slot)
    (j : Fin 16) (other : j ≠ i) : (s.freed i sl).store.slots[j].isSome = true := by
  have somebody : s.store.waiting ≠ [] := by rw [waiting]; exact List.cons_ne_nil r rest
  rw [State.slots_freed, if_neg other, Option.isSome_map]
  exact ok.full somebody j

theorem State.slot_freed (s : State) (i : Fin 16) (sl : Slot) : (s.freed i sl).store.slots[i] = none := by
  rw [State.slots_freed, if_pos rfl]

theorem State.StoreOk.takeSlot_of_waiting (ok : s.StoreOk) (waiting : s.store.waiting = r :: rest) (i : Fin 16)
    (sl : Slot) :
    s.takeSlot i sl = (((s.freed i sl).popped r rest).stored i r).raise (.line r.line) .record none := by
  have lowest : (s.freed i sl).store.emptySlot = some i :=
    Store.emptySlot_eq_some (s.slot_freed i sl) fun j low => ok.isSome_slot_freed waiting sl j (Fin.ne_of_lt low)
  rw [State.takeSlot_eq]
  exact State.admitWaiting_of_cons ((s.waiting_freed i sl).trans waiting) lowest

/-- The head of the pending list takes the freed slot with the last rank (R114, R123). -/
theorem State.StoreOk.slot_takeSlot_of_waiting (ok : s.StoreOk) (waiting : s.store.waiting = r :: rest) (i : Fin 16)
    (sl : Slot) : (s.takeSlot i sl).store.slots[i] = some ⟨16, r⟩ := by
  have occupied : ((s.freed i sl).popped r rest).store.occupied = 15 :=
    Store.occupied_of_one_free (s.slot_freed i sl) (ok.isSome_slot_freed waiting sl)
  rw [ok.takeSlot_of_waiting waiting, State.store_raise, State.slot_stored_self, occupied]

/-- The other slots keep their records, whoever is admitted (R114). -/
theorem State.StoreOk.slot_takeSlot_of_ne (ok : s.StoreOk) (sl : Slot) {j : Fin 16} (other : j ≠ i) :
    (s.takeSlot i sl).store.slots[j] =
      s.store.slots[j].map fun x => if sl.rank < x.rank then ⟨x.rank - 1, x.record⟩ else x := by
  have kept := s.slots_freed i sl j
  rw [if_neg other] at kept
  cases waiting : s.store.waiting with
  | nil => rw [State.takeSlot_of_nobody waiting, kept]
  | cons r rest =>
    rw [ok.takeSlot_of_waiting waiting, State.store_raise, State.slot_stored_ne _ _ other]
    exact kept

theorem State.overrun_takeSlot_of_single (single : (s.liveProfile sl.record.line).recordMode = .single) (i : Fin 16) :
    (s.takeSlot i sl).store.overrun = s.store.overrun.set sl.record.line false := by
  rw [State.takeSlot_eq, State.overrun_admitWaiting, State.freed, single, Store.overrunTaken, Store.remove]

theorem State.overrun_takeSlot_of_continuous (continuous : (s.liveProfile sl.record.line).recordMode = .continuous)
    (i : Fin 16) : (s.takeSlot i sl).store.overrun = s.store.overrun := by
  rw [State.takeSlot_eq, State.overrun_admitWaiting, State.freed, continuous, Store.overrunTaken, Store.remove]

end

/-- Settles O33: the freed slot and the overrun flag by the take itself, the rest by whether a record waits. -/
theorem takeFreesTheSlotAndAdmits : Obligations.TakeFreesTheSlotAndAdmits := by
  unfold Obligations.TakeFreesTheSlotAndAdmits
  intro s i sl ok _ t n
  have frame := sameStore_takeSlot s i sl
  refine ⟨fun j other => ok.slot_takeSlot_of_ne sl other, fun nobody => ?_, fun r rest waiting => ?_,
    fun single => State.overrun_takeSlot_of_single single i,
    fun continuous => State.overrun_takeSlot_of_continuous continuous i, ?_⟩
  · have taken : t = s.freed i sl := State.takeSlot_of_nobody nobody i sl
    rw [taken]
    exact ⟨s.slot_freed i sl, (s.waiting_freed i sl).trans nobody, s.storeWait_freed i sl, s.notices_freed i sl⟩
  · have taken : t = (((s.freed i sl).popped r rest).stored i r).raise (.line r.line) .record none :=
      ok.takeSlot_of_waiting waiting i sl
    have before : (((s.freed i sl).popped r rest).stored i r).notices = s.notices := by
      rw [State.notices_stored, State.notices_popped, State.notices_freed]
    refine ⟨ok.slot_takeSlot_of_waiting waiting i sl, ?_, ?_, ?_⟩
    · rw [taken, State.store_raise, State.waiting_stored, State.waiting_popped]
    · rw [taken, State.store_raise, State.storeWait_stored, State.storeWait_popped, State.storeWait_freed]
    · rw [taken]
      exact State.raise_notices_congr before _ _ _
  · show { s.takeSlot i sl with store := s.store, notices := s.notices } = s
    rw [frame.eq]

end Sys2Proof.Machine
end

section
/-! SUPPORT. OVERRUN_CLEAR (R127). -/

namespace Sys2Proof.Machine

theorem carried_overrunClear (line : Byte) : (Request.overrunClear line).Carried :=
  ⟨rfl, rfl, by simp [Request.payload]⟩

theorem runOverrunClear_refused {line : Byte} (h : 64 ≤ line.toNat) (s : State) :
    runOverrunClear line s = refuse .badArg s := by
  rw [runOverrunClear, lineArg_refused h]

theorem runOverrunClear_of_line {line : Byte} {n : LineNo} (h : n.val = line.toNat) (s : State) :
    runOverrunClear line s = accept (s.setOverrun n false) := by
  rw [runOverrunClear, lineArg_of_val h]

/-- Without its overrun flag a line is barred by its store-wait flag alone (R120). -/
theorem State.barred_setOverrun_false (s : State) (n : LineNo) :
    (s.setOverrun n false).barred n = s.store.storeWait[n] := by
  simp [State.barred, State.setOverrun]

/-- Settles O34: the check of the line decides the answer, and the flag is the only change. -/
theorem overrunClearClearsTheFlag : Obligations.OverrunClearClearsTheFlag := by
  unfold Obligations.OverrunClearClearsTheFlag
  intro s tag line ready
  refine ⟨fun noLine => ?_, fun n number => ?_⟩
  · exact arriveRequest_refused ready (carried_overrunClear line) (runOverrunClear_refused noLine s.heard)
  · intro u
    have barred : u.barred n = s.store.storeWait[n] := s.heard.barred_setOverrun_false n
    refine ⟨?_, by rw [barred]⟩
    exact arriveRequest_accepted ready (carried_overrunClear line) (runOverrunClear_of_line number s.heard)

end Sys2Proof.Machine
end

section
/-! SUPPORT. What the operations of the Fault Watch leave alone, and what each of them does by the state of the pair
(chapter 8). -/

namespace Sys2Proof.Machine

/-! ### What the operations leave alone -/

/-- No event but WATCH_SET changes the watch settings (R133). -/
theorem State.closed_settings (w : WatchSettings) : Closed fun s => s.watch.settings = w :=
  .of_frame (f := fun s => s.watch.settings) (fun _ _ _ => rfl) (fun _ _ h => by rw [h.eq]) (fun _ _ h => by rw [h.watch])
    (fun _ _ h => by rw [h.eq]) (fun _ _ _ => rfl) (fun _ _ => rfl) (fun _ _ _ => rfl) (fun _ _ _ => rfl) w

/-- No event moves cabinet time (R1; log 1). -/
theorem State.closed_now (now : Time) : Closed fun s => s.now = now :=
  .of_frame (f := State.now) (fun _ _ _ => rfl) (fun _ _ h => by rw [h.eq]) (fun _ _ h => h.now)
    (fun _ _ h => by rw [h.eq]) (fun _ _ _ => rfl) (fun _ _ => rfl) (fun _ _ _ => rfl) (fun _ _ _ => rfl) now

/-- No event but an enable or disable request changes the enabled notice points (R174). -/
theorem State.closed_enabled (points : Vector (Vector Bool 8) 145) : Closed fun s => s.notices.enabled = points :=
  .of_frame (f := fun s => s.notices.enabled) (fun _ _ _ => rfl) (fun _ _ h => by rw [h.eq])
    (fun _ _ h => by rw [h.notices]) (fun _ _ h => by rw [h.eq]) (fun _ _ _ => rfl) (fun _ _ => rfl)
    (fun _ _ _ => rfl) (fun _ _ _ => rfl) points

@[simp] theorem State.settings_changeFault (s : State) (p : PairNo) (r : FaultRec) :
    (s.changeFault p r).watch.settings = s.watch.settings := (State.closed_settings _).changeFault p r rfl

@[simp] theorem State.settings_passFault (s : State) (p : PairNo) :
    (s.passFault p).watch.settings = s.watch.settings := (State.closed_settings _).passFault p rfl

@[simp] theorem State.settings_releasePair (s : State) (p : PairNo) :
    (s.releasePair p).watch.settings = s.watch.settings := (State.closed_settings _).releasePair p rfl

@[simp] theorem State.settings_raiseFault (s : State) (p : PairNo) :
    (s.raiseFault p).watch.settings = s.watch.settings := (State.closed_settings _).raise _ _ _ _ rfl

@[simp] theorem State.settings_sustainAtOnce (s : State) (p : PairNo) :
    (s.sustainAtOnce p).watch.settings = s.watch.settings := (State.closed_settings _).sustainAtOnce p rfl

@[simp] theorem State.now_changeFault (s : State) (p : PairNo) (r : FaultRec) : (s.changeFault p r).now = s.now :=
  (State.closed_now _).changeFault p r rfl

@[simp] theorem State.now_passFault (s : State) (p : PairNo) : (s.passFault p).now = s.now :=
  (State.closed_now _).passFault p rfl

@[simp] theorem State.now_releasePair (s : State) (p : PairNo) : (s.releasePair p).now = s.now :=
  (State.closed_now _).releasePair p rfl

@[simp] theorem State.now_raiseFault (s : State) (p : PairNo) : (s.raiseFault p).now = s.now :=
  (State.closed_now _).raise _ _ _ _ rfl

@[simp] theorem State.enabled_changeFault (s : State) (p : PairNo) (r : FaultRec) :
    (s.changeFault p r).notices.enabled = s.notices.enabled := (State.closed_enabled _).changeFault p r rfl

@[simp] theorem State.enabled_passFault (s : State) (p : PairNo) :
    (s.passFault p).notices.enabled = s.notices.enabled := (State.closed_enabled _).passFault p rfl

/-- A fault passed on reaches a line, and no fault record. -/
@[simp] theorem State.fault_passFault (s : State) (p q : PairNo) : (s.passFault p).fault q = s.fault q :=
  State.passFault_frame (f := fun s => s.fault q)
    (ClosedLine.of_frame (fun _ _ _ => rfl) (fun _ _ h => by rw [h.eq]; rfl)
      (fun _ _ h => by simp only [State.fault, h.watch])) s p

@[simp] theorem State.fault_raiseFault (s : State) (p q : PairNo) : (s.raiseFault p).fault q = s.fault q :=
  State.fault_raise s _ _ _ q

@[simp] theorem State.fault_want (s : State) (p q : PairNo) : (s.want p).fault q = s.fault q := by
  rw [(sameBus_want s p).eq]
  rfl

@[simp] theorem State.notices_want (s : State) (p : PairNo) : (s.want p).notices = s.notices := by
  rw [(sameBus_want s p).eq]

/-! ### A change of a pair (R138) -/

/-- A change of a pair follows the sustain condition in the sustain timer alone (R138). -/
theorem followSustain_eq (now : Time) (sustainMs : Nat) (old new : FaultRec) :
    ∃ timer, followSustain now sustainMs old new = { new with sustainTimer := timer } := by
  unfold followSustain
  split
  · exact ⟨none, rfl⟩
  · split
    · exact ⟨_, rfl⟩
    · exact ⟨new.sustainTimer, rfl⟩

/-- After a change of a pair its record is the new one, but for the sustain timer. -/
theorem State.fault_changeFault (s : State) (p : PairNo) (r : FaultRec) :
    ∃ timer, (s.changeFault p r).fault p = { r with sustainTimer := timer } := by
  obtain ⟨timer, followed⟩ := followSustain_eq s.now s.watch.settings.sustainMs (s.fault p) r
  refine ⟨timer, ?_⟩
  unfold State.changeFault
  dsimp only
  rw [followed]
  split
  · exact State.fault_setFault_self s p _
  · rw [State.countChange_frame (f := fun s => s.fault p) (fun _ _ _ => rfl) (fun _ _ _ _ => by simp)]
    exact State.fault_setFault_self s p _

theorem State.state_changeFault (s : State) (p : PairNo) (r : FaultRec) :
    ((s.changeFault p r).fault p).state = r.state := by
  obtain ⟨timer, changed⟩ := s.fault_changeFault p r
  rw [changed]

/-! ### The sustain timer (R139; log 18, 25) -/

section
variable {s : State} {p : PairNo}

theorem State.sustainEnd_of_suspect (h : (s.fault p).state = .suspect) : s.sustainEnd p =
    ((s.changeFault p { s.fault p with sustainTimer := none, state := .clear }).raiseFault p).withdraw p := by
  simp only [State.sustainEnd, h]

theorem State.sustainEnd_of_confirmed (h : (s.fault p).state = .confirmed) : s.sustainEnd p =
    (((s.changeFault p { s.fault p with sustainTimer := none, state := .recheck }).passFault p).raiseFault p).want p := by
  simp only [State.sustainEnd, h]

theorem State.sustainEnd_of_unsuspected (h : (s.fault p).state = .clear ∨ (s.fault p).state = .recheck) :
    s.sustainEnd p = s.setFault p { s.fault p with sustainTimer := none } := by
  rcases h with h | h <;> simp only [State.sustainEnd, h]

/-- A sustain timer that is due expires at once under sustain_ms 0 (log 18). -/
theorem State.sustainAtOnce_eq {w : WatchSettings} (settings : s.watch.settings = w)
    [Decidable (w.sustainMs = 0 ∧ ∃ e, (s.fault p).sustainTimer = some e ∧ later e s.now = false)] :
    s.sustainAtOnce p =
      if w.sustainMs = 0 ∧ ∃ e, (s.fault p).sustainTimer = some e ∧ later e s.now = false then s.sustainEnd p
      else s := by
  subst settings
  simp only [State.sustainAtOnce, Bool.and_eq_true, decide_eq_true_eq, timerDue_iff]

theorem State.sustainAtOnce_of_running (h : s.watch.settings.sustainMs ≠ 0) : s.sustainAtOnce p = s := by
  simp [State.sustainAtOnce, h]

/-! ### The guard timer (R141; log 18, 25) -/

theorem State.guardEnd_eq (s : State) (p : PairNo) : s.guardEnd p =
    let v := s.setFault p { s.fault p with guardTimer := none }
    if (s.fault p).state = .suspect ∨ (s.fault p).state = .recheck then v.want p else v := by
  cases h : (s.fault p).state <;> simp [State.guardEnd, h]

theorem State.guardEnd_of_waiting (h : (s.fault p).state = .suspect ∨ (s.fault p).state = .recheck) :
    s.guardEnd p = (s.setFault p { s.fault p with guardTimer := none }).want p :=
  (s.guardEnd_eq p).trans (if_pos h)

theorem State.guardEnd_of_unwanted (h : (s.fault p).state = .clear ∨ (s.fault p).state = .confirmed) :
    s.guardEnd p = s.setFault p { s.fault p with guardTimer := none } :=
  (s.guardEnd_eq p).trans (if_neg (by rcases h with h | h <;> simp [h]))

/-- A guard timer that is due expires at once under guard_ms 0 (log 18). -/
theorem State.guardAtOnce_eq {w : WatchSettings} (settings : s.watch.settings = w)
    [Decidable (w.guardMs = 0 ∧ ∃ e, (s.fault p).guardTimer = some e ∧ later e s.now = false)] :
    s.guardAtOnce p =
      if w.guardMs = 0 ∧ ∃ e, (s.fault p).guardTimer = some e ∧ later e s.now = false then s.guardEnd p else s := by
  subst settings
  simp only [State.guardAtOnce, Bool.and_eq_true, decide_eq_true_eq, timerDue_iff]

theorem State.fault_guardEnd (s : State) (p : PairNo) :
    (s.guardEnd p).fault p = { s.fault p with guardTimer := none } := by
  rw [State.guardEnd_eq]
  dsimp only
  split <;> simp

theorem State.notices_guardEnd (s : State) (p : PairNo) : (s.guardEnd p).notices = s.notices := by
  rw [State.guardEnd_eq]
  dsimp only
  split <;> simp

theorem State.notices_guardAtOnce (s : State) (p : PairNo) : (s.guardAtOnce p).notices = s.notices := by
  unfold State.guardAtOnce
  split
  · exact s.notices_guardEnd p
  · rfl

/-- A timer set for 0 ms is due. -/
theorem timerDue_after_zero (now : Time) : timerDue (some (Machine.after now 0)) now = true := by
  simp [timerDue, due, later, Machine.after]

/-- A guard timer just set for guard_ms runs on, or has expired at once under guard_ms 0 (log 18). -/
theorem State.fault_guardAtOnce
    (set : (s.fault p).guardTimer = some (Machine.after s.now s.watch.settings.guardMs)) :
    (s.guardAtOnce p).fault p = { s.fault p with
      guardTimer :=
        if s.watch.settings.guardMs = 0 then none else some (Machine.after s.now s.watch.settings.guardMs) } := by
  by_cases zero : s.watch.settings.guardMs = 0
  · have expires : s.guardAtOnce p = s.guardEnd p := by
      rw [zero] at set
      rw [State.guardAtOnce, set, timerDue_after_zero, zero]
      rfl
    rw [expires, State.fault_guardEnd, if_pos zero]
  · rw [State.guardAtOnce, if_neg (by simp [zero]), if_neg zero, ← set]

end

/-! ### Expiries (R139, R141, R149) -/

theorem execSustainExpiry_of_due {s : State} {p : PairNo} {e : Time} (timer : (s.fault p).sustainTimer = some e)
    (reached : later e s.now = false) : execSustainExpiry p s = .next (s.sustainEnd p).finish := by
  rw [execSustainExpiry, State.whenDue_due _ timer reached]

theorem execGuardExpiry_of_due {s : State} {p : PairNo} {e : Time} (timer : (s.fault p).guardTimer = some e)
    (reached : later e s.now = false) : execGuardExpiry p s = .next (s.guardEnd p).finish := by
  rw [execGuardExpiry, State.whenDue_due _ timer reached]

theorem execHoldExpiry_of_due {s : State} {b : BinderNo} {e : Time} (timer : (s.binder b).holdTimer = some e)
    (reached : later e s.now = false) : execHoldExpiry b s = .next (s.endHold b).finish := by
  rw [execHoldExpiry, State.whenDue_due _ timer reached]

/-- Settles O37: each expiry is its block's act, since the timer is due, and the act goes by the state of the pair. -/
theorem watchTimersExpire : Obligations.WatchTimersExpire := by
  unfold Obligations.WatchTimersExpire
  refine fun s => ⟨fun p e timer reached => ?sustain, fun p e timer reached => ?guard,
    fun b e timer reached => execHoldExpiry_of_due timer reached⟩
  case sustain =>
    have expiry : exec (.sustainExpiry p) s = .next (s.sustainEnd p).finish := execSustainExpiry_of_due timer reached
    rw [expiry]
    refine ⟨fun suspect => ?_, fun confirmed => ?_, fun unsuspected => ?_⟩
    · rw [State.sustainEnd_of_suspect suspect]
      rfl
    · rw [State.sustainEnd_of_confirmed confirmed]
      rfl
    · rw [State.sustainEnd_of_unsuspected unsuspected]
  case guard =>
    have expiry : exec (.guardExpiry p) s = .next (s.guardEnd p).finish := execGuardExpiry_of_due timer reached
    rw [expiry]
    refine ⟨fun waiting => ?_, fun unwanted => ?_⟩
    · rw [State.guardEnd_of_waiting waiting]
    · rw [State.guardEnd_of_unwanted unwanted]

end Sys2Proof.Machine
end

section
/-! SUPPORT. Scores and sense edges at a pair (R135, R137, R138, R140, R144, R145). -/

namespace Sys2Proof.Machine

/-! ### Scores (R135, R137, R140) -/

section
variable {s : State} {p : PairNo} {tipV ringV longMa : Int} {foreign leak : Nat}

theorem State.score_of_unwatched (h : s.watch.settings.watched.getLsbD p.val = false) :
    s.score p tipV ringV longMa = s := by
  rw [State.score, if_neg (by rw [h]; exact Bool.false_ne_true)]

/-- The scores after a sample of the pair (R135). -/
structure State.Scored (s : State) (p : PairNo) (tipV ringV longMa : Int) (foreign leak : Nat) : Prop where
  watched : s.watch.settings.watched.getLsbD p.val = true
  foreign : scoreStep (s.fault p).foreign (exceedsForeign s.watch.limits[p] tipV ringV) = foreign
  leak : scoreStep (s.fault p).leak (exceedsLeak s.watch.limits[p] longMa) = leak

theorem State.Scored.of_limits (watched : s.watch.settings.watched.getLsbD p.val = true)
    (hf : foreign = if s.watch.limits[p].foreignV ≤ tipV ∨ s.watch.limits[p].foreignV ≤ ringV then
      min 63 ((s.fault p).foreign + 1) else (s.fault p).foreign - 1)
    (hl : leak = if s.watch.limits[p].leakMa ≤ longMa then min 63 ((s.fault p).leak + 1) else (s.fault p).leak - 1) :
    s.Scored p tipV ringV longMa foreign leak where
  watched := watched
  foreign := by simp only [scoreStep, exceedsForeign, decide_eq_true_eq, hf]
  leak := by simp only [scoreStep, exceedsLeak, decide_eq_true_eq, hl]

theorem State.Scored.clear (h : s.Scored p tipV ringV longMa foreign leak) (clear : (s.fault p).state = .clear)
    (reached : s.watch.settings.suspectScore ≤ foreign ∨ s.watch.settings.suspectScore ≤ leak) :
    s.score p tipV ringV longMa = s.enterSuspect p { s.fault p with foreign := foreign, leak := leak } := by
  simp only [State.score, h.watched, h.foreign, h.leak, clear, reached, decide_true, if_true]

theorem State.Scored.recheck (h : s.Scored p tipV ringV longMa foreign leak) (recheck : (s.fault p).state = .recheck)
    (reached : s.watch.settings.suspectScore ≤ foreign ∨ s.watch.settings.suspectScore ≤ leak) :
    s.score p tipV ringV longMa = s.backToConfirmed p { s.fault p with foreign := foreign, leak := leak } := by
  simp only [State.score, h.watched, h.foreign, h.leak, recheck, reached, decide_true, if_true]

theorem State.Scored.stays (h : s.Scored p tipV ringV longMa foreign leak)
    (stays : (s.fault p).state = .suspect ∨ (s.fault p).state = .confirmed ∨
      ¬(s.watch.settings.suspectScore ≤ foreign ∨ s.watch.settings.suspectScore ≤ leak)) :
    s.score p tipV ringV longMa =
      (s.changeFault p { s.fault p with foreign := foreign, leak := leak }).sustainAtOnce p := by
  simp only [State.score, h.watched, h.foreign, h.leak, if_true]
  rcases stays with suspect | confirmed | low
  · simp only [suspect]
  · simp only [confirmed]
  · cases (s.fault p).state <;> simp only [low, decide_false]

theorem State.enterSuspect_eq (s : State) (p : PairNo) (r : FaultRec) : s.enterSuspect p r =
    let u := (s.changeFault p { r with state := .suspect }).raiseFault p
    if r.guardTimer = none then u.want p else u := by
  simp only [State.enterSuspect, Option.isNone_iff_eq_none]

end

/-- Settles O35: the scores are stepped once, and the state of the pair with the threshold decides what follows. -/
theorem scoresFollowTheSamples : Obligations.ScoresFollowTheSamples := by
  unfold Obligations.ScoresFollowTheSamples
  intro s p tipV ringV longMa foreign leak old lim w new reached
  refine ⟨State.score_of_unwatched, fun watched hf hl => ?_⟩
  have scored : s.Scored p tipV ringV longMa foreign leak := .of_limits watched hf hl
  refine ⟨fun clear high => ?_, fun recheck high => scored.recheck recheck high, fun stays => ?_⟩
  · exact (scored.clear clear high).trans (State.enterSuspect_eq s p new)
  · exact (scored.stays stays).trans (State.sustainAtOnce_eq (s.settings_changeFault p new))

/-! ### Sense edges (R144, R145) -/

section
variable {s : State} {p : PairNo}

theorem State.passFault_of_unserved (h : s.served p = none) : s.passFault p = s := by
  rw [State.passFault, h]

theorem State.passFault_of_served {n : LineNo} (h : s.served p = some n) : s.passFault p = s.faultLine n := by
  rw [State.passFault, h]

theorem State.releasePair_of_unserved (h : s.served p = none) : s.releasePair p = s := by
  rw [State.releasePair, h]

theorem State.releasePair_of_served {n : LineNo} (h : s.served p = some n) :
    s.releasePair p = if (s.line n).state = .faulted then s.enterSettling n else s := by
  rw [State.releasePair, h]

theorem State.senseRegained_of_unconfirmed (h : (s.fault p).state = .clear ∨ (s.fault p).state = .suspect) :
    s.senseRegained p =
      (((s.changeFault p { s.fault p with senseLost := false }).releasePair p).raiseFault p).sustainAtOnce p := by
  rcases h with h | h <;> simp only [State.senseRegained, State.state_changeFault, h]

theorem State.senseRegained_of_confirmed (h : (s.fault p).state = .confirmed ∨ (s.fault p).state = .recheck) :
    s.senseRegained p =
      ((s.changeFault p { s.fault p with senseLost := false }).raiseFault p).sustainAtOnce p := by
  rcases h with h | h <;> simp only [State.senseRegained, State.state_changeFault, h]

end

/-- Settles O38: the state of the pair decides about the release, and the served line about what it and a fault passed
on do. -/
theorem senseEdgesReachTheLine : Obligations.SenseEdgesReachTheLine := by
  unfold Obligations.SenseEdgesReachTheLine
  intro s p lost back sustained
  have at_once (u : State) (settings : u.watch.settings = s.watch.settings) (now : u.now = s.now) :
      u.sustainAtOnce p = sustained u := by
    rw [State.sustainAtOnce_eq settings, now]
    refine ite_congr rfl (fun _ => ?_) fun _ => rfl
    cases state : (u.fault p).state with
    | clear => exact State.sustainEnd_of_unsuspected (.inl state)
    | suspect => exact State.sustainEnd_of_suspect state
    | confirmed => exact State.sustainEnd_of_confirmed state
    | recheck => exact State.sustainEnd_of_unsuspected (.inr state)
  refine ⟨rfl, fun unconfirmed => ?_, fun confirmed => ?_, fun unserved => ?_,
    fun n served => ⟨?_, fun faulted => ?_, fun free => ?_⟩⟩
  · rw [State.senseRegained_of_unconfirmed unconfirmed]
    exact at_once ((back.releasePair p).raise (.pair p) .fault none) (by simp [back]) (by simp [back])
  · rw [State.senseRegained_of_confirmed confirmed]
    exact at_once (back.raise (.pair p) .fault none) (by simp [back]) (by simp [back])
  · exact ⟨State.passFault_of_unserved unserved, State.releasePair_of_unserved unserved⟩
  · exact State.passFault_of_served served
  · rw [State.releasePair_of_served served, if_pos faulted]
  · rw [State.releasePair_of_served served, if_neg free]

end Sys2Proof.Machine
end

section
/-! SUPPORT. What a test end does at the Fault Watch (R143, R144, R146, R148). -/

namespace Sys2Proof.Machine

/-! ### The table of R143 -/

theorem testEndEffect_pass {st : PairState} (h : st ≠ .clear) :
    testEndEffect st (.result .pass) = (.clear, true, true) := by
  cases st with
  | clear => exact absurd rfl h
  | suspect | confirmed | recheck => rfl

theorem testEndEffect_fail (st : PairState) : testEndEffect st (.result .fail) = (.confirmed, false, false) := by
  cases st <;> rfl

theorem testEndEffect_inconclusive_settled {st : PairState} (h : st = .clear ∨ st = .confirmed) :
    testEndEffect st (.result .inconclusive) = (st, false, false) := by
  rcases h with rfl | rfl <;> rfl

theorem testEndEffect_aborted_settled {st : PairState} (h : st = .clear ∨ st = .confirmed) (c : AbortCause) :
    testEndEffect st (.aborted c) = (st, false, false) := by
  rcases h with rfl | rfl <;> rfl

theorem testEndEffect_aborted_waiting {st : PairState} (h : st = .suspect ∨ st = .recheck) (c : AbortCause) :
    testEndEffect st (.aborted c) = (st, false, true) := by
  rcases h with rfl | rfl <;> rfl

/-! ### The three kinds of test end -/

/-- The record that a test end writes for an effect of the table, with `fresh` in a guard timer that it sets (R143). -/
def FaultRec.tested (old : FaultRec) (t : LastTest) (effect : PairState × Bool × Bool) (fresh : Option Time) :
    FaultRec :=
  { old with
    state := effect.1
    foreign := if effect.2.1 then 0 else old.foreign
    leak := if effect.2.1 then 0 else old.leak
    guardTimer := if effect.2.2 then fresh else old.guardTimer
    last := some t }

theorem FaultRec.tested_kept (old : FaultRec) (t : LastTest) (fresh : Option Time) :
    old.tested t (old.state, false, false) fresh = { old with last := some t } := rfl

theorem FaultRec.tested_failed (old : FaultRec) (t : LastTest) (fresh : Option Time) :
    old.tested t (.confirmed, false, false) fresh = { old with state := .confirmed, last := some t } := rfl

section
variable {old : FaultRec} {t : LastTest} (guard : Option Time)

theorem FaultRec.tested_of_pass (pass : t.outcome = .result .pass) :
    let r := old.tested t (testEndEffect old.state t.outcome) guard
    r.state = .clear ∧
    (old.state = .clear → (r.foreign = old.foreign ∧ r.leak = old.leak) ∧ r.guardTimer = old.guardTimer) ∧
    (old.state ≠ .clear → r.foreign = 0 ∧ r.leak = 0 ∧ r.guardTimer = guard) := by
  rw [pass]
  by_cases clear : old.state = .clear
  · simp [clear, testEndEffect, FaultRec.tested]
  · simp [clear, testEndEffect_pass clear, FaultRec.tested]

theorem FaultRec.tested_of_fail (fail : t.outcome = .result .fail) :
    let r := old.tested t (testEndEffect old.state t.outcome) guard
    r.state = .confirmed ∧ (r.foreign = old.foreign ∧ r.leak = old.leak) ∧ r.guardTimer = old.guardTimer := by
  rw [fail, testEndEffect_fail]
  exact ⟨rfl, ⟨rfl, rfl⟩, rfl⟩

theorem FaultRec.tested_of_inconclusive (inconclusive : t.outcome = .result .inconclusive) :
    let r := old.tested t (testEndEffect old.state t.outcome) guard
    (r.foreign = old.foreign ∧ r.leak = old.leak) ∧
    r.state = (if old.state = .recheck then .confirmed else old.state) ∧
    r.guardTimer = (if old.state = .suspect then guard else old.guardTimer) := by
  rw [inconclusive]
  cases state : old.state <;> exact ⟨⟨rfl, rfl⟩, rfl, rfl⟩

theorem FaultRec.tested_of_aborted {c : AbortCause} (aborted : t.outcome = .aborted c) :
    let r := old.tested t (testEndEffect old.state t.outcome) guard
    (r.foreign = old.foreign ∧ r.leak = old.leak) ∧ r.state = old.state ∧
    r.guardTimer = (if old.state = .suspect ∨ old.state = .recheck then guard else old.guardTimer) := by
  rw [aborted]
  cases state : old.state <;> exact ⟨⟨rfl, rfl⟩, by simp [FaultRec.tested, testEndEffect]⟩

end

/-- The guard timer as a test end sets it (R143). -/
def State.freshGuard (s : State) : Option Time := some (Machine.after s.now s.watch.settings.guardMs)

/-- The change of the pair by a test end, with the fault passed on at entry to CONFIRMED (R143, R144). -/
def State.applyTest (s : State) (p : PairNo) (t : LastTest) : State :=
  let effect := testEndEffect (s.fault p).state t.outcome
  let u := s.changeFault p ((s.fault p).tested t effect s.freshGuard)
  if effect.1 ≠ (s.fault p).state ∧ effect.1 = .confirmed then u.passFault p else u

section
variable {s : State} {p : PairNo} {t : LastTest}

theorem State.testEnd_eq (s : State) (p : PairNo) (t : LastTest) : s.testEnd p t =
    let told := ((s.applyTest p t).raiseFault p).sustainAtOnce p
    if (testEndEffect (s.fault p).state t.outcome).2.2 then told.guardAtOnce p else told := rfl

theorem State.applyTest_of_effect {effect : PairState × Bool × Bool}
    (h : testEndEffect (s.fault p).state t.outcome = effect)
    (stays : effect.1 = (s.fault p).state ∨ effect.1 ≠ .confirmed) :
    s.applyTest p t = s.changeFault p ((s.fault p).tested t effect s.freshGuard) := by
  subst h
  exact if_neg fun ⟨moves, confirmed⟩ => stays.elim moves (· confirmed)

/-- The pair keeps its state, its scores and its guard timer. -/
theorem State.testEnd_kept
    (effect : testEndEffect (s.fault p).state t.outcome = ((s.fault p).state, false, false)) : s.testEnd p t =
      ((s.changeFault p { s.fault p with last := some t }).raiseFault p).sustainAtOnce p := by
  rw [State.testEnd_eq, State.applyTest_of_effect effect (.inl rfl), effect, FaultRec.tested_kept]
  exact if_neg Bool.false_ne_true

/-- The pair enters CONFIRMED. -/
theorem State.testEnd_failed (effect : testEndEffect (s.fault p).state t.outcome = (.confirmed, false, false))
    (enters : (s.fault p).state ≠ .confirmed) : s.testEnd p t =
      (((s.changeFault p { s.fault p with state := .confirmed, last := some t }).passFault p).raiseFault p).sustainAtOnce
        p := by
  rw [State.testEnd_eq, State.applyTest, effect]
  have moves : PairState.confirmed ≠ (s.fault p).state ∧ PairState.confirmed = .confirmed := ⟨enters.symm, rfl⟩
  dsimp only
  rw [if_pos moves, FaultRec.tested_failed]
  exact if_neg Bool.false_ne_true

/-- The guard timer is set. -/
theorem State.testEnd_guarded {st : PairState} {zero : Bool}
    (effect : testEndEffect (s.fault p).state t.outcome = (st, zero, true))
    (stays : st = (s.fault p).state ∨ st ≠ .confirmed) : s.testEnd p t =
      (((s.changeFault p ((s.fault p).tested t (st, zero, true) s.freshGuard)).raiseFault p).sustainAtOnce
        p).guardAtOnce p := by
  rw [State.testEnd_eq, State.applyTest_of_effect effect stays, effect]
  exact if_pos rfl

/-! ### The record and the notices after a test end -/

@[simp] theorem State.settings_applyTest (s : State) (p : PairNo) (t : LastTest) :
    (s.applyTest p t).watch.settings = s.watch.settings := by
  unfold State.applyTest
  dsimp only
  split <;> simp

@[simp] theorem State.now_applyTest (s : State) (p : PairNo) (t : LastTest) : (s.applyTest p t).now = s.now := by
  unfold State.applyTest
  dsimp only
  split <;> simp

@[simp] theorem State.enabled_applyTest (s : State) (p : PairNo) (t : LastTest) :
    (s.applyTest p t).notices.enabled = s.notices.enabled := by
  unfold State.applyTest
  dsimp only
  split <;> simp

theorem State.fault_applyTest (s : State) (p : PairNo) (t : LastTest) : ∃ timer, (s.applyTest p t).fault p =
    { (s.fault p).tested t (testEndEffect (s.fault p).state t.outcome) s.freshGuard with sustainTimer := timer } := by
  unfold State.applyTest
  dsimp only
  split
  · rw [State.fault_passFault]
    exact s.fault_changeFault p _
  · exact s.fault_changeFault p _

/-- With sustain_ms other than 0 the record after a test end is the one it writes, but for the sustain timer; with
guard_ms 0 the guard timer it sets has expired (log 18). -/
theorem State.fault_testEnd (running : s.watch.settings.sustainMs ≠ 0) : ∃ timer, (s.testEnd p t).fault p =
    { (s.fault p).tested t (testEndEffect (s.fault p).state t.outcome)
        (if s.watch.settings.guardMs = 0 then none else s.freshGuard) with sustainTimer := timer } := by
  obtain ⟨timer, record⟩ := s.fault_applyTest p t
  refine ⟨timer, ?_⟩
  rw [State.testEnd_eq, State.sustainAtOnce_of_running (by simpa using running)]
  cases guard : (testEndEffect (s.fault p).state t.outcome).2.2 with
  | false => simp [record, guard, FaultRec.tested]
  | true =>
    have told : ((s.applyTest p t).raiseFault p).fault p = _ := (State.fault_raiseFault _ p p).trans record
    have set : (((s.applyTest p t).raiseFault p).fault p).guardTimer = s.freshGuard := by
      simp [told, guard, FaultRec.tested]
    simp only [if_true]
    rw [State.fault_guardAtOnce (by simpa [State.freshGuard] using set), told]
    simp [guard, FaultRec.tested, State.freshGuard]

/-- A raise at an enabled notice point leaves an entry of that point in the pending set (R172). -/
theorem exists_mem_addRaise (pos : Fin 145) (k : Kind) (t : Option Time) :
    ∀ l : List NoticeEntry, ∃ e ∈ addRaise pos k t l, e.pos = pos ∧ e.kind = k
  | [] => ⟨freshEntry pos k t, by simp [addRaise], rfl, rfl⟩
  | e :: l => by
    unfold addRaise
    split
    · obtain ⟨x, mem, point⟩ := exists_mem_addRaise pos k t l
      exact ⟨x, List.mem_cons_of_mem _ mem, point⟩
    · split
      · next key => exact ⟨e.again t, by simp, pointKey_injective key⟩
      · exact ⟨freshEntry pos k t, by simp, rfl, rfl⟩

theorem State.exists_entry_raise (src : Source) (k : Kind) (t : Option Time)
    (enabled : s.notices.enabled[src.pos][k.num] = true) :
    ∃ e ∈ (s.raise src k t).notices.entries, e.pos = src.pos ∧ e.kind = k := by
  unfold State.raise
  rw [if_pos enabled]
  exact exists_mem_addRaise _ _ _ _

/-- FAULT is raised at every test end (R146). -/
theorem State.exists_entry_testEnd (running : s.watch.settings.sustainMs ≠ 0)
    (enabled : s.notices.enabled[(Source.pair p).pos][(5 : Fin 8)] = true) :
    ∃ e ∈ (s.testEnd p t).notices.entries, e.pos = (Source.pair p).pos ∧ e.kind = .fault := by
  have raised : (s.testEnd p t).notices = ((s.applyTest p t).raiseFault p).notices := by
    rw [State.testEnd_eq, State.sustainAtOnce_of_running (by simpa using running)]
    dsimp only
    split
    · exact State.notices_guardAtOnce _ p
    · rfl
  rw [raised]
  exact State.exists_entry_raise _ _ _ (by rw [State.enabled_applyTest]; exact enabled)

end

/-- Settles O39: each line of the table of R143 is one of the three kinds of test end, and what comes behind the change
of the pair keeps the record but for its timers. -/
theorem testEndIsApplied : Obligations.TestEndIsApplied := by
  unfold Obligations.TestEndIsApplied
  intro s p t old w fresh sustained guarded told passed failed kept waits
  have told_eq (u : State) (settings : u.watch.settings = w) :
      (u.raiseFault p).sustainAtOnce p = told u :=
    State.sustainAtOnce_eq (s := u.raise (.pair p) .fault none) (by simpa using settings)
  have guarded_eq (u : State) (settings : u.watch.settings = w) : u.guardAtOnce p = guarded u := by
    rw [State.guardAtOnce_eq settings, State.guardEnd_eq]
  have keeps (effect : testEndEffect old.state t.outcome = (old.state, false, false)) :
      s.testEnd p t = told (s.changeFault p kept) :=
    (State.testEnd_kept effect).trans (told_eq _ (by simp [w]))
  have fails (effect : testEndEffect old.state t.outcome = (.confirmed, false, false))
      (enters : old.state ≠ .confirmed) :
      s.testEnd p t = told ((s.changeFault p failed).passFault p) :=
    (State.testEnd_failed effect enters).trans (told_eq _ (by simp [w]))
  have guards {st : PairState} {zero : Bool} {r : FaultRec}
      (effect : testEndEffect old.state t.outcome = (st, zero, true)) (stays : st = old.state ∨ st ≠ .confirmed)
      (record : old.tested t (st, zero, true) s.freshGuard = r) :
      s.testEnd p t = guarded (told (s.changeFault p r)) := by
    subst record
    rw [← told_eq _ (by simp [w]), ← guarded_eq _ (by simp [w])]
    exact State.testEnd_guarded effect stays
  refine ⟨fun pass clear => ?_, fun pass suspected => ?_, fun fail confirmed => ?_, fun fail enters => ?_,
    fun inconclusive settled => ?_, fun inconclusive recheck => ?_, fun inconclusive suspect => ?_,
    fun c aborted settled => ?_, fun c aborted waiting => ?_,
    fun u => ⟨State.sustainEnd_of_suspect, State.sustainEnd_of_confirmed⟩, fun running => ?record⟩
  · exact keeps (by rw [pass, clear]; rfl)
  · exact guards (by rw [pass, testEndEffect_pass suspected]) (.inr (by decide)) rfl
  · exact keeps (by rw [fail, testEndEffect_fail, confirmed])
  · exact fails (by rw [fail, testEndEffect_fail]) enters
  · exact keeps (by rw [inconclusive, testEndEffect_inconclusive_settled settled])
  · exact fails (by rw [inconclusive, recheck]; rfl) (by rw [recheck]; decide)
  · have effect : testEndEffect old.state t.outcome = (old.state, false, true) := by rw [inconclusive, suspect]; rfl
    exact guards effect (.inl rfl) rfl
  · exact keeps (by rw [aborted, testEndEffect_aborted_settled settled])
  · exact guards (by rw [aborted, testEndEffect_aborted_waiting waiting]) (.inl rfl) rfl
  case record =>
    obtain ⟨timer, record⟩ := State.fault_testEnd (p := p) (t := t) running
    rw [record]
    exact ⟨rfl, rfl, FaultRec.tested_of_pass _, FaultRec.tested_of_fail _, FaultRec.tested_of_inconclusive _,
      fun c => FaultRec.tested_of_aborted _, State.exists_entry_testEnd running⟩

end Sys2Proof.Machine
end

section
/-! SUPPORT. What a want and a withdrawal do to the test queue and the test wanted set (R142, R156, R157). -/

namespace Sys2Proof.Machine

/-! ### The place of a want (R142, R156) -/

section
variable {s : State} {p : PairNo} {k : TestKind}

/-- The kind of a want goes by the scores that are at or above suspect_score (R142). -/
theorem State.wantedKind_eq :
    let f := s.watch.settings.suspectScore ≤ (s.fault p).foreign
    let l := s.watch.settings.suspectScore ≤ (s.fault p).leak
    (f ∧ ¬l ∧ k = .foreign) ∨ (¬f ∧ l ∧ k = .insulation) ∨ ((f ↔ l) ∧ k = .full) → s.wantedKind p = k := by
  unfold State.wantedKind State.foreignOver State.leakOver
  dsimp only
  rintro (⟨foreign, leak, rfl⟩ | ⟨foreign, leak, rfl⟩ | ⟨both, rfl⟩)
  · simp only [foreign, leak, decide_true, decide_false]
  · simp only [foreign, leak, decide_true, decide_false]
  · by_cases leak : s.watch.settings.suspectScore ≤ (s.fault p).leak
    · simp only [both, leak, decide_true]
    · simp only [both, leak, decide_false]

theorem State.want_of_onBus (h : s.onBus p = true) : s.want p = s := by
  rw [State.want, if_pos h]

theorem State.want_of_free (free : s.onBus p = false) : s.want p = s.placeWant p (s.wantedKind p) := by
  rw [State.want, free]
  exact if_neg Bool.false_ne_true

theorem State.placeWant_of_queued (queued : s.bus.queued p = true) : s.placeWant p k =
    s.setTestQueue (s.bus.queue.map fun e => if e.pair = p then { e with kind := e.kind.merge k } else e) := by
  rw [State.placeWant, if_pos queued]

theorem State.placeWant_of_wanted {k' : TestKind} (queued : s.bus.queued p = false) (wanted : s.bus.wanted[p] = some k') :
    s.placeWant p k = s.setWanted p (some (k'.merge k)) := by
  rw [State.placeWant, queued, wanted]
  exact if_neg Bool.false_ne_true

theorem State.placeWant_of_new (queued : s.bus.queued p = false) (new : s.bus.wanted[p] = none) : s.placeWant p k =
    if s.bus.queue.length < 16 then s.setTestQueue (s.bus.queue ++ [⟨p, k, .watch⟩]) else s.setWanted p (some k) := by
  rw [State.placeWant, queued, new]
  exact if_neg Bool.false_ne_true

/-! ### A withdrawal (R157) -/

/-- The entry is the WATCH entry of the pair. -/
def TestEntry.isWatchOf (p : PairNo) (e : TestEntry) : Bool := decide (e.pair = p ∧ e.asker = .watch)

theorem State.withdraw_of_onBus (h : s.onBus p = true) : s.withdraw p = s := by
  rw [State.withdraw, if_pos h]

theorem State.withdraw_of_free (free : s.onBus p = false) :
    s.withdraw p = (s.setWanted p none).removeEntry (TestEntry.isWatchOf p) := by
  have same : (fun e : TestEntry => decide (e.pair = p) && decide (e.asker = .watch)) = TestEntry.isWatchOf p :=
    funext fun e => (Bool.decide_and _ _).symm
  rw [State.withdraw, free, same]
  exact if_neg Bool.false_ne_true

variable {q : TestEntry → Bool}

theorem State.removeEntry_of_none (h : ∀ e ∈ s.bus.queue, q e = false) : s.removeEntry q = s := by
  rw [State.removeEntry, List.any_eq_false.mpr fun e he => by simp [h e he]]
  exact if_neg Bool.false_ne_true

theorem State.removeEntry_of_mem (h : ∃ e ∈ s.bus.queue, q e = true) :
    s.removeEntry q = (s.setTestQueue (s.bus.queue.eraseP q)).admitWanted := by
  rw [State.removeEntry, if_pos (List.any_eq_true.mpr h)]

theorem State.admitWanted_of_none (h : ∀ x : PairNo, s.bus.wanted[x] = none) : s.admitWanted = s := by
  rw [State.admitWanted, TestBus.lowestWanted_eq_none.mpr h]

theorem State.admitWanted_of_lowest (wanted : s.bus.wanted[p] = some k) (low : ∀ x < p, s.bus.wanted[x] = none) :
    s.admitWanted = (s.setWanted p none).setTestQueue (s.bus.queue ++ [⟨p, k, .watch⟩]) := by
  rw [State.admitWanted, TestBus.lowestWanted_eq_some wanted low]

end

/-- Settles O40: a want goes to the first of four places that fits; a withdrawal is the leave from the wanted set and
the removal of the pair's WATCH entry, behind which the lowest wanted pair comes in. -/
theorem wantsArePlacedAndWithdrawn : Obligations.WantsArePlacedAndWithdrawn := by
  unfold Obligations.WantsArePlacedAndWithdrawn
  intro s p w f l queued
  refine ⟨fun onBus => ⟨State.want_of_onBus onBus, State.withdraw_of_onBus onBus⟩, fun free k scores => ?want,
    fun free => ?withdraw⟩
  case want =>
    intro merge
    have kind : s.wantedKind p = k := State.wantedKind_eq scores
    have unqueued (h : ¬queued) : s.bus.queued p = false := Bool.eq_false_iff.mpr fun x => h (TestBus.queued_iff.mp x)
    rw [State.want_of_free free, kind]
    refine ⟨fun h => State.placeWant_of_queued (TestBus.queued_iff.mpr h),
      fun h k' wanted => State.placeWant_of_wanted (unqueued h) wanted, fun h new room => ?_, fun h new full => ?_⟩
    · exact (State.placeWant_of_new (unqueued h) new).trans (if_pos room)
    · exact (State.placeWant_of_new (unqueued h) new).trans (if_neg (Nat.not_lt.mpr full))
  case withdraw =>
    intro u mine left
    rw [State.withdraw_of_free free]
    refine ⟨fun none_mine => State.removeEntry_of_none (s := u) none_mine, fun some_mine => ?_⟩
    have removed : u.removeEntry (TestEntry.isWatchOf p) = (u.setTestQueue left).admitWanted :=
      State.removeEntry_of_mem some_mine
    refine ⟨fun empty => removed.trans ?_, fun q k wanted low => removed.trans ?_⟩
    · exact State.admitWanted_of_none (s := u.setTestQueue left) empty
    · exact State.admitWanted_of_lowest (s := u.setTestQueue left) wanted low

end Sys2Proof.Machine
end

section
/-! SUPPORT. The look at the test queue and the end of an event: which entries are eligible, the whole part after a
claim, and what the end of an event leaves alone (R157 to R160, R178, R179). -/

namespace Sys2Proof.Machine

/-! ### Eligible entries (R158) -/

/-- A pair may be tested while it is unserved, or its line is in one of the three states that carry no call. -/
theorem State.eligible_iff (s : State) (e : TestEntry) : s.eligible e = true ↔
    (∀ n, s.served e.pair = some n →
      (s.line n).state = .idle ∨ (s.line n).state = .faulted ∨ (s.line n).state = .settling) ∧
    (e.asker = .watch → (s.binder (binderOf e.pair)).hold = false) := by
  unfold State.eligible State.inHold
  rw [Bool.and_eq_true]
  refine and_congr ?line ?asker
  case line =>
    cases served : s.served e.pair with
    | none => simp
    | some n => cases state : (s.line n).state <;> simp [state]
  case asker =>
    cases e.asker <;> simp

/-! ### An entry leaves the queue (R157) -/

/-- What comes in when an entry leaves the queue, and the wanted set after it: the lowest-numbered wanted pair, or
nothing from an empty set (R157). -/
def TestBus.Admits (b : TestBus) (admitted : List TestEntry) (wanted : Vector (Option TestKind) 72) : Prop :=
  ((∀ q : PairNo, b.wanted[q] = none) ∧ admitted = [] ∧ wanted = b.wanted) ∨
  (∃ (q : PairNo) (k : TestKind), b.wanted[q] = some k ∧ (∀ x < q, b.wanted[x] = none) ∧
    admitted = [⟨q, k, .watch⟩] ∧ wanted = b.wanted.set q none)

section
variable {s : State} {e : TestEntry} {admitted front back : List TestEntry} {wanted : Vector (Option TestKind) 72}

theorem State.admitWanted_of_admits (admits : s.bus.Admits admitted wanted) : s.admitWanted =
    { s with bus := { s.bus with queue := s.bus.queue ++ admitted, wanted := wanted } } := by
  rcases admits with ⟨empty, rfl, rfl⟩ | ⟨q, k, lowest, low, rfl, rfl⟩
  · rw [State.admitWanted_of_none empty, List.append_nil]
  · exact State.admitWanted_of_lowest lowest low

theorem State.removeEntry_of_admits {q : TestEntry → Bool} (found : ∃ e ∈ s.bus.queue, q e = true)
    (admits : s.bus.Admits admitted wanted) : s.removeEntry q =
      { s with bus := { s.bus with queue := s.bus.queue.eraseP q ++ admitted, wanted := wanted } } :=
  (State.removeEntry_of_mem found).trans (State.admitWanted_of_admits (s := s.setTestQueue (s.bus.queue.eraseP q)) admits)

theorem eraseP_of_split (others : ∀ x ∈ front, x ≠ e) :
    (front ++ e :: back).eraseP (fun x => decide (x = e)) = front ++ back := by
  rw [List.eraseP_append_right _ fun x hx => by simpa using others x hx, List.eraseP_cons_of_pos (by simp)]

/-! ### The claim as a whole state (R160) -/

/-- The bus after the claim of an entry from between the others. -/
def TestBus.claimed (b : TestBus) (e : TestEntry) (queue : List TestEntry) (wanted : Vector (Option TestKind) 72)
    (now : Time) : TestBus :=
  { b with run := some (.start e b.settings now), queue := queue, wanted := wanted, sent := b.sent ++ [.connect e.pair] }

theorem State.claim_of_removed {queue : List TestEntry}
    (removed : s.removeEntry (fun x => decide (x = e)) = { s with bus := { s.bus with queue := queue, wanted := wanted } }) :
    let u : State := { (s.setScanRec e.pair { s.scanRec e.pair with run := none, sampleClass := none }) with
      bus := s.bus.claimed e queue wanted s.now }
    (s.served e.pair = none → s.claim e = u) ∧
    (∀ n, s.served e.pair = some n → s.claim e = u.claimLine n) := by
  intro u
  have served (r : Option Run) : (State.setRun { s with bus := { s.bus with queue := queue, wanted := wanted } } r).served
      e.pair = s.served e.pair := rfl
  refine ⟨fun unserved => ?_, fun n line => ?_⟩
  · rw [State.claim, removed]
    dsimp only
    rw [served, unserved]
    rfl
  · rw [State.claim, removed]
    dsimp only
    rw [served, line]
    rfl

/-! ### The look (R159) -/

theorem State.look_of_busy (busy : s.bus.run.isSome = true) : s.look = s := by
  obtain ⟨r, run⟩ := Option.isSome_iff_exists.mp busy
  rw [State.look, run]

theorem State.look_of_unclaimed (unclaimed : ∀ e, ¬(s.bus.run = none ∧ s.bus.queue.find? s.eligible = some e)) :
    s.look = s := by
  rcases s.look_cases with same | ⟨e, free, first, -⟩
  · exact same
  · exact absurd ⟨free, first⟩ (unclaimed e)

theorem State.look_of_first (free : s.bus.run = none) (first : s.bus.queue.find? s.eligible = some e) :
    s.look = s.claim e := by
  rw [State.look, free]
  dsimp only
  rw [first]

theorem State.look_of_none_eligible (none_eligible : ∀ e ∈ s.bus.queue, s.eligible e = false) : s.look = s :=
  State.look_of_unclaimed fun e ⟨_, first⟩ => by
    have eligible := List.find?_some first
    rw [none_eligible e (List.mem_of_find?_eq_some first)] at eligible
    exact Bool.false_ne_true eligible

end

/-- Settles O41: the first eligible entry is found between those before it and those behind it, its removal lets the
lowest wanted pair in, and the rest of the claim goes by the served line. -/
theorem lookClaimsTheFirstEligible : Obligations.LookClaimsTheFirstEligible := by
  unfold Obligations.LookClaimsTheFirstEligible
  intro s held
  refine ⟨s.eligible_iff, State.look_of_busy, State.look_of_none_eligible, ?claimed⟩
  intro e front back free queue before eligible admitted wanted admits w run k bus u
  have first : s.bus.queue.find? s.eligible = some e := by
    rw [List.find?_eq_some_iff_append]
    exact ⟨eligible, front, back, queue, fun x hx => by simp [before x hx]⟩
  have removed : s.removeEntry (fun x => decide (x = e)) =
      { s with bus := { s.bus with queue := front ++ back ++ admitted, wanted := wanted } } := by
    rw [State.removeEntry_of_admits ⟨e, by simp [queue], decide_eq_true rfl⟩ admits, queue,
      eraseP_of_split fun x hx => (before x hx).2]
  rw [State.look_of_first free first]
  exact State.claim_of_removed removed

/-! ### The end of an event (log 6, 7) -/

/-- A look changes only what a claim changes. -/
theorem State.look_eq (s : State) : s.look = { s with
    lines := s.look.lines
    scan := { s.scan with recs := s.look.scan.recs }
    bus := { s.bus with
      run := s.look.bus.run, queue := s.look.bus.queue, wanted := s.look.bus.wanted, sent := s.look.bus.sent } } := by
  rcases s.look_cases with same | ⟨e, -, -, claim⟩
  · rw [same]
  · rw [claim]
    exact s.claim_eq e

/-- The end of an event changes only what a claim and a choice change. -/
theorem State.finish_eq (s : State) : s.finish = { s with
    lines := s.look.lines
    scan := { s.scan with recs := s.look.scan.recs }
    bus := { s.bus with
      run := s.look.bus.run, queue := s.look.bus.queue, wanted := s.look.bus.wanted, sent := s.look.bus.sent }
    notices := { s.notices with entries := s.finish.notices.entries, cursors := s.finish.notices.cursors }
    link := { s.link with
      started := s.finish.link.started, replies := s.finish.link.replies, inFlight := s.finish.link.inFlight } } := by
  have look := s.look_eq
  unfold State.finish
  generalize s.look = t at look ⊢
  refine t.choose_eq.trans ?_
  generalize t.choose = c
  rw [look]

theorem State.link_look (s : State) : s.look.link = s.link := by rw [s.look_eq]

theorem State.line_finish (s : State) (n : LineNo) : s.finish.line n = s.look.line n := by
  rw [s.finish_eq]
  rfl

theorem State.scanRec_finish_eq_look (s : State) (p : PairNo) : s.finish.scanRec p = s.look.scanRec p := by
  rw [s.finish_eq]
  rfl

theorem State.finish_of_transmitting {s : State} (transmitting : s.link.inFlight.isSome = true) : s.finish = s.look :=
  State.choose_busy (by rw [State.link_look]; exact transmitting)

/-- Settles O8: the choice changes no line, scan record or test bus, and the look claims an entry or does nothing. -/
theorem finishTouchesOnlyBusAndLink : Obligations.FinishTouchesOnlyBusAndLink := by
  unfold Obligations.FinishTouchesOnlyBusAndLink
  intro s t claimed
  have frame : t = _ := s.finish_eq
  refine ⟨rfl, fun occupied transmitting => ?busy, fun n => ?line, fun p => ?scanRec, ?scan, fun unclaimed => ?unclaimed,
    fun transmitting => ?transmitting, ?others⟩
  case busy => exact (State.finish_of_transmitting transmitting).trans (State.look_of_busy occupied)
  case line =>
    have same : t.line n = s.look.line n := s.line_finish n
    rw [same]
    rcases s.look_cases with look | ⟨e, free, first, look⟩
    · exact .inl (by rw [look])
    · rw [look]
      exact (s.line_claim e n).imp_right fun ⟨served, line⟩ => ⟨e, ⟨free, first⟩, served, line⟩
  case scanRec =>
    have same : t.scanRec p = s.look.scanRec p := s.scanRec_finish_eq_look p
    rw [same]
    rcases s.look_cases with look | ⟨e, free, first, look⟩
    · exact .inl (by rw [look])
    · rw [look, State.scanRec_claim]
      by_cases pair : e.pair = p
      · exact .inr ⟨e, ⟨free, first⟩, pair, if_pos pair⟩
      · exact .inl (if_neg pair)
  case scan => rw [frame]
  case unclaimed =>
    rw [frame, State.look_of_unclaimed unclaimed]
    exact ⟨rfl, rfl, rfl⟩
  case transmitting =>
    have same : t = s.look := State.finish_of_transmitting transmitting
    rw [same, s.look_eq]
    exact ⟨rfl, rfl⟩
  case others =>
    rw [frame]
    exact ⟨rfl, rfl, rfl, rfl, rfl, rfl, rfl, rfl, rfl, rfl, rfl, rfl, rfl, rfl⟩

end Sys2Proof.Machine
end

section
/-! SUPPORT. The test on the bus: what is read of a READING, what a taken one does to the run record, and the end of an
attempt (R152, R161 to R164). -/

namespace Sys2Proof.Machine

/-! ### The two timers of a run (R161, R164) -/

section
variable {s : State} {r : Run} {e : Time}

theorem TestBus.quietTimer_of_run {b : TestBus} (run : b.run = some r) : b.quietTimer = r.quietTimer := by
  rw [TestBus.quietTimer, run, Option.bind_some]

theorem TestBus.readingTimer_of_run {b : TestBus} (run : b.run = some r) : b.readingTimer = r.readingTimer := by
  rw [TestBus.readingTimer, run, Option.bind_some]

theorem execQuietExpiry_of_due (run : s.bus.run = some r) (timer : r.quietTimer = some e)
    (reached : later e s.now = false) : execQuietExpiry s = .next (s.sendRead r).finish := by
  rw [execQuietExpiry, State.whenDue_due _ ((TestBus.quietTimer_of_run run).trans timer) reached, run]

theorem execReadingTimeout_of_due (run : s.bus.run = some r) (timer : r.readingTimer = some e)
    (reached : later e s.now = false) :
    execReadingTimeout s = .next (s.endTest r (.aborted .busTimeout)).finish := by
  rw [execReadingTimeout, State.whenDue_due _ ((TestBus.readingTimer_of_run run).trans timer) reached, run]

end

/-- Settles O42: both timers are those of the run on the bus, and each expiry is its block's act, since its timer is
due. -/
theorem testTimersExpire : Obligations.TestTimersExpire := by
  unfold Obligations.TestTimersExpire
  exact ⟨fun s r e run timer reached => execQuietExpiry_of_due run timer reached,
    fun s r e run timer reached => execReadingTimeout_of_due run timer reached⟩

/-! ### What is read of a READING (R152, R162, R163) -/

theorem readingInRange_iff (m : MeterReading) : readingInRange m = true ↔
    m.tipGround ≤ 9999 ∧ m.ringGround ≤ 9999 ∧ m.tipRing ≤ 9999 ∧ m.volts ≤ 200 := by
  simp only [readingInRange, Bool.and_eq_true, decide_eq_true_iff, and_assoc]

theorem readingFails_iff (k : TestKind) (w : TestSettings) (m : Measured) : readingFails k w m = true ↔
    (k ≠ .foreign ∧ min m.tipGround m.ringGround < w.rMinKohm) ∨ (k ≠ .insulation ∧ w.vTest ≤ m.volts) := by
  simp only [readingFails, Bool.or_eq_true, Bool.and_eq_true, decide_eq_true_iff]

theorem attemptVerdict_fail {fails : Nat} (h : 3 ≤ fails) : attemptVerdict fails = .fail := if_pos h

theorem attemptVerdict_pass {fails : Nat} (h : fails ≤ 1) : attemptVerdict fails = .pass := by
  rw [attemptVerdict, if_neg (by omega), if_pos h]

/-! ### The run record after a READING (R162) -/

/-- The READING has been taken: it is the last one, and none is outstanding. -/
def Run.taken (r : Run) (m : Measured) : Run := { r with last := some m, readingTimer := none, outstanding := none }

/-- The READING has been counted, with the fails that then stand. -/
def Run.counted (r : Run) (m : Measured) (fails : Nat) : Run :=
  { r.taken m with readings := r.readings + 1, fails := fails }

/-- The attempt has its verdict. -/
def Run.judged (r : Run) (v : Verdict) : Run := { r with verdicts := r.verdicts ++ [v] }

section
variable {s : State} {r : Run} {m : MeterReading}

theorem State.takeReading_of_no_run (free : s.bus.run = none) : s.takeReading m = s := by
  rw [State.takeReading, free]

theorem State.takeReading_of_discarded (run : s.bus.run = some r)
    (discarded : r.outstanding ≠ some m.seq ∨ ¬readingInRange m = true) : s.takeReading m = s := by
  rw [State.takeReading, run]
  exact if_neg fun ⟨answers, inside⟩ => discarded.elim (· answers) (· inside)

theorem State.takeReading_of_taken (run : s.bus.run = some r) (answers : r.outstanding = some m.seq)
    (inside : readingInRange m = true) : s.takeReading m = s.judgeReading r (readingMeasured m) := by
  rw [State.takeReading, run]
  exact if_pos ⟨answers, inside⟩

theorem State.judgeReading_of_subscriber {m : Measured} (loop : m.tipRing < 3) :
    s.judgeReading r m = s.endTest (r.taken m) (.aborted .subscriber) := if_pos loop

/-- From 3 kΩ between tip and ring a reading counts, and the fourth ends the attempt. -/
theorem State.judgeReading_of_counted {m : Measured} {f : Nat} (open_loop : 3 ≤ m.tipRing)
    (fails : f = if readingFails r.kind r.settings m then r.fails + 1 else r.fails) : s.judgeReading r m =
      if r.readings + 1 < 4 then s.sendRead (r.counted m f) else s.endAttempt (r.counted m f) := by
  subst fails
  exact if_neg (Nat.not_lt.mpr open_loop)

/-! ### The end of an attempt (R163) -/

theorem State.endAttempt_of_verdict {v : Verdict} (verdict : attemptVerdict r.fails = v)
    (last : v = .inconclusive → r.settings.attemptsMax ≤ r.attempt) :
    s.endAttempt r = s.endTest (r.judged v) (.result v) := by
  subst verdict
  exact if_neg fun ⟨inconclusive, more⟩ => absurd (last inconclusive) (Nat.not_le.mpr more)

theorem State.endAttempt_of_retry (two : r.fails = 2) (more : r.attempt < r.settings.attemptsMax) :
    s.endAttempt r = s.setRun (some { r.judged .inconclusive with
      attempt := r.attempt + 1, readings := 0, fails := 0, phase := .quiet
      quietTimer := some (after s.now r.settings.quietRetryMs) }) := by
  have verdict : attemptVerdict r.fails = .inconclusive := by rw [two]; rfl
  rw [State.endAttempt, verdict]
  exact if_pos ⟨rfl, more⟩

end

/-- Settles O43: a READING is taken or discarded; a taken one is measured against 3 kΩ, counted by its kind's limits,
and at the fourth the fails decide the verdict. -/
theorem readingIsJudged : Obligations.ReadingIsJudged := by
  unfold Obligations.ReadingIsJudged
  intro s m
  have exec_of_takeReading {t : State} (h : s.takeReading m = t) : exec (.reading m) s = .next t.finish :=
    h ▸ (rfl : exec (.reading m) s = .next (s.takeReading m).finish)
  refine ⟨fun free => exec_of_takeReading (State.takeReading_of_no_run free), fun r run => ?_⟩
  intro inRange w fails taken
  have inside_iff : readingInRange m = true ↔ inRange := readingInRange_iff m
  refine ⟨fun discarded => ?discarded, fun answers inside loop => ?subscriber,
    ?counted⟩
  case discarded =>
    rw [← inside_iff] at discarded
    exact exec_of_takeReading (State.takeReading_of_discarded run discarded)
  case subscriber =>
    exact exec_of_takeReading ((State.takeReading_of_taken run answers (inside_iff.mpr inside)).trans
      (State.judgeReading_of_subscriber loop))
  case counted =>
    intro f answers inside open_loop count counted
    have isCount : f = if readingFails r.kind w (readingMeasured m) then r.fails + 1 else r.fails := by
      rcases count with ⟨fail, rfl⟩ | ⟨good, rfl⟩
      · exact (if_pos ((readingFails_iff ..).mpr fail)).symm
      · exact (if_neg fun fail => good ((readingFails_iff ..).mp fail)).symm
    have judge : s.takeReading m = _ := (State.takeReading_of_taken run answers (inside_iff.mpr inside)).trans
      (State.judgeReading_of_counted open_loop isCount)
    refine ⟨fun few => exec_of_takeReading (judge.trans (if_pos few)), ?_⟩
    intro fourth judged
    have attempt : s.takeReading m = s.endAttempt counted := judge.trans (if_neg (Nat.not_lt.mpr fourth))
    refine ⟨fun many => ?_, fun few => ?_, fun two last => ?_, fun two more => ?_⟩
    · exact exec_of_takeReading (attempt.trans
        (State.endAttempt_of_verdict (attemptVerdict_fail many) fun h => by cases h))
    · exact exec_of_takeReading (attempt.trans
        (State.endAttempt_of_verdict (attemptVerdict_pass few) fun h => by cases h))
    · have verdict : attemptVerdict counted.fails = .inconclusive := by subst two; rfl
      exact exec_of_takeReading (attempt.trans (State.endAttempt_of_verdict verdict fun _ => last))
    · exact exec_of_takeReading (attempt.trans (State.endAttempt_of_retry (r := counted) two more))

end Sys2Proof.Machine
end

section
/-! SUPPORT. TEST_ORDER and TEST_CANCEL: their arguments, their answers, and what each does to the test queue and the
test wanted set (R157, R167, R168, R193). -/

namespace Sys2Proof.Machine

/-! ### Answers of the status alone (R192) -/

theorem arriveRequest_answered {s t : State} (h : s.ready) {r : Request} (carried : r.Carried) {tag : Byte} {st : Status}
    (run : runRequest r tag s.heard = (t, .of st)) :
    arriveRequest r tag s = .next (t.answer (r.type + 0x80#8) tag [st.code]) := by
  rw [arriveRequest_ready h r tag carried.decoded carried.isRequest carried.fits, run]
  cases st <;> rfl

theorem carried_testOrder (pair kind : Byte) : (Request.testOrder pair kind).Carried :=
  ⟨rfl, rfl, by simp [Request.payload]⟩

theorem carried_testCancel (pair : Byte) : (Request.testCancel pair).Carried :=
  ⟨rfl, rfl, by simp [Request.payload]⟩

/-! ### The arguments (R167, R193) -/

theorem pairArg_of_val {b : Byte} {p : PairNo} (h : p.val = b.toNat) : pairArg b = some p := by
  unfold pairArg
  rw [dif_pos (h ▸ p.isLt)]
  exact congrArg some (Fin.ext h.symm)

theorem pairArg_refused {b : Byte} (h : 72 ≤ b.toNat) : pairArg b = none := dif_neg (Nat.not_lt.mpr h)

theorem kindArg_of_code {b : Byte} {k : TestKind}
    (h : (b = 0 ∧ k = .insulation) ∨ (b = 1 ∧ k = .foreign) ∨ (b = 2 ∧ k = .full)) : kindArg b = some k := by
  rcases h with ⟨rfl, rfl⟩ | ⟨rfl, rfl⟩ | ⟨rfl, rfl⟩ <;> rfl

theorem kindArg_refused {b : Byte} (h : 2 < b.toNat) : kindArg b = none := by
  have isNot {k : Byte} (low : k.toNat ≤ 2) : b ≠ k := by
    rintro rfl
    omega
  unfold kindArg
  rw [if_neg (isNot (by decide)), if_neg (isNot (by decide)), if_neg (isNot (by decide))]

/-! ### Orders (R167) -/

section
variable {s : State} {p : PairNo} {k : TestKind} {tag pair kind : Byte}

theorem State.orderTest_of_queued (queued : s.bus.queued p = true) : s.orderTest p k tag =
    s.setTestQueue (s.bus.queue.map fun e => if e.pair = p then e.order k tag else e) := if_pos queued

theorem State.orderTest_of_new (new : s.bus.queued p = false) : s.orderTest p k tag =
    s.setTestQueue (s.bus.queue ++ [⟨p, k, .controller tag⟩]) := by
  rw [State.orderTest, new]
  exact if_neg Bool.false_ne_true

theorem runTestOrder_refused (h : 72 ≤ pair.toNat ∨ 2 < kind.toNat) (s : State) :
    runTestOrder tag pair kind s = refuse .badArg s := by
  unfold runTestOrder
  rcases h with noPair | noKind
  · rw [pairArg_refused noPair]
  · rw [kindArg_refused noKind]
    cases pairArg pair <;> rfl

theorem runTestOrder_of_args (isPair : pairArg pair = some p) (isKind : kindArg kind = some k) (s : State) :
    runTestOrder tag pair kind s = if s.onBus p then refuse .inTest s
      else if !s.bus.queued p && decide (16 ≤ s.bus.queue.length) then refuse .full s
      else ((s.orderTest p k tag).look, .of .queued) := by
  rw [runTestOrder, isPair, isKind]
  rfl

theorem runTestOrder_of_onBus (isPair : pairArg pair = some p) (isKind : kindArg kind = some k)
    (onBus : s.onBus p = true) : runTestOrder tag pair kind s = refuse .inTest s :=
  (runTestOrder_of_args isPair isKind s).trans (if_pos onBus)

theorem runTestOrder_of_queued (isPair : pairArg pair = some p) (isKind : kindArg kind = some k)
    (free : s.onBus p = false) (queued : s.bus.queued p = true) : runTestOrder tag pair kind s =
      ((s.setTestQueue (s.bus.queue.map fun e => if e.pair = p then e.order k tag else e)).look, .of .queued) := by
  rw [runTestOrder_of_args isPair isKind, free, queued, ← State.orderTest_of_queued queued]
  rfl

theorem runTestOrder_of_full (isPair : pairArg pair = some p) (isKind : kindArg kind = some k)
    (free : s.onBus p = false) (new : s.bus.queued p = false) (full : 16 ≤ s.bus.queue.length) :
    runTestOrder tag pair kind s = refuse .full s := by
  rw [runTestOrder_of_args isPair isKind, free, new, decide_eq_true full]
  rfl

theorem runTestOrder_of_new (isPair : pairArg pair = some p) (isKind : kindArg kind = some k)
    (free : s.onBus p = false) (new : s.bus.queued p = false) (room : s.bus.queue.length < 16) :
    runTestOrder tag pair kind s =
      ((s.setTestQueue (s.bus.queue ++ [⟨p, k, .controller tag⟩])).look, .of .queued) := by
  rw [runTestOrder_of_args isPair isKind, free, new, decide_eq_false (Nat.not_le.mpr room),
    ← State.orderTest_of_new new]
  rfl

/-! ### Cancellations (R168) -/

theorem runTestCancel_refused (h : 72 ≤ pair.toNat) (s : State) : runTestCancel pair s = refuse .badArg s := by
  rw [runTestCancel, pairArg_refused h]

theorem runTestCancel_of_run {r : Run} (isPair : pairArg pair = some p) (run : s.bus.run = some r) (same : r.pair = p) :
    runTestCancel pair s = accept (s.endTest r (.aborted .cancelled)).look := by
  rw [runTestCancel, isPair]
  dsimp only
  rw [run]
  exact if_pos same

/-- A cancellation for a pair off the bus, by the queue and the wanted set. -/
theorem runTestCancel_of_free (isPair : pairArg pair = some p) (free : s.onBus p = false) :
    runTestCancel pair s = if s.bus.queued p then accept (s.removeEntry fun e => decide (e.pair = p)).look
      else if s.bus.wanted[p].isSome then accept (s.setWanted p none)
      else refuse .notFound s := by
  rw [runTestCancel, isPair]
  dsimp only
  cases run : s.bus.run with
  | none => rfl
  | some r =>
    have other : ¬r.pair = p := fun same =>
      Bool.false_ne_true (free.symm.trans ((s.onBus_iff p).mpr ⟨r, run, same⟩))
    exact if_neg other

theorem runTestCancel_of_queued {admitted : List TestEntry} {wanted : Vector (Option TestKind) 72}
    (isPair : pairArg pair = some p) (free : s.onBus p = false) (queued : s.bus.queued p = true)
    (admits : s.bus.Admits admitted wanted) :
    let left := s.bus.queue.eraseP fun e => decide (e.pair = p)
    runTestCancel pair s = accept (State.look { s with bus := { s.bus with queue := left ++ admitted, wanted := wanted } }) := by
  have removed := State.removeEntry_of_admits (List.any_eq_true.mp queued) admits
  rw [runTestCancel_of_free isPair free, queued, removed]
  rfl

theorem runTestCancel_of_wanted (isPair : pairArg pair = some p) (free : s.onBus p = false)
    (new : s.bus.queued p = false) (wanted : s.bus.wanted[p] ≠ none) :
    runTestCancel pair s = accept (s.setWanted p none) := by
  rw [runTestCancel_of_free isPair free, new, Option.isSome_iff_ne_none.mpr wanted]
  rfl

theorem runTestCancel_of_nothing (isPair : pairArg pair = some p) (free : s.onBus p = false)
    (new : s.bus.queued p = false) (unwanted : s.bus.wanted[p] = none) : runTestCancel pair s = refuse .notFound s := by
  rw [runTestCancel_of_free isPair free, new, unwanted]
  rfl

end

/-- Settles O51: both frames are executed at once on the heard part, and each request goes by the occupant, the queue
and the wanted set; an entry taken out of the queue lets the lowest wanted pair in. -/
theorem testsAreOrderedAndCancelled : Obligations.TestsAreOrderedAndCancelled := by
  unfold Obligations.TestsAreOrderedAndCancelled
  intro s tag ready
  refine ⟨fun pair kind bad => ?orderRefused, fun pair bad => ?cancelRefused, fun pair p number => ?_⟩
  case orderRefused =>
    exact arriveRequest_answered ready (carried_testOrder pair kind) (runTestOrder_refused bad s.heard)
  case cancelRefused =>
    exact arriveRequest_answered ready (carried_testCancel pair) (runTestCancel_refused bad s.heard)
  intro queued cancel
  have isPair := pairArg_of_val number
  have isQueued (h : queued) : s.heard.bus.queued p = true := TestBus.queued_iff.mpr h
  have isNew (h : ¬queued) : s.heard.bus.queued p = false := Bool.eq_false_iff.mpr fun x => h (TestBus.queued_iff.mp x)
  have cancelWith {t : State} (st : Status) (run : runTestCancel pair s.heard = (t, .of st)) : cancel t st.code :=
    arriveRequest_answered ready (carried_testCancel pair) run
  refine ⟨?order, fun r run same => cancelWith .done (runTestCancel_of_run (s := s.heard) isPair run same),
    fun free found => ?queued,
    fun free absent wanted => cancelWith .done (runTestCancel_of_wanted isPair free (isNew absent) wanted),
    fun free absent unwanted => cancelWith .notFound (runTestCancel_of_nothing isPair free (isNew absent) unwanted)⟩
  case order =>
    intro kind k code order
    have isKind := kindArg_of_code code
    have orderWith {t : State} (st : Status) (run : runTestOrder tag pair kind s.heard = (t, .of st)) : order t st.code :=
      arriveRequest_answered ready (carried_testOrder pair kind) run
    exact ⟨fun onBus => orderWith .inTest (runTestOrder_of_onBus isPair isKind onBus),
      fun free found => orderWith .queued (runTestOrder_of_queued isPair isKind free (isQueued found)),
      fun free absent full => orderWith .full (runTestOrder_of_full isPair isKind free (isNew absent) full),
      fun free absent room => orderWith .queued (runTestOrder_of_new isPair isKind free (isNew absent) room)⟩
  case queued =>
    intro left
    have removed {admitted : List TestEntry} {wanted : Vector (Option TestKind) 72}
        (admits : s.bus.Admits admitted wanted) :=
      cancelWith .done (runTestCancel_of_queued (s := s.heard) isPair free (isQueued found) admits)
    refine ⟨fun empty => ?_, fun q k lowest low => removed (.inr ⟨q, k, lowest, low, rfl, rfl⟩)⟩
    have result := removed (.inl ⟨empty, rfl, rfl⟩)
    rw [List.append_nil] at result
    exact result

end Sys2Proof.Machine
end

section
/-! SUPPORT. Raises of notices, the enable set and the poll: which entries the pending set holds after each (R171, R172,
R174, R175, R182). -/

namespace Sys2Proof.Machine

/-! ### Notice points (R171) -/

theorem isNoticePoint_iff (pos : Fin 145) (k : Fin 8) : isNoticePoint pos k = true ↔
    (pos.val < 64 ∧ k.val ≤ 4) ∨ (64 ≤ pos.val ∧ pos.val < 136 ∧ (k = 5 ∨ k = 7)) ∨ (136 ≤ pos.val ∧ k = 6) := by
  unfold isNoticePoint
  split
  case isTrue line => simp only [decide_eq_true_iff, Fin.ext_iff]; omega
  case isFalse notLine =>
    split
    case isTrue pair => simp only [decide_eq_true_iff, Fin.ext_iff]; omega
    case isFalse binder => simp only [decide_eq_true_iff, Fin.ext_iff]; omega

theorem NoticeEntry.key_eq_pointKey_iff {e : NoticeEntry} {pos : Fin 145} {k : Kind} :
    e.key = pointKey pos k ↔ e.pos = pos ∧ e.kind = k :=
  ⟨pointKey_injective, by rintro ⟨rfl, rfl⟩; rfl⟩

/-! ### The pending set after a raise (R172) -/

section
variable {pos : Fin 145} {k : Kind} {t : Option Time} {l : List NoticeEntry} {e x : NoticeEntry}

/-- A raise leaves the entries of the other points in the pending set. -/
theorem mem_addRaise_of_mem (other : x.key ≠ pointKey pos k) : ∀ {l : List NoticeEntry}, x ∈ l → x ∈ addRaise pos k t l
  | e :: l, mem => by
    unfold addRaise
    split
    · rcases List.mem_cons.mp mem with rfl | behind
      · exact List.mem_cons_self
      · exact List.mem_cons_of_mem _ (mem_addRaise_of_mem other behind)
    · split
      · next same =>
        rcases List.mem_cons.mp mem with rfl | behind
        · exact absurd same other
        · exact List.mem_cons_of_mem _ behind
      · exact List.mem_cons_of_mem _ mem

theorem mem_addRaise_other (other : x.key ≠ pointKey pos k) : x ∈ addRaise pos k t l ↔ x ∈ l := by
  refine ⟨fun mem => ?_, mem_addRaise_of_mem other⟩
  rcases mem_addRaise mem with old | rfl | ⟨y, -, same, rfl⟩
  · exact old
  · exact absurd (key_freshEntry pos k t) other
  · exact absurd ((y.key_again t).trans same) other

/-- A raise of a point without an entry starts one. -/
theorem mem_addRaise_fresh (absent : ∀ y ∈ l, y.key ≠ pointKey pos k) (same : x.key = pointKey pos k) :
    x ∈ addRaise pos k t l ↔ x = freshEntry pos k t := by
  have isFresh {y : NoticeEntry} (mem : y ∈ addRaise pos k t l) (key : y.key = pointKey pos k) :
      y = freshEntry pos k t := by
    rcases mem_addRaise mem with old | fresh | ⟨z, old, key', -⟩
    · exact absurd key (absent y old)
    · exact fresh
    · exact absurd key' (absent z old)
  refine ⟨fun mem => isFresh mem same, ?_⟩
  rintro rfl
  obtain ⟨y, mem, point⟩ := exists_mem_addRaise pos k t l
  exact isFresh mem (NoticeEntry.key_eq_pointKey_iff.mpr point) ▸ mem

/-- A raise joins its point's entry. -/
theorem again_mem_addRaise (same : e.key = pointKey pos k) :
    ∀ {l : List NoticeEntry}, (l.Pairwise fun a b => a.key < b.key) → e ∈ l → e.again t ∈ addRaise pos k t l
  | y :: l, ordered, mem => by
    obtain ⟨first, rest⟩ := List.pairwise_cons.mp ordered
    unfold addRaise
    rcases List.mem_cons.mp mem with rfl | behind
    · rw [if_neg (by omega), if_pos same]
      exact List.mem_cons_self
    · rw [if_pos (same ▸ first e behind)]
      exact List.mem_cons_of_mem _ (again_mem_addRaise same rest behind)

/-- An ordered pending set holds at most one entry of a point. -/
theorem NoticeEntry.eq_of_key_eq (ordered : l.Pairwise fun a b => a.key < b.key) (hx : x ∈ l) (he : e ∈ l) (same : x.key = e.key) :
    x = e :=
  have apart : (l.map NoticeEntry.key).Nodup := List.pairwise_map.mpr (ordered.imp Nat.ne_of_lt)
  List.inj_on_of_nodup_map apart hx he same

theorem mem_addRaise_again (ordered : l.Pairwise fun a b => a.key < b.key) (mem : e ∈ l)
    (point : e.key = pointKey pos k) (same : x.key = pointKey pos k) :
    x ∈ addRaise pos k t l ↔ x = e.again t := by
  have joined : e.again t ∈ addRaise pos k t l := again_mem_addRaise point ordered mem
  refine ⟨fun hx => NoticeEntry.eq_of_key_eq (addRaise_ordered ordered) hx joined ?_, fun eq => eq ▸ joined⟩
  rw [e.key_again, point, same]

end

/-! ### Raises (R172, R174) -/

section
variable {s : State} {src : Source} {k : Kind}

theorem State.raise_of_disabled (disabled : s.notices.enabled[src.pos][k.num] = false) (t : Option Time) :
    s.raise src k t = s := by
  unfold State.raise
  rw [disabled]
  rfl

theorem State.raise_of_enabled (enabled : s.notices.enabled[src.pos][k.num] = true) (t : Option Time) :
    s.raise src k t =
      { s with notices := { s.notices with entries := addRaise src.pos k t s.notices.entries } } := if_pos enabled

/-- An entry of the point of e is e after a further raise exactly when it has the risen count and the newest time. -/
theorem NoticeEntry.eq_again_iff {e x : NoticeEntry} {t : Option Time} (pos : x.pos = e.pos) (kind : x.kind = e.kind) :
    x = e.again t ↔ x.count = e.count.map (fun c => min 255 (c + 1)) ∧ x.time = (t <|> e.time) := by
  obtain ⟨pos', kind', count, time⟩ := x
  have newest : (e.again t).time = (t <|> e.time) := by cases t <;> rfl
  rw [← newest]
  subst pos kind
  simp [NoticeEntry.again]

/-- An entry of a point is its first exactly when it has a count of 1, or none where the kind keeps none. -/
theorem NoticeEntry.eq_freshEntry_iff {x : NoticeEntry} {t : Option Time} :
    x = freshEntry x.pos x.kind t ↔
      x.count = (if x.kind = .record ∨ x.kind = .fault then none else some 1) ∧ x.time = t := by
  obtain ⟨pos, kind, count, time⟩ := x
  cases kind <;> simp [freshEntry, Kind.keepsCount]

end

/-! ### The enable set (R175) -/

/-- Both requests on notice points carry a set of kinds and a set of sources. -/
theorem parsePoints_bytes (f : BitVec 8 → BitVec 145 → Request) (kinds : BitVec 8) (sources : BitVec 145) :
    parsePoints f (kinds :: setBytes 19 sources.toNat) = some (f kinds sources) := by
  rw [parsePoints, if_pos (length_setBytes 19 _), set_setBytes sources (by decide)]

theorem carried_noticeEnable (kinds : BitVec 8) (sources : BitVec 145) : (Request.noticeEnable kinds sources).Carried :=
  ⟨congrArg Decoded.ofOption (parsePoints_bytes .noticeEnable kinds sources), rfl,
    by simp [Request.payload, length_setBytes]⟩

theorem carried_noticeDisable (kinds : BitVec 8) (sources : BitVec 145) :
    (Request.noticeDisable kinds sources).Carried :=
  ⟨congrArg Decoded.ofOption (parsePoints_bytes .noticeDisable kinds sources), rfl,
    by simp [Request.payload, length_setBytes]⟩

theorem carried_noticePoll : Request.noticePoll.Carried := ⟨rfl, rfl, by decide⟩

/-! ### The poll (R182) -/

section
variable {s : State} {k : Nat}

theorem State.poll_of_none (nothing : s.nextOfClass 3 = none) : s.poll (k + 1) = (s, []) := by
  rw [State.poll, nothing]

theorem State.poll_of_next {e : NoticeEntry} (next : s.nextOfClass 3 = some e) : s.poll (k + 1) =
    (((s.takeEntry 3 e).poll k).1, (byte e.kind.num.val :: s.body e) :: ((s.takeEntry 3 e).poll k).2) := by
  rw [State.poll, next]

end

/-- Settles O52: a raise is lost or starts or joins its point's entry, both requests change the points they name, and
the poll goes by its recursion. -/
theorem noticesAreKeptAndPolled : Obligations.NoticesAreKeptAndPolled := by
  unfold Obligations.NoticesAreKeptAndPolled
  refine ⟨⟨fun _ => rfl, fun _ => rfl, fun _ => rfl, rfl, isNoticePoint_iff, fun _ _ =>
      NoticeEntry.key_eq_pointKey_iff⟩, fun s src k time => ?raises, fun s tag kinds sources ready => ?requests,
    fun s k => ⟨rfl, State.poll_of_none, fun e => State.poll_of_next⟩⟩
  case raises =>
    intro t mine
    refine ⟨fun disabled => State.raise_of_disabled disabled time, fun notices enabled => ?_⟩
    have raised : t = _ := State.raise_of_enabled enabled time
    have entries : t.notices.entries = addRaise src.pos k time s.notices.entries := by rw [raised]
    have key {e : NoticeEntry} : e.key = pointKey src.pos k ↔ mine e := NoticeEntry.key_eq_pointKey_iff
    rw [entries]
    refine ⟨by rw [raised], fun e other => mem_addRaise_other (mt key.mp other), fun e mem point e' point' => ?joins,
      fun absent e' point' => ?starts⟩
    case joins =>
      rw [mem_addRaise_again notices.ordered mem (key.mpr point) (key.mpr point')]
      exact NoticeEntry.eq_again_iff (point'.1.trans point.1.symm) (point'.2.trans point.2.symm)
    case starts =>
      rw [mem_addRaise_fresh (fun y mem => mt key.mp (absent y mem)) (key.mpr point')]
      obtain ⟨pos, kind⟩ := point'
      rw [← pos, ← kind]
      exact NoticeEntry.eq_freshEntry_iff
  case requests =>
    have poll := carried_noticePoll
    exact ⟨⟨_, s.enabled_enablePoints kinds sources, arriveRequest_accepted ready (carried_noticeEnable kinds sources) rfl⟩,
      ⟨_, s.enabled_disablePoints kinds sources,
        arriveRequest_accepted ready (carried_noticeDisable kinds sources) rfl⟩,
      arriveRequest_ready ready .noticePoll tag poll.decoded poll.isRequest poll.fits⟩

end Sys2Proof.Machine
end

section
/-! SUPPORT. The transmitter's choice: the frames it takes in turn, the search of the ring, the service of the inbox, and
the part after a reset (R177 to R180, R184, R185, R191, R196, R197). -/

namespace Sys2Proof.Machine

/-! ### Resets (R184, R185, R196, R197) -/

theorem Straps.bitRate_eq (rate1 rate0 : Bool) : Straps.bitRate ⟨rate1, rate0⟩ =
    if rate1 then (if rate0 then 230400 else 115200) else if rate0 then 38400 else 19200 := by
  cases rate1 <;> cases rate0 <;> rfl

/-- After a reset the transmitter's first choice is the STARTED frame, and every block is at its values after reset. -/
theorem State.choose_resetPart (s : State) (cause : ResetCause) (rate1 rate0 : Bool) (races : Nat) :
    State.choose { s.resetPart cause ⟨rate1, rate0⟩ with raceCount := races } = { State.reset with
      link := ⟨[], 0, [], [], none, some (startedFrame cause), ⟨rate1, rate0⟩,
        if rate1 then (if rate0 then 230400 else 115200) else if rate0 then 38400 else 19200, false⟩
      raceCount := races
      pending := s.pending } := by
  rw [← Straps.bitRate_eq]
  rfl

/-- Settles O4: both resets end with the transmitter's choice on the part after reset. -/
theorem resetCommandsStartAnew : Obligations.ResetCommandsStartAnew := by
  unfold Obligations.ResetCommandsStartAnew
  intro s rate1 rate0 identity rate link
  exact ⟨congrArg _ (s.choose_resetPart .power rate1 rate0 s.raceCount),
    congrArg _ (s.choose_resetPart .pin rate1 rate0 s.raceCount)⟩

/-! ### The choice (R178, R180, R184) -/

section
variable {s : State}

theorem State.choose_of_started {cause : ResetCause} (idle : s.link.inFlight = none)
    (started : s.link.started = some cause) :
    s.choose = { s with link := { s.link with started := none, inFlight := some (startedFrame cause) } } := by
  simp only [State.choose, idle, started]

theorem State.choose_of_reply {r : Frame} {rest : List Frame} (idle : s.link.inFlight = none)
    (started : s.link.started = none) (replies : s.link.replies = r :: rest) :
    s.choose = { s with link := { s.link with replies := rest, inFlight := some r } } := by
  simp only [State.choose, idle, started, replies]

/-- Nothing is in flight, and neither STARTED nor a reply waits. -/
def State.Quiet (s : State) : Prop := s.link.inFlight = none ∧ s.link.started = none ∧ s.link.replies = []

theorem State.choose_of_quiet (quiet : s.Quiet) : s.choose = s.chooseNotice := by
  obtain ⟨idle, started, replies⟩ := quiet
  simp only [State.choose, idle, started, replies]

theorem State.choose_of_class0 {e : NoticeEntry} (quiet : s.Quiet) (next : s.nextOfClass 0 = some e) :
    s.choose = s.sendNotice 0 e := by
  rw [State.choose_of_quiet quiet, State.chooseNotice, next]

theorem State.choose_of_class1 {e : NoticeEntry} (quiet : s.Quiet) (none0 : s.nextOfClass 0 = none)
    (next : s.nextOfClass 1 = some e) : s.choose = s.sendNotice 1 e := by
  rw [State.choose_of_quiet quiet, State.chooseNotice, none0, next]

theorem State.choose_of_class2 {e : NoticeEntry} (quiet : s.Quiet) (none0 : s.nextOfClass 0 = none)
    (none1 : s.nextOfClass 1 = none) (next : s.nextOfClass 2 = some e) : s.choose = s.sendNotice 2 e := by
  rw [State.choose_of_quiet quiet, State.chooseNotice, none0, none1, next]

theorem State.choose_of_nothing (quiet : s.Quiet) (none0 : s.nextOfClass 0 = none) (none1 : s.nextOfClass 1 = none)
    (none2 : s.nextOfClass 2 = none) : s.choose = s := by
  rw [State.choose_of_quiet quiet, State.chooseNotice, none0, none1, none2]

/-- The frame of an entry: its type by its kind number, tag 0, and its body as it stands (R186). -/
theorem State.noticeFrame_eq (s : State) (e : NoticeEntry) :
    s.noticeFrame e = ⟨0x40 + BitVec.ofNat 8 e.kind.num.val, 0, s.body e⟩ := by
  have type : byte (0x40 + e.kind.num.val) = 0x40 + BitVec.ofNat 8 e.kind.num.val := BitVec.ofNat_add 0x40 _
  exact congrArg (Frame.mk · 0 (s.body e)) type

theorem State.sendNotice_eq (s : State) (c : Fin 4) (e : NoticeEntry) : s.sendNotice c e = { s with
    notices := { s.notices with
      entries := s.notices.entries.filter fun x => decide (x.key ≠ e.key)
      cursors := s.notices.cursors.set c (e.pos + 1) }
    link := { s.link with inFlight := some ⟨0x40 + BitVec.ofNat 8 e.kind.num.val, 0, s.body e⟩ } } := by
  rw [← State.noticeFrame_eq]
  rfl

/-! ### The search of the ring (R179) -/

/-- From a place of the ring on, up to its end or from its start up to there, keys give the order round the ring. -/
theorem NoticeEntry.nearer_of_key_le {e x : NoticeEntry} {cursor : Fin 145} (order : e.key ≤ x.key)
    (side : cursor.val ≤ e.pos.val ∨ x.pos.val < cursor.val) :
    (e.pos - cursor).val < (x.pos - cursor).val ∨
      ((e.pos - cursor).val = (x.pos - cursor).val ∧ e.kind.num ≤ x.kind.num) := by
  simp only [NoticeEntry.key, pointKey] at order
  simp only [Fin.sub_def, Fin.le_def]
  omega

/-- What stands at or after the cursor comes before what stands before it. -/
theorem NoticeEntry.nearer_of_sides {e x : NoticeEntry} {cursor : Fin 145} (reached : cursor.val ≤ e.pos.val)
    (before : x.pos.val < cursor.val) : (e.pos - cursor).val < (x.pos - cursor).val := by
  simp only [Fin.sub_def]
  omega

/-- The pending entries of a class, in their order. -/
def State.ofClass (s : State) (c : Fin 4) : List NoticeEntry :=
  s.notices.entries.filter fun e => decide (s.classOf e = c)

theorem State.mem_ofClass {c : Fin 4} {e : NoticeEntry} :
    e ∈ s.ofClass c ↔ e ∈ s.notices.entries ∧ s.classOf e = c := by
  simp [State.ofClass]

theorem State.ofClass_ordered (notices : s.NoticesOk) (c : Fin 4) :
    (s.ofClass c).Pairwise fun a b => a.key < b.key := notices.ordered.filter _

/-- The search: the first entry of the class at or after the cursor, or else the first of the class. -/
theorem State.nextOfClass_eq (s : State) (c : Fin 4) : s.nextOfClass c =
    ((s.ofClass c).find? fun e => decide (s.notices.cursors[c].val ≤ e.pos.val)).or (s.ofClass c).head? := by
  unfold State.nextOfClass State.ofClass
  dsimp only
  split
  · next found => rw [found, Option.some_or]
  · next nothing => rw [nothing, Option.none_or]

theorem State.ofClass_of_none {c : Fin 4} (nothing : s.nextOfClass c = none) : s.ofClass c = [] := by
  rw [State.nextOfClass_eq, Option.or_eq_none_iff] at nothing
  exact List.head?_eq_none_iff.mp nothing.2

theorem State.classOf_ne_of_none {c : Fin 4} {e : NoticeEntry} (nothing : s.nextOfClass c = none)
    (mem : e ∈ s.notices.entries) : s.classOf e ≠ c := by
  intro same
  have inClass : e ∈ s.ofClass c := State.mem_ofClass.mpr ⟨mem, same⟩
  rw [State.ofClass_of_none nothing] at inClass
  exact absurd inClass List.not_mem_nil

/-- Where the search stops: the entries of the class before it stand before the cursor, and so do all of them when it
stands there itself. -/
theorem State.ofClass_of_next {c : Fin 4} {e : NoticeEntry} (next : s.nextOfClass c = some e) :
    ∃ front back, s.ofClass c = front ++ e :: back ∧ (∀ x ∈ front, x.pos.val < s.notices.cursors[c].val) ∧
      (s.notices.cursors[c].val ≤ e.pos.val ∨
        (front = [] ∧ ∀ x ∈ e :: back, x.pos.val < s.notices.cursors[c].val)) := by
  rw [State.nextOfClass_eq, Option.or_eq_some_iff] at next
  rcases next with found | ⟨nothing, head⟩
  case inl =>
    obtain ⟨reached, front, back, split, before⟩ := List.find?_eq_some_iff_append.mp found
    exact ⟨front, back, split, fun x mem => by simpa using before x mem, .inl (of_decide_eq_true reached)⟩
  case inr =>
    obtain ⟨back, split⟩ := List.head?_eq_some_iff.mp head
    refine ⟨[], back, split, fun x mem => absurd mem List.not_mem_nil, .inr ⟨rfl, fun x mem => ?_⟩⟩
    simpa using List.find?_eq_none.mp nothing x (split ▸ mem)

theorem State.mem_of_next {c : Fin 4} {e : NoticeEntry} (next : s.nextOfClass c = some e) :
    e ∈ s.notices.entries ∧ s.classOf e = c := by
  obtain ⟨front, back, split, -⟩ := State.ofClass_of_next next
  exact State.mem_ofClass.mp (split ▸ List.mem_append_right front List.mem_cons_self)

/-- The chosen entry is the nearest of its class round the ring from the cursor, a source's lower kind first. -/
theorem State.nextOfClass_nearest (notices : s.NoticesOk) {c : Fin 4} {e x : NoticeEntry}
    (next : s.nextOfClass c = some e) (mem : x ∈ s.ofClass c) :
    (e.pos - s.notices.cursors[c]).val < (x.pos - s.notices.cursors[c]).val ∨
      ((e.pos - s.notices.cursors[c]).val = (x.pos - s.notices.cursors[c]).val ∧ e.kind.num ≤ x.kind.num) := by
  obtain ⟨front, back, split, before, side⟩ := State.ofClass_of_next next
  have ordered := State.ofClass_ordered notices c
  rw [split] at mem ordered
  have order (behind : x ∈ e :: back) : e.key ≤ x.key := by
    obtain ⟨first, -⟩ := List.pairwise_cons.mp (List.pairwise_append.mp ordered).2.1
    rcases List.mem_cons.mp behind with rfl | further
    · exact Nat.le_refl _
    · exact Nat.le_of_lt (first x further)
  rcases List.mem_append.mp mem with inFront | behind
  · rcases side with reached | ⟨rfl, -⟩
    · exact .inl (NoticeEntry.nearer_of_sides reached (before x inFront))
    · exact absurd inFront List.not_mem_nil
  · exact NoticeEntry.nearer_of_key_le (order behind) (side.imp_right fun wrapped => wrapped.2 x behind)

/-! ### The class in force (R176, R177) -/

theorem posLine_eq_some {pos : Fin 145} {n : LineNo} : posLine pos = some n ↔ pos.val = n.val := by
  unfold posLine
  split
  · simp [Fin.ext_iff]
  · simp only [reduceCtorEq, false_iff]
    omega

theorem Store.urgentStored_iff {st : Store} {n : LineNo} : st.urgentStored n = true ↔
    ∃ (i : Fin 16) (sl : Slot), st.slots[i] = some sl ∧ sl.record.line = n ∧ sl.record.urgent = true := by
  simp only [Store.urgentStored, allSlots, List.any_eq_true, List.mem_finRange, true_and]
  refine exists_congr fun i => ?_
  cases st.slots[i] <;> simp

theorem State.promoted_iff {e : NoticeEntry} : s.promoted e = true ↔
    e.kind = .record ∧ ∃ n : LineNo, e.pos.val = n.val ∧ s.store.urgentStored n = true := by
  unfold State.promoted
  simp only [← posLine_eq_some]
  cases posLine e.pos <;> simp

/-! ### The service of the inbox and the end of a frame (R178, R191, R196) -/

/-- A request in the inbox must wait: a reset is ordered or the reply queue is full (R191, R196). -/
def State.Waits (s : State) : Prop := s.link.resetOrdered = true ∨ 4 ≤ s.link.replies.length

theorem State.mayExecute_iff : s.mayExecute = true ↔ ¬s.Waits := by
  rw [State.mayExecute, Bool.and_eq_true, decide_eq_true_iff, Bool.not_eq_true', State.Waits, not_or, Nat.not_le,
    Bool.not_eq_true, and_comm]
  rfl

theorem State.serve_of_waits (h : s.link.inbox = [] ∨ s.Waits) : s.serve = s.choose :=
  State.serve_idle (h.imp_right fun waits => Bool.eq_false_iff.mpr fun may => State.mayExecute_iff.mp may waits)

theorem isResetReply_iff {f : Frame} : isResetReply f = true ↔ f.type = 0x9D ∧ f.payload = [0] := by
  rw [isResetReply, Bool.and_eq_true, decide_eq_true_iff, decide_eq_true_iff]
  rfl

theorem exec_frameSent_of_idle (idle : s.link.inFlight = none) : exec .frameSent s = .next s.choose := by
  show execFrameSent s = _
  simp only [execFrameSent, idle]

/-- The frame in flight has ended, and the idle transmitter has chosen. -/
def State.afterFrame (s : State) : State := State.choose { s with link := { s.link with inFlight := none } }

/-- After any frame but the reply to a PART_RESET the transmitter chooses, and the inbox is served. -/
theorem exec_frameSent_of_other {f : Frame} (inFlight : s.link.inFlight = some f)
    (other : ¬(f.type = 0x9D ∧ f.payload = [0])) : exec .frameSent s = .next s.afterFrame.serve := by
  show execFrameSent s = _
  simp only [execFrameSent, inFlight, State.frameEnd, if_neg (mt isResetReply_iff.mp other)]
  rfl

theorem State.inbox_afterFrame (s : State) : s.afterFrame.link.inbox = s.link.inbox := (State.choose_link _).1

theorem State.serve_afterFrame_of_waits (h : s.link.inbox = [] ∨ s.afterFrame.Waits) :
    s.afterFrame.serve = s.afterFrame := by
  rw [State.serve_of_waits (s.inbox_afterFrame ▸ h)]
  exact State.choose_choose _

theorem State.serve_afterFrame_of_request {q : Frame} {rest : List Frame} (inbox : s.link.inbox = q :: rest)
    (ordered : s.afterFrame.link.resetOrdered = false) (room : s.afterFrame.link.replies.length < 4) :
    s.afterFrame.serve = (State.executeFrame
      { s.afterFrame with link := { s.afterFrame.link with inbox := rest } } q).choose.serve := by
  have free : ¬s.afterFrame.Waits := not_or.mpr ⟨by simp [ordered], Nat.not_le.mpr room⟩
  exact State.serve_cons (s.inbox_afterFrame.trans inbox) (State.mayExecute_iff.mpr free)

end

end Sys2Proof.Machine
end

section
/-! SUPPORT. The bodies of notices, byte by byte (R128, R146, R150, R166, R173, R193). -/

namespace Sys2Proof.Machine

/-! ### The source at a ring position (R171) -/

theorem posLine_eq_none {pos : Fin 145} (h : 64 ≤ pos.val) : posLine pos = none := dif_neg (Nat.not_lt.mpr h)

theorem posPair_of_val {pos : Fin 145} {p : PairNo} (h : pos.val = 64 + p.val) : posPair pos = some p := by
  unfold posPair
  rw [dif_pos (by omega)]
  exact congrArg some (Fin.ext (by simp [h]))

theorem posPair_eq_none {pos : Fin 145} (h : 136 ≤ pos.val) : posPair pos = none := dif_neg (by omega)

theorem posBinder_of_val {pos : Fin 145} {b : BinderNo} (h : pos.val = 136 + b.val) : posBinder pos = some b := by
  unfold posBinder
  rw [dif_pos (by omega)]
  exact congrArg some (Fin.ext (by simp [h]))

section
variable {e : NoticeEntry}

theorem State.body_of_line (s : State) {n : LineNo} (pos : e.pos.val = n.val) : s.body e = s.lineBody n e := by
  rw [State.body, posLine_eq_some.mpr pos]

theorem State.body_of_fault (s : State) {p : PairNo} (pos : e.pos.val = 64 + p.val) (kind : e.kind = .fault) :
    s.body e = s.faultBody p := by
  rw [State.body, posLine_eq_none (by omega), posPair_of_val pos, kind]

theorem State.body_of_testDone (s : State) {p : PairNo} (pos : e.pos.val = 64 + p.val) (kind : e.kind = .testDone) :
    s.body e = s.testDoneBody p e := by
  rw [State.body, posLine_eq_none (by omega), posPair_of_val pos, kind]

theorem State.body_of_binder (s : State) {b : BinderNo} (pos : e.pos.val = 136 + b.val) :
    s.body e = s.binderBody b e := by
  rw [State.body, posLine_eq_none (by omega), posPair_eq_none (by omega), posBinder_of_val pos]

end

/-! ### Live fields -/

theorem TestOrigin.code_eq (o : TestOrigin) : o.code = if o = .watch then 0 else 1 := by
  cases o <;> rfl

theorem LineState.offHook_eq (st : LineState) : st.offHook =
    decide (st = .seized ∨ st = .pulsing ∨ st = .collecting ∨ st = .held ∨ st = .opened) := by
  cases st <;> rfl

/-- The kinds over threshold as bits 0 and 1 (R146). -/
theorem State.exceeded_eq (s : State) (p : PairNo) : (s.foreignOver p).toNat + 2 * (s.leakOver p).toNat =
    (if s.watch.settings.suspectScore ≤ (s.fault p).foreign then 1 else 0) +
      (if s.watch.settings.suspectScore ≤ (s.fault p).leak then 2 else 0) := by
  have bits : (s.foreignOver p).toNat + 2 * (s.leakOver p).toNat =
      flagBit (s.foreignOver p) 0 + flagBit (s.leakOver p) 1 := by simp [flagBit_eq]
  rw [bits]
  simp [flagBit, State.foreignOver, State.leakOver]

theorem State.faultBody_eq (s : State) (p : PairNo) : s.faultBody p =
    [byte p.val, (s.fault p).state.code, byte ((if s.watch.settings.suspectScore ≤ (s.fault p).foreign then 1 else 0) +
      (if s.watch.settings.suspectScore ≤ (s.fault p).leak then 2 else 0)), yesNo (s.fault p).senseLost] ++
      optional 8 ((s.fault p).last.map LastTest.bytes) := by
  rw [← s.exceeded_eq p]
  rfl

theorem FaultRec.inSuspicion_eq (r : FaultRec) :
    r.inSuspicion = decide (r.state = .suspect ∨ r.state = .confirmed) := (Bool.decide_or _ _).symm

theorem State.suspects_eq (s : State) (b : BinderNo) : s.suspects b = (List.finRange 72).filter fun p =>
    decide (p.val / 8 = b.val ∧ ((s.fault p).state = .suspect ∨ (s.fault p).state = .confirmed)) := by
  refine List.filter_congr fun p _ => ?_
  rw [FaultRec.inSuspicion_eq, ← Bool.decide_and]
  exact decide_eq_decide.mpr (and_congr_left' Fin.ext_iff)

/-- Settles O53: the choice takes STARTED, a reply and the classes in turn, the search of the ring finds the nearest
entry, the inbox is served one request at a time, and each body is read field by field. -/
theorem transmitterChoosesTheNextFrame : Obligations.TransmitterChoosesTheNextFrame := by
  unfold Obligations.TransmitterChoosesTheNextFrame
  intro s idle quiet send
  have sends (c : Fin 4) (e : NoticeEntry) : s.sendNotice c e = send c e := s.sendNotice_eq c e
  refine ⟨fun busy => State.choose_busy (Option.isSome_iff_ne_none.mpr busy), fun cause isIdle started => ?started,
    fun r rest => State.choose_of_reply,
    fun e isQuiet next => (State.choose_of_class0 isQuiet next).trans (sends 0 e),
    fun e isQuiet none0 next => (State.choose_of_class1 isQuiet none0 next).trans (sends 1 e),
    fun e isQuiet none0 none1 next => (State.choose_of_class2 isQuiet none0 none1 next).trans (sends 2 e),
    State.choose_of_nothing,
    fun notices c => ⟨fun nothing e mem => State.classOf_ne_of_none nothing mem, fun e next => ?nearest⟩, fun e => ?inForce,
    ⟨State.serve_of_waits, fun q rest inbox free => State.serve_cons inbox (State.mayExecute_iff.mpr free)⟩,
    exec_frameSent_of_idle, fun f inFlight => ?frameSent, ?bodies⟩
  case started =>
    rw [State.choose_of_started isIdle started]
    cases cause <;> rfl
  case nearest =>
    obtain ⟨mem, same⟩ := State.mem_of_next next
    exact ⟨mem, same, fun x pending same' => State.nextOfClass_nearest notices next (State.mem_ofClass.mpr ⟨pending, same'⟩)⟩
  case inForce =>
    intro urgent
    have promoted : s.promoted e = true ↔ urgent := by simp only [State.promoted_iff, Store.urgentStored_iff]; rfl
    exact ⟨fun isUrgent => if_pos (promoted.mpr isUrgent), fun notUrgent => if_neg (mt promoted.mp notUrgent)⟩
  case frameSent =>
    intro sent
    refine ⟨fun type payload => ⟨Config.strapRate1 s.raceCount, Config.strapRate0 s.raceCount, ?_⟩, fun other => ?_⟩
    · rw [exec_frameSent_of_resetReply inFlight type payload]
      exact congrArg _ (s.choose_resetPart .request _ _ (s.raceCount + 1))
    · have served : exec .frameSent s = .next sent.serve := exec_frameSent_of_other inFlight (not_and_or.mpr other)
      rw [served]
      exact ⟨fun waits => congrArg _ (State.serve_afterFrame_of_waits waits),
        fun q rest inbox ordered room => congrArg _ (State.serve_afterFrame_of_request inbox ordered room)⟩
  case bodies =>
    intro one yes two four outcome kind
    have time (t : Time) : bytes4 t.toNat = four t := bytes4_toNat t
    have kindCode (k : TestKind) : k.code = kind k := rfl
    have outcomeBytes (o : TestOutcome) : o.bytes = outcome o := by
      rcases o with (_ | _ | _) | (_ | _ | _) <;> rfl
    refine ⟨fun n pos c t isLine => ?lines, fun p pos c isPair => ?pairs, fun b pos c isBinder => ?binders⟩
    case lines =>
      intro l off mine urgent
      have offHook : (s.line n).state.offHook = off := LineState.offHook_eq _
      have stored : s.store.storedCount n = (List.finRange 16).countP mine := rfl
      have urgentStored : s.store.urgentStored n = (List.finRange 16).any urgent := by
        refine congrArg (List.any _) (funext fun i => ?_)
        simp only [urgent]
        cases s.store.slots[i] <;> simp
      have timed (k : Kind) : (NoticeEntry.mk pos k (some c) (some t)).timeBytes = four t := time t
      have body (e : NoticeEntry) (h : e.pos = pos) : s.body e = s.lineBody n e := s.body_of_line (h ▸ isLine)
      refine ⟨?_, ?_, ?_, ?_, ?_⟩
      · rw [body _ rfl, State.lineBody, timed, offHook]; rfl
      · rw [body _ rfl, State.lineBody, timed]; rfl
      · rw [body _ rfl, State.lineBody, stored, urgentStored]; rfl
      · rw [body _ rfl, State.lineBody, timed]; rfl
      · rw [body _ rfl, State.lineBody, timed]; rfl
    case pairs =>
      intro r state w exceeded
      refine ⟨fun last => ?_, fun x last => ?_, fun x result => ?_⟩
      · rw [s.body_of_fault isPair rfl, s.faultBody_eq, last]
        rfl
      · rw [s.body_of_fault isPair rfl, s.faultBody_eq, last, Option.map_some, LastTest.bytes,
          TestOrigin.code_eq, kindCode, outcomeBytes, time]
        rfl
      · rw [s.body_of_testDone isPair rfl, State.testDoneBody, result]
        dsimp only
        rw [kindCode, outcomeBytes, time]
        cases x.last <;> rfl
    case binders =>
      intro suspects
      rw [s.body_of_binder isBinder]
      have isSuspects : s.suspects b = suspects := s.suspects_eq b
      rw [State.binderBody, isSuspects]
      rfl

end Sys2Proof.Machine
end

section
/-! SUPPORT. Steps and the queue of commands: a step runs the command at the front, every command answers a next state,
and none changes the queue (log 19, 24). -/

namespace Sys2Proof.Machine

theorem step_of_front {s : State} {c : Instr} {rest : List Instr} (front : s.pending = c :: rest) :
    step s = exec c { s with pending := rest } := by
  unfold step
  rw [front]

/-- Settles O1: with a command at the front, that branch of the step is taken. -/
theorem stepRunsTheFrontCommand : Obligations.StepRunsTheFrontCommand := by
  unfold Obligations.StepRunsTheFrontCommand
  exact fun _ _ _ front => step_of_front front

/-- No operation of the blocks touches the queue of commands. -/
theorem pendingStays_closed (queue : List Instr) : Closed fun s => s.pending = queue :=
  .of_frame (fun _ _ _ => rfl) (fun _ _ h => by rw [h.eq]) (fun _ _ h => h.pending) (fun _ _ h => by rw [h.eq])
    (fun _ _ _ => rfl) (fun _ _ => rfl) (fun _ _ _ => rfl) (fun _ _ _ => rfl) queue

/-- No request touches the queue of commands. -/
theorem pendingStays_closedRequest (queue : List Instr) : ClosedRequest fun s => s.pending = queue where
  toClosed := pendingStays_closed queue
  scan _ _ h := h
  watch _ _ h := h
  profile _ _ _ _ _ h := h
  window _ _ _ _ _ h := h
  defaultClass _ _ h := h
  dropPending _ _ h := h
  take s i sl _ h := by rw [(sameStore_takeSlot s i sl).eq]; exact h
  out s d h := (samePool_serviceOut s d).pending.trans h
  back s d h := (samePool_serviceIn s d).pending.trans h
  order s p k tag _ _ h := by rw [(sameBus_orderTest s p k tag).eq]; exact h
  cancel s p _ h := by rw [(sameBus_removeEntry s fun e => decide (e.pair = p)).eq]; exact h
  unwant _ _ h := h
  routes _ _ h := h
  enable s k x h := (s.pending_enablePoints k x).trans h
  disable s k x h := (s.pending_disablePoints k x).trans h
  takeEntry _ _ _ h := h
  ordered _ h := h

/-- No command touches the queue of commands, a reset included (log 19). -/
theorem pendingStays_closedPart (queue : List Instr) : ClosedPart fun s => s.pending = queue where
  toClosedRequest := pendingStays_closedRequest queue
  link _ _ h := h
  reset _ _ _ _ h := h

/-- No command ends in a fault or a refusal (log 24). -/
theorem exec_next (c : Instr) (s : State) : ∃ t : State, exec c s = .next t := by
  cases c <;> exact ⟨_, rfl⟩

/-- Settles O3: every command answers a next state, and what the elementary changes keep of the queue, the command
keeps. -/
theorem everyCommandAnswersNext : Obligations.EveryCommandAnswersNext := by
  unfold Obligations.EveryCommandAnswersNext
  intro c s
  obtain ⟨t, next⟩ := exec_next c s
  exact ⟨t, next, (pendingStays_closedPart s.pending).exec rfl next⟩

end Sys2Proof.Machine
end

section
/-! SUPPORT. The CRC as the bit-by-bit recurrence, and the frames found among characters, by their bytes (R186 to
R188). -/

namespace Sys2Proof.Machine

/-! ### The CRC (R187) -/

/-- One bit enters the register: shifted left, with the polynomial when the top bit and the bit differ (R187). -/
def crcFeed (r : BitVec 16) (x : Bool) : BitVec 16 := if r.msb = x then r <<< 1 else (r <<< 1) ^^^ 0x1021

/-- The bits of a byte, most significant first. -/
def byteBits (b : Byte) : List Bool :=
  [b.getLsbD 7, b.getLsbD 6, b.getLsbD 5, b.getLsbD 4, b.getLsbD 3, b.getLsbD 2, b.getLsbD 1, b.getLsbD 0]

/-- The byte as it enters the register, after `k` of its bits have been shifted out. -/
def byteShifted (b : Byte) (k : Nat) : BitVec 16 := (b ++ 0#8 : BitVec 16) <<< k

theorem msb_byteShifted (b : Byte) {k : Nat} (h : k < 8) : (byteShifted b k).msb = b.getLsbD (7 - k) := by
  rw [byteShifted, BitVec.msb_eq_getLsbD_last, BitVec.getLsbD_shiftLeft, BitVec.getLsbD_append]
  simp [show ¬15 < k by omega, show ¬15 - k < 8 by omega, show 15 - k - 8 = 7 - k by omega]

theorem byteShifted_eight (b : Byte) : byteShifted b 8 = 0#16 := by
  apply BitVec.eq_of_getLsbD_eq
  intro i inRange
  rw [byteShifted, BitVec.getLsbD_shiftLeft, BitVec.getLsbD_append]
  simp [show i - 8 < 8 by omega]

/-- The bit at the top of the byte enters, and the rest of the byte moves up (R187). -/
theorem crcBit_byteShifted (r : BitVec 16) (b : Byte) {k : Nat} (h : k < 8) :
    crcBit (r ^^^ byteShifted b k) = crcFeed r (b.getLsbD (7 - k)) ^^^ byteShifted b (k + 1) := by
  rw [crcBit_xor, msb_byteShifted b h, byteShifted, ← BitVec.shiftLeft_add]
  rfl

theorem crcByte_eq (r : BitVec 16) (b : Byte) : crcByte r b = (byteBits b).foldl crcFeed r := by
  have enters : (b ++ 0#8 : BitVec 16) = byteShifted b 0 := (BitVec.shiftLeft_zero _).symm
  rw [crcByte, enters]
  simp (disch := decide) only [crcBit_byteShifted, Nat.reduceAdd, byteShifted_eight, BitVec.xor_zero]
  rfl

theorem crc_eq (bs : List Byte) : crc bs = (bs.flatMap byteBits).foldl crcFeed 0xFFFF := by
  rw [List.foldl_flatMap, crc]
  simp only [← crcByte_eq]
  rfl

/-! ### The bytes of a frame (R186) -/

theorem Frame.bytes_eq (f : Frame) : f.bytes =
    let covered := BitVec.ofNat 8 (f.payload.length + 2) :: f.type :: f.tag :: f.payload
    0xC3 :: covered ++ [(crc covered).extractLsb' 8 8, (crc covered).extractLsb' 0 8] := rfl

/-! ### Frames behind a mark (R188) -/

/-- A frame's length byte is in its range (R188 step 1). -/
def legalLength (len : Byte) : Prop := 2 ≤ len.toNat ∧ len.toNat ≤ 252

/-- Characters behind a mark: none, a length out of range, a legal length without all its characters, or a legal length
with a whole body and two CRC bytes behind it. -/
theorem charsBehindMark_cases (cs : List Byte) : cs = [] ∨ (∃ len rest, cs = len :: rest ∧ ¬legalLength len) ∨
    (∃ len rest, cs = len :: rest ∧ legalLength len ∧ rest.length < len.toNat + 2) ∨
    ∃ len type tag payload hi lo behind, cs = len :: type :: tag :: (payload ++ hi :: lo :: behind) ∧ legalLength len ∧
      payload.length + 2 = len.toNat := by
  match cs with
  | [] => exact .inl rfl
  | len :: rest =>
    right
    by_cases legal : legalLength len
    · right
      by_cases short : rest.length < len.toNat + 2
      · exact .inl ⟨len, rest, rfl, legal, short⟩
      · right
        obtain ⟨body, tail, rfl, length⟩ : ∃ body tail, rest = body ++ tail ∧ body.length = len.toNat :=
          ⟨_, _, (List.take_append_drop len.toNat rest).symm, List.length_take_of_le (by omega)⟩
        have two : 2 ≤ body.length := length ▸ legal.1
        have twoBehind : 2 ≤ tail.length := by
          rw [List.length_append] at short
          omega
        match body, tail with
        | type :: tag :: payload, hi :: lo :: behind =>
          exact ⟨len, type, tag, payload, hi, lo, behind, rfl, legal, length⟩
    · exact .inl ⟨len, rest, rfl, legal⟩

section
variable {len type tag hi lo : Byte} {payload rest behind : List Byte}

theorem takeFrame_of_illegal (illegal : ¬legalLength len) : takeFrame (len :: rest) = .bad :=
  takeFrame_illegal (by unfold legalLength at illegal; omega)

theorem takeFrame_of_short (legal : legalLength len) (short : rest.length < len.toNat + 2) :
    takeFrame (len :: rest) = .incomplete := takeFrame_short legal.1 legal.2 short

theorem takeFrame_of_match (legal : legalLength len) (length : payload.length + 2 = len.toNat)
    (isCrc : crc (len :: type :: tag :: payload) = (hi ++ lo : BitVec 16)) :
    takeFrame (len :: type :: tag :: (payload ++ hi :: lo :: behind)) = .good ⟨type, tag, payload⟩ behind :=
  (takeFrame_whole legal.2 length).trans (if_pos isCrc)

theorem takeFrame_of_mismatch (legal : legalLength len) (length : payload.length + 2 = len.toNat)
    (noCrc : crc (len :: type :: tag :: payload) ≠ (hi ++ lo : BitVec 16)) :
    takeFrame (len :: type :: tag :: (payload ++ hi :: lo :: behind)) = .bad :=
  (takeFrame_whole legal.2 length).trans (if_neg noCrc)

end

section
variable {cs : List Byte}

theorem takeFrame_incomplete_iff : takeFrame cs = .incomplete ↔
    cs = [] ∨ ∃ len rest, cs = len :: rest ∧ legalLength len ∧ rest.length < len.toNat + 2 := by
  constructor
  · intro incomplete
    rcases charsBehindMark_cases cs with none | ⟨len, rest, rfl, illegal⟩ | short |
      ⟨len, type, tag, payload, hi, lo, behind, rfl, legal, length⟩
    · exact .inl none
    · rw [takeFrame_of_illegal illegal] at incomplete
      cases incomplete
    · exact .inr short
    · rw [takeFrame_whole legal.2 length] at incomplete
      split at incomplete <;> cases incomplete
  · rintro (rfl | ⟨len, rest, rfl, legal, short⟩)
    · rfl
    · exact takeFrame_of_short legal short

theorem takeFrame_bad_iff : takeFrame cs = .bad ↔
    (∃ len rest, cs = len :: rest ∧ ¬legalLength len) ∨
    ∃ len body hi lo behind, cs = len :: (body ++ hi :: lo :: behind) ∧ legalLength len ∧ body.length = len.toNat ∧
      crc (len :: body) ≠ (hi ++ lo : BitVec 16) := by
  constructor
  · intro bad
    rcases charsBehindMark_cases cs with rfl | illegal | ⟨len, rest, rfl, legal, short⟩ |
      ⟨len, type, tag, payload, hi, lo, behind, rfl, legal, length⟩
    · cases bad
    · exact .inl illegal
    · rw [takeFrame_of_short legal short] at bad
      cases bad
    · rw [takeFrame_whole legal.2 length] at bad
      split at bad
      · cases bad
      · next noCrc => exact .inr ⟨len, type :: tag :: payload, hi, lo, behind, rfl, legal, length, noCrc⟩
  · rintro (⟨len, rest, rfl, illegal⟩ | ⟨len, body, hi, lo, behind, rfl, legal, length, noCrc⟩)
    · exact takeFrame_of_illegal illegal
    · have two : 2 ≤ body.length := length ▸ legal.1
      match body with
      | type :: tag :: payload => exact takeFrame_of_mismatch legal length noCrc

theorem takeFrame_good_iff {f : Frame} {behind : List Byte} : takeFrame cs = .good f behind ↔
    ∃ len hi lo, cs = len :: f.type :: f.tag :: (f.payload ++ hi :: lo :: behind) ∧ legalLength len ∧
      f.payload.length + 2 = len.toNat ∧
      crc (len :: f.type :: f.tag :: f.payload) = (hi ++ lo : BitVec 16) := by
  constructor
  · intro good
    rcases charsBehindMark_cases cs with rfl | ⟨len, rest, rfl, illegal⟩ | ⟨len, rest, rfl, legal, short⟩ |
      ⟨len, type, tag, payload, hi, lo, behind, rfl, legal, length⟩
    · cases good
    · rw [takeFrame_of_illegal illegal] at good
      cases good
    · rw [takeFrame_of_short legal short] at good
      cases good
    · rw [takeFrame_whole legal.2 length] at good
      split at good
      · next isCrc =>
        cases good
        exact ⟨len, hi, lo, rfl, legal, length, isCrc⟩
      · cases good
  · rintro ⟨len, hi, lo, rfl, legal, length, isCrc⟩
    exact takeFrame_of_match legal length isCrc

end

/-! ### The framer's characters (R188) -/

/-- One character in HUNT is a mark, or is skipped. -/
theorem scanChars_single (c : Byte) : scanChars [c] = (if c = 0xC3 then [0xC3] else [], []) := by
  show (if c = 0xC3 then _ else _) = _
  split
  · next mark => subst mark; rfl
  · rfl

theorem scanChars_of_skipped {c : Byte} (other : c ≠ 0xC3) (cs : List Byte) : scanChars (c :: cs) = scanChars cs :=
  if_neg other

section
variable {cs : List Byte}

theorem scanChars_of_incomplete (incomplete : takeFrame cs = .incomplete) :
    scanChars (0xC3 :: cs) = (0xC3 :: cs, []) := by
  simp [scanChars, examine, Config.mark, incomplete]

theorem scanChars_of_bad (bad : takeFrame cs = .bad) : scanChars (0xC3 :: cs) = scanChars cs := by
  simp [scanChars, examine, Config.mark, bad]

theorem scanChars_of_good {f : Frame} {behind : List Byte} (good : takeFrame cs = .good f behind) :
    scanChars (0xC3 :: cs) = ((scanChars behind).1, f :: (scanChars behind).2) := by
  have fuel := examine_fuel cs.length behind.length behind (takeFrame_good_length good) (Nat.le_refl _)
  simp [scanChars, examine, Config.mark, good, fuel]

end

/-- A whole frame is found, and the characters behind it are examined after it (R186, R188). -/
theorem scanChars_bytes (f : Frame) (rest : List Byte) (fits : f.payload.length ≤ 250) :
    scanChars (f.bytes ++ rest) = ((scanChars rest).1, f :: (scanChars rest).2) := by
  have length : f.payload.length + 2 = (byte (f.payload.length + 2)).toNat := by
    rw [byte, BitVec.toNat_ofNat, Nat.mod_eq_of_lt (by omega)]
  have legal : legalLength (byte (f.payload.length + 2)) := by
    unfold legalLength
    omega
  have isCrc := (crcBytes_eq f.covered _ _).mp rfl
  have chars : f.bytes ++ rest = 0xC3 :: byte (f.payload.length + 2) :: f.type :: f.tag ::
      (f.payload ++ (crc f.covered).extractLsb' 8 8 :: (crc f.covered).extractLsb' 0 8 :: rest) := by
    simp [Frame.bytes, Frame.covered, crcBytes, Config.mark]
  rw [chars]
  exact scanChars_of_good (takeFrame_of_match legal length isCrc)

end Sys2Proof.Machine
end

section
/-! SUPPORT. Requests on the wire: every request is read back from its payload, and a payload is none exactly for its
length or for a type that names no request (R186, R191, R193). -/

namespace Sys2Proof.Machine

/-! ### Lists and vectors of a known length -/

/-- A list of a known length is the list of its elements by their places. -/
theorem eq_ofFn_of_length {α : Type} {n : Nat} {l : List α} (length : l.length = n) :
    ∃ g : Fin n → α, l = List.ofFn g := by
  subst length
  exact ⟨fun i => l[i], (List.ofFn_getElem (xs := l)).symm⟩

theorem eq_of_eight {α : Type} (v : Vector α 8) : v = #v[v[0], v[1], v[2], v[3], v[4], v[5], v[6], v[7]] := by
  ext i inRange
  interval_cases i <;> rfl

/-! ### Every request is carried (R186, R193) -/

theorem parseLineSet_bytes (f : BitVec 64 → Request) (lines : BitVec 64) :
    parseLineSet f (setBytes 8 lines.toNat) = some (f lines) := by
  rw [parseLineSet, if_pos (length_setBytes 8 _), set_setBytes lines (by decide)]

theorem parseProfile_bytes (a : ProfileArgs) : parseProfile (profileBytes a) = some a := by
  simp [parseProfile, profileBytes, halfBytes]

theorem parseWindow_bytes {code : Byte} (named : code ≠ 8) (a : WindowArgs) :
    parseWindow (windowBytes (.window code a)) = some (.window code a) := by
  obtain ⟨enabled, len, positions, rule, n, cls, urgent, present, replLen, symbols⟩ := a
  rw [eq_of_eight positions, eq_of_eight symbols]
  exact if_neg named

theorem carried_lineEnable (lines : BitVec 64) : (Request.lineEnable lines).Carried :=
  ⟨congrArg Decoded.ofOption (parseLineSet_bytes .lineEnable lines), rfl, by simp [Request.payload, length_setBytes]⟩

theorem carried_lineDisable (lines : BitVec 64) : (Request.lineDisable lines).Carried :=
  ⟨congrArg Decoded.ofOption (parseLineSet_bytes .lineDisable lines), rfl, by simp [Request.payload, length_setBytes]⟩

theorem carried_profileWrite (profile : Byte) (a : ProfileArgs) : (Request.profileWrite profile a).Carried :=
  ⟨congrArg (fun x : Option ProfileArgs => Decoded.ofOption (x.map (.profileWrite profile))) (parseProfile_bytes a),
    rfl, by simp [Request.payload, profileBytes, halfBytes]⟩

theorem carried_window {code : Byte} (named : code ≠ 8) (a : WindowArgs) :
    (Request.windowWrite (.window code a)).Carried :=
  ⟨congrArg (fun x : Option WindowWriteArgs => Decoded.ofOption (x.map .windowWrite)) (parseWindow_bytes named a), rfl,
    by simp [Request.payload, windowBytes]⟩

/-- A frame carries every request, but for a WINDOW_WRITE whose long form names DEFAULT (log 4). -/
theorem Request.carried (r : Request) (named : ∀ code a, r = .windowWrite (.window code a) → code ≠ 8) : r.Carried := by
  cases r with
  | lineEnable lines => exact carried_lineEnable lines
  | lineDisable lines => exact carried_lineDisable lines
  | profileWrite profile a => exact carried_profileWrite profile a
  | windowWrite args =>
    cases args with
    | window code a => exact carried_window (named code a rfl) a
    | default cls => exact ⟨rfl, rfl, by simp [Request.payload, windowBytes]⟩
  | faultLimits pairs v ma => exact carried_faultLimits pairs v ma
  | watchSet a => exact carried_watchSet a
  | testSet a => exact carried_testSet a
  | noticeEnable kinds sources => exact carried_noticeEnable kinds sources
  | noticeDisable kinds sources => exact carried_noticeDisable kinds sources
  | _ => exact ⟨rfl, rfl, by simp [Request.payload]⟩

/-! ### The lengths that are read (R191) -/

section
variable {pl : List Byte}

@[simp] theorem parseNone_isSome (r : Request) : (parseNone r pl).isSome ↔ pl.length = 0 := by
  rcases pl with _ | ⟨a, _⟩ <;> simp [parseNone]

@[simp] theorem parse1_isSome (f : Byte → Request) : (parse1 f pl).isSome ↔ pl.length = 1 := by
  rcases pl with _ | ⟨a, _ | ⟨b, _⟩⟩ <;> simp [parse1]

@[simp] theorem parse2_isSome (f : Byte → Byte → Request) : (parse2 f pl).isSome ↔ pl.length = 2 := by
  rcases pl with _ | ⟨a, _ | ⟨b, _ | ⟨c, _⟩⟩⟩ <;> simp [parse2]

@[simp] theorem parse3_isSome (f : Byte → Byte → Byte → Request) : (parse3 f pl).isSome ↔ pl.length = 3 := by
  rcases pl with _ | ⟨a, _ | ⟨b, _ | ⟨c, _ | ⟨d, _⟩⟩⟩⟩ <;> simp [parse3]

@[simp] theorem parseLineSet_isSome (f : BitVec 64 → Request) : (parseLineSet f pl).isSome ↔ pl.length = 8 := by
  unfold parseLineSet
  split <;> simp [*]

@[simp] theorem parseProfile_isSome : (parseProfile pl).isSome ↔ pl.length = 29 := by
  refine ⟨fun read => ?_, fun length => ?_⟩
  · unfold parseProfile at read
    split at read
    · rfl
    · cases read
  · obtain ⟨g, rfl⟩ := eq_ofFn_of_length length
    rfl

@[simp] theorem parseLimits_isSome : (parseLimits pl).isSome ↔ pl.length = 11 := by
  have behind : pl.length = 11 ↔ (pl.drop 9).length = 2 := by
    rw [List.length_drop]
    omega
  rw [behind]
  unfold parseLimits
  rcases pl.drop 9 with _ | ⟨a, _ | ⟨b, _ | ⟨c, _⟩⟩⟩ <;> simp

@[simp] theorem parseWatch_isSome : (parseWatch pl).isSome ↔ pl.length = 22 := by
  refine ⟨fun read => ?_, fun length => ?_⟩
  · unfold parseWatch at read
    split at read
    · split at read
      · next length => simp [length]
      · cases read
    · cases read
  · obtain ⟨g, rfl⟩ := eq_ofFn_of_length length
    rfl

@[simp] theorem parseTestSet_isSome : (parseTestSet pl).isSome ↔ pl.length = 8 := by
  refine ⟨fun read => ?_, fun length => ?_⟩
  · unfold parseTestSet at read
    split at read
    · rfl
    · cases read
  · obtain ⟨g, rfl⟩ := eq_ofFn_of_length length
    rfl

@[simp] theorem parsePoints_isSome (f : BitVec 8 → BitVec 145 → Request) :
    (parsePoints f pl).isSome ↔ pl.length = 20 := by
  cases pl with
  | nil => simp [parsePoints]
  | cons kinds set =>
    unfold parsePoints
    split <;> simp [*]

/-- WINDOW_WRITE is two bytes for DEFAULT and 25 for any other window code (R191, R193). -/
@[simp] theorem parseWindow_isSome :
    (parseWindow pl).isSome ↔ if pl.head? = some 8 then pl.length = 2 else pl.length = 25 := by
  refine ⟨fun read => ?_, fun length => ?_⟩
  · unfold parseWindow at read
    split at read
    · split at read
      · next default => simp [default]
      · cases read
    · split at read
      · cases read
      · next other => exact (if_neg (mt Option.some.inj other)).mpr rfl
    · cases read
  · split at length
    · next default =>
      obtain ⟨g, rfl⟩ := eq_ofFn_of_length length
      exact congrArg Option.isSome (if_pos (Option.some.inj default))
    · next other =>
      obtain ⟨g, rfl⟩ := eq_ofFn_of_length length
      exact congrArg Option.isSome (if_neg (mt (congrArg some) other))

end

/-! ### Requests by their types (R191, section 11.6) -/

/-- The payload lengths of the requests 0x01 to 0x1D in turn; of WINDOW_WRITE's two forms, the longer (section 11.6). -/
def requestLengths : List Nat :=
  [8, 8, 3, 2, 1, 1, 30, 1, 1, 2, 0, 25, 1, 2, 0, 1, 11, 22, 1, 2, 1, 8, 0, 2, 20, 20, 0, 0, 0]

/-- The payload has the length of the request that the type names (R191, section 11.6). -/
def lengthFits (type : Byte) (payload : List Byte) : Prop :=
  if type = 0x0C ∧ payload.head? = some 8 then payload.length = 2
  else requestLengths[type.toNat - 1]? = some payload.length

section
variable {type : Byte} {pl : List Byte}

theorem lengthFits_iff : lengthFits type pl ↔
    if type = 0x0C ∧ pl.head? = some 8 then pl.length = 2 else some pl.length = requestLengths[type.toNat - 1]? := by
  rw [lengthFits, eq_comm (a := some pl.length)]

/-- A named request is read exactly when its payload has its length. -/
theorem decodeRequest_of_named (named : 1 ≤ type.toNat ∧ type.toNat ≤ 0x1D) :
    ∃ o, decodeRequest type pl = .ofOption o ∧ (o.isSome ↔ lengthFits type pl) := by
  obtain ⟨low, high⟩ := named
  have number : type = BitVec.ofNat 8 type.toNat := by simp
  generalize type.toNat = k at *
  subst number
  by_cases profile : k = 0x07
  · subst profile
    cases pl with
    | nil => exact ⟨none, rfl, by simp [lengthFits_iff, requestLengths]⟩
    | cons profile rest =>
      exact ⟨(parseProfile rest).map (.profileWrite profile), rfl, by simp [lengthFits_iff, requestLengths]⟩
  · rcases Nat.lt_or_gt_of_ne profile with below | above
    · interval_cases k
      all_goals exact ⟨_, rfl, by simp [lengthFits_iff, requestLengths]⟩
    · interval_cases k
      all_goals exact ⟨_, rfl, by simp [lengthFits_iff, requestLengths]⟩

theorem Decoded.ofOption_ne_unknown (o : Option Request) : Decoded.ofOption o ≠ .unknown := by
  cases o <;> simp [Decoded.ofOption]

theorem Decoded.ofOption_eq_badLength {o : Option Request} : Decoded.ofOption o = .badLength ↔ ¬o.isSome := by
  cases o <;> simp [Decoded.ofOption]

theorem decodeRequest_of_unnamed (unnamed : ¬(1 ≤ type.toNat ∧ type.toNat ≤ 0x1D)) :
    decodeRequest type pl = .unknown := by
  unfold decodeRequest
  split
  case h_30 => rfl
  all_goals omega

theorem decodeRequest_eq_unknown : decodeRequest type pl = .unknown ↔ ¬(1 ≤ type.toNat ∧ type.toNat ≤ 0x1D) := by
  refine ⟨fun unknown named => ?_, decodeRequest_of_unnamed⟩
  obtain ⟨o, read, -⟩ := decodeRequest_of_named (pl := pl) named
  exact Decoded.ofOption_ne_unknown o (read.symm.trans unknown)

theorem decodeRequest_eq_badLength : decodeRequest type pl = .badLength ↔
    (1 ≤ type.toNat ∧ type.toNat ≤ 0x1D) ∧ ¬lengthFits type pl := by
  by_cases named : 1 ≤ type.toNat ∧ type.toNat ≤ 0x1D
  · obtain ⟨o, read, fits⟩ := decodeRequest_of_named (pl := pl) named
    rw [read, Decoded.ofOption_eq_badLength, fits, and_iff_right named]
  · rw [decodeRequest_of_unnamed named]
    simp [named]

end

/-! ### Rows (log 4) -/

/-- A command that brings a request is the good frame of that request's type and payload (log 4). -/
theorem row_of_arrival {c : Byte → Instr} {r : Request} {type : Byte} {payload : List Byte} (isType : r.type = type)
    (isPayload : r.payload = payload) (arrives : ∀ tag s, exec (c tag) s = arriveRequest r tag s) :
    r.type = type ∧ r.payload = payload ∧
      ∀ (tag : Byte) (s : State), exec (c tag) s = exec (.goodFrame type tag payload) s := by
  subst isType isPayload
  exact ⟨rfl, rfl, arrives⟩

end Sys2Proof.Machine
end

section
/-! SUPPORT. Requests and frames, from their bytes to what is read of them (R186 to R188, R191, R193). -/

namespace Sys2Proof.Machine

/-- Settles O55: every request is carried by its frame, its row is that frame's arrival, the length table decides
what is read, and the frames found among characters follow from what stands behind each mark. -/
theorem framesAndRequestsAreReadBack : Obligations.FramesAndRequestsAreReadBack := by
  unfold Obligations.FramesAndRequestsAreReadBack
  refine ⟨fun r named => ⟨(r.carried named).decoded, (r.carried named).fits⟩, ?rows,
    fun type payload => ⟨decodeRequest_eq_unknown, decodeRequest_eq_badLength⟩, scanChars_bytes, Frame.bytes_eq, crc_eq,
    fun cs => ⟨takeFrame_bad_iff, takeFrame_incomplete_iff, fun _ _ => takeFrame_good_iff, rfl,
      fun c other => scanChars_of_skipped other cs, scanChars_of_incomplete, scanChars_of_bad,
      fun _ _ => scanChars_of_good⟩⟩
  case rows =>
    intro row set two four
    have sets (n v : Nat) : setBytes n v = set n v := setBytes_eq n v
    have plain {c : Byte → Instr} {r : Request} {payload : List Byte} (isPayload : r.payload = payload)
        (arrives : ∀ tag s, exec (c tag) s = arriveRequest r tag s) : row c r r.type payload :=
      row_of_arrival rfl isPayload arrives
    refine ⟨fun lines => plain (sets 8 _) fun _ _ => rfl, fun lines => plain (sets 8 _) fun _ _ => rfl,
      fun x y z => plain rfl fun _ _ => rfl, fun x y => plain rfl fun _ _ => rfl, fun x => plain rfl fun _ _ => rfl,
      fun x => plain rfl fun _ _ => rfl, fun x a => plain rfl fun _ _ => rfl, fun x => plain rfl fun _ _ => rfl,
      fun x => plain rfl fun _ _ => rfl, fun x => plain rfl fun _ _ => rfl, fun x => plain rfl fun _ _ => rfl,
      plain rfl fun _ _ => rfl, fun x => plain rfl fun _ _ => rfl, fun x a => plain ?window fun _ _ => rfl,
      fun x => plain rfl fun _ _ => rfl, fun x y => plain rfl fun _ _ => rfl, plain rfl fun _ _ => rfl,
      fun x => plain rfl fun _ _ => rfl, fun pairs x y => plain ?limits fun _ _ => rfl,
      fun a => plain ?watch fun _ _ => rfl, fun x => plain rfl fun _ _ => rfl, fun x y => plain rfl fun _ _ => rfl,
      fun x => plain rfl fun _ _ => rfl, fun a => plain rfl fun _ _ => rfl, plain rfl fun _ _ => rfl,
      fun x y => plain rfl fun _ _ => rfl, fun kinds sources => plain ?points fun _ _ => rfl,
      fun kinds sources => plain ?points' fun _ _ => rfl, plain rfl fun _ _ => rfl, plain rfl fun _ _ => rfl,
      plain rfl fun _ _ => rfl⟩
    case window => simp [Request.payload, windowBytes]
    case limits => exact congrArg (· ++ [x, y]) (sets 9 _)
    case watch => rw [← sets]; rfl
    case points => exact congrArg (kinds :: ·) (sets 19 _)
    case points' => exact congrArg (kinds :: ·) (sets 19 _)

end Sys2Proof.Machine
end

section
/-! SUPPORT. Characters and frames on the link: what the part hears, what it keeps of a good frame, and when a request
waits (R188 to R192, R196). -/

namespace Sys2Proof.Machine

section
variable {s : State} {f : Frame}

theorem State.deaf_iff : s.deaf = true ↔ ∃ f, s.link.inFlight = some f ∧ f.type = 0x9D ∧ f.payload = [0] := by
  unfold State.deaf
  cases s.link.inFlight with
  | none => simp
  | some g => simp [isResetReply_iff]

/-! ### Good frames (R190) -/

theorem isRequestType_iff {type : Byte} : isRequestType type = true ↔ 1 ≤ type.toNat ∧ type.toNat ≤ 0x3F := by
  rw [isRequestType, Bool.and_eq_true, decide_eq_true_iff, decide_eq_true_iff]

/-- A good frame joins the inbox: its type is a request's, and the inbox has room (R190). -/
def State.Keeps (s : State) (f : Frame) : Prop := 1 ≤ f.type.toNat ∧ f.type.toNat ≤ 0x3F ∧ s.link.inbox.length < 4

theorem State.deliver_guard :
    (isRequestType f.type && decide (s.link.inbox.length < Config.inboxMax)) = true ↔ s.Keeps f := by
  rw [Bool.and_eq_true, isRequestType_iff, decide_eq_true_iff, State.Keeps, and_assoc]
  rfl

theorem State.submit_of_kept (kept : s.Keeps f) :
    s.submit f = State.serve { s with link := { s.link with inbox := s.link.inbox ++ [f] } } := by
  rw [State.submit, State.deliver, if_pos (State.deliver_guard.mpr kept)]

theorem State.submit_of_discarded (discarded : ¬s.Keeps f) : s.submit f = s.serve := by
  rw [State.submit, State.deliver, if_neg (mt State.deliver_guard.mp discarded)]

/-- A kept request that must wait only joins the inbox (R190, R191). -/
theorem State.submit_of_kept_waits (kept : s.Keeps f) (waits : s.Waits) :
    s.submit f = State.choose { s with link := { s.link with inbox := s.link.inbox ++ [f] } } :=
  (State.submit_of_kept kept).trans (State.serve_of_waits (.inr waits))

theorem State.submit_of_discarded_idle (discarded : ¬s.Keeps f) (idle : s.link.inbox = [] ∨ s.Waits) :
    s.submit f = s.choose :=
  (State.submit_of_discarded discarded).trans (State.serve_of_waits idle)

/-! ### Arrival (R188, R196) -/

theorem State.receiveFrame_of_deaf (deaf : s.deaf = true) (f : Frame) : s.receiveFrame f = s := by
  rw [State.receiveFrame, deaf]
  rfl

theorem State.receiveFrame_of_hearing (hearing : s.deaf = false) (fits : f.payload.length ≤ 250) :
    s.receiveFrame f = s.heard.submit f := by
  rw [State.receiveFrame, hearing, decide_eq_false (show ¬Config.payloadMax < _ from Nat.not_lt.mpr fits)]
  rfl

theorem exec_receivedCharacter_of_deaf (deaf : s.deaf = true) (c : Byte) :
    exec (.receivedCharacter c) s = .next s.choose := by
  show execReceivedCharacter c s = _
  rw [execReceivedCharacter, if_pos deaf]

theorem exec_badFrame_of_deaf (deaf : s.deaf = true) (chars : List Byte) :
    exec (.badFrame chars) s = .next s.choose := by
  show execBadFrame chars s = _
  rw [execBadFrame, if_pos deaf]

theorem exec_receivedCharacter_of_hearing (hearing : s.deaf = false) (c : Byte) :
    exec (.receivedCharacter c) s = .next (State.choose (State.receiveChars
      { s with link := { s.link with lastChar := s.now } }
      ((if s.gapPassed then [] else s.link.collected) ++ [c]))) := by
  show execReceivedCharacter c s = _
  rw [execReceivedCharacter, hearing]
  rfl

theorem exec_badFrame_of_hearing (hearing : s.deaf = false) (chars : List Byte) :
    exec (.badFrame chars) s = .next (State.choose (State.receiveChars
      { s with link := { s.link with lastChar := s.now } } (0xC3 :: chars))) := by
  show execBadFrame chars s = _
  rw [execBadFrame, hearing]
  rfl

end

/-! ### Executions (R191, R196) -/

section
variable {s : State} {f : Frame}

/-- A frame whose type names no request is answered UNKNOWN (R191). -/
theorem State.executeFrame_of_unknown (unknown : decodeRequest f.type f.payload = .unknown) :
    s.executeFrame f = s.pushReply ⟨f.type + 0x80, f.tag, [9]⟩ := by
  rw [State.executeFrame, State.perform, unknown]
  rfl

/-- A frame whose payload has a wrong length is answered BAD_ARG (R191). -/
theorem State.executeFrame_of_badLength (badLength : decodeRequest f.type f.payload = .badLength) :
    s.executeFrame f = s.pushReply ⟨f.type + 0x80, f.tag, [3]⟩ := by
  rw [State.executeFrame, State.perform, badLength]
  rfl

end

/-- Settles O54: the framer's characters case by case, what becomes of a good frame by its type, the inbox and the reply
queue, and the executions that answer without a request. -/
theorem charactersAndFramesArrive : Obligations.CharactersAndFramesArrive := by
  unfold Obligations.CharactersAndFramesArrive
  intro s open_ late taken
  refine ⟨State.deaf_iff, fun _ => rfl, fun f => ⟨State.submit_of_kept, State.submit_of_discarded⟩, rfl, rfl,
    fun c cs hearing examined => ?character, fun c deaf => exec_receivedCharacter_of_deaf deaf c, scanChars_single,
    fun chars => ⟨fun deaf => exec_badFrame_of_deaf deaf chars, fun hearing => exec_badFrame_of_hearing hearing chars,
      scanChars_of_bad⟩,
    fun type tag payload fits => ?frame,
    fun tag ready => arriveRequest_accepted ready (Request.carried .partReset nofun) rfl⟩
  case character =>
    have chars : (if s.gapPassed then [] else s.link.collected) ++ [c] = cs := by
      rcases examined with ⟨isLate, rfl⟩ | ⟨notLate, rfl⟩
      · rw [if_pos (s.gapPassed_iff.mpr isLate)]; rfl
      · rw [if_neg (mt s.gapPassed_iff.mp notLate)]
    rw [exec_receivedCharacter_of_hearing hearing, chars]
    rfl
  case frame =>
    intro f request waits
    have heardWaits : waits → s.heard.Waits := id
    have arrives (hearing : s.deaf = false) {t : State} (submitted : s.heard.submit f = t.choose) :
        exec (.goodFrame type tag payload) s = .next t.choose := by
      show Host.Outcome.next (s.receiveFrame f).choose = _
      rw [State.receiveFrame_of_hearing hearing fits, submitted, State.choose_choose]
    have executed (ready : s.ready) (isRequest : request) :
        (s.receiveFrame f).choose = (s.heard.executeFrame f).choose :=
      State.receiveFrame_ready ready f (isRequestType_iff.mpr isRequest) fits
    have lost (deaf : s.deaf = true) :
        (Host.Outcome.next (s.receiveFrame f).choose : Host.Outcome State Fault Refusal) = .next s.choose := by
      rw [State.receiveFrame_of_deaf deaf]
    refine ⟨fun deaf => ⟨lost deaf, lost deaf⟩, fun hearing noRequest idle => ?noRequest,
      fun hearing isRequest isWaiting => ⟨fun full => ?full, fun room => ?room⟩,
      fun ready isRequest => congrArg _ (executed ready isRequest), fun ready low high => ?unknown,
      State.executeFrame_of_unknown (f := f), State.executeFrame_of_badLength (f := f)⟩
    case noRequest =>
      have discarded : ¬s.heard.Keeps f := fun kept => noRequest ⟨kept.1, kept.2.1⟩
      exact arrives hearing (State.submit_of_discarded_idle discarded idle.symm)
    case full =>
      have discarded : ¬s.heard.Keeps f := fun kept => Nat.not_lt.mpr full kept.2.2
      exact arrives hearing (State.submit_of_discarded_idle discarded (.inr (heardWaits isWaiting)))
    case room =>
      exact arrives hearing (State.submit_of_kept_waits ⟨isRequest.1, isRequest.2, room⟩ (heardWaits isWaiting))
    case unknown =>
      refine congrArg Host.Outcome.next ((executed ready ⟨by omega, high⟩).trans ?_)
      have unnamed : ¬(1 ≤ type.toNat ∧ type.toNat ≤ 0x1D) := fun named => Nat.not_lt.mpr named.2 low
      rw [State.executeFrame_of_unknown (f := f) (decodeRequest_of_unnamed unnamed)]
      rfl

end Sys2Proof.Machine
end

section
/-! SUPPORT. What every step keeps of the test queue, the wanted set and the standing of the lines (R4, R55, R153,
R155 to R157). -/

namespace Sys2Proof.Machine

/-! ### The test queue and the wanted set -/

/-- A change that leaves the test bus alone keeps the queue and the wanted set in order. -/
theorem State.TestsOk.of_bus {s t : State} (h : s.TestsOk) (bus : t.bus = s.bus) : t.TestsOk :=
  h.congr (by rw [bus]) (by rw [bus]) fun p onBus => by
    rw [State.onBus_eq] at onBus ⊢
    rwa [bus] at onBus

theorem State.TestsOk.of_samePool {s t : State} (h : s.TestsOk) (same : SamePool s t) : t.TestsOk :=
  h.of_bus same.bus

theorem State.TestsOk.of_sameStore {s t : State} (h : s.TestsOk) (same : SameStore s t) : t.TestsOk :=
  h.of_bus (by rw [same.eq])

/-- After a reset no test is queued, wanted or on the bus (R153). -/
theorem State.TestsOk.of_initial {s : State} (bus : s.bus = .initial) : s.TestsOk := by
  have empty : s.bus.queue = [] := by rw [bus]; rfl
  have unwanted (p : PairNo) : s.bus.wanted[p] = none := by simp [bus, TestBus.initial]
  refine ⟨by simp [empty], by simp [empty], by simp [empty], fun p h => absurd (unwanted p) h⟩

/-- The elementary changes of a step keep the queue and the wanted set in order: those of the test bus by their rules,
every other one because it leaves the bus alone. -/
theorem testsOk_closed : ClosedStep State.TestsOk where
  want _ p h := h.want p
  withdraw _ p h := h.withdraw p
  bus _ b queue wanted run h := h.bus b queue wanted run
  free _ h := h.free
  occupy _ e idle mem h r pair := h.occupy e idle mem r pair
  order _ p k tag off room h := h.order p k tag off room
  cancel _ _ _ h := h.removeEntry _
  unwant _ p h := h.unwant p
  reset _ _ _ _ _ := .of_initial rfl
  line _ _ _ _ h := h.of_bus rfl
  raise _ src k t h := h.of_sameStore (sameStore_raise ⟨rfl⟩ src k t)
  arrive s r h := h.of_sameStore (sameStore_arrive s r)
  request s n h := h.of_samePool (samePool_requestDetector s n)
  drop s n h := h.of_samePool (samePool_dropDetector s n)
  out s d h := h.of_samePool (samePool_serviceOut s d)
  back s d h := h.of_samePool (samePool_serviceIn s d)
  overrun _ _ _ h := h.of_bus rfl
  dropPending s n h := h.of_sameStore (sameStore_dropPending s n)
  take s i sl _ h := h.of_sameStore (sameStore_takeSlot s i sl)
  record _ _ _ h := h.of_bus rfl
  answered _ _ h := h.of_bus rfl
  fault _ _ _ h := h.of_bus rfl
  binder _ _ _ h := h.of_bus rfl
  scan _ _ h := h.of_bus rfl
  watch _ _ h := h.of_bus rfl
  profile _ _ _ _ _ h := h.of_bus rfl
  window _ _ _ _ _ h := h.of_bus rfl
  defaultClass _ _ h := h.of_bus rfl
  routes _ _ h := h.of_bus rfl
  enable s k x h := h.of_bus (s.bus_enablePoints k x)
  disable s k x h := h.of_bus (s.bus_disablePoints k x)
  takeEntry _ _ _ h := h.of_bus rfl
  ordered _ h := h.of_bus rfl
  link _ _ h := h.of_bus rfl
  now _ _ h := h.of_bus rfl
  queue _ _ _ h := h.of_bus rfl

/-! ### The standing of the lines -/

section
variable {s t : State}

/-- An expiry that leaves the standing of the lines when it is taken leaves it at any time. -/
theorem SameTest.whenDue (timer : Option Time) {act : Time → State} (h : ∀ e, SameTest s (act e)) :
    SameTest s (s.whenDue timer act) := by
  unfold State.whenDue
  split
  · split
    · exact h _
    · exact .refl s
  · exact .refl s

/-- The expiry of a line's timer: taken where its phase lists it, or else the timer only stops. -/
theorem SameTest.expiry {listed : Prop} [Decidable listed] {timer : Option Time} {act : Time → State} {n : LineNo}
    {stop : Line → Line} (stops : ∀ l, (stop l).standing = l.standing) (taken : listed → ∀ e, SameTest s (act e)) :
    SameTest s (s.whenDue timer fun e => if listed then act e else s.modLine n stop) :=
  .whenDue _ fun e => by
    split
    · rename_i h
      exact taken h e
    · exact (SameTest.refl s).mod (stops _)

/-- The end of an event keeps the lines in order: the look by its claim, the choice because it is the link's. -/
theorem State.LinesOk.finish (h : s.LinesOk) : s.finish.LinesOk := linesOk_closedLink.choose h.look

/-- An event that leaves the standing of the lines, with its end. -/
theorem State.LinesOk.event (h : s.LinesOk) (same : SameTest s t) : t.finish.LinesOk := (h.same same).finish

theorem State.LinesOk.readingTimeout (h : s.LinesOk) (timer : Option Time) :
    (s.whenDue timer fun _ => match s.bus.run with
      | some r => s.endTest r (.aborted .busTimeout)
      | none => s).LinesOk := by
  unfold State.whenDue
  split
  · split
    · split
      · exact h.endTest _ _ (by simp [*])
      · exact h
    · exact h
  · exact h

/-- Every command keeps the lines in order: a test's end by its rule, what the link brings by that of the requests, and
every other command because it leaves the standing of every line. -/
theorem State.LinesOk.exec {c : Instr} (h : s.LinesOk) (run : Machine.exec c s = .next t) : t.LinesOk := by
  have k := linesOk_closedLink
  have same := SameTest.refl s
  cases c
  case powerOnReset => cases run; exact k.choose (k.reset s _ _ s.raceCount h)
  case resetPin => cases run; exact k.choose (k.reset s _ _ s.raceCount h)
  case pass =>
    cases run
    refine h.event ?_
    split
    · exact same.beginPass
    · exact same
  case sampleReply => cases run; exact h.event (same.takeReply _)
  case settleExpiry =>
    cases run
    exact h.event (.expiry (fun _ => rfl) fun settling e => same.settleLine e (by simp [Line.active, settling]))
  case seizeExpiry =>
    cases run
    exact h.event (.expiry (fun _ => rfl) fun seizing e => same.seizeLine e (by simp [Line.active, seizing]))
  case firstDigitExpiry =>
    cases run
    exact h.event (.expiry (fun _ => rfl) fun seized e => same.permanentLoop e (Line.active_of_phase seized))
  case release =>
    cases run
    exact h.event (.expiry (fun _ => rfl) fun opened e => same.releaseLine e (by simp [Line.active, opened]))
  case gapExpiry =>
    cases run
    exact h.event (.expiry (fun _ => rfl) fun pulsing _ => same.completePulse (Line.active_of_phase pulsing))
  case collectExpiry =>
    cases run
    exact h.event (.expiry (fun _ => rfl) fun dialling e =>
      same.collectTimeout e (dialling.elim Line.active_of_phase Line.active_of_phase))
  case learnExpiry =>
    cases run
    exact h.event (.whenDue _ fun _ => same.mod (Line.standing_learnOverflow _))
  case toneOnset => cases run; exact h.event (same.takeOnset _ _)
  case toneOffset => cases run; exact h.finish
  case sustainExpiry => cases run; exact h.event (.whenDue _ fun _ => same.sustainEnd _)
  case guardExpiry => cases run; exact h.event (.whenDue _ fun _ => same.guardEnd _)
  case holdExpiry => cases run; exact h.event (.whenDue _ fun _ => same.endHold _)
  case quietExpiry =>
    cases run
    refine h.event (.whenDue _ fun _ => ?_)
    split
    · exact same.sendRead _ (by simp [*])
    · exact same
  case reading => cases run; exact (h.takeReading _).finish
  case readingTimeout => cases run; exact (h.readingTimeout _).finish
  case characterError => cases run; exact k.choose (k.link _ _ h)
  case characterGap => cases run; exact k.choose (k.link _ _ h)
  case badFrame =>
    cases run
    refine k.choose ?_
    split
    · exact h
    · exact k.receiveChars _ (k.link _ _ h)
  case frameSent =>
    cases run
    split
    · exact k.frameEnd _ h
    · exact k.choose h
  case receivedCharacter =>
    cases run
    refine k.choose ?_
    split
    · exact h
    · exact k.receiveChars _ (k.link _ _ h)
  all_goals cases run; exact k.arrival _ h

/-- The part's own clock changes no line and no occupant of the bus. -/
theorem sameTest_tick (s : State) : SameTest s s.tick := by
  unfold State.tick
  split
  all_goals exact (SameTest.refl s).same rfl rfl

theorem State.LinesOk.step (h : s.LinesOk) (stepped : Machine.step s = .next t) : t.LinesOk := by
  unfold Machine.step at stepped
  split at stepped
  · cases stepped
    exact h.same (sameTest_tick s)
  · refine State.LinesOk.exec ?_ stepped
    exact h.same ((SameTest.refl s).same rfl rfl)

end

/-- Settles O59: the elementary changes keep the queue and the wanted set in order, and every command the lines. -/
theorem stepKeepsTestsOk : Obligations.StepKeepsTestsOk := by
  unfold Obligations.StepKeepsTestsOk
  exact fun _ _ stepped => ⟨fun tests => testsOk_closed.step tests stepped, fun lines => lines.step stepped⟩

end Sys2Proof.Machine
end

section
/-! SUPPORT. What every step keeps of the link, the pending notices, the profiles and the windows (R13, R98, R100,
R171, R172, R174, R178, R190 to R192, R196). -/

namespace Sys2Proof.Machine

variable {s t : State}

/-! ### The pending notices -/

/-- A change that leaves the notices alone keeps their order. -/
theorem State.NoticesOk.of_notices (h : s.NoticesOk) (notices : t.notices = s.notices) : t.NoticesOk :=
  h.congr (by rw [notices]) (by rw [notices])

theorem State.NoticesOk.of_samePool (h : s.NoticesOk) (same : SamePool s t) : t.NoticesOk :=
  h.of_notices same.notices

theorem State.NoticesOk.of_sameBus (h : s.NoticesOk) (same : SameBus s t) : t.NoticesOk :=
  h.of_notices (by rw [same.eq])

theorem State.NoticesOk.admitRecord (h : s.NoticesOk) (r : DialRecord) : (s.admitRecord r).NoticesOk := by
  unfold State.admitRecord
  split
  · exact h
  · refine State.NoticesOk.raise ?_ _ _ _
    exact h.of_notices rfl

/-- A closure arrival raises at most one notice (R117, R118). -/
theorem State.NoticesOk.arrive (h : s.NoticesOk) (r : DialRecord) : (s.arrive r).NoticesOk := by
  unfold State.arrive
  split
  · refine State.NoticesOk.raise ?_ _ _ _
    exact h.of_notices rfl
  · split
    · exact h.admitRecord r
    · exact h.of_notices rfl

/-- A take raises at most the RECORD of the record that waited (R123). -/
theorem State.NoticesOk.takeSlot (h : s.NoticesOk) (i : Fin 16) (sl : Slot) : (s.takeSlot i sl).NoticesOk := by
  have freed : (s.freed i sl).NoticesOk := h.of_notices (s.notices_freed i sl)
  rw [State.takeSlot_eq]
  unfold State.admitWaiting
  split
  · exact freed
  · split
    · refine State.NoticesOk.admitRecord ?_ _
      exact freed.of_notices rfl
    · exact freed

/-- After a reset nothing is pending and every notice point is enabled (R183). -/
theorem State.NoticesOk.of_initial (notices : s.notices = .initial) : s.NoticesOk := by
  have empty : s.notices.entries = [] := by rw [notices]; rfl
  have points (pos : Fin 145) (k : Fin 8) : s.notices.enabled[pos][k] = isNoticePoint pos k := by
    simp [notices, Notices.initial]
  refine ⟨by simp [empty], by simp [empty], by simp [empty], by simp [empty], fun pos k h => ?_⟩
  rwa [points] at h

/-- The elementary changes of a step keep the pending set: raises, takings and changes of the enable set by their rules,
every other one because it leaves the notices alone. -/
theorem noticesOk_closed : ClosedStep State.NoticesOk where
  raise _ src k t h := h.raise src k t
  arrive _ r h := h.arrive r
  take _ i sl _ h := h.takeSlot i sl
  enable _ k x h := h.enablePoints k x
  disable _ k x h := h.disablePoints k x
  takeEntry _ c e h := h.takeEntry c e
  reset _ _ _ _ _ := .of_initial rfl
  routes _ _ h := h.congr rfl rfl
  request s n h := h.of_samePool (samePool_requestDetector s n)
  drop s n h := h.of_samePool (samePool_dropDetector s n)
  out s d h := h.of_samePool (samePool_serviceOut s d)
  back s d h := h.of_samePool (samePool_serviceIn s d)
  want s p h := h.of_sameBus (sameBus_want s p)
  withdraw s p h := h.of_sameBus (sameBus_withdraw s p)
  order s p k tag _ _ h := h.of_sameBus (sameBus_orderTest s p k tag)
  cancel s p _ h := h.of_sameBus (sameBus_removeEntry s fun e => decide (e.pair = p))
  occupy s e _ _ h _ _ := (h.of_sameBus (sameBus_removeEntry s fun x => decide (x = e))).of_notices rfl
  line _ _ _ _ h := h.of_notices rfl
  record _ _ _ h := h.of_notices rfl
  answered _ _ h := h.of_notices rfl
  fault _ _ _ h := h.of_notices rfl
  binder _ _ _ h := h.of_notices rfl
  overrun _ _ _ h := h.of_notices rfl
  dropPending _ _ h := h.of_notices rfl
  bus _ _ _ _ _ h := h.of_notices rfl
  free _ h := h.of_notices rfl
  unwant _ _ h := h.of_notices rfl
  scan _ _ h := h.of_notices rfl
  watch _ _ h := h.of_notices rfl
  profile _ _ _ _ _ h := h.of_notices rfl
  window _ _ _ _ _ h := h.of_notices rfl
  defaultClass _ _ h := h.of_notices rfl
  ordered _ h := h.of_notices rfl
  link _ _ h := h.of_notices rfl
  now _ _ h := h.of_notices rfl
  queue _ _ _ h := h.of_notices rfl

/-! ### The profiles and the windows -/

theorem State.TablesOk.of_samePool (h : s.TablesOk) (same : SamePool s t) : t.TablesOk :=
  h.congr same.profiles (by rw [same.windows])

theorem State.TablesOk.of_sameStore (h : s.TablesOk) (same : SameStore s t) : t.TablesOk :=
  h.congr (by rw [same.eq]) (by rw [same.eq])

theorem State.TablesOk.of_sameBus (h : s.TablesOk) (same : SameBus s t) : t.TablesOk :=
  h.congr (by rw [same.eq]) (by rw [same.eq])

/-- The default profile and the window after reset have the relations (R13, R98). -/
theorem State.TablesOk.of_initial (profiles : s.profiles = .replicate 8 .default)
    (windows : s.windows.table = .replicate 8 .initial) : s.TablesOk := by
  have profile (f : Fin 8) : s.profiles[f] = .default := by simp [profiles]
  have window (i : Fin 8) : s.windows.table[i] = .initial := by simp [windows]
  refine ⟨fun f => ?_, fun f => ?_, fun f => ?_, fun f => ?_, fun i => ?_, fun i n rule => ?_⟩
  · rw [profile]; decide
  · rw [profile]; decide
  · rw [profile]; decide
  · rw [profile]; decide
  · rw [window]; decide
  · rw [window] at rule; cases rule

/-- The elementary changes of a step keep the relations of both tables: a write because its request checks it, every
other change because it leaves the tables alone. -/
theorem tablesOk_closed : ClosedStep State.TablesOk where
  profile _ f _ _ arg h := h.setProfile f (ok_of_profileArg arg)
  window _ i _ _ arg h := h.setWindow i (window_of_windowArg arg)
  defaultClass _ _ h := h.congr rfl rfl
  reset _ _ _ _ _ := .of_initial rfl rfl
  raise _ src k t h := h.of_sameStore (sameStore_raise ⟨rfl⟩ src k t)
  arrive s r h := h.of_sameStore (sameStore_arrive s r)
  take s i sl _ h := h.of_sameStore (sameStore_takeSlot s i sl)
  dropPending s n h := h.of_sameStore (sameStore_dropPending s n)
  request s n h := h.of_samePool (samePool_requestDetector s n)
  drop s n h := h.of_samePool (samePool_dropDetector s n)
  out s d h := h.of_samePool (samePool_serviceOut s d)
  back s d h := h.of_samePool (samePool_serviceIn s d)
  want s p h := h.of_sameBus (sameBus_want s p)
  withdraw s p h := h.of_sameBus (sameBus_withdraw s p)
  order s p k tag _ _ h := h.of_sameBus (sameBus_orderTest s p k tag)
  cancel s p _ h := h.of_sameBus (sameBus_removeEntry s fun e => decide (e.pair = p))
  occupy s e _ _ h _ _ := (h.of_sameBus (sameBus_removeEntry s fun x => decide (x = e))).congr rfl rfl
  enable s k x h := h.congr (s.profiles_enablePoints k x) (by rw [s.windows_enablePoints k x])
  disable s k x h := h.congr (s.profiles_disablePoints k x) (by rw [s.windows_disablePoints k x])
  line _ _ _ _ h := h.congr rfl rfl
  record _ _ _ h := h.congr rfl rfl
  answered _ _ h := h.congr rfl rfl
  fault _ _ _ h := h.congr rfl rfl
  binder _ _ _ h := h.congr rfl rfl
  overrun _ _ _ h := h.congr rfl rfl
  bus _ _ _ _ _ h := h.congr rfl rfl
  free _ h := h.congr rfl rfl
  unwant _ _ h := h.congr rfl rfl
  scan _ _ h := h.congr rfl rfl
  watch _ _ h := h.congr rfl rfl
  routes _ _ h := h.congr rfl rfl
  takeEntry _ _ _ h := h.congr rfl rfl
  ordered _ h := h.congr rfl rfl
  link _ _ h := h.congr rfl rfl
  now _ _ h := h.congr rfl rfl
  queue _ _ _ h := h.congr rfl rfl

/-! ### The link -/

/-- The bounds are about the inbox, the replies, the frame in flight and the ordered reset alone. -/
theorem State.LinkOk.congr (h : s.LinkOk) (inbox : t.link.inbox = s.link.inbox) (replies : t.link.replies = s.link.replies)
    (inFlight : t.link.inFlight = s.link.inFlight) (ordered : t.link.resetOrdered = s.link.resetOrdered) : t.LinkOk := by
  refine ⟨?_, ?_, ?_, ?_⟩
  · rw [inbox]; exact h.inbox
  · rw [replies]; exact h.replies
  · rw [inFlight, replies]; exact h.idle
  · rw [inbox, replies, ordered]; exact h.waits

theorem State.LinkOk.of_link (h : s.LinkOk) (link : t.link = s.link) : t.LinkOk :=
  h.congr (by rw [link]) (by rw [link]) (by rw [link]) (by rw [link])

theorem State.LinkOk.fits (h : s.LinkOk) : s.link.Fits := ⟨h.inbox, h.replies, h.idle⟩

/-- After a reset no frame waits (R197). -/
theorem State.LinkOk.of_initial {cause : ResetCause} {straps : Straps} (link : s.link = .initial cause straps) : s.LinkOk := by
  refine ⟨?_, ?_, fun _ => ?_, fun waits => absurd ?_ waits⟩
  all_goals rw [link]
  · exact Nat.zero_le 4
  · exact Nat.zero_le 4
  all_goals rfl

/-- A choice that finds the bounds leaves every reply where it is: an idle transmitter has none, and a busy one chooses
nothing (R178). -/
theorem State.LinkOk.replies_choose (h : s.LinkOk) : s.choose.link.replies = s.link.replies := by
  cases inFlight : s.link.inFlight with
  | some _ => rw [State.choose_busy (by rw [inFlight]; rfl)]
  | none =>
    obtain ⟨-, -, same | ⟨r, taken⟩, -⟩ := s.choose_link
    · exact same
    · rw [h.idle inFlight] at taken
      cases taken

theorem State.LinkOk.choose (h : s.LinkOk) : s.choose.LinkOk := by
  obtain ⟨inbox, ordered, -, idle⟩ := s.choose_link
  refine ⟨?_, ?_, idle, ?_⟩
  · rw [inbox]; exact h.inbox
  · rw [h.replies_choose]; exact h.replies
  · rw [inbox, h.replies_choose, ordered]; exact h.waits

/-- An event that leaves the link alone, with its end: the look touches no link, and the choice keeps the bounds. -/
theorem State.LinkOk.event (h : s.LinkOk) (link : t.link = s.link) : t.finish.LinkOk :=
  (h.of_link (t.link_look.trans link)).choose

theorem State.link_whenDue (timer : Option Time) {act : Time → State} (h : ∀ e, (act e).link = s.link) :
    (s.whenDue timer act).link = s.link := by
  unfold State.whenDue
  split
  · split
    · exact h _
    · rfl
  · rfl

/-- The expiry of a line's timer: taken where its phase lists it, or else the timer only stops. -/
theorem State.link_expiry {listed : Prop} [Decidable listed] {timer : Option Time} {act : Time → State} {n : LineNo}
    {stop : Line → Line} (taken : ∀ e, (act e).link = s.link) :
    (s.whenDue timer fun e => if listed then act e else s.modLine n stop).link = s.link :=
  s.link_whenDue timer fun e => by
    split
    · exact taken e
    · rfl

theorem State.link_beginPass (s : State) : s.beginPass.link = s.link := by
  obtain ⟨_, pass, -⟩ := s.beginPass_effect
  rw [pass]
  show s.noResponses.link = s.link
  unfold State.noResponses
  exact (linkStays_closed s.link).noResponses rfl

/-- A good frame joins an inbox with room, and what it allows is executed (R190, R191). -/
theorem State.LinkOk.submit (h : s.LinkOk) (f : Frame) : (s.submit f).LinkOk := by
  by_cases kept : s.Keeps f
  · rw [State.submit_of_kept kept]
    obtain ⟨-, -, room⟩ := kept
    refine State.serve_ok ⟨?_, h.replies, h.idle⟩
    show (s.link.inbox ++ [f]).length ≤ 4
    rw [List.length_append, List.length_singleton]
    exact room
  · rw [State.submit_of_discarded kept]
    exact State.serve_ok h.fits

theorem State.LinkOk.setCollected (h : s.LinkOk) (cs : List Byte) : (s.setCollected cs).LinkOk :=
  h.congr rfl rfl rfl rfl

theorem State.LinkOk.setLastChar (h : s.LinkOk) (x : Time) :
    State.LinkOk { s with link := { s.link with lastChar := x } } :=
  h.congr rfl rfl rfl rfl

theorem State.LinkOk.receiveFrame (h : s.LinkOk) (f : Frame) : (s.receiveFrame f).LinkOk := by
  unfold State.receiveFrame
  split
  · exact h
  · exact (h.setCollected []).submit f

theorem State.LinkOk.receiveChars (h : s.LinkOk) (cs : List Byte) : (s.receiveChars cs).LinkOk :=
  foldl_keeps (P := State.LinkOk) (fun _ f h => h.submit f) _ (h.setCollected _)

/-- The end of a frame: a reset, or a choice of the idle transmitter behind which executions go on (R178, R191, R196). -/
theorem State.LinkOk.frameEnd (h : s.LinkOk) (f : Frame) : (s.frameEnd f).LinkOk := by
  unfold State.frameEnd
  split
  · exact State.LinkOk.choose (.of_initial rfl)
  · exact State.serve_ok (State.choose_fits h.inbox h.replies)

/-- Every command keeps the bounds: the events of the other blocks leave the link alone, and what arrives or ends on the
link goes by the rules above. -/
theorem State.LinkOk.exec {c : Instr} (h : s.LinkOk) (run : Machine.exec c s = .next t) : t.LinkOk := by
  have k := linkStays_closed s.link
  cases c
  case powerOnReset => cases run; exact State.LinkOk.choose (.of_initial rfl)
  case resetPin => cases run; exact State.LinkOk.choose (.of_initial rfl)
  case pass =>
    cases run
    refine h.event ?_
    split
    · exact s.link_beginPass
    · rfl
  case sampleReply => cases run; exact h.event (k.takeReply _ rfl)
  case settleExpiry => cases run; exact h.event (State.link_expiry fun e => k.settleLine _ e rfl)
  case seizeExpiry => cases run; exact h.event (State.link_expiry fun e => k.seizeLine _ e rfl)
  case firstDigitExpiry => cases run; exact h.event (State.link_expiry fun e => k.permanentLoop _ e rfl)
  case release => cases run; exact h.event (State.link_expiry fun e => k.releaseLine _ e rfl)
  case gapExpiry => cases run; exact h.event (State.link_expiry fun _ => k.completePulse _ rfl)
  case collectExpiry => cases run; exact h.event (State.link_expiry fun e => k.collectTimeout _ e rfl)
  case learnExpiry => cases run; exact h.event (State.link_whenDue _ fun _ => rfl)
  case toneOnset => cases run; exact h.event (k.takeOnset _ _ rfl)
  case toneOffset => cases run; exact h.event rfl
  case sustainExpiry => cases run; exact h.event (State.link_whenDue _ fun _ => k.sustainEnd _ rfl)
  case guardExpiry => cases run; exact h.event (State.link_whenDue _ fun _ => k.guardEnd _ rfl)
  case holdExpiry => cases run; exact h.event (State.link_whenDue _ fun _ => k.endHold _ rfl)
  case quietExpiry =>
    cases run
    refine h.event (State.link_whenDue _ fun _ => ?_)
    split
    · rfl
    · rfl
  case reading => cases run; exact h.event (k.takeReading _ rfl)
  case readingTimeout =>
    cases run
    refine h.event (State.link_whenDue _ fun _ => ?_)
    split
    · exact k.endTest _ _ (by simp [*]) rfl
    · rfl
  case characterError => cases run; exact (h.setCollected []).choose
  case characterGap => cases run; exact (h.setCollected []).choose
  case badFrame =>
    cases run
    refine State.LinkOk.choose ?_
    split
    · exact h
    · exact (h.setLastChar s.now).receiveChars _
  case frameSent =>
    cases run
    split
    · exact h.frameEnd _
    · exact h.choose
  case receivedCharacter =>
    cases run
    refine State.LinkOk.choose ?_
    split
    · exact h
    · exact (h.setLastChar s.now).receiveChars _
  all_goals cases run; exact (h.receiveFrame _).choose

theorem State.LinkOk.step (h : s.LinkOk) (stepped : Machine.step s = .next t) : t.LinkOk := by
  cases pending : s.pending with
  | nil =>
    rw [step_of_empty_queue pending] at stepped
    cases stepped
    unfold State.tick
    split
    all_goals exact h.of_link rfl
  | cons c rest =>
    rw [step_of_front pending] at stepped
    refine State.LinkOk.exec ?_ stepped
    exact h.of_link rfl

/-- Settles O56: the elementary changes keep the notices and the tables in order, and every command the link. -/
theorem stepKeepsLinkNoticesAndTablesOk : Obligations.StepKeepsLinkNoticesAndTablesOk := by
  unfold Obligations.StepKeepsLinkNoticesAndTablesOk
  exact fun _ _ stepped => ⟨fun link => link.step stepped, fun notices => noticesOk_closed.step notices stepped,
    fun tables => tablesOk_closed.step tables stepped⟩

/-- Settles O60: each property holds of the values after reset of the blocks that it is about. -/
theorem resetHasTheKeptProperties : Obligations.ResetHasTheKeptProperties := by
  unfold Obligations.ResetHasTheKeptProperties
  exact ⟨.of_initial rfl, .of_initial rfl, .of_initial rfl rfl, .of_initial rfl, .of_initial rfl rfl, .of_initial rfl,
    linesOk_reset⟩

end Sys2Proof.Machine
end

section
/-! SUPPORT. The values after reset, block by block (R3, R13, R21, R91, R98, R131, R132 to R134, R148, R153, R183,
R197). -/

namespace Sys2Proof.Machine

theorem State.line_reset (n : LineNo) : State.reset.line n = .initial n := by
  simp [State.line, State.reset, initialLines]

theorem State.profiles_reset (f : Fin 8) : State.reset.profiles[f] = .default := by simp [State.reset]

theorem State.scan_reset (p : PairNo) :
    State.reset.scan.outstanding[p] = none ∧ State.reset.scanRec p = .initial := by
  simp [State.reset, State.scanRec, Scan.initial]

theorem State.detector_reset (d : DetectorNo) : State.reset.detector d = ⟨true, none⟩ := by
  simp [State.reset, State.detector, Pool.initial]

theorem State.window_reset (i : Fin 8) : State.reset.windows.table[i] = .initial := by
  simp [State.reset, WindowTable.initial]

theorem State.flags_reset (n : LineNo) :
    State.reset.store.overrun[n] = false ∧ State.reset.store.storeWait[n] = false := by
  simp [State.reset, Store.initial]

theorem State.watch_reset (p : PairNo) : State.reset.fault p = .initial ∧ State.reset.watch.limits[p] = .initial := by
  simp [State.reset, State.fault, Watch.initial]

theorem State.binder_reset (b : BinderNo) : State.reset.binder b = .initial := by
  simp [State.reset, State.binder, Watch.initial]

theorem State.tests_reset (p : PairNo) : State.reset.bus.wanted[p] = none ∧ State.reset.bus.results[p] = none := by
  simp [State.reset, TestBus.initial]

theorem State.enabled_reset (pos : Fin 145) (k : Fin 8) :
    State.reset.notices.enabled[pos][k] = isNoticePoint pos k := by
  simp [State.reset, Notices.initial]

theorem State.cursors_reset (c : Fin 4) : State.reset.notices.cursors[c] = 0 := by
  simp [State.reset, Notices.initial]

/-- Settles O5: each block has the values that its own definition after reset gives. -/
theorem resetValues : Obligations.ResetValues := by
  unfold Obligations.ResetValues
  refine ⟨rfl, fun n => ?lines, State.profiles_reset, ⟨rfl, rfl, rfl, rfl, rfl, rfl, State.scan_reset⟩,
    ⟨State.detector_reset, rfl⟩, ⟨State.window_reset, rfl⟩, ⟨Store.slots_initial, rfl, State.flags_reset⟩,
    ⟨rfl, State.watch_reset, State.binder_reset⟩, ⟨rfl, rfl, rfl, rfl, rfl, State.tests_reset⟩,
    ⟨rfl, rfl, State.enabled_reset, State.cursors_reset⟩, ⟨rfl, rfl, rfl, rfl, rfl, rfl, rfl, rfl, rfl⟩, rfl⟩
  case lines =>
    rw [State.line_reset]
    simp [Line.initial]

end Sys2Proof.Machine
end

section
/-! SUPPORT. Sample replies (R25 to R28, R35): which are taken, and what a taken one does. -/

namespace Sys2Proof.Machine

section
variable {s : State} {p : PairNo} {r : SampleReply} {passTime : Time}

theorem exec_sampleReply {v : State} (taken : s.takeReply r = v) : exec (.sampleReply r) s = .next v.finish :=
  taken ▸ rfl

/-- A valid sample is GOOD with every measurement in its range (R26). -/
theorem sampleValid_iff : sampleValid r = true ↔ r.status = .good ∧ 0 ≤ r.loopMa ∧ r.loopMa ≤ 120 ∧
    -200 ≤ r.tipV ∧ r.tipV ≤ 200 ∧ -200 ≤ r.ringV ∧ r.ringV ≤ 200 ∧ 0 ≤ r.longMa ∧ r.longMa ≤ 50 := by
  simp [sampleValid, sampleInRange, and_assoc]

/-! ### Which replies are taken (R25) -/

theorem State.takeReply_of_no_pair (outside : 72 ≤ r.pair) : s.takeReply r = s := by
  unfold State.takeReply
  exact dif_neg (Nat.not_lt.mpr outside)

theorem State.takeReply_of_unasked (pair : r.pair = p.val) (unasked : s.scan.outstanding[p] = none) :
    s.takeReply r = s := by
  have inside : r.pair < 72 := pair ▸ p.isLt
  obtain rfl : p = ⟨r.pair, inside⟩ := Fin.ext pair.symm
  unfold State.takeReply
  dsimp only
  rw [dif_pos inside, unasked]

theorem State.takeReply_of_asked (pair : r.pair = p.val) (asked : s.scan.outstanding[p] = some passTime) :
    s.takeReply r =
      let u := s.setOutstanding p none
      if u.onBus p then u else if sampleValid r then u.validSample p r passTime else u.invalidSample p := by
  have inside : r.pair < 72 := pair ▸ p.isLt
  obtain rfl : p = ⟨r.pair, inside⟩ := Fin.ext pair.symm
  unfold State.takeReply
  dsimp only
  rw [dif_pos inside, asked]

/-- An invalid sample, on the test bus or off it, is what an unanswered request is (R22, R25, R27). -/
theorem State.takeReply_of_invalid (pair : r.pair = p.val) (asked : s.scan.outstanding[p] = some passTime)
    (invalid : ¬sampleValid r = true) : s.takeReply r = (s.setOutstanding p none).takeInvalid p := by
  rw [State.takeReply_of_asked pair asked, State.takeInvalid]
  simp only [invalid]
  rfl

/-! ### What a valid sample does (R28, R35) -/

/-- A valid sample ends the pair's invalid run, and regains its sense when that run had lost it (R28). -/
def State.heardFrom (s : State) (p : PairNo) : State :=
  let v := s.setScanRec p { s.scanRec p with invalidRun := 0 }
  if (s.scanRec p).invalidRun = 16 then v.senseRegained p else v

/-- The loop judgment of the pair's served line, if it has one (R29, R35). -/
def State.judgeServed (s : State) (p : PairNo) (current : Int) (passTime : Time) : State :=
  match s.served p with
  | some n => s.judgeLoop p n current passTime
  | none => s

theorem State.validSample_eq (s : State) (p : PairNo) (r : SampleReply) (passTime : Time) :
    s.validSample p r passTime =
      if ((s.heardFrom p).fault p).senseLost then s.heardFrom p
      else ((s.heardFrom p).judgeServed p r.loopMa passTime).score p r.tipV r.ringV r.longMa := by
  have heard : (if decide ((s.scanRec p).invalidRun = 16) = true
      then (s.setScanRec p { s.scanRec p with invalidRun := 0 }).senseRegained p
      else s.setScanRec p { s.scanRec p with invalidRun := 0 }) = s.heardFrom p := by
    simp only [decide_eq_true_eq]
    rfl
  unfold State.validSample
  dsimp only
  rw [heard]
  rfl

theorem State.takeReply_of_valid (pair : r.pair = p.val) (asked : s.scan.outstanding[p] = some passTime)
    (free : s.onBus p = false) (valid : sampleValid r = true) :
    s.takeReply r = (s.setOutstanding p none).validSample p r passTime := by
  have free : (s.setOutstanding p none).onBus p = false := free
  rw [State.takeReply_of_asked pair asked]
  simp [free, valid]

end

/-- Settles O11: a reply is asked for or not, its pair on the bus or off it, its sample valid or not; the invalid run
decides about an invalid sample and the pair's sense about a valid one. -/
theorem sampleReplyIsTaken : Obligations.SampleReplyIsTaken := by
  unfold Obligations.SampleReplyIsTaken
  refine ⟨fun s p => ⟨fun _ served => State.served_some served, fun unserved n pair => ?unserved, s.onBus_iff p⟩, ?taken⟩
  case unserved =>
    by_contra enabled
    exact State.served_none unserved n enabled pair
  intro s r valid
  refine ⟨fun outside => exec_sampleReply (State.takeReply_of_no_pair outside),
    fun p pair => ⟨fun unasked => exec_sampleReply (State.takeReply_of_unasked pair unasked), ?asked⟩⟩
  intro passTime asked u k
  have isValid : sampleValid r = true ↔ valid := sampleValid_iff
  have invalid (h : ¬valid) : s.takeReply r = u.takeInvalid p :=
    State.takeReply_of_invalid pair asked fun x => h (isValid.mp x)
  refine ⟨fun onBus => ?_, fun free no run => ?_, fun free no run => ?_, fun free no run => ?_, fun free yes => ?_⟩
  · exact exec_sampleReply ((State.takeReply_of_asked pair asked).trans (if_pos onBus))
  · exact exec_sampleReply ((invalid no).trans (State.takeInvalid_counted (s := u) free run))
  · exact exec_sampleReply ((invalid no).trans (State.takeInvalid_sixteenth (s := u) free run))
  · exact exec_sampleReply ((invalid no).trans (State.takeInvalid_kept (s := u) (.inr run)))
  · have judged := (State.takeReply_of_valid pair asked free (isValid.mpr yes)).trans (u.validSample_eq p r passTime)
    exact ⟨fun lost => exec_sampleReply (judged.trans (if_pos lost)),
      fun sense => exec_sampleReply (judged.trans (if_neg (Bool.eq_false_iff.mp sense)))⟩

end Sys2Proof.Machine
end

section
/-! SUPPORT. What qualified transitions do at a line, and the entries into SEIZING, SETTLING and OPEN (R16 to R20, R37 to
R43, R56, R93). -/

namespace Sys2Proof.Machine

section
variable {s : State} {n : LineNo}

/-! ### Entry into SEIZING and OPEN -/

/-- The line that enters SEIZING, with its snapshot and its seize timer (R17, R38). -/
def Line.seizing (l : Line) (live : Profile) (base : Time) (span : Nat) : Line :=
  { l with state := .seizing, snapshot := some live, seizeTimer := some (base + BitVec.ofNat 32 span), seizeFrom := some base }

/-- The line that enters OPEN from a steady state (R43). -/
def Line.opening (l : Line) (ph : OffHook) (stamp : Time) (span : Nat) : Line :=
  { l with state := .opened, returnState := some ph, breakTime := some stamp,
           breakTimer := some (stamp + BitVec.ofNat 32 span) }

/-- A seize time already over is taken at once (R38). -/
theorem State.enterSeizing_eq (s : State) (n : LineNo) (base : Time) :
    s.enterSeizing n base =
      let e := base + BitVec.ofNat 32 (s.seizeSpan n)
      let v := s.setLine n ((s.line n).seizing (s.liveProfile n) base (s.seizeSpan n))
      if later e s.now then v else v.seizeLine n e :=
  ite_due _ _ _ _

/-- The line may have changed since, but for its pair and its profile number. -/
theorem State.enterSeizing_setLine {l : Line} (pair : l.pair = (s.line n).pair) (profile : l.profile = (s.line n).profile)
    (base : Time) :
    (s.setLine n l).enterSeizing n base =
      let e := base + BitVec.ofNat 32 (s.seizeSpan n)
      let v := s.setLine n (l.seizing (s.liveProfile n) base (s.seizeSpan n))
      if later e s.now then v else v.seizeLine n e := by
  have live : (s.setLine n l).liveProfile n = s.liveProfile n := by simp [State.liveProfile, profile]
  have span : (s.setLine n l).seizeSpan n = s.seizeSpan n := by simp [State.seizeSpan, live, pair]
  rw [State.enterSeizing_eq, live, span]
  simp only [State.line_setLine_self, State.setLine_setLine, State.now_setLine]

/-- A break already long enough for a release is one at once (R43). -/
theorem State.openBreak_eq (s : State) (n : LineNo) (ph : OffHook) (stamp : Time) :
    s.openBreak n ph stamp =
      let span := (s.profileOf n).flashMaxMs + (s.profileOf n).glitchAllowance
      let e := stamp + BitVec.ofNat 32 span
      let v := s.setLine n ((s.line n).opening ph stamp span)
      if later e s.now then v else v.releaseLine n e :=
  ite_due _ _ _ _

/-! ### The transitions by the state of the line (R37) -/

theorem State.loopMade_of_idle (idle : (s.line n).state = .idle) (stamp : Time) :
    s.loopMade n stamp = s.enterSeizing n stamp := by
  rw [State.loopMade, idle]

theorem State.loopMade_of_other (notIdle : (s.line n).state ≠ .idle) (notOpened : (s.line n).state ≠ .opened)
    (stamp : Time) : s.loopMade n stamp = s := by
  unfold State.loopMade
  split
  · exact absurd ‹_› notIdle
  · exact absurd ‹_› notOpened
  · rfl

theorem State.loopBroken_of_seizing (seizing : (s.line n).state = .seizing) (stamp : Time) :
    s.loopBroken n stamp = s.setLine n { (s.line n).stopTimers.forgetCall with state := .idle } := by
  rw [State.loopBroken, seizing]
  rfl

theorem State.loopBroken_of_phase {ph : OffHook} (phase : (s.line n).state = ph.toState) (stamp : Time) :
    s.loopBroken n stamp = s.openBreak n ph stamp := by
  rw [State.loopBroken, phase]
  cases ph <;> rfl

theorem State.loopBroken_of_other (notSeizing : (s.line n).state ≠ .seizing)
    (unsteady : ∀ ph : OffHook, (s.line n).state ≠ ph.toState) (stamp : Time) : s.loopBroken n stamp = s := by
  unfold State.loopBroken
  split
  · exact absurd ‹_› notSeizing
  · exact absurd ‹_› (unsteady .seized)
  · exact absurd ‹_› (unsteady .pulsing)
  · exact absurd ‹_› (unsteady .collecting)
  · exact absurd ‹_› (unsteady .held)
  · rfl

/-! ### The governing profile (R16, R17) -/

theorem State.profileOf_of_snapshot {q : Profile} (snapshot : (s.line n).snapshot = some q) : s.profileOf n = q := by
  rw [State.profileOf, snapshot]

theorem State.profileOf_of_none (none : (s.line n).snapshot = none) : s.profileOf n = s.liveProfile n := by
  rw [State.profileOf, none]

theorem not_later_self (now : Time) : later now now = false := by
  simp [later]

/-! ### Settling (R18, R20) -/

theorem FaultRec.faulted_iff (r : FaultRec) :
    r.faulted = true ↔ r.state = .confirmed ∨ r.state = .recheck ∨ r.senseLost = true := by
  simp [FaultRec.faulted, or_assoc]

/-- The settle timer's expiry goes by the fault and the loop class of the line's pair. -/
theorem State.settleLine_of_faulted (faulted : (s.fault (s.line n).pair).faulted = true) (e : Time) :
    s.settleLine n e = s.setLine n { s.line n with state := .faulted, settleTimer := none } := by
  simp [State.settleLine, State.modLine_eq, faulted]

theorem State.settleLine_of_loop (sound : (s.fault (s.line n).pair).faulted = false)
    (loop : (s.scanRec (s.line n).pair).loopClass = some .loop) (e : Time) :
    s.settleLine n e = (s.setLine n { s.line n with settleTimer := none }).enterSeizing n e := by
  simp [State.settleLine, State.modLine_eq, sound, loop]

theorem State.settleLine_of_open (sound : (s.fault (s.line n).pair).faulted = false)
    (open_ : (s.scanRec (s.line n).pair).loopClass ≠ some .loop) (e : Time) :
    s.settleLine n e = s.setLine n { s.line n with state := .idle, settleTimer := none } := by
  simp [State.settleLine, State.modLine_eq, sound, open_]

theorem execSettleExpiry_of_due {e : Time} (settling : (s.line n).state = .settling)
    (timer : (s.line n).settleTimer = some e) (reached : later e s.now = false) :
    execSettleExpiry n s = .next (s.settleLine n e).finish := by
  rw [execSettleExpiry, State.whenDue_due _ timer reached, if_pos settling]

/-- The line that enters SETTLING (R18). -/
def Line.settling (l : Line) (now : Time) (ms : Nat) : Line :=
  { l with state := .settling, settleTimer := some (now + BitVec.ofNat 32 ms), snapshot := none, returnState := none,
           breakTime := none, wasFaulted := none }

theorem State.enterSettling_eq (s : State) (n : LineNo) :
    s.enterSettling n =
      let ms := (s.liveProfile n).settleMs
      let v := s.setLine n ((s.line n).settling s.now ms)
      if ms = 0 then v.settleLine n s.now else v :=
  rfl

/-! ### The seizure (R40, R93) -/

/-- The line that the seize timer's expiry takes to SEIZED (R40, R93). -/
def Line.seizedAt (l : Line) (e : Time) (firstMs : Nat) : Line :=
  { l with
    state := .seized, seizeTimer := none, seizeFrom := none, collection := some ⟨e, [], none, .none, none⟩
    firstDigitTimer := some (e + BitVec.ofNat 32 firstMs), learning := some .armed }

theorem State.seizeLine_of_barred {base : Time} (counted : (s.line n).seizeFrom = some base)
    (barred : s.barred n = true) (e : Time) :
    s.seizeLine n e = (s.raise (.line n) .hook (some base)).setLine n
      { s.line n with state := .held, seizeTimer := none, seizeFrom := none } := by
  simp [State.seizeLine, counted, barred, State.modLine_eq]

theorem State.seizeLine_of_unbarred {base : Time} (counted : (s.line n).seizeFrom = some base)
    (unbarred : s.barred n = false) (e : Time) :
    s.seizeLine n e =
      let v := (s.raise (.line n) .hook (some base)).setLine n ((s.line n).seizedAt e (s.profileOf n).firstMs)
      if (s.profileOf n).methods = .pulse then v else v.requestDetector n := by
  have seized : s.seizeLine n e =
      ((s.raise (.line n) .hook (some base)).setLine n ((s.line n).seizedAt e (s.profileOf n).firstMs)).requestIfTone n := by
    simp [State.seizeLine, counted, unbarred, State.modLine_eq]
    rfl
  have governed : ((s.raise (.line n) .hook (some base)).setLine n
      ((s.line n).seizedAt e (s.profileOf n).firstMs)).profileOf n = s.profileOf n :=
    (State.profileOf_setLine (by simp [Line.seizedAt]) (by simp [Line.seizedAt])).trans (State.profileOf_raise _ _ _ _ _)
  rw [seized, State.requestIfTone_eq, governed]

theorem execSeizeExpiry_of_due {e : Time} (seizing : (s.line n).state = .seizing)
    (timer : (s.line n).seizeTimer = some e) (reached : later e s.now = false) :
    execSeizeExpiry n s = .next (s.seizeLine n e).finish := by
  rw [execSeizeExpiry, State.whenDue_due _ timer reached, if_pos seizing]

end

/-- Settles O14: the state of the line decides what a transition is for it, and both timers are taken at once where their
time is over. -/
theorem transitionsAtTheLine : Obligations.TransitionsAtTheLine := by
  unfold Obligations.TransitionsAtTheLine
  refine ⟨fun s n => ⟨rfl, fun q => State.profileOf_of_snapshot, State.profileOf_of_none⟩, ⟨rfl, rfl, rfl, rfl⟩,
    fun s n stamp => ?_⟩
  intro l live span seize seizing p release
  refine ⟨fun idle => (State.loopMade_of_idle idle stamp).trans (s.enterSeizing_eq n stamp),
    fun notIdle notOpened => State.loopMade_of_other notIdle notOpened stamp,
    fun seizing => State.loopBroken_of_seizing seizing stamp,
    fun ph phase => (State.loopBroken_of_phase phase stamp).trans (s.openBreak_eq n ph stamp),
    fun notSeizing unsteady => State.loopBroken_of_other notSeizing unsteady stamp⟩

/-- Settles O19: the fault and the loop class of the pair decide the settle timer's expiry, the store flags that of the
seize timer; a settle time of 0 is one that has passed at entry. -/
theorem settleAndSeizeExpire : Obligations.SettleAndSeizeExpire := by
  unfold Obligations.SettleAndSeizeExpire
  refine ⟨fun s n e => ?settle, fun s n e base => ?seize, fun s n => ?enter⟩
  case settle =>
    intro l r faulted live span seize seizing
    have isFaulted : r.faulted = true ↔ faulted := r.faulted_iff
    have sound (h : ¬faulted) : r.faulted = false := Bool.eq_false_iff.mpr fun x => h (isFaulted.mp x)
    refine ⟨fun h => State.settleLine_of_faulted (isFaulted.mpr h) e, fun h loop => ?_,
      fun h open_ => State.settleLine_of_open (sound h) open_ e, execSettleExpiry_of_due⟩
    have entered := State.enterSeizing_setLine (s := s) (n := n) (l := { l with settleTimer := none }) rfl rfl e
    exact (State.settleLine_of_loop (sound h) loop e).trans entered
  case seize =>
    intro l p counted u seized
    refine ⟨fun flags => State.seizeLine_of_barred counted ?_ e,
      fun overrun storeWait => State.seizeLine_of_unbarred counted ?_ e, execSeizeExpiry_of_due⟩
    · simpa [State.barred] using flags
    · simp [State.barred, overrun, storeWait]
  case enter =>
    intro ms entered
    have entry : s.enterSettling n = if ms = 0 then entered.settleLine n s.now else entered := s.enterSettling_eq n
    refine ⟨fun timed => entry.trans (if_neg timed), fun zero => ?_⟩
    have atOnce := entry.trans (if_pos zero)
    refine ⟨atOnce, ?_⟩
    rw [atOnce]
    have line : entered.line n = (s.line n).settling s.now ms := s.line_setLine_self n _
    refine execSettleExpiry_of_due ?_ ?_ (not_later_self s.now)
    · rw [line]
      rfl
    · simp [line, Line.settling, zero]

end Sys2Proof.Machine
end

section
/-! SUPPORT. A change of a pair's record at its sustain timer and its binder (R138, R148 to R150). -/

namespace Sys2Proof.Machine

/-! ### The sustain timer (R138) -/

theorem FaultRec.sustains_iff (r : FaultRec) : r.sustains = true ↔
    (r.state = .suspect ∨ r.state = .confirmed) ∧ r.foreign = 0 ∧ r.leak = 0 ∧ r.senseLost = false := by
  simp [FaultRec.sustains, FaultRec.inSuspicion_eq, and_assoc]

section
variable {now : Time} {sustainMs : Nat} {old new : FaultRec}

theorem followSustain_of_ceased (ceased : ¬new.sustains = true) :
    followSustain now sustainMs old new = { new with sustainTimer := none } := by
  simp [followSustain, ceased]

theorem followSustain_of_begun (sustains : new.sustains = true)
    (begun : ¬old.sustains = true ∨ (new.state = .confirmed ∧ old.state ≠ .confirmed)) :
    followSustain now sustainMs old new = { new with sustainTimer := some (now + BitVec.ofNat 32 sustainMs) } := by
  have begun : (!old.sustains || (decide (new.state = .confirmed) && decide (old.state ≠ .confirmed))) = true := by
    simpa using begun
  rw [followSustain, sustains, begun]
  rfl

theorem followSustain_of_going (sustains : new.sustains = true) (before : old.sustains = true)
    (entered : new.state ≠ .confirmed ∨ old.state = .confirmed) : followSustain now sustainMs old new = new := by
  have entered : (decide (new.state = .confirmed) && decide (old.state ≠ .confirmed)) = false := by
    simpa [or_iff_not_imp_left] using entered
  rw [followSustain, sustains, before, entered]
  rfl

end

/-! ### The change (R138, R148) -/

section
variable {s : State} {p : PairNo} {new followed : FaultRec}

/-- The suspected count follows entry into suspicion and exit from it. -/
theorem State.changeFault_eq
    (follow : followSustain s.now s.watch.settings.sustainMs (s.fault p) new = followed) :
    s.changeFault p new =
      if new.inSuspicion = (s.fault p).inSuspicion then s.setFault p followed
      else (s.setFault p followed).countChange (binderOf p) new.inSuspicion := by
  rw [State.changeFault, follow]

end

/-! ### The suspected count of a binder (R149, R150) -/

section
variable {s : State} {b : BinderNo} {up : Bool} {count : Nat}

/-- At binder_k the hold is on and its timer stopped; BINDER tells of it when it goes on, and in EVERY mode always. -/
theorem State.countChange_of_full (change : (if up then (s.binder b).count + 1 else (s.binder b).count - 1) = count)
    (full : s.watch.settings.binderK ≤ count) :
    s.countChange b up =
      if (s.binder b).hold = false ∨ s.watch.settings.mode = .every then
        (s.setBinder b ⟨count, true, none⟩).raise (.binder b) .binder none
      else s.setBinder b ⟨count, true, none⟩ := by
  have told : ((!(s.binder b).hold || ((s.binder b).hold && decide (s.watch.settings.mode = .every))) = true) ↔
      (s.binder b).hold = false ∨ s.watch.settings.mode = .every := by
    cases (s.binder b).hold <;> simp
  unfold State.countChange
  simp only [change, full, told, if_true]
  rfl

/-- Below binder_k a binder out of hold only counts. -/
theorem State.countChange_of_free (change : (if up then (s.binder b).count + 1 else (s.binder b).count - 1) = count)
    (low : count < s.watch.settings.binderK) (free : (s.binder b).hold = false) :
    s.countChange b up = s.setBinder b ⟨count, false, (s.binder b).holdTimer⟩ := by
  unfold State.countChange
  simp [change, Nat.not_le.mpr low, free]

/-- Below binder_k a binder in hold has its hold timer running. -/
theorem State.countChange_of_held (change : (if up then (s.binder b).count + 1 else (s.binder b).count - 1) = count)
    (low : count < s.watch.settings.binderK) (held : (s.binder b).hold = true) :
    s.countChange b up =
      let u := s.setBinder b ⟨count, true,
        some ((s.binder b).holdTimer.getD (s.now + BitVec.ofNat 32 s.watch.settings.holdMs))⟩
      if s.watch.settings.mode = .every then u.raise (.binder b) .binder none else u := by
  have timer : (if (s.binder b).holdTimer.isNone then some (after s.now s.watch.settings.holdMs)
      else (s.binder b).holdTimer) =
      some ((s.binder b).holdTimer.getD (s.now + BitVec.ofNat 32 s.watch.settings.holdMs)) := by
    cases (s.binder b).holdTimer <;> rfl
  unfold State.countChange
  simp only [change, Nat.not_le.mpr low, held, Bool.true_and, timer, decide_eq_true_eq, if_false]
  rfl

end

/-- Settles O36: the sustain condition before and after the change decides the timer, suspicion before and after it the
count, and the count with the hold what becomes of the binder. -/
theorem pairChangesMoveTimerAndBinder : Obligations.PairChangesMoveTimerAndBinder := by
  unfold Obligations.PairChangesMoveTimerAndBinder
  refine ⟨fun _ => rfl, fun s p new => ?pair, fun s b up => ?binder⟩
  case pair =>
    intro old b suspected sustains fresh timer condition u
    have suspicion (r : FaultRec) : r.inSuspicion = true ↔ suspected r := by
      rw [FaultRec.inSuspicion_eq, decide_eq_true_iff]
    have follow : followSustain s.now s.watch.settings.sustainMs old new = { new with sustainTimer := timer } := by
      rcases condition with ⟨ceased, rfl⟩ | ⟨going, begun, rfl⟩ | ⟨going, before, entered, rfl⟩
      · exact followSustain_of_ceased fun x => ceased (new.sustains_iff.mp x)
      · exact followSustain_of_begun (new.sustains_iff.mpr going)
          (begun.imp_left fun ceased x => ceased (old.sustains_iff.mp x))
      · exact followSustain_of_going (new.sustains_iff.mpr going) (old.sustains_iff.mpr before) entered
    have changed := State.changeFault_eq follow
    refine ⟨fun same => ?_, fun enters out => ?_, fun leaves before => ?_⟩
    · have same : new.inSuspicion = old.inSuspicion := by rw [Bool.eq_iff_iff, suspicion, suspicion, same]
      exact changed.trans (if_pos same)
    · have oldOut : (s.fault p).inSuspicion = false := Bool.eq_false_iff.mpr fun x => out ((suspicion old).mp x)
      rw [(suspicion new).mpr enters, oldOut] at changed
      exact changed
    · have newOut : new.inSuspicion = false := Bool.eq_false_iff.mpr fun x => leaves ((suspicion new).mp x)
      rw [newOut, (suspicion (s.fault p)).mpr before] at changed
      exact changed
  case binder =>
    intro r w count told
    exact ⟨State.countChange_of_full rfl, State.countChange_of_free rfl, State.countChange_of_held rfl⟩

end Sys2Proof.Machine
end

section
/-! SUPPORT. What the entry into SETTLING and the lines that leave a test leave alone (R18, R20, R38, R40, R166). -/

namespace Sys2Proof.Machine

/-- P is kept by what a line's entry into SETTLING can do: a change of lines and of the pool, and a raise. -/
structure ClosedEntry (P : State → Prop) : Prop where
  pool : ∀ s t : State, SamePool s t → P s → P t
  raise : ∀ (s : State) (src : Source) (k : Kind) (x : Option Time), P s → P (s.raise src k x)

/-- A component outside the lines, the pool and the pending set stays as it is. -/
theorem ClosedEntry.of_frame {α : Type} {f : State → α} (pool : ∀ s t, SamePool s t → f t = f s)
    (raise : ∀ s src k x, f (s.raise src k x) = f s) (a : α) : ClosedEntry fun s => f s = a :=
  ⟨fun s t same h => (pool s t same).trans h, fun s src k x h => (raise s src k x).trans h⟩

section
variable {P : State → Prop} {s : State}

theorem ClosedEntry.line (h : ClosedEntry P) (n : LineNo) (l : Line) (hs : P s) : P (s.setLine n l) :=
  h.pool s _ (samePool_modLine s n fun _ => l) hs

theorem ClosedEntry.seizeLine (h : ClosedEntry P) (n : LineNo) (e : Time) (hs : P s) : P (s.seizeLine n e) := by
  have raised := h.raise s (.line n) .hook (some ((s.line n).seizeFrom.getD e)) hs
  unfold State.seizeLine
  dsimp only
  split
  · exact h.line n _ raised
  · rw [State.requestIfTone_eq]
    split
    · exact h.line n _ raised
    · exact h.pool _ _ (samePool_requestDetector _ n) (h.line n _ raised)

theorem ClosedEntry.enterSeizing (h : ClosedEntry P) (n : LineNo) (base : Time) (hs : P s) : P (s.enterSeizing n base) := by
  rw [State.enterSeizing_eq]
  dsimp only
  split
  · exact h.line n _ hs
  · exact h.seizeLine n _ (h.line n _ hs)

theorem ClosedEntry.settleLine (h : ClosedEntry P) (n : LineNo) (e : Time) (hs : P s) : P (s.settleLine n e) := by
  unfold State.settleLine
  dsimp only
  split
  · exact h.line n _ (h.line n _ hs)
  · split
    · exact h.enterSeizing n e (h.line n _ hs)
    · exact h.line n _ (h.line n _ hs)

theorem ClosedEntry.enterSettling (h : ClosedEntry P) (n : LineNo) (hs : P s) : P (s.enterSettling n) := by
  rw [State.enterSettling_eq]
  dsimp only
  split
  · exact h.settleLine n _ (h.line n _ hs)
  · exact h.line n _ hs

theorem ClosedEntry.leaveTest (h : ClosedEntry P) (p : PairNo) (n : LineNo) (hs : P s) : P (s.leaveTest p n) := by
  unfold State.leaveTest
  split
  · split
    · exact h.line n _ hs
    · exact h.enterSettling n hs
  · exact hs

end

/-! ### The other lines -/

theorem State.line_requestDetector_ne (s : State) {n m : LineNo} (other : n ≠ m) :
    (s.requestDetector n).line m = s.line m := by
  unfold State.requestDetector State.bindDetector
  repeat' split
  all_goals simp [State.line_modLine_ne, other]

theorem State.line_seizeLine_ne (s : State) {n m : LineNo} (other : n ≠ m) (e : Time) :
    (s.seizeLine n e).line m = s.line m := by
  unfold State.seizeLine
  dsimp only
  split
  · rw [State.line_modLine_ne _ _ other, State.line_raise]
  · rw [State.requestIfTone_eq]
    split
    · rw [State.line_modLine_ne _ _ other, State.line_raise]
    · rw [State.line_requestDetector_ne _ other, State.line_modLine_ne _ _ other, State.line_raise]

theorem State.line_enterSeizing_ne (s : State) {n m : LineNo} (other : n ≠ m) (base : Time) :
    (s.enterSeizing n base).line m = s.line m := by
  rw [State.enterSeizing_eq]
  dsimp only
  split
  · exact s.line_setLine_ne _ other
  · rw [State.line_seizeLine_ne _ other, s.line_setLine_ne _ other]

theorem State.line_settleLine_ne (s : State) {n m : LineNo} (other : n ≠ m) (e : Time) :
    (s.settleLine n e).line m = s.line m := by
  unfold State.settleLine
  dsimp only
  split
  · rw [State.modLine_modLine, State.line_modLine_ne _ _ other]
  · split
    · rw [State.line_enterSeizing_ne _ other, State.line_modLine_ne _ _ other]
    · rw [State.modLine_modLine, State.line_modLine_ne _ _ other]

theorem State.line_enterSettling_ne (s : State) {n m : LineNo} (other : n ≠ m) :
    (s.enterSettling n).line m = s.line m := by
  rw [State.enterSettling_eq]
  dsimp only
  split
  · rw [State.line_settleLine_ne _ other, s.line_setLine_ne _ other]
  · exact s.line_setLine_ne _ other

theorem State.line_leaveTest_ne (s : State) (p : PairNo) {n m : LineNo} (other : n ≠ m) :
    (s.leaveTest p n).line m = s.line m := by
  unfold State.leaveTest
  split
  · split
    · exact s.line_modLine_ne _ other
    · exact s.line_enterSettling_ne other
  · rfl

/-! ### The entry into SETTLING by settle time, fault and loop class (R18, R20) -/

section
variable {s : State} {n : LineNo}

theorem State.enterSettling_of_timed (timed : (s.liveProfile n).settleMs ≠ 0) :
    s.enterSettling n = s.setLine n ((s.line n).settling s.now (s.liveProfile n).settleMs) :=
  s.enterSettling_eq n ▸ if_neg timed

theorem State.enterSettling_of_zero (zero : (s.liveProfile n).settleMs = 0) :
    s.enterSettling n = (s.setLine n ((s.line n).settling s.now 0)).settleLine n s.now := by
  rw [State.enterSettling_eq]
  dsimp only
  rw [if_pos zero, zero]

/-- With settle_ms 0 the line goes on at once, by its pair as the settle timer's expiry finds it. -/
theorem State.enterSettling_of_zero_faulted (zero : (s.liveProfile n).settleMs = 0)
    (faulted : (s.fault (s.line n).pair).faulted = true) :
    s.enterSettling n = s.setLine n { (s.line n).settling s.now 0 with state := .faulted, settleTimer := none } := by
  rw [State.enterSettling_of_zero zero, State.settleLine_of_faulted]
  · simp
  · simpa [Line.settling] using faulted

theorem State.enterSettling_of_zero_open (zero : (s.liveProfile n).settleMs = 0)
    (sound : (s.fault (s.line n).pair).faulted = false) (open_ : (s.scanRec (s.line n).pair).loopClass ≠ some .loop) :
    s.enterSettling n = s.setLine n { (s.line n).settling s.now 0 with state := .idle, settleTimer := none } := by
  rw [State.enterSettling_of_zero zero, State.settleLine_of_open]
  · simp
  · simpa [Line.settling] using sound
  · simpa [Line.settling] using open_

theorem State.enterSettling_of_zero_loop (zero : (s.liveProfile n).settleMs = 0)
    (sound : (s.fault (s.line n).pair).faulted = false) (loop : (s.scanRec (s.line n).pair).loopClass = some .loop) :
    s.enterSettling n =
      let e := s.now + BitVec.ofNat 32 (s.seizeSpan n)
      let l := { (s.line n).settling s.now 0 with settleTimer := none }
      let v := s.setLine n (l.seizing (s.liveProfile n) s.now (s.seizeSpan n))
      if later e s.now then v else v.seizeLine n e := by
  rw [State.enterSettling_of_zero zero, State.settleLine_of_loop]
  · simp only [State.line_setLine_self, State.setLine_setLine]
    exact State.enterSeizing_setLine (l := { (s.line n).settling s.now 0 with settleTimer := none }) rfl rfl s.now
  · simpa [Line.settling] using sound
  · simpa [Line.settling] using loop

end

end Sys2Proof.Machine
end

section
/-! SUPPORT. The end of a test (R165, R166): what the Fault Watch leaves of the test bus, the part with the bus freed, and
the lines that leave the test. -/

namespace Sys2Proof.Machine

/-! ### What a test end leaves of the test bus -/

/-- The test bus but for its queue and its wanted set. -/
def TestBus.running (b : TestBus) : TestBus := { b with queue := [], wanted := .replicate 72 none }

section
variable (s : State) (p : PairNo)

@[simp] theorem State.running_changeFault (r : FaultRec) : (s.changeFault p r).bus.running = s.bus.running :=
  State.changeFault_frame (f := fun s => s.bus.running) (fun _ _ => rfl) (fun _ _ _ => rfl)
    (fun s src k x => by rw [State.bus_raise]) s r

@[simp] theorem State.running_passFault : (s.passFault p).bus.running = s.bus.running :=
  State.passFault_frame (f := fun s => s.bus.running)
    (ClosedLine.of_frame (fun _ _ _ => rfl) (fun _ _ h => by rw [h.eq]) fun _ _ h => by rw [h.bus]) s p

@[simp] theorem State.running_raiseFault : (s.raiseFault p).bus.running = s.bus.running :=
  congrArg TestBus.running (s.bus_raise _ _ _)

@[simp] theorem State.running_setFault (r : FaultRec) : (s.setFault p r).bus.running = s.bus.running := rfl

@[simp] theorem State.running_want : (s.want p).bus.running = s.bus.running := by
  unfold State.want State.placeWant
  repeat' split
  all_goals rfl

@[simp] theorem State.running_withdraw : (s.withdraw p).bus.running = s.bus.running := by
  unfold State.withdraw State.removeEntry State.admitWanted
  repeat' split
  all_goals rfl

@[simp] theorem State.running_sustainAtOnce : (s.sustainAtOnce p).bus.running = s.bus.running := by
  unfold State.sustainAtOnce
  split
  · unfold State.sustainEnd
    dsimp only
    split <;> simp
  · rfl

@[simp] theorem State.running_guardAtOnce : (s.guardAtOnce p).bus.running = s.bus.running := by
  unfold State.guardAtOnce
  split
  · rw [State.guardEnd_eq]
    dsimp only
    split <;> simp
  · rfl

/-- A test end moves the queue and the wanted set, and nothing else of the test bus (R143). -/
theorem State.running_testEnd (t : LastTest) : (s.testEnd p t).bus.running = s.bus.running := by
  have applied : (s.applyTest p t).bus.running = s.bus.running := by
    unfold State.applyTest
    dsimp only
    split <;> simp
  rw [State.testEnd_eq]
  dsimp only
  split <;> simp [applied]

end

/-! ### The bus freed (R165, R166) -/

/-- The test end at the Fault Watch, behind DISCONNECT and with the run's timers stopped (R165 steps 1 to 3). -/
def State.testTold (s : State) (r : Run) (o : TestOutcome) : State :=
  ((s.setRun (some { r with quietTimer := none, readingTimer := none, outstanding := none })).sendTest
    .disconnect).testEnd r.pair ⟨r.asker.origin, r.kind, o, s.now⟩

/-- The controller's result written and the bus free (R165 steps 4 and 5, R166). -/
def State.testFreed (s : State) (r : Run) (o : TestOutcome) : State := ((s.testTold r o).writeResult r o).setRun none

theorem State.endTest_eq (s : State) (r : Run) (o : TestOutcome) :
    s.endTest r o = allLines.foldl (fun s n => s.leaveTest r.pair n) (s.testFreed r o) := rfl

theorem State.setRun_raise (s : State) (r : Option Run) (src : Source) (k : Kind) (x : Option Time) :
    (s.raise src k x).setRun r = (s.setRun r).raise src k x := by
  unfold State.raise
  split
  · rw [if_pos ‹_›]
    rfl
  · rw [if_neg ‹_›]

section
variable (s : State) (r : Run) (o : TestOutcome)

theorem State.now_testTold : (s.testTold r o).now = s.now := (State.closed_now s.now).testEnd _ _ rfl

theorem State.enabled_testTold : (s.testTold r o).notices.enabled = s.notices.enabled :=
  (State.closed_enabled s.notices.enabled).testEnd _ _ rfl

theorem State.running_testTold : (s.testTold r o).bus.running =
    { s.bus.running with
      run := some { r with quietTimer := none, readingTimer := none, outstanding := none }
      sent := s.bus.sent ++ [.disconnect] } :=
  State.running_testEnd _ _ _

theorem State.results_testTold : (s.testTold r o).bus.results = s.bus.results := by
  have same := congrArg TestBus.results (s.running_testTold r o)
  exact same

theorem State.sent_testTold : (s.testTold r o).bus.sent = s.bus.sent ++ [.disconnect] := by
  have same := congrArg TestBus.sent (s.running_testTold r o)
  exact same

variable {s r o}

/-- A WATCH test leaves no result and no notice of its own. -/
theorem State.testFreed_of_watch (watch : r.asker = .watch) : s.testFreed r o =
    { s.testTold r o with bus := { (s.testTold r o).bus with run := none } } := by
  rw [State.testFreed, State.writeResult, watch]
  rfl

/-- A CONTROLLER test writes its result and raises TEST_DONE. -/
theorem State.testFreed_of_controller {tag : Byte} (controller : r.asker = .controller tag) : s.testFreed r o =
    State.raise { s.testTold r o with bus := { (s.testTold r o).bus with
      run := none, results := s.bus.results.set r.pair (some ⟨tag, r.kind, o, r.attempt, r.last, s.now⟩) } }
      (.pair r.pair) .testDone none := by
  rw [State.testFreed, State.writeResult, controller]
  dsimp only
  rw [State.setRun_raise, s.now_testTold, s.results_testTold]
  rfl

end

/-- The freed part holds the lines, the profiles, the scan, the store and the Fault Watch of the told one. -/
structure SameTold (s t : State) : Prop where
  now : t.now = s.now
  lines : t.lines = s.lines
  profiles : t.profiles = s.profiles
  scan : t.scan = s.scan
  store : t.store = s.store
  watch : t.watch = s.watch

theorem State.sameTold_testFreed (s : State) (r : Run) (o : TestOutcome) : SameTold (s.testTold r o) (s.testFreed r o) := by
  cases asker : r.asker with
  | watch =>
    rw [State.testFreed_of_watch asker]
    constructor <;> rfl
  | controller tag =>
    rw [State.testFreed_of_controller asker]
    constructor <;> simp

/-! ### The lines that leave the test, one after the other -/

/-- What a line's leave of the test reads besides the line. -/
structure SameAround (s t : State) : Prop where
  now : t.now = s.now
  profiles : t.profiles = s.profiles
  watch : t.watch = s.watch

theorem closedEntry_sameAround (s : State) : ClosedEntry (SameAround s) where
  pool _ _ same h := ⟨same.now.trans h.now, same.profiles.trans h.profiles, same.watch.trans h.watch⟩
  raise t src k x h :=
    ⟨(t.now_raise src k x).trans h.now, (t.profiles_raise src k x).trans h.profiles, (t.watch_raise src k x).trans h.watch⟩

/-- Among all lines a line's own turn is the only one that touches it, and finds it as it was. -/
theorem State.leaveTests_at (s : State) (p : PairNo) (n : LineNo) : ∃ v : State, SameAround s v ∧ v.line n = s.line n ∧
    (allLines.foldl (fun s n => s.leaveTest p n) s).line n = (v.leaveTest p n).line n := by
  obtain ⟨front, back, split⟩ := List.append_of_mem (List.mem_finRange n : n ∈ allLines)
  have split : allLines = front ++ n :: back := split
  have once : (front ++ n :: back).Nodup := split ▸ List.nodup_finRange 64
  obtain ⟨-, behind, apart⟩ := List.nodup_append.mp once
  have others (ns : List LineNo) (absent : n ∉ ns) (v : State) :
      (ns.foldl (fun s n => s.leaveTest p n) v).line n = v.line n := by
    induction ns generalizing v with
    | nil => rfl
    | cons m ns ih =>
      rw [List.foldl_cons, ih fun h => absent (List.mem_cons_of_mem m h)]
      exact v.line_leaveTest_ne p fun h => absent (h ▸ List.mem_cons_self)
  refine ⟨front.foldl (fun s n => s.leaveTest p n) s, ?_, others front (fun h => apart n h n (by simp) rfl) s, ?_⟩
  · exact foldl_keeps (fun _ m h => (closedEntry_sameAround s).leaveTest p m h) front ⟨rfl, rfl, rfl⟩
  · rw [split, List.foldl_append, List.foldl_cons]
    exact others back (List.nodup_cons.mp behind).1 _

section
variable {s : State} {p : PairNo} {n : LineNo}

theorem State.leaveTest_of_faulted (pair : (s.line n).pair = p) (tested : (s.line n).state = .underTest)
    (faulted : (s.fault p).faulted = true) :
    s.leaveTest p n = s.setLine n { s.line n with state := .faulted, wasFaulted := none } := by
  rw [State.leaveTest, if_pos ⟨pair, tested⟩, if_pos faulted]
  rfl

theorem State.leaveTest_of_sound (pair : (s.line n).pair = p) (tested : (s.line n).state = .underTest)
    (sound : (s.fault p).faulted = false) : s.leaveTest p n = s.enterSettling n := by
  rw [State.leaveTest, if_pos ⟨pair, tested⟩, sound]
  exact if_neg Bool.false_ne_true

/-- A line that takes time to settle leaves the test without a notice. -/
theorem State.notices_leaveTest (timed : (s.line n).pair = p → (s.line n).state = .underTest →
    (s.liveProfile n).settleMs ≠ 0) : (s.leaveTest p n).notices = s.notices := by
  unfold State.leaveTest
  split
  · split
    · rfl
    · rw [State.enterSettling_of_timed (timed (And.left ‹_›) (And.right ‹_›))]
      rfl
  · rfl

theorem State.notices_leaveTests (timed : ∀ n, (s.line n).pair = p → (s.line n).state = .underTest →
    (s.liveProfile n).settleMs ≠ 0) : (allLines.foldl (fun s n => s.leaveTest p n) s).notices = s.notices := by
  have each (ns : List LineNo) (once : ns.Nodup) (v : State) (profiles : v.profiles = s.profiles)
      (lines : ∀ n ∈ ns, v.line n = s.line n) : (ns.foldl (fun s n => s.leaveTest p n) v).notices = v.notices := by
    induction ns generalizing v with
    | nil => rfl
    | cons n ns ih =>
      have apart := List.nodup_cons.mp once
      have around := (closedEntry_sameAround v).leaveTest p n ⟨rfl, rfl, rfl⟩
      have own := lines n List.mem_cons_self
      have live : v.liveProfile n = s.liveProfile n := by
        simp only [State.liveProfile, own, profiles]
      rw [List.foldl_cons, ih apart.2 _ (around.profiles.trans profiles) fun m mem => ?_, State.notices_leaveTest]
      · rw [own, live]
        exact timed n
      · rw [v.line_leaveTest_ne p fun h : n = m => apart.1 (h ▸ mem)]
        exact lines m (List.mem_cons_of_mem n mem)
  exact each allLines (List.nodup_finRange 64) s rfl fun _ _ => rfl

end

/-! ### A pending entry stays -/

/-- The pending set has an entry at a notice point (R172). -/
def State.pends (pos : Fin 145) (k : Kind) (s : State) : Prop := ∃ e ∈ s.notices.entries, e.pos = pos ∧ e.kind = k

/-- A raise joins an entry or stands beside it. -/
theorem closedEntry_pends (pos : Fin 145) (k : Kind) : ClosedEntry (State.pends pos k) where
  pool _ _ same h := by
    unfold State.pends
    rw [same.notices]
    exact h
  raise s src j x h := by
    obtain ⟨e, mem, at_, kind⟩ := h
    unfold State.pends State.raise
    split
    · by_cases same : e.key = pointKey src.pos j
      · obtain ⟨samePos, sameKind⟩ := pointKey_injective same
        subst at_ kind
        rw [samePos, sameKind]
        exact exists_mem_addRaise src.pos j x s.notices.entries
      · exact ⟨e, mem_addRaise_of_mem same mem, at_, kind⟩
    · exact ⟨e, mem, at_, kind⟩

end Sys2Proof.Machine
end

section
/-! SUPPORT. The end of a test as a whole (R165, R166). -/

namespace Sys2Proof.Machine

section
variable {s t : State} {p : PairNo} {n : LineNo}

theorem SameTold.line (h : SameTold s t) (n : LineNo) : t.line n = s.line n := by rw [State.line, h.lines, State.line]

theorem SameTold.fault (h : SameTold s t) (p : PairNo) : t.fault p = s.fault p := by rw [State.fault, h.watch, State.fault]

theorem SameTold.scanRec (h : SameTold s t) (p : PairNo) : t.scanRec p = s.scanRec p := by
  rw [State.scanRec, h.scan, State.scanRec]

theorem SameTold.liveProfile (h : SameTold s t) (n : LineNo) : t.liveProfile n = s.liveProfile n := by
  simp only [State.liveProfile, h.line, h.profiles]

theorem SameTold.seizeSpan (h : SameTold s t) (n : LineNo) : t.seizeSpan n = s.seizeSpan n := by
  simp only [State.seizeSpan, State.inHold, State.binder, h.line, h.liveProfile, h.watch]
  rfl

end

/-- The whole part behind the one line that leaves the test, by its pair and its settle time. -/
theorem State.leaveTest_whole {told u t : State} {p : PairNo} {n : LineNo} {now : Time} (same : SameTold told u)
    (at_ : told.now = now) (one : t = u.leaveTest p n)
    (leaving : (told.line n).pair = p ∧ (told.line n).state = .underTest) :
    let l := told.line n
    let f := told.fault p
    let faulted := f.state = .confirmed ∨ f.state = .recheck ∨ f.senseLost = true
    let live := told.liveProfile n
    let span := if (told.binder (binderOf p)).hold then min (4 * live.seizeMs) 4000 else live.seizeMs
    let seize := now + BitVec.ofNat 32 span
    let left : Line := { l with wasFaulted := none, settleTimer := none, returnState := none, breakTime := none }
    let seizing := u.setLine n { left with
      state := .seizing, snapshot := some live, seizeTimer := some seize, seizeFrom := some now }
    (faulted → t = u.setLine n { l with state := .faulted, wasFaulted := none }) ∧
    (¬faulted → live.settleMs ≠ 0 → t = u.setLine n { left with
      state := .settling, snapshot := none, settleTimer := some (now + BitVec.ofNat 32 live.settleMs) }) ∧
    (¬faulted → live.settleMs = 0 → (told.scanRec p).loopClass ≠ some .loop →
      t = u.setLine n { left with state := .idle, snapshot := none }) ∧
    (¬faulted → live.settleMs = 0 → (told.scanRec p).loopClass = some .loop →
      t = if later seize now then seizing else seizing.seizeLine n seize) := by
  obtain ⟨pair, tested⟩ := leaving
  have line := same.line n
  have fault := same.fault p
  have scanRec := same.scanRec p
  have live := same.liveProfile n
  have unow : u.now = now := same.now.trans at_
  intro l f faulted liveProfile span seize left seizing
  have isFaulted : f.faulted = true ↔ faulted := f.faulted_iff
  have upair : (u.line n).pair = p := line ▸ pair
  have utested : (u.line n).state = .underTest := line ▸ tested
  have leaves (h : ¬faulted) : t = u.enterSettling n :=
    one.trans (State.leaveTest_of_sound upair utested (fault ▸ Bool.eq_false_iff.mpr fun x => h (isFaulted.mp x)))
  have sound (h : ¬faulted) : (u.fault (u.line n).pair).faulted = false := by
    rw [upair, fault]
    exact Bool.eq_false_iff.mpr fun x => h (isFaulted.mp x)
  refine ⟨fun h => ?_, fun h timed => ?_, fun h zero open_ => ?_, fun h zero loop => ?_⟩
  · rw [one, State.leaveTest_of_faulted upair utested (fault ▸ isFaulted.mpr h), line]
  · rw [leaves h, State.enterSettling_of_timed (live ▸ timed), line, unow, live]
    rfl
  · rw [leaves h, State.enterSettling_of_zero_open (live ▸ zero) (sound h), line, unow]
    · rfl
    · rw [upair, scanRec]
      exact open_
  · have spans : u.seizeSpan n = span := by
      rw [same.seizeSpan]
      subst pair
      rfl
    rw [leaves h, State.enterSettling_of_zero_loop (live ▸ zero) (sound h), line, unow, spans, live]
    · rfl
    · rw [upair, scanRec]
      exact loop

/-- Settles O44: the freed part is the told one with its result and its notice; the lines that leave the test come after
it, each in a turn of its own. -/
theorem testEndFreesTheBus : Obligations.TestEndFreesTheBus := by
  unfold Obligations.TestEndFreesTheBus
  intro s r o t origin told
  have toldIs : s.testTold r o = told := rfl
  have ends : t = allLines.foldl (fun s n => s.leaveTest r.pair n) (s.testFreed r o) := s.endTest_eq r o
  have same : SameTold told (s.testFreed r o) := s.sameTold_testFreed r o
  have now : told.now = s.now := s.now_testTold r o
  have keeps {P : State → Prop} (h : ClosedEntry P) (freed : P (s.testFreed r o)) : P t := by
    rw [ends]
    exact foldl_keeps (fun _ n hs => h.leaveTest r.pair n hs) allLines freed
  have frame {α : Type} {f : State → α} (pool : ∀ s t, SamePool s t → f t = f s)
      (raise : ∀ s src k x, f (s.raise src k x) = f s) : f t = f (s.testFreed r o) :=
    keeps (P := fun u => f u = f (s.testFreed r o)) (.of_frame pool raise _) rfl
  have bus : t.bus = (s.testFreed r o).bus := frame (f := State.bus) (fun _ _ h => h.bus) State.bus_raise
  have watch : t.watch = told.watch :=
    (frame (f := State.watch) (fun _ _ h => h.watch) State.watch_raise).trans same.watch
  have store : t.store = told.store :=
    (frame (f := State.store) (fun _ _ h => h.store) State.store_raise).trans same.store
  have sent : told.bus.sent = s.bus.sent ++ [.disconnect] := s.sent_testTold r o
  refine ⟨?run, ?sent, watch, store, fun asker => ?watchResults, fun freed kinds => ?whole, fun tag asker => ?controller,
    fun n => ?line⟩
  case run =>
    rw [bus]
    rfl
  case sent =>
    rw [bus, ← sent]
    cases asker : r.asker with
    | watch =>
      rw [State.testFreed_of_watch asker]
      rfl
    | controller tag =>
      rw [State.testFreed_of_controller asker, State.bus_raise]
      rfl
  case watchResults =>
    rw [bus, State.testFreed_of_watch asker]
    exact s.results_testTold r o
  case controller =>
    have freed := State.testFreed_of_controller (s := s) (o := o) asker
    refine ⟨?_, fun enabled => ?_⟩
    · rw [bus, freed, State.bus_raise]
    · have pends : (s.testFreed r o).pends (Source.pair r.pair).pos .testDone := by
        rw [freed]
        exact State.exists_entry_raise (.pair r.pair) .testDone none ((congrArg (·[_][_]) (s.enabled_testTold r o)).trans enabled)
      exact keeps (P := State.pends _ _) (closedEntry_pends _ _) pends
  case whole =>
    have freedIs : freed = s.testFreed r o := by
      rcases kinds with ⟨asker, rfl⟩ | ⟨tag, asker, rfl⟩
      · exact (State.testFreed_of_watch asker).symm
      · exact (State.testFreed_of_controller asker).symm
    subst freedIs
    intro leaves
    have here (n : LineNo) : (((s.testFreed r o).line n).pair = r.pair ∧ ((s.testFreed r o).line n).state = .underTest) ↔
        leaves n := by rw [same.line]
    refine ⟨fun timed => ?_, fun nobody => ?_, fun n leaving alone => ?_⟩
    · rw [ends]
      exact State.notices_leaveTests fun n pair tested => by
        rw [same.liveProfile]
        exact timed n ((here n).mp ⟨pair, tested⟩)
    · exact ends.trans (State.leaveTests_none _ _ _ fun n _ leaving => nobody n ((here n).mp leaving))
    · have one : t = (s.testFreed r o).leaveTest r.pair n :=
        ends.trans (State.leaveTests_one fun m leaving => alone m ((here m).mp leaving))
      exact State.leaveTest_whole same now one leaving
  case line =>
    obtain ⟨v, around, own, turn⟩ := (s.testFreed r o).leaveTests_at r.pair n
    have own : v.line n = told.line n := own.trans (same.line n)
    have fault : v.fault r.pair = told.fault r.pair := by
      rw [State.fault, around.watch, same.watch, State.fault]
    have live : v.liveProfile n = told.liveProfile n := by
      simp only [State.liveProfile, own, around.profiles, same.profiles]
    have vnow : v.now = s.now := around.now.trans (same.now.trans now)
    intro l f faulted settle
    have isFaulted : f.faulted = true ↔ faulted := f.faulted_iff
    rw [ends, turn]
    refine ⟨fun other => ?_, fun pair tested isFault => ?_, fun pair tested sound timed => ?_⟩
    · rw [State.leaveTest_other, own]
      rw [own]
      exact fun ⟨pair, tested⟩ => other.elim (· pair) (· tested)
    · rw [State.leaveTest_of_faulted (own ▸ pair) (own ▸ tested) (fault ▸ isFaulted.mpr isFault), own]
      exact v.line_setLine_self n _
    · have sound : (v.fault r.pair).faulted = false := fault ▸ Bool.eq_false_iff.mpr fun x => sound (isFaulted.mp x)
      rw [State.leaveTest_of_sound (own ▸ pair) (own ▸ tested) sound, State.enterSettling_of_timed (live ▸ timed), own,
        vnow, live]
      exact v.line_setLine_self n _

end Sys2Proof.Machine
end

section
/-! SUPPORT. PROFILE_WRITE and WINDOW_WRITE: what passes their checks and what they write (R13, R14, R100, R193). -/

namespace Sys2Proof.Machine

/-! ### The checks of the fields of a profile (R13) -/

theorem methodsArg_of_code {b : Byte} {m : Methods}
    (h : (b = 0 ∧ m = .pulse) ∨ (b = 1 ∧ m = .tone) ∨ (b = 2 ∧ m = .both)) : methodsArg b = some m := by
  rcases h with ⟨rfl, rfl⟩ | ⟨rfl, rfl⟩ | ⟨rfl, rfl⟩ <;> rfl

theorem recordModeArg_of_code {b : Byte} {r : RecordMode}
    (h : (b = 0 ∧ r = .single) ∨ (b = 1 ∧ r = .continuous)) : recordModeArg b = some r := by
  rcases h with ⟨rfl, rfl⟩ | ⟨rfl, rfl⟩ <;> rfl

theorem methodsArg_refused {b : Byte} (h : 2 < b.toNat) : methodsArg b = none := by
  unfold methodsArg
  rw [if_neg (by rintro rfl; simp at h), if_neg (by rintro rfl; simp at h), if_neg (by rintro rfl; simp at h)]

theorem recordModeArg_refused {b : Byte} (h : 1 < b.toNat) : recordModeArg b = none := by
  unfold recordModeArg
  rw [if_neg (by rintro rfl; simp at h), if_neg (by rintro rfl; simp at h)]

/-- The ranges and relations of R13. -/
theorem Profile.ok_iff (p : Profile) : p.ok = true ↔
    6 ≤ p.seizeMa ∧ p.seizeMa ≤ 40 ∧ 2 ≤ p.releaseMa ∧ p.releaseMa + 2 ≤ p.seizeMa ∧
      p.glitch ≤ 7 ∧ 20 ≤ p.seizeMs ∧ p.seizeMs ≤ 1000 ∧ 10 ≤ p.brkMinMs ∧ p.brkMinMs ≤ 60 ∧
      p.brkMinMs + 10 ≤ p.brkMaxMs ∧ p.brkMaxMs ≤ 200 ∧ p.brkMaxMs + 10 ≤ p.flashMinMs ∧
      p.flashMinMs ≤ 1000 ∧ p.flashMinMs ≤ p.flashMaxMs ∧ p.flashMaxMs ≤ 1500 ∧ 100 ≤ p.gapLoMs ∧
      p.gapLoMs ≤ 1000 ∧ p.gapLoMs ≤ p.gapHiMs ∧ p.gapHiMs ≤ 1000 ∧ p.gapLoMs ≤ p.gapMs ∧
      p.gapMs ≤ p.gapHiMs ∧ 200 ≤ p.learnSpanMs ∧ p.learnSpanMs ≤ 1200 ∧ 4 * p.periodHiMs ≤ p.learnSpanMs ∧
      50 ≤ p.periodLoMs ∧ p.periodLoMs ≤ p.periodHiMs ∧ p.periodHiMs ≤ 250 ∧ 2000 ≤ p.firstMs ∧
      p.firstMs ≤ 60000 ∧ 1000 ≤ p.collectMs ∧ p.collectMs ≤ 30000 ∧ p.settleMs ≤ 2000 := by
  simp only [Profile.ok, Bool.and_eq_true, decide_eq_true_eq, within_iff]
  omega

theorem profileArg_of_codes {a : ProfileArgs} {m : Methods} {r : RecordMode} (methods : methodsArg a.methods = some m)
    (mode : recordModeArg a.recordMode = some r) :
    profileArg a = if (ProfileArgs.toProfile a m r).ok then some (ProfileArgs.toProfile a m r) else none := by
  rw [profileArg, methods, mode]

theorem profileArg_refused {a : ProfileArgs} (h : 2 < a.methods.toNat ∨ 1 < a.recordMode.toNat) :
    profileArg a = none := by
  unfold profileArg
  rcases h with h | h
  · rw [methodsArg_refused h]
  · rw [recordModeArg_refused h]
    cases methodsArg a.methods <;> rfl

theorem runProfileWrite_refused {profile : Byte} {a : ProfileArgs} (h : 8 ≤ profile.toNat ∨ profileArg a = none)
    (s : State) : runProfileWrite profile a s = refuse .badArg s := by
  unfold runProfileWrite
  rcases h with h | h
  · rw [eightArg_refused h]
  · rw [h]
    cases eightArg profile <;> rfl

theorem runProfileWrite_written {profile : Byte} {f : Fin 8} (number : f.val = profile.toNat) {a : ProfileArgs}
    {p : Profile} (fields : profileArg a = some p) (s : State) :
    runProfileWrite profile a s = accept { s with profiles := s.profiles.set f p } := by
  rw [runProfileWrite, eightArg_of_val number, fields]

/-! ### Lists read entry by entry -/

section
variable {α β : Type} {f : α → Option β}

/-- A list is read when each of its entries is. -/
theorem isSome_mapM_iff : ∀ xs : List α, (xs.mapM f).isSome ↔ ∀ x ∈ xs, (f x).isSome
  | [] => by simp
  | x :: xs => by
    have later := isSome_mapM_iff xs
    rw [List.mapM_cons, List.forall_mem_cons, ← later]
    cases f x with
    | none => simp
    | some y => cases xs.mapM f <;> simp

/-- A list read entry by entry is written back from what was read. -/
theorem map_of_mapM {g : β → α} (back : ∀ {x y}, f x = some y → g y = x) :
    ∀ {xs : List α} {ys : List β}, xs.mapM f = some ys → ys.map g = xs
  | [], ys, h => by cases h; rfl
  | x :: xs, ys, h => by
    rw [List.mapM_cons] at h
    cases head : f x with
    | none => simp [head] at h
    | some y =>
      cases tail : xs.mapM f with
      | none => simp [head, tail] at h
      | some zs =>
        simp only [head, tail, Option.bind_eq_bind, Option.bind_some, Option.pure_def, Option.some.injEq] at h
        subst h
        rw [List.map_cons, back head, map_of_mapM back tail]

end

/-! ### The checks of the fields of a window (R100, R193) -/

theorem yesNoArg_eq (b : Byte) : yesNoArg b = if b.toNat ≤ 1 then some (decide (b = 1)) else none := by
  unfold yesNoArg
  by_cases yes : b = 1
  · subst yes; rfl
  · by_cases no : b = 0
    · subst no; rfl
    · have : ¬b.toNat ≤ 1 := by bv_omega
      rw [if_neg this]
      exact (if_neg yes).trans (if_neg no)

theorem classArg_of_val {b : Byte} {k : Fin 16} (h : k.val = b.toNat) : classArg b = some k := by
  unfold classArg
  rw [dif_pos (h ▸ k.isLt)]
  exact congrArg some (Fin.ext h.symm)

theorem classArg_refused {b : Byte} (h : 16 ≤ b.toNat) : classArg b = none := dif_neg (Nat.not_lt.mpr h)

theorem isSome_classArg_iff (b : Byte) : (classArg b).isSome ↔ b.toNat < 16 := by
  unfold classArg
  split <;> simp_all

theorem val_of_classArg {b : Byte} {k : Fin 16} (h : classArg b = some k) : k.val = b.toNat := by
  unfold classArg at h
  split at h
  · cases h; rfl
  · cases h

theorem byte_of_symbolArg {b : Byte} {x : Symbol} (h : symbolArg b = some x) : byte x.val = b := by
  rw [val_of_classArg h, byte, BitVec.ofNat_toNat, BitVec.setWidth_eq]

theorem isSome_positionArg_iff (b : Byte) : (positionArg b).isSome ↔ b.toNat ≤ 16 := by
  unfold positionArg
  split
  · simp only [Option.isSome_some, true_iff]
    omega
  · split <;> simp <;> omega

theorem code_of_positionArg {b : Byte} {y : Option Symbol} (h : positionArg b = some y) : positionCode y = b := by
  unfold positionArg at h
  split at h
  · cases h
    simp [positionCode, byte]
  · split at h
    · next any =>
      cases h
      exact (BitVec.eq_of_toNat_eq any).symm
    · cases h

section
variable {a : WindowArgs}

theorem isSome_patternArg_iff (a : WindowArgs) : (patternArg a).isSome ↔
    1 ≤ a.patternLen.toNat ∧ a.patternLen.toNat ≤ 8 ∧
      ∀ x ∈ a.positions.toList.take a.patternLen.toNat, x.toNat ≤ 16 := by
  simp only [← isSome_positionArg_iff, ← isSome_mapM_iff, ← and_assoc, ← within_iff, patternArg]
  cases within 1 8 a.patternLen.toNat <;> simp

theorem codes_of_patternArg {pattern : List (Option Symbol)} (h : patternArg a = some pattern) :
    pattern.map positionCode = a.positions.toList.take a.patternLen.toNat := by
  unfold patternArg at h
  split at h
  · exact map_of_mapM code_of_positionArg h
  · cases h

theorem ruleArg_eq (a : WindowArgs) : ruleArg a =
    if (a.rule = 0 ∧ a.patternLen.toNat ≤ a.n.toNat ∧ a.n.toNat ≤ 24) ∨ a.rule = 1 then
      some (if a.rule = 0 then .fixed a.n.toNat else .openEnd)
    else none := by
  simp only [ruleArg, within_iff, Config.maxDigits]
  by_cases fixed : a.rule = 0#8
  · simp [fixed]
  · simp [fixed]

/-- The symbols of the replacement that WINDOW_WRITE carries. -/
def replacingSymbols (a : WindowArgs) : List Byte := a.symbols.toList.take a.replLen.toNat

theorem isSome_replacementArg_iff (a : WindowArgs) : (replacementArg a).isSome ↔
    a.replPresent = 0 ∨ (a.replPresent = 1 ∧ a.replLen.toNat ≤ 8 ∧ ∀ x ∈ replacingSymbols a, x.toNat < 16) := by
  unfold replacementArg
  rw [yesNoArg]
  by_cases present : a.replPresent = 1#8
  · simp only [present, ← isSome_classArg_iff, ← isSome_mapM_iff]
    by_cases short : a.replLen.toNat ≤ 8 <;> simp [short, replacingSymbols]
    rfl
  · by_cases absent : a.replPresent = 0#8
    · simp [absent]
    · simp [present, absent]

theorem symbols_of_replacementArg {r : Option (List Symbol)} (h : replacementArg a = some r) :
    r.map (fun xs => xs.map fun x => byte x.val) = if a.replPresent = 1 then some (replacingSymbols a) else none := by
  unfold replacementArg at h
  rw [yesNoArg] at h
  by_cases present : a.replPresent = 1#8
  · simp only [if_pos present] at h
    split at h
    · obtain ⟨xs, read, rfl⟩ := Option.map_eq_some_iff.mp h
      exact (congrArg some (map_of_mapM byte_of_symbolArg read)).trans (if_pos present).symm
    · cases h
  · by_cases absent : a.replPresent = 0#8
    · simp [absent] at h
      simp [present, ← h]
    · simp [present, absent] at h

/-- WINDOW_WRITE's fields are admitted when each is (R100). -/
theorem isSome_windowArg_iff (a : WindowArgs) : (windowArg a).isSome ↔
    (yesNoArg a.enabled).isSome ∧ (patternArg a).isSome ∧ (ruleArg a).isSome ∧ (classArg a.cls).isSome ∧
      (yesNoArg a.urgent).isSome ∧ (replacementArg a).isSome := by
  unfold windowArg
  split
  · simp [*]
  · next none =>
    simp only [Option.isSome_none, Bool.false_eq_true, false_iff, Option.isSome_iff_exists]
    rintro ⟨⟨_, h₁⟩, ⟨_, h₂⟩, ⟨_, h₃⟩, ⟨_, h₄⟩, ⟨_, h₅⟩, ⟨_, h₆⟩⟩
    exact none _ _ _ _ _ _ h₁ h₂ h₃ h₄ h₅ h₆

theorem fields_of_windowArg {w : Window} (h : windowArg a = some w) :
    yesNoArg a.enabled = some w.enabled ∧ patternArg a = some w.pattern ∧ ruleArg a = some w.rule ∧
      classArg a.cls = some w.cls ∧ yesNoArg a.urgent = some w.urgent ∧ replacementArg a = some w.replacement := by
  unfold windowArg at h
  split at h
  · next enabled pattern rule cls urgent replacement =>
    cases h
    exact ⟨enabled, pattern, rule, cls, urgent, replacement⟩
  · cases h

end

theorem runWindowWrite_refused {code : Byte} {a : WindowArgs} (h : 8 ≤ code.toNat ∨ windowArg a = none) (s : State) :
    runWindowWrite (.window code a) s = refuse .badArg s := by
  unfold runWindowWrite
  dsimp only
  rcases h with h | h
  · rw [eightArg_refused h]
  · rw [h]
    cases eightArg code <;> rfl

theorem runWindowWrite_written {code : Byte} {i : Fin 8} (number : i.val = code.toNat) {a : WindowArgs} {w : Window}
    (fields : windowArg a = some w) (s : State) : runWindowWrite (.window code a) s =
      accept { s with windows := { s.windows with table := s.windows.table.set i w } } := by
  simp only [runWindowWrite, eightArg_of_val number, fields]

theorem runWindowWrite_default_written {cls : Byte} {k : Fin 16} (number : k.val = cls.toNat) (s : State) :
    runWindowWrite (.default cls) s = accept { s with windows := { s.windows with defaultClass := k } } := by
  simp only [runWindowWrite, classArg_of_val number]

theorem runWindowWrite_default_refused {cls : Byte} (h : 16 ≤ cls.toNat) (s : State) :
    runWindowWrite (.default cls) s = refuse .badArg s := by
  simp only [runWindowWrite, classArg_refused h]

theorem carried_windowDefault (cls : Byte) : (Request.windowWrite (.default cls)).Carried :=
  Request.carried _ nofun

theorem isSome_yesNoArg_iff (b : Byte) : (yesNoArg b).isSome ↔ b.toNat ≤ 1 := by
  rw [yesNoArg_eq]
  split <;> simp [*]

theorem yes_of_yesNoArg {b : Byte} {yes : Bool} (h : yesNoArg b = some yes) : yes = decide (b = 1) := by
  rw [yesNoArg_eq] at h
  split at h
  · exact (Option.some.inj h).symm
  · cases h

theorem isSome_ruleArg_iff (a : WindowArgs) : (ruleArg a).isSome ↔
    (a.rule = 0 ∧ a.patternLen.toNat ≤ a.n.toNat ∧ a.n.toNat ≤ 24) ∨ a.rule = 1 := by
  rw [ruleArg_eq, Option.isSome_ite]

theorem rule_of_ruleArg {a : WindowArgs} {rule : WindowRule} (h : ruleArg a = some rule) :
    rule = if a.rule = 0 then .fixed a.n.toNat else .openEnd := by
  rw [ruleArg_eq] at h
  split at h
  · exact (Option.some.inj h).symm
  · cases h

/-- Settles O47: the checks of a profile and of a window field by field, and the fields read back from what is
written. -/
theorem profilesAndWindowsAreWritten : Obligations.ProfilesAndWindowsAreWritten := by
  unfold Obligations.ProfilesAndWindowsAreWritten
  intro s tag ready
  refine ⟨fun profile a bad => ?profileRefused, fun profile a f p number fields methods mode => ?profile,
    fun cls high => ?defaultRefused, fun cls k number => ?defaultWritten, fun code a named => ?window⟩
  case profileRefused =>
    exact arriveRequest_refused ready (carried_profileWrite profile a)
      (runProfileWrite_refused (bad.imp_right profileArg_refused) s.heard)
  case profile =>
    intro legal
    have read : profileArg a = if p.ok then some p else none := by
      have same : p = ProfileArgs.toProfile a p.methods p.recordMode := fields
      rw [profileArg_of_codes (methodsArg_of_code methods) (recordModeArg_of_code mode), ← same]
    have ok : p.ok = true ↔ legal := p.ok_iff
    refine ⟨fun fit => ?_, fun unfit => ?_⟩
    · exact arriveRequest_accepted ready (carried_profileWrite profile a)
        (runProfileWrite_written number (read.trans (if_pos (ok.mpr fit))) s.heard)
    · exact arriveRequest_refused ready (carried_profileWrite profile a)
        (runProfileWrite_refused (.inr (read.trans (if_neg fun yes => unfit (ok.mp yes)))) s.heard)
  case defaultRefused =>
    exact arriveRequest_refused ready (carried_windowDefault cls) (runWindowWrite_default_refused high s.heard)
  case defaultWritten =>
    exact arriveRequest_accepted ready (carried_windowDefault cls) (runWindowWrite_default_written number s.heard)
  case window =>
    intro position k symbols legal
    have fit : legal ↔ code.toNat < 8 ∧ (windowArg a).isSome := by
      simp only [isSome_windowArg_iff, isSome_yesNoArg_iff, isSome_patternArg_iff, isSome_ruleArg_iff,
        isSome_classArg_iff, isSome_replacementArg_iff, and_assoc]
      exact Iff.rfl
    have carried := carried_window named a
    refine ⟨fun illegal => ?_, fun ok => ?_⟩
    · have bad : 8 ≤ code.toNat ∨ windowArg a = none := by
        rw [← Nat.not_lt, ← Option.not_isSome_iff_eq_none, ← not_and_or, ← fit]
        exact illegal
      exact arriveRequest_refused ready carried (runWindowWrite_refused bad s.heard)
    · obtain ⟨small, admitted⟩ := fit.mp ok
      obtain ⟨w, read⟩ := Option.isSome_iff_exists.mp admitted
      obtain ⟨enabled, pattern, rule, cls, urgent, replacement⟩ := fields_of_windowArg read
      refine ⟨⟨code.toNat, small⟩, w, rfl, yes_of_yesNoArg enabled, ?_, rule_of_ruleArg rule, val_of_classArg cls,
        yes_of_yesNoArg urgent, symbols_of_replacementArg replacement, ?_⟩
      · have same : position = positionCode := by
          funext y
          cases y <;> rfl
        rw [same]
        exact codes_of_patternArg pattern
      · exact arriveRequest_accepted ready carried (runWindowWrite_written rfl read s.heard)

end Sys2Proof.Machine
end

section
/-! SUPPORT. The eight queries: each answers DONE with its fields and changes nothing (R12, R15, R90, R101, R126, R147,
R170, R195). -/

namespace Sys2Proof.Machine

/-! ### A query is answered from the part as it stands -/

/-- A request that changes nothing and replies DONE with fields. -/
theorem arriveRequest_query {s : State} (h : s.ready) {r : Request} (carried : r.Carried) {tag : Byte}
    {fields payload : List Byte} (run : runRequest r tag s.heard = (s.heard, ⟨.done, fields⟩))
    (bytes : 0 :: fields = payload) :
    arriveRequest r tag s = .next (s.heard.answer (r.type + 0x80#8) tag payload) := by
  rw [arriveRequest_ready h r tag carried.decoded carried.isRequest carried.fits, run, ← bytes]
  rfl

section
variable {x : Byte} (s : State)

theorem runLineQuery_refused (h : 64 ≤ x.toNat) : runLineQuery x s = refuse .badArg s := by
  rw [runLineQuery, lineArg_refused h]

theorem runLineQuery_of_line {n : LineNo} (h : n.val = x.toNat) : runLineQuery x s = (s, ⟨.done, s.lineFields n⟩) := by
  rw [runLineQuery, lineArg_of_val h]

theorem runProfileRead_refused (h : 8 ≤ x.toNat) : runProfileRead x s = refuse .badArg s := by
  rw [runProfileRead, eightArg_refused h]

theorem byte_of_val {m : Nat} {i : Fin m} (h : i.val = x.toNat) : byte i.val = x := by
  rw [h, byte, BitVec.ofNat_toNat, BitVec.setWidth_eq]

theorem runProfileRead_of_profile {f : Fin 8} (h : f.val = x.toNat) :
    runProfileRead x s = (s, ⟨.done, x :: s.profiles[f].bytes⟩) := by
  simp only [runProfileRead, eightArg_of_val h, byte_of_val h]

theorem runWindowRead_refused (h : 8 < x.toNat) : runWindowRead x s = refuse .badArg s := by
  have other : x ≠ 8#8 := by
    rintro rfl
    simp at h
  rw [runWindowRead, eightArg_refused h.le]
  exact if_neg other

theorem runWindowRead_of_window {i : Fin 8} (h : i.val = x.toNat) :
    runWindowRead x s = (s, ⟨.done, x :: s.windows.table[i].bytes⟩) := by
  simp only [runWindowRead, eightArg_of_val h, byte_of_val h]

theorem runPairQuery_refused (h : 72 ≤ x.toNat) : runPairQuery x s = refuse .badArg s := by
  rw [runPairQuery, pairArg_refused h]

theorem runPairQuery_of_pair {p : PairNo} (h : p.val = x.toNat) : runPairQuery x s = (s, ⟨.done, s.pairFields p⟩) := by
  rw [runPairQuery, pairArg_of_val h]

end

/-! ### The forms of section 11.7 -/

theorem RunPhase.code_eq (p : RunPhase) : p.code = if p = .quiet then 0 else 1 := by
  cases p <;> rfl

theorem NoticeMode.code_eq (m : NoticeMode) : m.code = if m = .every then 0 else 1 := by
  cases m <;> rfl

/-- A digit on the wire: its symbol, and 16 more for TONE (R193). -/
theorem Digit.code_eq_tone (d : Digit) : d.code = byte (d.symbol.val + if d.method = .tone then 16 else 0) := by
  obtain ⟨symbol, method⟩ := d
  cases method <;> rfl

theorem timerBytes_eq (t : Option Time) : timerBytes t = match t with
    | some e => 1 :: bytes4 e.toNat
    | none => [0, 0, 0, 0, 0] := by
  cases t <;> rfl

theorem Line.returnBytes_eq (l : Line) : l.returnBytes = match l.state, l.returnState with
    | .opened, some .seized => [1, 4]
    | .opened, some .pulsing => [1, 5]
    | .opened, some .collecting => [1, 6]
    | .opened, some .held => [1, 7]
    | _, _ => [0, 0] := by
  unfold Line.returnBytes
  cases l.state with
  | opened => rcases l.returnState with _ | _ | _ | _ | _ <;> rfl
  | _ => rfl

theorem Line.learnedBytes_eq (l : Line) : optional 1 (l.learnedPeriod.map fun p => [byte p]) = match l.learning with
    | some (.done period) => [1, byte period]
    | _ => [0, 0] := by
  unfold Line.learnedPeriod
  rcases l.learning with _ | _ | _ <;> rfl

theorem Detector.length_bytes (x : Detector) : x.bytes.length = 8 := by
  obtain ⟨inService, _ | _⟩ := x <;> rfl

/-- The enabled lines of a pair, by number (R170). -/
theorem State.testedLines_eq (s : State) (p : PairNo) : s.testedLines p =
    ((List.finRange 64).filter fun n => decide ((s.line n).pair = p ∧ (s.line n).state ≠ .disabled)).map fun n =>
      [byte n.val, yesNo ((s.line n).wasFaulted.getD false)] := by
  refine congrArg (List.map _) (List.filter_congr fun n _ => ?_)
  rw [Line.enabled, Bool.decide_and]

theorem TestBus.wantedEntries_eq (b : TestBus) : b.wantedEntries =
    (List.finRange 72).filterMap fun p => match b.wanted[p] with
      | some k => some [byte p.val, k.code]
      | none => none := by
  refine congrArg (fun f => List.filterMap f (List.finRange 72)) (funext fun p => ?_)
  cases b.wanted[p] <;> rfl

/-- What TEST_QUERY says of the bus and of its queue. -/
def State.fixedTestFields (s : State) : List Byte :=
  s.occupantFields ++ (byte s.bus.queue.length :: s.bus.queue.flatMap s.entryFields)

/-- All fields of TEST_QUERY. -/
def State.testFields (s : State) : List Byte :=
  s.fixedTestFields ++ cutList (1 + s.fixedTestFields.length + s.bus.settings.bytes.length) 2 s.bus.wantedEntries ++
    s.bus.settings.bytes

theorem runTestQuery_heard (s : State) : runTestQuery s.heard = (s.heard, ⟨.done, s.testFields⟩) := rfl

/-- The eight entries of DETECTOR_QUERY take 64 bytes. -/
theorem State.length_detectorEntries (s : State) :
    ((List.finRange 8).flatMap fun d => (s.detector d).bytes).length = 64 := by
  simp [List.length_flatMap, Detector.length_bytes]

/-- Behind the 64 bytes of the detectors there is room for 36 entries of the queue (R194). -/
theorem cutList_queue (queue : List Waiter) (entry : Waiter → List Byte) {used : Nat} (h : used = 64) :
    cutList (1 + used) 5 (queue.map entry) = byte queue.length :: (queue.take 36).flatMap entry := by
  rw [h, cutList, List.length_map, ← List.map_take, List.flatMap_def]
  rfl

/-- Settles O49: each query reads the fields of its rule, in the forms of section 11.7. -/
theorem queriesChangeNothing : Obligations.QueriesChangeNothing := by
  unfold Obligations.QueriesChangeNothing
  intro s tag ready gives one yes two four timer cut eight kind asker verdict outcome settings
  have carried (r : Request) (named : ∀ code a, r = .windowWrite (.window code a) → code ≠ 8) : r.Carried :=
    r.carried named
  have time (t : Option Time) : timerBytes t = timer t := timerBytes_eq t
  have outcomeBytes (o : TestOutcome) : o.bytes = outcome o := by
    rcases o with (_ | _ | _) | (_ | _ | _) <;> rfl
  refine ⟨fun x high => ?lineRefused, fun x n number => ?line, fun x high => ?profileRefused,
    fun x f number => ?profile, ?detectors, fun x high => ?windowRefused, fun x i number => ?window, ?default,
    ?records, fun x high => ?pairRefused, fun x p number => ?pair, ?tests, ?identity⟩
  case lineRefused => exact arriveRequest_refused ready (carried (.lineQuery x) nofun) (runLineQuery_refused s.heard high)
  case line =>
    intro l state back stored pending detector digits learned
    refine arriveRequest_query ready (carried (.lineQuery x) nofun) (runLineQuery_of_line s.heard number) ?_
    have backBytes : l.returnBytes = back := l.returnBytes_eq
    have learnedBytes : optional 1 (l.learnedPeriod.map fun p => [byte p]) = learned := l.learnedBytes_eq
    have digitCodes : digits.map Digit.code = digits.map fun d => one (d.symbol.val + if d.method = .tone then 16 else 0) :=
      List.map_congr_left fun d _ => d.code_eq_tone
    have fields : s.lineFields n = [state] ++ back ++ [one l.pair.val, one l.profile.val] ++
        [yes l.permanentLoop, yes s.store.overrun[n], yes s.store.storeWait[n]] ++ [one stored, yes pending] ++ detector ++
        (one digits.length :: digits.map fun d => one (d.symbol.val + if d.method = .tone then 16 else 0)) ++ learned := by
      rw [← digitCodes, ← learnedBytes, ← backBytes]
      rfl
    refine (congrArg (List.cons 0) fields).trans ?_
    simp only [List.append_assoc, List.cons_append, List.nil_append]
  case profileRefused =>
    exact arriveRequest_refused ready (carried (.profileRead x) nofun) (runProfileRead_refused s.heard high)
  case profile =>
    intro p methods mode
    refine arriveRequest_query ready (carried (.profileRead x) nofun) (runProfileRead_of_profile s.heard number) ?_
    rfl
  case detectors =>
    intro detector
    refine arriveRequest_query ready (carried .detectorQuery nofun) rfl ?_
    have queue := cutList_queue s.pool.queue (fun w => byte w.line.val :: bytes4 w.queuedTime.toNat)
      s.length_detectorEntries
    exact congrArg (fun q => 0 :: (((List.finRange 8).flatMap fun d => (s.detector d).bytes) ++ q)) queue
  case windowRefused =>
    exact arriveRequest_refused ready (carried (.windowRead x) nofun) (runWindowRead_refused s.heard high)
  case window =>
    intro w position rule replacement
    refine arriveRequest_query ready (carried (.windowRead x) nofun) (runWindowRead_of_window s.heard number) ?_
    have fields : w.bytes = [yes w.enabled, one w.pattern.length] ++ eight (w.pattern.map position) ++
        rule ++ [one w.cls.val, yes w.urgent] ++ replacement := rfl
    refine congrArg (fun b => 0 :: x :: b) fields
  case default => exact arriveRequest_query ready (carried (.windowRead 8) nofun) rfl rfl
  case records =>
    intro summary ofRank entries
    refine arriveRequest_query ready (carried .recordList nofun) rfl ?_
    have used : 1 + (byte entries.length :: entries.flatten).length = 2 + entries.flatten.length := by
      rw [List.length_cons]
      omega
    have pending : cutList (1 + (byte entries.length :: entries.flatten).length) 7 (s.store.waiting.map DialRecord.summary) =
        cut (2 + entries.flatten.length) 7 (s.store.waiting.map summary) := by
      rw [used]
      rfl
    exact congrArg (fun q => 0 :: one entries.length :: entries.flatten ++ q) pending
  case pairRefused => exact arriveRequest_refused ready (carried (.pairQuery x) nofun) (runPairQuery_refused s.heard high)
  case pair =>
    intro r b w state last
    refine arriveRequest_query ready (carried (.pairQuery x) nofun) (runPairQuery_of_pair s.heard number) ?_
    have lastBytes : optional 8 (r.last.map LastTest.bytes) = last := by
      simp only [last]
      cases r.last with
      | none => rfl
      | some t =>
        rw [Option.map_some, LastTest.bytes, TestOrigin.code_eq, outcomeBytes]
        rfl
    have modeCode : w.mode.code = if w.mode = .every then 0 else 1 := w.mode.code_eq
    have fields : s.pairFields p = [one r.foreign, one r.leak, state, yes r.senseLost] ++ timer r.sustainTimer ++
        timer r.guardTimer ++ last ++ [one s.watch.limits[p].foreignV, one s.watch.limits[p].leakMa] ++
        [yes (w.watched.getLsbD p.val)] ++ [one (p.val / 8), one b.count, yes b.hold] ++ timer b.holdTimer ++
        [one w.suspectScore] ++ two w.sustainMs ++ [one w.binderK] ++ four w.holdMs ++
        [if w.mode = .every then 0 else 1] ++ four w.guardMs := by
      rw [← lastBytes, ← modeCode, ← time, ← time, ← time]
      rfl
    refine (congrArg (List.cons 0) fields).trans ?_
    simp only [List.append_assoc, List.cons_append, List.nil_append]
  case tests =>
    intro lines last occupant queue wanted
    refine arriveRequest_query ready (carried .testQuery nofun) (runTestQuery_heard s) ?_
    have tested (p : PairNo) : s.testedLines p = lines p := s.testedLines_eq p
    have measured (m : Option Measured) : optional 7 (m.map Measured.bytes) = last m := by
      cases m <;> rfl
    have run : s.occupantFields = occupant := by
      simp only [occupant]
      rw [State.occupantFields]
      cases s.bus.run with
      | none => rfl
      | some r =>
        dsimp only
        rw [State.runFields, tested, measured, RunPhase.code_eq]
        simp only [List.append_assoc, List.cons_append, List.nil_append]
        rfl
    have wants : s.bus.wantedEntries = wanted := s.bus.wantedEntries_eq
    have entry (e : TestEntry) : s.entryFields e = [one e.pair.val, kind e.kind] ++ asker e.asker ++ [yes (s.eligible e)] := rfl
    have queued : byte s.bus.queue.length :: s.bus.queue.flatMap s.entryFields = queue :=
      congrArg (fun f => byte s.bus.queue.length :: s.bus.queue.flatMap f) (funext entry)
    have fixed : s.fixedTestFields = occupant ++ queue := congrArg₂ List.append run queued
    rw [State.testFields, fixed, wants]
    rfl
  case identity => exact arriveRequest_query ready (carried .identify nofun) rfl rfl

end Sys2Proof.Machine
end

section
/-! SUPPORT. LINE_MAP, LINE_SWAP and LINE_RESET: their checks in order and their effects (R6, R9, R10, R11, R34). -/

namespace Sys2Proof.Machine

/-! ### The checks of LINE_MAP and LINE_SWAP (R9, R10) -/

theorem LineState.mappable_iff {st : LineState} : st.mappable = true ↔ st = .disabled ∨ st = .idle ∨ st = .faulted := by
  cases st <;> simp [LineState.mappable]

theorem Line.enabled_iff {l : Line} : l.enabled = true ↔ l.state ≠ .disabled := decide_eq_true_iff

theorem State.enabledOther_iff {s : State} {p : PairNo} {a b : LineNo} : s.enabledOther p a b = true ↔
    ∃ m, m ≠ a ∧ m ≠ b ∧ (s.line m).pair = p ∧ (s.line m).state ≠ .disabled := by
  simp [State.enabledOther, allLines, Line.enabled, and_assoc]

theorem State.swapConflict_iff {s : State} {a b : LineNo} : s.swapConflict a b = true ↔
    ((s.line a).state ≠ .disabled ∧ s.enabledOther (s.line b).pair a b = true) ∨
      ((s.line b).state ≠ .disabled ∧ s.enabledOther (s.line a).pair a b = true) := by
  simp only [State.swapConflict, Bool.or_eq_true, Bool.and_eq_true, Line.enabled_iff]

section
variable {line pair profile lineA lineB : Byte} {n a b : LineNo} {p : PairNo} {f : Fin 8} {s : State}

theorem runLineMap_refused (h : 64 ≤ line.toNat ∨ 72 ≤ pair.toNat ∨ 8 ≤ profile.toNat) (s : State) :
    runLineMap line pair profile s = refuse .badArg s := by
  unfold runLineMap
  rcases h with h | h | h
  · rw [lineArg_refused h]
  · rw [pairArg_refused h]
    cases lineArg line <;> rfl
  · rw [eightArg_refused h]
    cases lineArg line <;> cases pairArg pair <;> rfl

/-- LINE_MAP with its arguments in range: three checks in order, then the change (R9). -/
theorem runLineMap_of_args (hn : n.val = line.toNat) (hp : p.val = pair.toNat) (hf : f.val = profile.toNat) (s : State) :
    runLineMap line pair profile s =
      if ¬(s.line n).state.mappable = true then refuse .badState s
      else if s.enabledOther p n n = true then refuse .conflict s
      else if s.onBus p = true ∨ s.onBus (s.line n).pair = true then refuse .inTest s
      else accept (s.mapLine n p f) := by
  rw [runLineMap, lineArg_of_val hn, pairArg_of_val hp, eightArg_of_val hf]
  simp only [Bool.not_eq_true', Bool.not_eq_true, Bool.or_eq_true]

theorem runLineSwap_refused (h : 64 ≤ lineA.toNat ∨ 64 ≤ lineB.toNat ∨ lineA = lineB) (s : State) :
    runLineSwap lineA lineB s = refuse .badArg s := by
  unfold runLineSwap
  rcases h with h | h | rfl
  · rw [lineArg_refused h]
  · rw [lineArg_refused h]
    cases lineArg lineA <;> rfl
  · cases lineArg lineA with
    | none => rfl
    | some a => exact if_pos rfl

/-- LINE_SWAP of two lines: three checks in order, then the change (R10). -/
theorem runLineSwap_of_args (ha : a.val = lineA.toNat) (hb : b.val = lineB.toNat) (two : a ≠ b) (s : State) :
    runLineSwap lineA lineB s =
      if ¬((s.line a).state.mappable = true ∧ (s.line b).state.mappable = true) then refuse .badState s
      else if s.swapConflict a b = true then refuse .conflict s
      else if s.onBus (s.line a).pair = true ∨ s.onBus (s.line b).pair = true then refuse .inTest s
      else accept (s.swapLines a b) := by
  rw [runLineSwap, lineArg_of_val ha, lineArg_of_val hb]
  simp only [if_neg two, Bool.not_eq_true', ← Bool.not_eq_true, Bool.and_eq_true, Bool.or_eq_true]

theorem runLineReset_refused (h : 64 ≤ line.toNat) (s : State) : runLineReset line s = refuse .badArg s := by
  rw [runLineReset, lineArg_refused h]

theorem runLineReset_of_line (h : n.val = line.toNat) (s : State) :
    runLineReset line s = accept (s.resetLine n).look := by
  rw [runLineReset, lineArg_of_val h]

end

/-! ### The changes -/

theorem State.scanRec_rescope (before s : State) (q : PairNo) : (before.rescope s).scanRec q =
    if before.served q = s.served q then s.scanRec q else (s.scanRec q).restart := by
  simp [State.rescope, State.scanRec]

/-- A change of served lines leaves all but the scan records. -/
theorem State.rescope_eq (before s : State) :
    ∃ recs, before.rescope s = { s with scan := { s.scan with recs := recs } } := ⟨_, rfl⟩

theorem State.line_rescope (before s : State) (n : LineNo) : (before.rescope s).line n = s.line n := by
  obtain ⟨recs, same⟩ := before.rescope_eq s
  rw [same]
  rfl

/-- What a request leaves of the scan records of the pairs whose served line it changed (R34). -/
theorem State.rescope_frame (before s : State) (x : Vector ScanRec 72) (h : s.scan.recs = x) :
    { before.rescope s with scan := { (before.rescope s).scan with recs := x } } = s := by
  obtain ⟨recs, same⟩ := before.rescope_eq s
  rw [same, ← h]

theorem State.settleIfEnabled_eq (s : State) (n : LineNo) :
    s.settleIfEnabled n = if (s.line n).state = .disabled then s else s.enterSettling n := by
  unfold State.settleIfEnabled
  by_cases off : (s.line n).state = .disabled
  · rw [if_pos off, if_neg (mt Line.enabled_iff.mp (not_not.mpr off))]
  · rw [if_neg off, if_pos (Line.enabled_iff.mpr off)]

theorem State.line_settleIfEnabled_ne (s : State) {n m : LineNo} (other : n ≠ m) :
    (s.settleIfEnabled n).line m = s.line m := by
  unfold State.settleIfEnabled
  split
  · exact s.line_enterSettling_ne other
  · rfl

theorem State.mapLine_eq (s : State) (n : LineNo) (p : PairNo) (f : Fin 8) (v : State)
    (moved : v = s.rescope (s.setLine n { s.line n with pair := p, profile := f })) :
    s.mapLine n p f = (if (s.line n).state = .disabled then v else v.enterSettling n).look := by
  have state : (v.line n).state = (s.line n).state := by
    rw [moved, State.line_rescope, State.line_setLine_self]
  rw [← state, ← State.settleIfEnabled_eq, moved]
  rfl

theorem State.swapLines_eq (s : State) {a b : LineNo} (two : a ≠ b) (v : State) (moved : v = s.rescope
      ((s.setLine a { s.line a with pair := (s.line b).pair }).setLine b { s.line b with pair := (s.line a).pair })) :
    s.swapLines a b = (let w := if (s.line a).state = .disabled then v else v.enterSettling a
      if (s.line b).state = .disabled then w else w.enterSettling b).look := by
  have stateA : (v.line a).state = (s.line a).state := by
    rw [moved, State.line_rescope, State.line_setLine_ne _ _ two.symm, State.line_setLine_self]
  have stateB : (v.line b).state = (s.line b).state := by
    rw [moved, State.line_rescope, State.line_setLine_self]
  have stateB' : ((v.settleIfEnabled a).line b).state = (s.line b).state := by
    rw [State.line_settleIfEnabled_ne v two, stateB]
  dsimp only
  rw [← stateA, ← State.settleIfEnabled_eq, ← stateB', ← State.settleIfEnabled_eq, State.swapLines, State.modLine_eq,
    State.modLine_eq, State.line_setLine_ne _ _ two, ← moved]

theorem State.line_dropPending (s : State) (n m : LineNo) : (s.dropPending n).line m = s.line m := rfl

/-- LINE_RESET: the line's call, detector, pending record and store flags go, and an enabled line settles or stays
with the test (R11). -/
theorem State.resetLine_eq (s : State) (n : LineNo) (v : State)
    (cleared : v = ((s.modLine n .clearCall).dropDetector n).dropPending n) : s.resetLine n =
      if (s.line n).state = .disabled then v
      else if s.onBus (s.line n).pair then v.setLine n { v.line n with state := .underTest } else v.enterSettling n := by
  have same := samePool_dropDetector (s.modLine n .clearCall) n
  have state : (v.line n).state = (s.line n).state := by
    rw [cleared, State.line_dropPending, State.state_dropDetector, State.line_modLine_self]
    rfl
  have pair : (v.line n).pair = (s.line n).pair := by
    obtain ⟨binding, f, line⟩ := (s.modLine n .clearCall).line_dropDetector n n
    rw [cleared, State.line_dropPending, line, State.line_modLine_self]
    rfl
  have bus : v.onBus (v.line n).pair = s.onBus (s.line n).pair := by
    rw [pair, cleared]
    unfold State.onBus
    rw [show (((s.modLine n .clearCall).dropDetector n).dropPending n).bus = s.bus from same.bus]
  unfold State.resetLine
  rw [← cleared, ← bus, ← state]
  dsimp only
  cases (v.line n).state <;> rfl

theorem State.dropPending_of_store {s u : State} (n : LineNo) (same : u.store = s.store) :
    u.dropPending n = { u with store := { s.store with
      waiting := s.store.waiting.filter fun r => decide (r.line ≠ n)
      storeWait := s.store.storeWait.set n false
      overrun := s.store.overrun.set n false } } := by
  rw [State.dropPending, same]
  rfl

/-- Settles O46: the checks are taken in order; the moved lines' pairs start again; the reset line's call goes. -/
theorem linesAreMappedSwappedAndReset : Obligations.LinesAreMappedSwappedAndReset := by
  unfold Obligations.LinesAreMappedSwappedAndReset
  intro s tag ready mappable enabled restarted rescoped settled
  have carried (r : Request) (named : ∀ code a, r = .windowWrite (.window code a) → code ≠ 8) : r.Carried :=
    r.carried named
  have isMappable (n : LineNo) : (s.line n).state.mappable = true ↔ mappable n := LineState.mappable_iff
  refine ⟨fun line pair profile bad => ?mapRefused, fun line pair profile n p f hn hp hf => ?map,
    fun lineA lineB bad => ?swapRefused, fun lineA lineB a b ha hb two => ?swap, fun line bad => ?resetRefused,
    fun line n hn => ?reset⟩
  case mapRefused =>
    exact arriveRequest_refused ready (carried (.lineMap line pair profile) nofun) (runLineMap_refused bad s.heard)
  case map =>
    intro reply shared busy
    have carry := carried (.lineMap line pair profile) nofun
    have run := runLineMap_of_args hn hp hf s.heard
    have isShared : s.enabledOther p n n = true ↔ shared :=
      State.enabledOther_iff.trans ⟨fun ⟨m, h, _, k⟩ => ⟨m, h, k⟩, fun ⟨m, h, k⟩ => ⟨m, h, h, k⟩⟩
    have answers {st : Status} (h : runLineMap line pair profile s.heard = refuse st s.heard) : reply st.code :=
      arriveRequest_answered ready carry h
    refine ⟨fun unfit => ?_, fun fit other => ?_, fun fit alone bus => ?_, fun fit alone free => ?_⟩
    · exact answers (run.trans (if_pos (mt (isMappable n).mp unfit)))
    · exact answers (run.trans ((if_neg (not_not.mpr ((isMappable n).mpr fit))).trans (if_pos (isShared.mpr other))))
    · exact answers (run.trans ((if_neg (not_not.mpr ((isMappable n).mpr fit))).trans
        ((if_neg (mt isShared.mp alone)).trans (if_pos bus))))
    · let moved := s.heard.setLine n { s.line n with pair := p, profile := f }
      refine ⟨s.heard.rescope moved, ⟨fun q => State.scanRec_rescope s.heard moved q,
        State.rescope_frame s.heard moved _ rfl⟩, arriveRequest_accepted ready carry
        (run.trans ((if_neg (not_not.mpr ((isMappable n).mpr fit))).trans
          ((if_neg (mt isShared.mp alone)).trans ((if_neg free).trans ?_))))⟩
      exact congrArg accept (s.heard.mapLine_eq n p f _ rfl)
  case swapRefused =>
    exact arriveRequest_refused ready (carried (.lineSwap lineA lineB) nofun) (runLineSwap_refused bad s.heard)
  case swap =>
    intro reply pa pb third shared busy fit
    have carry := carried (.lineSwap lineA lineB) nofun
    have run := runLineSwap_of_args ha hb two s.heard
    have fits : ((s.line a).state.mappable = true ∧ (s.line b).state.mappable = true) ↔ fit :=
      and_congr (isMappable a) (isMappable b)
    have isShared : s.swapConflict a b = true ↔ shared := by
      rw [State.swapConflict_iff, State.enabledOther_iff, State.enabledOther_iff]
    have answers {st : Status} (h : runLineSwap lineA lineB s.heard = refuse st s.heard) : reply st.code :=
      arriveRequest_answered ready carry h
    refine ⟨fun unfit => ?_, fun isFit other => ?_, fun isFit alone bus => ?_, fun isFit alone free => ?_⟩
    · exact answers (run.trans (if_pos (mt fits.mp unfit)))
    · exact answers (run.trans ((if_neg (not_not.mpr (fits.mpr isFit))).trans (if_pos (isShared.mpr other))))
    · exact answers (run.trans ((if_neg (not_not.mpr (fits.mpr isFit))).trans
        ((if_neg (mt isShared.mp alone)).trans (if_pos bus))))
    · let moved := (s.heard.setLine a { s.line a with pair := pb }).setLine b { s.line b with pair := pa }
      refine ⟨s.heard.rescope moved, ⟨fun q => State.scanRec_rescope s.heard moved q,
        State.rescope_frame s.heard moved _ rfl⟩, arriveRequest_accepted ready carry
        (run.trans ((if_neg (not_not.mpr (fits.mpr isFit))).trans
          ((if_neg (mt isShared.mp alone)).trans ((if_neg free).trans ?_))))⟩
      exact congrArg accept (s.heard.swapLines_eq two _ rfl)
  case resetRefused =>
    exact arriveRequest_refused ready (carried (.lineReset line) nofun) (runLineReset_refused bad s.heard)
  case reset =>
    intro l u v t
    have cleared : v = ((s.heard.modLine n .clearCall).dropDetector n).dropPending n :=
      (State.dropPending_of_store n (samePool_dropDetector (s.heard.modLine n .clearCall) n).store).symm
    refine arriveRequest_accepted ready (carried (.lineReset line) nofun) ((runLineReset_of_line hn s.heard).trans ?_)
    exact congrArg (fun w => accept w.look) (s.heard.resetLine_eq n v cleared)

end Sys2Proof.Machine
end

section
/-! SUPPORT. LINE_ENABLE and LINE_DISABLE: each line's own turn, and the part behind all turns (R5, R7, R8, R34). -/

namespace Sys2Proof.Machine

/-! ### One line is enabled (R5, R7) -/

/-- A disabled line as LINE_ENABLE leaves it: with the test on a pair on the bus; otherwise in SETTLING, which a
settle time of 0 ends at once on a pair without a loop class. -/
def Line.enabledAs (l : Line) (onBus faulted : Bool) (ms : Nat) (now : Time) : Line :=
  if onBus then { l with state := .underTest, wasFaulted := some false }
  else if ms ≠ 0 then l.settling now ms
  else { l.settling now 0 with state := if faulted then .faulted else .idle, settleTimer := none }

/-- The line that LINE_ENABLE makes of a disabled one. -/
def State.enabledLine (s : State) (n : LineNo) : Line :=
  let p := (s.line n).pair
  (s.line n).enabledAs (s.onBus p) (s.fault p).faulted (s.liveProfile n).settleMs s.now

section
variable {s : State} {n : LineNo}

theorem State.enterSettling_of_noLoop (open_ : (s.scanRec (s.line n).pair).loopClass = none)
    (off : s.onBus (s.line n).pair = false) : s.enterSettling n = s.setLine n (s.enabledLine n) := by
  unfold State.enabledLine Line.enabledAs
  dsimp only
  rw [off, if_neg Bool.false_ne_true]
  by_cases timed : (s.liveProfile n).settleMs ≠ 0
  · rw [if_pos timed, State.enterSettling_of_timed timed]
  · have zero := not_not.mp timed
    rw [if_neg timed]
    cases faulted : (s.fault (s.line n).pair).faulted with
    | true => exact State.enterSettling_of_zero_faulted zero faulted
    | false => exact State.enterSettling_of_zero_open zero faulted (by rw [open_]; exact nofun)

theorem State.enableLine_of_disabled (off : (s.line n).state = .disabled) : s.enableLine n =
    (s.setScanRec (s.line n).pair (s.scanRec (s.line n).pair).restart).setLine n (s.enabledLine n) := by
  have disabled : ¬(s.line n).enabled = true := mt Line.enabled_iff.mp (not_not.mpr off)
  rw [State.enableLine, if_neg disabled]
  generalize restarted : s.setScanRec (s.line n).pair (s.scanRec (s.line n).pair).restart = t
  have same : t.enabledLine n = s.enabledLine n := by subst restarted; rfl
  have line : t.line n = s.line n := by subst restarted; rfl
  have noLoop : (t.scanRec (t.line n).pair).loopClass = none := by
    subst restarted
    rw [line, State.scanRec_setScanRec_self]
    rfl
  dsimp only
  rw [restarted, ← line, ← same]
  cases bus : t.onBus (t.line n).pair with
  | true =>
    rw [if_pos rfl, State.modLine_eq, State.enabledLine, Line.enabledAs, bus]
    rfl
  | false => exact State.enterSettling_of_noLoop noLoop bus

theorem State.enableLine_of_enabled (on : (s.line n).state ≠ .disabled) : s.enableLine n = s :=
  if_pos (Line.enabled_iff.mpr on)

end

/-! ### All lines of the set (R7; log 10) -/

/-- LINE_ENABLE acts on the line: it is of the set and disabled. -/
def State.Enables (s : State) (lines : BitVec 64) (n : LineNo) : Prop :=
  lines.getLsbD n.val = true ∧ (s.line n).state = .disabled


/-- A line's turn in LINE_ENABLE. -/
def State.enableTurn (lines : BitVec 64) (s : State) (n : LineNo) : State :=
  if lines.getLsbD n.val then s.enableLine n else s

theorem State.enableTurn_of_enables {s : State} {lines : BitVec 64} {n : LineNo} (h : s.Enables lines n) :
    s.enableTurn lines n = (s.setScanRec (s.line n).pair (s.scanRec (s.line n).pair).restart).setLine n (s.enabledLine n) :=
  (if_pos h.1).trans (State.enableLine_of_disabled h.2)

theorem State.enableTurn_of_not {s : State} {lines : BitVec 64} {n : LineNo} (h : ¬s.Enables lines n) :
    s.enableTurn lines n = s := by
  unfold State.enableTurn
  split
  · next chosen => exact State.enableLine_of_enabled fun off => h ⟨chosen, off⟩
  · rfl

open Classical in
/-- The part `t` behind the turns of some lines, from `s` before them: each of these lines is as its own turn leaves it,
each of their pairs starts again, and nothing else has changed. -/
structure Enabled (lines : BitVec 64) (s : State) (ns : List LineNo) (t : State) : Prop where
  frame : { t with lines := s.lines, scan := { t.scan with recs := s.scan.recs } } = s
  line : ∀ m, t.line m = if m ∈ ns ∧ s.Enables lines m then s.enabledLine m else s.line m
  scanRec : ∀ p, t.scanRec p =
    if ∃ m ∈ ns, s.Enables lines m ∧ (s.line m).pair = p then (s.scanRec p).restart else s.scanRec p

section
variable {lines : BitVec 64} {s t : State} {ns : List LineNo} {n : LineNo}

theorem Enabled.enabledLine (h : Enabled lines s ns t) (same : t.line n = s.line n) :
    t.enabledLine n = s.enabledLine n := by
  have bus : t.bus = s.bus := by rw [← h.frame]
  have watch : t.watch = s.watch := by rw [← h.frame]
  have profiles : t.profiles = s.profiles := by rw [← h.frame]
  have now : t.now = s.now := by rw [← h.frame]
  simp only [State.enabledLine, State.liveProfile, State.onBus, State.fault, same, bus, watch, profiles, now]

theorem Enabled.turn (h : Enabled lines s ns t) (fresh : n ∉ ns) : Enabled lines s (ns ++ [n]) (t.enableTurn lines n) := by
  have same : t.line n = s.line n := by rw [h.line, if_neg fun k => fresh k.1]
  have enables : t.Enables lines n ↔ s.Enables lines n := by simp only [State.Enables, same]
  by_cases acts : s.Enables lines n
  · rw [State.enableTurn_of_enables (enables.mpr acts), h.enabledLine same, same]
    refine ⟨h.frame, fun m => ?_, fun p => ?_⟩
    · by_cases own : m = n
      · subst own
        rw [State.line_setLine_self, if_pos ⟨by simp, acts⟩]
      · rw [State.line_setLine_ne _ _ (Ne.symm own), State.line_setScanRec, h.line]
        congr 1
        simp [own]
    · rw [State.scanRec_setLine]
      by_cases own : (s.line n).pair = p
      · subst own
        rw [State.scanRec_setScanRec_self, if_pos ⟨n, by simp, acts, rfl⟩, h.scanRec]
        split <;> rfl
      · rw [State.scanRec_setScanRec_ne _ _ own, h.scanRec]
        congr 1
        simp [or_and_right, exists_or, own]
  · rw [State.enableTurn_of_not (mt enables.mp acts)]
    refine ⟨h.frame, fun m => ?_, fun p => ?_⟩
    · rw [h.line]
      congr 1
      simp only [List.mem_append, List.mem_singleton, or_and_right, eq_iff_iff]
      exact ⟨.inl, fun k => k.resolve_right fun ⟨own, k⟩ => acts (own ▸ k)⟩
    · rw [h.scanRec]
      congr 1
      simp [or_and_right, exists_or, acts]

theorem enabled_foldl (s : State) (lines : BitVec 64) (ns : List LineNo) (once : ns.Nodup) :
    Enabled lines s ns (ns.foldl (State.enableTurn lines) s) := by
  induction ns using List.reverseRecOn with
  | nil => exact ⟨rfl, fun m => by simp, fun p => by simp⟩
  | append_singleton ns n ih =>
    obtain ⟨before, -, apart⟩ := List.nodup_append.mp once
    rw [List.foldl_append]
    exact (ih before).turn fun mem => apart n mem n (by simp) rfl

end

theorem State.enableConflict_iff {s : State} {lines : BitVec 64} : s.enableConflict lines = true ↔
    ∃ n m : LineNo, n ≠ m ∧ lines.getLsbD n.val = true ∧ (s.line n).state = .disabled ∧
      (s.line m).pair = (s.line n).pair ∧ (¬(s.line m).state = .disabled ∨ lines.getLsbD m.val = true) := by
  simp only [State.enableConflict, allLines, List.any_eq_true, List.mem_finRange, true_and, Bool.and_eq_true,
    Bool.not_eq_true', Bool.or_eq_true, decide_eq_true_eq, Line.enabled, decide_eq_false_iff_not, not_not]
  constructor
  · rintro ⟨n, ⟨chosen, off⟩, m, ⟨other, pair⟩, at_⟩
    exact ⟨n, m, other.symm, chosen, off, pair, at_⟩
  · rintro ⟨n, m, other, chosen, off, pair, at_⟩
    exact ⟨n, ⟨chosen, off⟩, m, ⟨other.symm, pair⟩, at_⟩

/-! ### One line is disabled (R8) -/

theorem State.disableLine_of_disabled {s : State} {n : LineNo} (off : (s.line n).state = .disabled) :
    s.disableLine n = s :=
  if_neg (mt Line.enabled_iff.mp (not_not.mpr off))

/-- What is left to do when the store and the scan records are as they were. -/
theorem State.clearFlags_of_same {s v : State} (store : v.store = s.store) (scan : v.scan = s.scan) (n : LineNo)
    (p : PairNo) : (v.setOverrun n false).setScanRec p ((v.setOverrun n false).scanRec p).restart =
      { v with
        store := { s.store with overrun := s.store.overrun.set n false }
        scan := { s.scan with recs := s.scan.recs.set p (s.scanRec p).restart } } := by
  unfold State.setScanRec State.setOverrun State.scanRec
  dsimp only
  rw [store, scan]

theorem State.disableLine_of_enabled {s : State} {n : LineNo} (on : (s.line n).state ≠ .disabled) (v : State)
    (cleared : v = ((s.modLine n .clearCall).dropDetector n).modLine n fun l =>
      { l with state := .disabled, wasFaulted := none }) : s.disableLine n =
      { v with
        store := { s.store with overrun := s.store.overrun.set n false }
        scan := { s.scan with recs := s.scan.recs.set (s.line n).pair (s.scanRec (s.line n).pair).restart } } := by
  have same := samePool_dropDetector (s.modLine n .clearCall) n
  have store : v.store = s.store := by rw [cleared]; exact same.store
  have scan : v.scan = s.scan := by rw [cleared]; exact same.scan
  rw [State.disableLine, if_pos (Line.enabled_iff.mpr on)]
  dsimp only
  rw [← cleared]
  exact State.clearFlags_of_same store scan n _

/-! ### The two requests -/

theorem runLineEnable_refused {lines : BitVec 64} {s : State} (h : s.enableConflict lines = true) :
    runLineEnable lines s = refuse .conflict s := if_pos h

theorem runLineEnable_accepted {lines : BitVec 64} {s : State} (h : ¬s.enableConflict lines = true) :
    runLineEnable lines s = accept (allLines.foldl (State.enableTurn lines) s).look := if_neg h

theorem runLineDisable_eq (lines : BitVec 64) (s : State) : runLineDisable lines s =
    accept ((allLines.filter fun n => lines.getLsbD n.val).foldl State.disableLine s).look := by
  rw [List.foldl_filter]
  rfl

/-- Settles O45: no line's turn in LINE_ENABLE touches another line, and none answers to its pair's loop class, which
starts again before it settles. -/
theorem linesAreEnabledAndDisabled : Obligations.LinesAreEnabledAndDisabled := by
  unfold Obligations.LinesAreEnabledAndDisabled
  intro s tag lines ready chosen off restarted conflict
  have isConflict : s.heard.enableConflict lines = true ↔ conflict := State.enableConflict_iff
  refine ⟨fun refused => ?refused, fun fits => ?enabled, ?disabled, fun n isOff => State.disableLine_of_disabled isOff,
    fun n on => ?disabledLine⟩
  case refused =>
    exact arriveRequest_answered ready (carried_lineEnable lines) (runLineEnable_refused (isConflict.mpr refused))
  case enabled =>
    have all := enabled_foldl s.heard lines allLines (List.nodup_finRange 64)
    refine ⟨_, arriveRequest_accepted ready (carried_lineEnable lines)
      (runLineEnable_accepted (mt isConflict.mp fits)), fun n untouched => ?_, fun n isChosen isOff => ?_,
      fun p ⟨n, isChosen, isOff, pair⟩ => ?_, fun p none => ?_, all.frame⟩
    · exact (all.line n).trans (if_neg fun h => untouched h.2)
    · intro l f faulted ms settled
      have line := (all.line n).trans (if_pos ⟨List.mem_finRange n, isChosen, isOff⟩)
      have made : s.heard.enabledLine n = l.enabledAs (s.onBus l.pair) f.faulted ms s.now := rfl
      rw [made] at line
      refine ⟨fun bus => line.trans ?_, fun bus timed => line.trans ?_, fun bus zero isFaulted => line.trans ?_,
        fun bus zero sound => line.trans ?_⟩
      · rw [bus]
        rfl
      · rw [bus]
        exact if_pos timed
      · rw [bus, zero, f.faulted_iff.mpr isFaulted]
        rfl
      · rw [bus, zero, Bool.eq_false_iff.mpr (mt f.faulted_iff.mp sound)]
        rfl
    · exact (all.scanRec p).trans (if_pos ⟨n, List.mem_finRange n, ⟨isChosen, isOff⟩, pair⟩)
    · exact (all.scanRec p).trans (if_neg fun ⟨n, _, ⟨isChosen, isOff⟩, pair⟩ => none n isChosen isOff pair)
  case disabled =>
    exact arriveRequest_accepted ready (carried_lineDisable lines) (runLineDisable_eq lines s.heard)
  case disabledLine =>
    intro l u v
    exact State.disableLine_of_enabled on v rfl

end Sys2Proof.Machine
end
